-- ==== Sys2Proof/Word.lean ====
section
/-! DEFINITION. The machine's word: a 64-bit doubleword, and the byte. -/

namespace Sys2Proof

/-- A doubleword (spec/00_scope.md R9, R10): 64 bits, arithmetic modulo 2^64. -/
abbrev Word := BitVec 64

/-- One byte of memory. -/
abbrev Byte := BitVec 8

end Sys2Proof
end

