-- ==== Sys2Proof/Config.lean ====
section
/-! DEFINITION. The instance parameters of the block (spec/00_scope.md R8). They are fixed for the life of an
instance; the state carries them, so a statement over all states is a statement over all instances. -/

namespace Sys2Proof

/-- DC_FMT (R8): the device-context format. -/
inductive DcFmt where
  | base  -- 32-byte device contexts
  | ext   -- 64-byte device contexts
  deriving DecidableEq, Repr

/-- DDTP_RESET_MODE (R8): `ddtp.iommu_mode` after the IOMMU's reset. -/
inductive ResetMode where
  | off
  | bare
  deriving DecidableEq, Repr

/-- The instance parameters, each under its name in R8. -/
structure Config where
  /-- IOMMU_BASE -/
  iommuBase : Word
  /-- DC_FMT -/
  dcFmt : DcFmt
  /-- DID_W -/
  didW : Nat
  /-- POOL_BASE -/
  poolBase : Word
  /-- POOL_PAGES -/
  poolPages : Nat
  /-- DDT_BASE -/
  ddtBase : Word
  /-- DDT_PAGES -/
  ddtPages : Nat
  /-- MSI_BASE -/
  msiBase : Word
  /-- MSI_PAGES -/
  msiPages : Nat
  /-- CQ_LOG2N_MAX -/
  cqLog2nMax : Nat
  /-- FQ_LOG2N_MAX -/
  fqLog2nMax : Nat
  /-- CQ_FULL_CHECK -/
  cqFullCheck : Bool
  /-- POLL_BOUND: none is unbounded (R12) -/
  pollBound : Option Nat
  /-- ENABLE_RESETS_INDEX -/
  enableResetsIndex : Bool
  /-- DDTP_RESET_MODE -/
  ddtpResetMode : ResetMode
  /-- FCTL_WSI -/
  fctlWsi : Bool
  /-- Bit `m` is set iff the IOMMU supports iommu_mode `m` (spec/10_state.md R39: WARL). The model's own
  parameter (DEDUCED, log 6). -/
  iommuModes : BitVec 16
  deriving DecidableEq, Repr

/-- The example instance of spec/95_test_vectors.md section 0.1 (log 5). -/
def Config.example : Config where
  iommuBase := 0x10000000
  dcFmt := .ext
  didW := 24
  poolBase := 0x80100000
  poolPages := 16
  ddtBase := 0x80080000
  ddtPages := 8
  msiBase := 0x80300000
  msiPages := 1
  cqLog2nMax := 10
  fqLog2nMax := 10
  cqFullCheck := true
  pollBound := none
  enableResetsIndex := false
  ddtpResetMode := .off
  fctlWsi := false
  iommuModes := 0x1F

end Sys2Proof
end

