-- ==== Sys2Proof/Syntax.lean ====
section
/-! DEFINITION. The instructions: one constructor for every row of spec/opcode_table.json. A request operation
carries the FN and FL fields its row uses and the argument words its row names (spec/30_encoding.md R124); an IOMMU
command carries its fields (R146 to R148). -/

namespace Sys2Proof

/-- The five words a host writes to the request port (spec/10_state.md R31). -/
structure Request where
  op : Word
  a0 : Word
  a1 : Word
  a2 : Word
  a3 : Word
  deriving DecidableEq, Repr

/-- A translation stage: FN[0] of PT.MAP and PT.LOOKUP (spec/30_encoding.md R124). -/
inductive Stage where
  | s1  -- Sv39, IOVA to GPA
  | s2  -- Sv39x4, GPA to PA
  deriving DecidableEq, Repr

inductive Instr where
  -- codec (spec/41_codec.md)
  | pteLeaf (fl : BitVec 7) (a0 : Word)
  | pteNonleaf (a0 : Word)
  | pteDecode (a0 : Word)
  -- builder (spec/42_builder.md)
  | ptInit
  | ptMap (st : Stage) (g : BitVec 2) (fl : BitVec 7) (a0 a1 a2 : Word)
  | ptLookup (st : Stage) (a0 : Word)
  -- MSI remap table (spec/43_msi.md)
  | msiInit
  | msiSetBasic (c : Bool) (a0 a1 : Word)
  | msiSetMrif (c : Bool) (a0 a1 a2 a3 : Word)
  | msiIndex (a0 : Word)
  | msiMrifLoc (a0 a1 : Word)
  -- device directory (spec/44_ddt.md)
  | ddtConfig (dtf : Bool) (a0 a1 a2 a3 : Word)
  | ddtRebuild (lv : BitVec 2) (a0 a1 : Word)
  | ddtSetS1Mode (m : BitVec 4)
  | ddtSetS2Mode (m : BitVec 4)
  | ddtSetMsiMode (m : BitVec 4)
  | ddtSetMode (m : BitVec 4)
  | ddtLocate (a0 : Word)
  -- command encoders (spec/45_cmdq.md section 1)
  | cmdIodirDdt (dv : Bool) (a0 : Word)
  | cmdIotinvalVma (av gv pscv : Bool) (a0 a1 a2 : Word)
  | cmdIotinvalGvma (av gv : Bool) (a0 a1 : Word)
  | cmdIofenceC (av wsi : Bool) (a0 a1 : Word)
  -- command-queue producer (spec/45_cmdq.md section 2)
  | cqInit (n : BitVec 6) (cie : Bool) (a0 : Word)
  | cqSubmit (a0 a1 : Word)
  | cqWait
  | cqStatus
  | cqClear
  | cqDisable
  | cqSync (a0 a1 : Word)
  -- fault-queue consumer (spec/46_faultq.md)
  | fqInit (n : BitVec 6) (fie : Bool) (a0 : Word)
  | fqTryRead
  | fqStatus
  | fqClear
  | fqDisable
  | fqrDecode (a0 a1 a2 a3 : Word)
  -- the fence (spec/48_fence.md)
  | fence
  -- IOMMU commands (spec/30_encoding.md R145 to R148)
  | iotinvalVma (av pscv gv : Bool) (pscid : BitVec 20) (gscid : BitVec 16) (addr : BitVec 52)
  | iotinvalGvma (av gv : Bool) (gscid : BitVec 16) (addr : BitVec 52)
  | iofenceC (av wsi pr pw : Bool) (data : BitVec 32) (addr : BitVec 62)
  | iodirInvalDdt (dv : Bool) (did : BitVec 24)
  deriving DecidableEq, Repr

end Sys2Proof
end

