-- ==== Sys2Proof/Machine/Flags.lean ====
section
/-! DEFINITION. Status codes, the flag byte of a page-table entry, the classification of an entry, and the
write-1-to-clear rule of the queue status registers. -/

namespace Sys2Proof.Machine

/-- The status codes of RES.status (spec/60_exceptions.md R500). -/
inductive Status where
  | ok | none | errIllegalReq | errAlign | errRange | errConflict | errPool | errState | errTimeout | errFlags
  | errMode | errQueue
  deriving DecidableEq, Repr

/-- The 8-bit code of a status (R500). -/
def Status.code : Status → BitVec 8
  | .ok => 0x00
  | .none => 0x01
  | .errIllegalReq => 0x10
  | .errAlign => 0x11
  | .errRange => 0x12
  | .errConflict => 0x13
  | .errPool => 0x14
  | .errState => 0x15
  | .errTimeout => 0x16
  | .errFlags => 0x17
  | .errMode => 0x18
  | .errQueue => 0x19

/-- `flags8(fl)` (spec/41_codec.md R200): FL bits 0..6 at entry bits 1..7, with V = 1. -/
def flags8 (fl : BitVec 7) : Word := (fl.setWidth 64 <<< 1) ||| 1

/-- `legal_leaf(fl)` (R201): at least one of R, W, X, and not W without R. -/
def legalLeaf (fl : BitVec 7) : Bool :=
  fl.extractLsb' 0 3 != 0 && !(fl.getLsbD 1 && !fl.getLsbD 0)

/-- The kinds of page-table entry (R204). -/
inductive EntryKind where
  | invalid | nonleaf | leaf | reserved
  deriving DecidableEq, Repr

/-- The result code PTE.DECODE gives a kind (R204). -/
def EntryKind.code : EntryKind → Word
  | .invalid => 0
  | .nonleaf => 1
  | .leaf => 2
  | .reserved => 3

/-- `kind(pte)` (R204), test by test. -/
def kind (e : Word) : EntryKind :=
  if !e.getLsbD 0 then .invalid
  else if e.extractLsb' 54 10 != 0 then .reserved
  else if e.extractLsb' 1 3 == 0 && (e.extractLsb' 6 2 != 0 || e.getLsbD 4) then .reserved
  else if e.extractLsb' 1 3 == 0 then .nonleaf
  else if e.getLsbD 2 && !e.getLsbD 1 then .reserved
  else .leaf

/-- The RW1C bits of cqcsr: cqmf, cmd_to, cmd_ill, fence_w_ip (spec/10_state.md R42). -/
def cqSticky : BitVec 32 := 0xF00

/-- The RW1C bits of fqcsr: fqmf, fqof (R43). -/
def fqSticky : BitVec 32 := 0x300

/-- A write of `v` to a queue status register that holds `old`: bits 1:0 are written, a sticky bit written 1 is
cleared, every other bit is kept (R42, R43). -/
def csrWrite (sticky old v : BitVec 32) : BitVec 32 :=
  (old &&& ~~~(0x3 ||| (v &&& sticky))) ||| (v &&& 0x3)

/-- `cq_err(c)` (spec/45_cmdq.md R347): cqmf, cmd_to or cmd_ill. -/
def cqErr (c : BitVec 32) : Bool := c.getLsbD 8 || c.getLsbD 9 || c.getLsbD 10

/-- fqmf or fqof: while either is 1 the IOMMU discards records (spec/46_faultq.md R395). -/
def fqErr (c : BitVec 32) : Bool := c.getLsbD 8 || c.getLsbD 9

/-- `c` with bit `i` set to `b`. -/
def setBit (c : BitVec 32) (i : Nat) (b : Bool) : BitVec 32 :=
  if b then c ||| BitVec.twoPow 32 i else c &&& ~~~BitVec.twoPow 32 i

/-- A Boolean as a result word. -/
def bit (b : Bool) : Word := if b then 1 else 0

end Sys2Proof.Machine
end

