-- ==== Sys2Proof/Machine/Operands.lean ====
section
/-! DEFINITION. Operand assembly: the frame fields, pointer fields and address slices of spec/30_encoding.md R125 to
R142 and R165 to R167, the range and alignment tests every operation shares, the MSI match and index, and the
directory's geometry. -/

namespace Sys2Proof.Machine

/-- PA_W = 56 (spec/00_scope.md R7): the first address past physical memory. -/
def paLimit : Nat := 2 ^ 56

/-- `a` is a multiple of `2^n`. -/
def aligned (n : Nat) (a : Word) : Bool := a.toNat % 2 ^ n == 0

/-- `a < 2^n`: the unused high bits of an argument are 0 (R122). -/
def fits (n : Nat) (a : Word) : Bool := a.toNat < 2 ^ n

/-- PPN_FIELD (R125). -/
def ppnFieldMask : Word := 0x003FFFFFFFFFFC00

/-- `ppn_field(pa)` (R165): the one place of the shift by 2. -/
def ppnField (pa : Word) : Word := (pa >>> 2) &&& ppnFieldMask

/-- `field_pa(e)` (R166). -/
def fieldPa (e : Word) : Word := (e &&& ppnFieldMask) <<< 2

/-- `ptr_ppn(pa)` (R166): the page number at bits 43:0 of a device-context pointer. -/
def ptrPpn (pa : Word) : Word := pa >>> 12

/-- `ptr_pa(d)` (R166). -/
def ptrPa (d : Word) : Word := (d &&& 0xFFFFFFFFFFF) <<< 12

/-- The MRIF address field (R142, R167). -/
def mrifField (m : Word) : Word := (m >>> 2) &&& 0x003FFFFFFFFFFF80

/-- The address of an MRIF entry's MRIF (R142: bits 53:7 hold address bits 55:9). -/
def mrifPa (d0 : Word) : Word := (d0 &&& 0x003FFFFFFFFFFF80) <<< 2

/-- The IOTINVAL address field (R146, R167). -/
def tlbAddrField (a : Word) : Word := ((a >>> 12) <<< 10) &&& 0x3FFFFFFFFFFFFC00

/-- The IOFENCE.C address field (R147, R167). -/
def fenceAddrField (a : Word) : Word := a &&& ~~~3

/-- A queue slot's address (R167): `base | (index << s)`. -/
def slotAddr (base i : Word) (s : Nat) : Word := base ||| (i <<< s)

/-- `leaf_pte(pa, fl)` (spec/41_codec.md R200). -/
def leafPte (pa : Word) (fl : BitVec 7) : Word := ppnField pa ||| flags8 fl

/-- `nonleaf_pte(pa)` (R200). -/
def nonleafPte (pa : Word) : Word := ppnField pa ||| 1

/-- The granule size in bytes of granule code `g` (R128). -/
def granule (g : BitVec 2) : Nat := 4096 * 2 ^ (9 * g.toNat)

/-- The level of a leaf of granule code `g`: 2 - g (spec/42_builder.md R224). -/
def leafLevel (g : BitVec 2) : Nat := 2 - g.toNat

/-- The bytes an entry of level `l` covers (R128): 1 GiB, 2 MiB, 4 KiB for levels 0, 1, 2. -/
def levelSize (l : Nat) : Nat := 4096 * 2 ^ (9 * (2 - l))

/-- `idx(s, l, x)` (R224, R127). -/
def idx (st : Stage) (l : Nat) (x : Word) : Nat :=
  match l, st with
  | 0, .s1 => (x.extractLsb' 30 9).toNat
  | 0, .s2 => (x.extractLsb' 30 11).toNat
  | 1, _ => (x.extractLsb' 21 9).toNat
  | _, _ => (x.extractLsb' 12 9).toNat

/-- `slot(T, s, l, x)` (R224). -/
def slot (t : Nat) (st : Stage) (l : Nat) (x : Word) : Nat := t + 8 * idx st l x

/-- `sext_39(x[38:0]) = x` (spec/00_scope.md R10): a canonical Sv39 address. -/
def canonical39 (x : Word) : Bool := (x.setWidth 39).signExtend 64 == x

/-- The address a LEAF at level `l` translates `x` to (R232, R236): the frame with the offset inside the granule. -/
def leafTarget (e x : Word) (l : Nat) : Word :=
  let m : Word := BitVec.ofNat 64 (levelSize l - 1)
  (fieldPa e &&& ~~~m) ||| (x &&& m)

/-- `extract(v, m)` (spec/00_scope.md R13) over the low `n` bits: bit `j` of the result is the bit of `v` at the
`j`-th set bit of `m`. -/
def gather : Nat → Nat → Nat → Nat
  | 0, _, _ => 0
  | n + 1, v, m => if m % 2 == 1 then v % 2 + 2 * gather n (v / 2) (m / 2) else gather n (v / 2) (m / 2)

/-- The guest page number GPA[63:12], 52 bits. -/
def guestPage (x : Word) : BitVec 52 := x.extractLsb' 12 52

/-- `msi_match(x, m, p)` (spec/43_msi.md R268). -/
def msiMatch (x : Word) (m p : BitVec 52) : Bool := ((guestPage x ^^^ p) &&& ~~~m) == 0

/-- `msi_index(x, m)` (R268). -/
def msiIndex (x : Word) (m : BitVec 52) : Nat := gather 52 (guestPage x).toNat m.toNat

/-- MSI_ENTRIES (R260). -/
def msiEntries (c : Config) : Nat := 256 * c.msiPages

/-- `msi_entry(i)` (R260). -/
def msiEntry (c : Config) (i : Nat) : Nat := c.msiBase.toNat + 16 * i

/-- DC_BYTES (spec/00_scope.md R7). -/
def dcBytes : DcFmt → Nat
  | .base => 32
  | .ext => 64

/-- `b0` (spec/44_ddt.md R290): the width of DDI0. -/
def ddi0Bits : DcFmt → Nat
  | .base => 7
  | .ext => 6

/-- The last column of spec/30_encoding.md R131: id bits of `l` levels. -/
def idBits (f : DcFmt) (l : Nat) : Nat :=
  match f, l with
  | _, 0 => 0
  | .base, 1 => 7
  | .base, 2 => 16
  | .base, _ => 24
  | .ext, 1 => 6
  | .ext, 2 => 15
  | .ext, _ => 24

/-- `lim_bits(L)` (R290). -/
def limBits (c : Config) (l : Nat) : Nat := min c.didW (idBits c.dcFmt l)

/-- `ddi(d, j)` (R291). -/
def ddi (f : DcFmt) (d j : Nat) : Nat :=
  match j with
  | 0 => d % 2 ^ ddi0Bits f
  | 1 => d / 2 ^ ddi0Bits f % 512
  | _ => d / 2 ^ (ddi0Bits f + 9) % 2 ^ (15 - ddi0Bits f)

/-- `need(L)` (R294): the pages a rebuild takes besides the root. -/
def needPages (f : DcFmt) (l lo hi : Nat) : Nat :=
  let leaves := hi / 2 ^ ddi0Bits f - lo / 2 ^ ddi0Bits f + 1
  let mids := hi / 2 ^ (ddi0Bits f + 9) - lo / 2 ^ (ddi0Bits f + 9) + 1
  match l with
  | 2 => leaves
  | 3 => mids + leaves
  | _ => 0

/-- `[a, a + n)` and `[b, b + m)` have a byte in common. -/
def overlaps (a n b m : Nat) : Bool := a < b + m && b < a + n && 0 < n && 0 < m

end Sys2Proof.Machine
end

