-- ==== Sys2Proof/WellFormed.lean ====
section
/-! DEFINITION. Well-formed instructions: the checks on operands that every instance of the block makes (no
parameter and no state enters them). A request that fails one of these is refused by the block with a status; a
command that fails one is no command of spec/30_encoding.md. -/

namespace Sys2Proof

open Sys2Proof.Machine

/-- A page-aligned physical address: `a[11:0] = 0` and `a < 2^56`. -/
def pageAddr (a : Word) : Bool := aligned 12 a && fits 56 a

/-- PT.MAP's alignment and range checks (spec/42_builder.md R223, R225), on unbounded integers. -/
def mapOperands (st : Stage) (g : BitVec 2) (a0 a1 a2 : Word) : Bool :=
  let v := a0.toNat
  let len := a2.toNat * granule g
  v % granule g == 0 && a1.toNat % granule g == 0 && 1 ≤ a2.toNat && a1.toNat + len ≤ 2 ^ 56 &&
    (match st with
     | .s1 => v + len ≤ 2 ^ 38 || (2 ^ 64 - 2 ^ 38 ≤ v && v + len ≤ 2 ^ 64)
     | .s2 => v + len ≤ 2 ^ 41)

/-- The operand checks of each instruction's rule that hold for every instance and every state. -/
def Instr.wellFormed : Instr → Bool
  | .pteLeaf fl a0 => pageAddr a0 && legalLeaf fl
  | .pteNonleaf a0 => pageAddr a0
  | .pteDecode _ => true
  | .ptInit => true
  | .ptMap st g fl a0 a1 a2 => g != 3 && mapOperands st g a0 a1 a2 && legalLeaf fl
  | .ptLookup .s1 a0 => canonical39 a0
  | .ptLookup .s2 a0 => fits 41 a0
  | .msiInit => true
  | .msiSetBasic _ a0 a1 => a0.toNat < 256 * 256 && pageAddr a1
  | .msiSetMrif _ a0 a1 a2 a3 => a0.toNat < 256 * 256 && aligned 9 a1 && fits 56 a1 && pageAddr a2 && fits 11 a3
  | .msiIndex _ => true
  | .msiMrifLoc a0 a1 => aligned 9 a0 && fits 56 a0 && a1.toNat < 2048
  | .ddtConfig _ a0 a1 a2 a3 => fits 16 a0 && fits 20 a1 && fits 52 a2 && fits 52 a3
  | .ddtRebuild lv a0 a1 => lv != 0 && a0.toNat ≤ a1.toNat && fits 24 a1
  | .ddtSetS1Mode m => m == 0 || m == 8
  | .ddtSetS2Mode m => m == 0 || m == 8
  | .ddtSetMsiMode m => m == 0 || m == 1
  | .ddtSetMode m => m.toNat ≤ 4
  | .ddtLocate a0 => fits 24 a0
  | .cmdIodirDdt dv a0 => !dv || fits 24 a0
  | .cmdIotinvalVma av gv pscv a0 a1 a2 => (!av || aligned 12 a0) && (!gv || fits 16 a1) && (!pscv || fits 20 a2)
  | .cmdIotinvalGvma av gv a0 a1 => (!av || aligned 12 a0) && (!gv || fits 16 a1)
  | .cmdIofenceC av _ a0 a1 => !av || (aligned 2 a0 && fits 56 a0 && fits 32 a1)
  | .cqInit n _ a0 => 1 ≤ n.toNat && n.toNat ≤ 32 && a0.toNat % max 4096 (16 * 2 ^ n.toNat) == 0 &&
      a0.toNat + 16 * 2 ^ n.toNat ≤ 2 ^ 56
  | .cqSubmit _ _ => true
  | .cqWait => true
  | .cqStatus => true
  | .cqClear => true
  | .cqDisable => true
  | .cqSync a0 a1 => aligned 3 a0 && fits 56 a0 && a1 != 0 && fits 32 a1
  | .fqInit n _ a0 => 1 ≤ n.toNat && n.toNat ≤ 32 && a0.toNat % max 4096 (32 * 2 ^ n.toNat) == 0 &&
      a0.toNat + 32 * 2 ^ n.toNat ≤ 2 ^ 56
  | .fqTryRead => true
  | .fqStatus => true
  | .fqClear => true
  | .fqDisable => true
  | .fqrDecode _ _ _ _ => true
  | .fence => true
  | .iotinvalVma _ _ _ _ _ _ => true
  | .iotinvalGvma _ _ _ _ => true
  | .iofenceC _ _ _ _ _ _ => true
  | .iodirInvalDdt _ _ => true

end Sys2Proof
end

