-- ==== Sys2Proof/Decode.lean ====
section
/-! DEFINITION. The decoder and, after it, the encoder: requests (spec/30_encoding.md R121, R124, R170) and IOMMU
commands (R145 to R148, R172). Both are total; a word that is no instruction is rejected by name. -/

namespace Sys2Proof

/-- Why a request or a command decodes to no instruction. -/
inductive Reject where
  | badLength        -- neither the five words of a request nor the two of a command
  | reservedOp       -- REQ.op[63:24] is not 0 (R170)
  | unassignedOpc    -- an OPC that is not in R124
  | unusedFn         -- an FN bit the row does not use is 1 (R170)
  | unusedFl         -- an FL bit the row does not use is 1 (R170)
  | unknownCommand   -- a command opcode or func3 the IOMMU does not implement (R172)
  | reservedField    -- a reserved field of a command is not 0 (R172)
  | gvmaPscv         -- IOTINVAL.GVMA with PSCV = 1 (R172)
  deriving DecidableEq, Repr

/-- OPC, bits 7:0 of REQ.op (R121). -/
def opcOf (op : Word) : BitVec 8 := op.extractLsb' 0 8
/-- FN, bits 15:8 of REQ.op (R121). -/
def fnOf (op : Word) : BitVec 8 := op.extractLsb' 8 8
/-- FL, bits 23:16 of REQ.op (R121). -/
def flOf (op : Word) : BitVec 8 := op.extractLsb' 16 8

/-- FN[0] as a stage (R124: 0 S1, 1 S2). -/
def stageOf (fn : BitVec 8) : Stage := if fn.getLsbD 0 then .s2 else .s1

/-- Accept `i` unless a bit of FN outside `fnUsed` or a bit of FL outside `flUsed` is 1 (R121, R170). -/
def ifUnusedZero (fnUsed flUsed fn fl : BitVec 8) (i : Instr) : Except Reject Instr :=
  if fn &&& ~~~fnUsed ≠ 0 then .error .unusedFn
  else if fl &&& ~~~flUsed ≠ 0 then .error .unusedFl
  else .ok i

/-- The operation map (R124). -/
def decodeRequest (r : Request) : Except Reject Instr :=
  if r.op.extractLsb' 24 40 ≠ 0 then .error .reservedOp
  else
    let fn := fnOf r.op
    let fl := flOf r.op
    let plain (i : Instr) := ifUnusedZero 0 0 fn fl i
    match (opcOf r.op).toNat with
    | 0x01 => ifUnusedZero 0 0x7F fn fl (.pteLeaf (fl.setWidth 7) r.a0)
    | 0x02 => plain (.pteNonleaf r.a0)
    | 0x03 => plain (.pteDecode r.a0)
    | 0x10 => plain .ptInit
    | 0x11 => ifUnusedZero 0x07 0x7F fn fl (.ptMap (stageOf fn) (fn.extractLsb' 1 2) (fl.setWidth 7) r.a0 r.a1 r.a2)
    | 0x12 => ifUnusedZero 0x01 0 fn fl (.ptLookup (stageOf fn) r.a0)
    | 0x20 => plain .msiInit
    | 0x21 => ifUnusedZero 0 0x01 fn fl (.msiSetBasic (fl.getLsbD 0) r.a0 r.a1)
    | 0x22 => ifUnusedZero 0 0x01 fn fl (.msiSetMrif (fl.getLsbD 0) r.a0 r.a1 r.a2 r.a3)
    | 0x23 => plain (.msiIndex r.a0)
    | 0x24 => plain (.msiMrifLoc r.a0 r.a1)
    | 0x30 => ifUnusedZero 0 0x01 fn fl (.ddtConfig (fl.getLsbD 0) r.a0 r.a1 r.a2 r.a3)
    | 0x31 => ifUnusedZero 0x03 0 fn fl (.ddtRebuild (fn.setWidth 2) r.a0 r.a1)
    | 0x32 => ifUnusedZero 0x0F 0 fn fl (.ddtSetS1Mode (fn.setWidth 4))
    | 0x33 => ifUnusedZero 0x0F 0 fn fl (.ddtSetS2Mode (fn.setWidth 4))
    | 0x34 => ifUnusedZero 0x0F 0 fn fl (.ddtSetMsiMode (fn.setWidth 4))
    | 0x35 => ifUnusedZero 0x0F 0 fn fl (.ddtSetMode (fn.setWidth 4))
    | 0x36 => plain (.ddtLocate r.a0)
    | 0x40 => ifUnusedZero 0 0x01 fn fl (.cmdIodirDdt (fl.getLsbD 0) r.a0)
    | 0x41 => ifUnusedZero 0 0x07 fn fl
        (.cmdIotinvalVma (fl.getLsbD 0) (fl.getLsbD 1) (fl.getLsbD 2) r.a0 r.a1 r.a2)
    | 0x42 => ifUnusedZero 0 0x03 fn fl (.cmdIotinvalGvma (fl.getLsbD 0) (fl.getLsbD 1) r.a0 r.a1)
    | 0x43 => ifUnusedZero 0 0x03 fn fl (.cmdIofenceC (fl.getLsbD 0) (fl.getLsbD 1) r.a0 r.a1)
    | 0x48 => ifUnusedZero 0x3F 0x01 fn fl (.cqInit (fn.setWidth 6) (fl.getLsbD 0) r.a0)
    | 0x49 => plain (.cqSubmit r.a0 r.a1)
    | 0x4A => plain .cqWait
    | 0x4B => plain .cqStatus
    | 0x4C => plain .cqClear
    | 0x4D => plain .cqDisable
    | 0x4E => plain (.cqSync r.a0 r.a1)
    | 0x50 => ifUnusedZero 0x3F 0x01 fn fl (.fqInit (fn.setWidth 6) (fl.getLsbD 0) r.a0)
    | 0x51 => plain .fqTryRead
    | 0x52 => plain .fqStatus
    | 0x53 => plain .fqClear
    | 0x54 => plain .fqDisable
    | 0x55 => plain (.fqrDecode r.a0 r.a1 r.a2 r.a3)
    | 0x60 => plain .fence
    | _ => .error .unassignedOpc

/-- Accept `i` unless a bit of the reserved masks is 1 in the command (R172). -/
def ifReservedZero (m0 m1 d0 d1 : Word) (i : Instr) : Except Reject Instr :=
  if d0 &&& m0 ≠ 0 ∨ d1 &&& m1 ≠ 0 then .error .reservedField else .ok i

/-- A command's two doublewords (R145 to R148, R172). PSCID of IOTINVAL.GVMA counts as reserved (R146: "PSCV must be
0 and PSCID 0"); PID of IODIR.INVAL_DDT is unused, not reserved (DEDUCED, log 20). -/
def decodeCommand (d0 d1 : Word) : Except Reject Instr :=
  match (d0.extractLsb' 0 7).toNat, (d0.extractLsb' 7 3).toNat with
  | 1, 0 => ifReservedZero 0xF0000FFC00000800 0xC0000000000003FF d0 d1
      (.iotinvalVma (d0.getLsbD 10) (d0.getLsbD 32) (d0.getLsbD 33) (d0.extractLsb' 12 20) (d0.extractLsb' 44 16)
        (d1.extractLsb' 10 52))
  | 1, 1 => if d0.getLsbD 32 then .error .gvmaPscv
      else ifReservedZero 0xF0000FFCFFFFF800 0xC0000000000003FF d0 d1
        (.iotinvalGvma (d0.getLsbD 10) (d0.getLsbD 33) (d0.extractLsb' 44 16) (d1.extractLsb' 10 52))
  | 2, 0 => ifReservedZero 0x00000000FFFFC000 0x3 d0 d1
      (.iofenceC (d0.getLsbD 10) (d0.getLsbD 11) (d0.getLsbD 12) (d0.getLsbD 13) (d0.extractLsb' 32 32)
        (d1.extractLsb' 2 62))
  | 3, 0 => ifReservedZero 0x000000FD00000C00 0xFFFFFFFFFFFFFFFF d0 d1
      (.iodirInvalDdt (d0.getLsbD 33) (d0.extractLsb' 40 24))
  | _, _ => .error .unknownCommand

/-- The decoder: five words are a request (R173), two are a command, nothing else is an instruction. -/
def decode : List Word → Except Reject Instr
  | [op, a0, a1, a2, a3] => decodeRequest ⟨op, a0, a1, a2, a3⟩
  | [d0, d1] => decodeCommand d0 d1
  | _ => .error .badLength

/-! The encoder, from the same tables. -/

/-- REQ.op of an operation code, FN and FL (R121). -/
def opWord (opc fn fl : BitVec 8) : Word := (0#40 ++ fl) ++ (fn ++ opc)

/-- A flag at bit `i` of FL. -/
def flag (b : Bool) (i : Nat) : BitVec 8 := if b then BitVec.twoPow 8 i else 0

/-- FN[0] of a stage. -/
def stageBit : Stage → BitVec 8
  | .s1 => 0
  | .s2 => 1

/-- A flag at bit `i` of a command's doubleword. -/
def wordBit (b : Bool) (i : Nat) : Word := if b then BitVec.twoPow 64 i else 0

/-- A field at bit `i` of a command's doubleword. -/
def wordField {n : Nat} (v : BitVec n) (i : Nat) : Word := v.setWidth 64 <<< i

/-- The words of an instruction (R124; R145 to R148); an argument word the row does not name is 0. -/
def encode : Instr → List Word
  | .pteLeaf fl a0 => [opWord 0x01 0 (fl.setWidth 8), a0, 0, 0, 0]
  | .pteNonleaf a0 => [opWord 0x02 0 0, a0, 0, 0, 0]
  | .pteDecode a0 => [opWord 0x03 0 0, a0, 0, 0, 0]
  | .ptInit => [opWord 0x10 0 0, 0, 0, 0, 0]
  | .ptMap st g fl a0 a1 a2 => [opWord 0x11 (stageBit st ||| (g.setWidth 8 <<< 1)) (fl.setWidth 8), a0, a1, a2, 0]
  | .ptLookup st a0 => [opWord 0x12 (stageBit st) 0, a0, 0, 0, 0]
  | .msiInit => [opWord 0x20 0 0, 0, 0, 0, 0]
  | .msiSetBasic c a0 a1 => [opWord 0x21 0 (flag c 0), a0, a1, 0, 0]
  | .msiSetMrif c a0 a1 a2 a3 => [opWord 0x22 0 (flag c 0), a0, a1, a2, a3]
  | .msiIndex a0 => [opWord 0x23 0 0, a0, 0, 0, 0]
  | .msiMrifLoc a0 a1 => [opWord 0x24 0 0, a0, a1, 0, 0]
  | .ddtConfig dtf a0 a1 a2 a3 => [opWord 0x30 0 (flag dtf 0), a0, a1, a2, a3]
  | .ddtRebuild lv a0 a1 => [opWord 0x31 (lv.setWidth 8) 0, a0, a1, 0, 0]
  | .ddtSetS1Mode m => [opWord 0x32 (m.setWidth 8) 0, 0, 0, 0, 0]
  | .ddtSetS2Mode m => [opWord 0x33 (m.setWidth 8) 0, 0, 0, 0, 0]
  | .ddtSetMsiMode m => [opWord 0x34 (m.setWidth 8) 0, 0, 0, 0, 0]
  | .ddtSetMode m => [opWord 0x35 (m.setWidth 8) 0, 0, 0, 0, 0]
  | .ddtLocate a0 => [opWord 0x36 0 0, a0, 0, 0, 0]
  | .cmdIodirDdt dv a0 => [opWord 0x40 0 (flag dv 0), a0, 0, 0, 0]
  | .cmdIotinvalVma av gv pscv a0 a1 a2 => [opWord 0x41 0 (flag av 0 ||| flag gv 1 ||| flag pscv 2), a0, a1, a2, 0]
  | .cmdIotinvalGvma av gv a0 a1 => [opWord 0x42 0 (flag av 0 ||| flag gv 1), a0, a1, 0, 0]
  | .cmdIofenceC av wsi a0 a1 => [opWord 0x43 0 (flag av 0 ||| flag wsi 1), a0, a1, 0, 0]
  | .cqInit n cie a0 => [opWord 0x48 (n.setWidth 8) (flag cie 0), a0, 0, 0, 0]
  | .cqSubmit a0 a1 => [opWord 0x49 0 0, a0, a1, 0, 0]
  | .cqWait => [opWord 0x4A 0 0, 0, 0, 0, 0]
  | .cqStatus => [opWord 0x4B 0 0, 0, 0, 0, 0]
  | .cqClear => [opWord 0x4C 0 0, 0, 0, 0, 0]
  | .cqDisable => [opWord 0x4D 0 0, 0, 0, 0, 0]
  | .cqSync a0 a1 => [opWord 0x4E 0 0, a0, a1, 0, 0]
  | .fqInit n fie a0 => [opWord 0x50 (n.setWidth 8) (flag fie 0), a0, 0, 0, 0]
  | .fqTryRead => [opWord 0x51 0 0, 0, 0, 0, 0]
  | .fqStatus => [opWord 0x52 0 0, 0, 0, 0, 0]
  | .fqClear => [opWord 0x53 0 0, 0, 0, 0, 0]
  | .fqDisable => [opWord 0x54 0 0, 0, 0, 0, 0]
  | .fqrDecode a0 a1 a2 a3 => [opWord 0x55 0 0, a0, a1, a2, a3]
  | .fence => [opWord 0x60 0 0, 0, 0, 0, 0]
  | .iotinvalVma av pscv gv pscid gscid addr =>
    [1 ||| wordBit av 10 ||| wordField pscid 12 ||| wordBit pscv 32 ||| wordBit gv 33 ||| wordField gscid 44,
      wordField addr 10]
  | .iotinvalGvma av gv gscid addr =>
    [0x81 ||| wordBit av 10 ||| wordBit gv 33 ||| wordField gscid 44, wordField addr 10]
  | .iofenceC av wsi pr pw data addr =>
    [2 ||| wordBit av 10 ||| wordBit wsi 11 ||| wordBit pr 12 ||| wordBit pw 13 ||| wordField data 32,
      wordField addr 2]
  | .iodirInvalDdt dv did => [3 ||| wordBit dv 33 ||| wordField did 40, 0]

/-! The operation map as match and mask words (R124), and the host's view of the table. -/

/-- The match and mask words of the 36 request rows (R124), written out. -/
def requestRows : List (Word × Word) :=
  [(0x01, 0xFFFFFFFFFF80FFFF), (0x02, 0xFFFFFFFFFFFFFFFF), (0x03, 0xFFFFFFFFFFFFFFFF),
   (0x10, 0xFFFFFFFFFFFFFFFF), (0x11, 0xFFFFFFFFFF80F8FF), (0x12, 0xFFFFFFFFFFFFFEFF),
   (0x20, 0xFFFFFFFFFFFFFFFF), (0x21, 0xFFFFFFFFFFFEFFFF), (0x22, 0xFFFFFFFFFFFEFFFF),
   (0x23, 0xFFFFFFFFFFFFFFFF), (0x24, 0xFFFFFFFFFFFFFFFF)] ++
  [(0x30, 0xFFFFFFFFFFFEFFFF), (0x31, 0xFFFFFFFFFFFFFCFF), (0x32, 0xFFFFFFFFFFFFF0FF),
   (0x33, 0xFFFFFFFFFFFFF0FF), (0x34, 0xFFFFFFFFFFFFF0FF), (0x35, 0xFFFFFFFFFFFFF0FF),
   (0x36, 0xFFFFFFFFFFFFFFFF), (0x40, 0xFFFFFFFFFFFEFFFF), (0x41, 0xFFFFFFFFFFF8FFFF),
   (0x42, 0xFFFFFFFFFFFCFFFF), (0x43, 0xFFFFFFFFFFFCFFFF)] ++
  [(0x48, 0xFFFFFFFFFFFEC0FF), (0x49, 0xFFFFFFFFFFFFFFFF), (0x4A, 0xFFFFFFFFFFFFFFFF),
   (0x4B, 0xFFFFFFFFFFFFFFFF), (0x4C, 0xFFFFFFFFFFFFFFFF), (0x4D, 0xFFFFFFFFFFFFFFFF),
   (0x4E, 0xFFFFFFFFFFFFFFFF), (0x50, 0xFFFFFFFFFFFEC0FF), (0x51, 0xFFFFFFFFFFFFFFFF),
   (0x52, 0xFFFFFFFFFFFFFFFF), (0x53, 0xFFFFFFFFFFFFFFFF), (0x54, 0xFFFFFFFFFFFFFFFF),
   (0x55, 0xFFFFFFFFFFFFFFFF), (0x60, 0xFFFFFFFFFFFFFFFF)]

/-- Does a request word match a row (R124: `REQ.op & mask` is `match`)? -/
def rowMatches (op : Word) (row : Word × Word) : Bool := op &&& row.2 == row.1

/-- The request whose words are the bits of `w`, REQ.op first. -/
def requestOfBits (w : Nat) : Request :=
  ⟨BitVec.ofNat 64 w, BitVec.ofNat 64 (w / 2 ^ 64), BitVec.ofNat 64 (w / 2 ^ 128), BitVec.ofNat 64 (w / 2 ^ 192),
    BitVec.ofNat 64 (w / 2 ^ 256)⟩

/-- The two doublewords of the command whose bits are `w`. -/
def commandOfBits (w : Nat) : Word × Word := (BitVec.ofNat 64 w, BitVec.ofNat 64 (w / 2 ^ 64))

/-- A table word shorter than a doubleword, or of two doublewords, is a command's (the command rows fix 10 bits of
doubleword 0); any other is a request's, unless it is no request and is a command (log 32). -/
def isCommandWord (nbits w : Nat) : Bool :=
  nbits < 64 || nbits == 128 ||
    (match decodeRequest (requestOfBits w), decodeCommand (commandOfBits w).1 (commandOfBits w).2 with
     | .error _, .ok _ => true
     | _, _ => false)

/-- The instruction the decoder reads from a table word (bits above `nbits` are 0). -/
def decodeTableWord (nbits w : Nat) : Option Instr :=
  let v := w % 2 ^ nbits
  if isCommandWord nbits v then (decode [(commandOfBits v).1, (commandOfBits v).2]).toOption
  else
    let r := requestOfBits v
    (decode [r.op, r.a0, r.a1, r.a2, r.a3]).toOption

end Sys2Proof
end

