-- ==== Sys2Proof/Machine/State.lean ====
section
/-! DEFINITION. The state: the block's registers, the IOMMU's registers, the two views of memory with the pending
writes between them, the IOMMU's hidden state, and, as plain data, what the environment will do. -/

namespace Sys2Proof.Machine

/-- Physical memory as a sparse list of (address, byte): addresses strictly rising, no entry equal to what an
unlisted address reads as (`Memory.wf`). -/
abbrev Memory := List Host.Cell

/-- RES (spec/10_state.md R32). -/
structure Result where
  status : BitVec 8
  r0 : Word
  r1 : Word
  r2 : Word
  r3 : Word
  r4 : Word
  r5 : Word
  r6 : Word
  r7 : Word
  deriving DecidableEq, Repr

/-- The sequencing state (R33). -/
inductive Phase where
  | idle
  | busy
  deriving DecidableEq, Repr

/-- `cq_state` and `fq_state` (R37, R38). -/
inductive QueueState where
  | disabled
  | ready
  deriving DecidableEq, Repr

/-- The block's internal registers (R34 to R38), none of them addressable by the host. -/
structure BlockRegs where
  ptReady : Bool
  s2Root : BitVec 56
  s1Root : BitVec 56
  poolNext : BitVec 32
  ddtReady : Bool
  ddtLvls : BitVec 2
  ddtNext : BitVec 32
  devValid : Bool
  devLo : BitVec 24
  devHi : BitVec 24
  cfgS1Mode : BitVec 4
  cfgS2Mode : BitVec 4
  cfgMsiMode : BitVec 4
  cfgGscid : BitVec 16
  cfgPscid : BitVec 20
  cfgMsiMask : BitVec 52
  cfgMsiPattern : BitVec 52
  cfgDtf : Bool
  msiReady : Bool
  cqState : QueueState
  cqBase : BitVec 56
  cqLog2n : BitVec 6
  fqState : QueueState
  fqBase : BitVec 56
  fqLog2n : BitVec 6
  deriving DecidableEq, Repr

/-- The IOMMU's registers (R39 to R43), and `capabilities` and `fctl`, which the block never accesses (R44). -/
structure IommuRegs where
  capabilities : BitVec 64
  fctl : BitVec 32
  ddtp : BitVec 64
  cqb : BitVec 64
  cqh : BitVec 32
  cqt : BitVec 32
  fqb : BitVec 64
  fqh : BitVec 32
  fqt : BitVec 32
  cqcsr : BitVec 32
  fqcsr : BitVec 32
  deriving DecidableEq, Repr

/-- An element of P (spec/20_memory.md R96): 8 bytes at `addr`. Its place in the list, oldest first, is its sequence
number (log 12). -/
structure PendingWrite where
  addr : Nat
  val : Word
  deriving DecidableEq, Repr

/-- Bytes that another agent wrote and the block may not yet see (R97; log 13). -/
structure ByteRange where
  addr : Nat
  size : Nat
  deriving DecidableEq, Repr

/-- A copy of a directory entry or device context the IOMMU read for device `did` (R46). -/
structure DdtCopy where
  did : BitVec 24
  addr : Nat
  words : List Word
  deriving DecidableEq, Repr

/-- A guest address that stage 2 translated, and the level of the stage-2 leaf that translated it. -/
structure GuestUse where
  addr : Word
  level : Nat
  deriving DecidableEq, Repr

/-- A copy of a page-table entry the IOMMU read (R46: "translations tagged by GSCID and PSCID"). `gv` says whether
stage 2 was active; `page` is the address being translated; `gpas` are the guest addresses that stage 2 translated to
reach the entry (log 22). -/
structure PteCopy where
  stage : Stage
  gv : Bool
  gscid : BitVec 16
  pscid : BitVec 20
  level : Nat
  addr : Nat
  page : Word
  val : Word
  gpas : List GuestUse
  deriving DecidableEq, Repr

/-- A copy of an MSI remap entry the IOMMU read (R46). -/
structure MsiCopy where
  gscid : BitVec 16
  addr : Nat
  page : Word
  dw0 : Word
  dw1 : Word
  deriving DecidableEq, Repr

/-- The IOMMU's caches (R46), and the invalidation commands it has retired and not yet completed
(spec/20_memory.md R104; log 21). -/
structure Caches where
  ddt : List DdtCopy
  iotlb : List PteCopy
  msi : List MsiCopy
  inProgress : List Instr
  deriving DecidableEq, Repr

/-- How far the processing of a command has come (spec/45_cmdq.md R363, R364): read; its completion write done; all of
its effect done, with the advance of cqh still to come. -/
inductive CmdStage where
  | fetched
  | written
  | effected
  deriving DecidableEq, Repr

/-- A command read but not retired (R47). -/
structure Command where
  dw0 : Word
  dw1 : Word
  stage : CmdStage
  deriving DecidableEq, Repr

/-- An inbound device transaction (spec/42_builder.md R234). `size` is the access's bytes (log 23). -/
structure Transaction where
  did : BitVec 24
  iova : Word
  ttyp : BitVec 6
  priv : Bool
  size : Nat
  data : Word
  deriving DecidableEq, Repr

/-- A fault of a transaction: its cause (spec/30_encoding.md R151) and iotval2. -/
structure XFault where
  cause : Nat
  gpa : Word
  deriving DecidableEq, Repr

/-- What a translated transaction does next (spec/42_builder.md R234 step 5, R238; spec/43_msi.md R272). -/
inductive AccessStep where
  /-- the access at a physical address -/
  | access (pa : Word)
  /-- the fault is reported -/
  | report (f : XFault)
  /-- the MRIF update reads the pending doubleword -/
  | mrif (mrif notice nid : Word)
  /-- the MRIF update stores the pending doubleword `v` at `pair` -/
  | pending (pair : Nat) (v notice nid : Word)
  /-- the MRIF update, its pending bit set, reads the enable doubleword of `pair` -/
  | enable (pair : Nat) (notice nid : Word)
  /-- the notice write of `nid` at `notice` -/
  | notice (notice nid : Word)
  deriving DecidableEq, Repr

/-- A transaction the IOMMU has translated and not finished; `dtf` is its context's DTF (log 33). -/
structure Access where
  trans : Transaction
  dtf : Bool
  step : AccessStep
  deriving DecidableEq, Repr

/-- The IOMMU's hidden state outside its caches (R47). -/
structure Engine where
  /-- a command read but not retired -/
  cmdBuf : Option Command
  /-- a record is written at `fqt` and the advance of `fqt` is still to come -/
  recPending : Bool
  /-- transactions under way (spec/70_reset_and_hazards.md R592; log 33) -/
  inFlight : List Access
  deriving DecidableEq, Repr

/-- What one table read of a translation takes: memory, memory with the copy kept in a cache, the `k`-th matching
cached copy (memory if there is none), or an access error (spec/20_memory.md R104; R235, R237). -/
inductive Pick where
  | memory
  | memoryFill
  | cached (k : Nat)
  | accessError
  deriving DecidableEq, Repr

/-- What a device transaction came to: the model's observation of R234 and R238 (log 28). -/
inductive DevOutcome where
  | none
  | readData (v : Word)
  | written
  | mrifUpdated (notice : Bool)
  | discarded
  | faulted (cause : Nat)
  deriving DecidableEq, Repr

/-- The environment's moves at an interleaving point (spec/70_reset_and_hazards.md R592). A move that is not enabled
does nothing. -/
inductive EnvAct where
  /-- drain the `k`-th element of P (spec/20_memory.md R96) -/
  | drain (k : Nat)
  /-- make the `k`-th range of other agents' writes visible to the block (R97) -/
  | reveal (k : Nat)
  /-- the IOMMU reads the command at cqh and keeps it (spec/45_cmdq.md R364, spec/10_state.md R47) -/
  | fetchCommand
  /-- the IOMMU processes the command at cqh to its end; `later` leaves an invalidation in progress (R364;
  spec/20_memory.md R104) -/
  | consume (later : Bool)
  /-- one step of that: the first effect, the wired-interrupt bit, or the advance of cqh (R363, R364) -/
  | commandStep (later : Bool)
  /-- the `k`-th invalidation in progress completes (R104) -/
  | complete (k : Nat)
  /-- cqon follows cqen (R364) -/
  | cqFollow
  /-- fqon follows fqen (spec/46_faultq.md R395) -/
  | fqFollow
  /-- the IOMMU sets or clears ddtp.busy (spec/10_state.md R39) -/
  | ddtpBusy (b : Bool)
  /-- what a write of an unsupported iommu_mode will leave (R39, spec/93_implementation_defined.md I11) -/
  | warlMode (m : BitVec 4)
  /-- the IOMMU sets cqcsr.busy and the custom bits (R42) -/
  | cqcsrOther (busy : Bool) (custom : BitVec 4)
  /-- the IOMMU sets fqcsr.busy and the custom bits (R43) -/
  | fqcsrOther (busy : Bool) (custom : BitVec 4)
  /-- the IOMMU sets cmd_to (spec/45_cmdq.md R367) -/
  | commandTimeout
  /-- an access error of the command consumer (R366) -/
  | cqAccessError
  /-- a record to report meets an access error (spec/46_faultq.md R395) -/
  | fqAccessError
  /-- the IOMMU reports a record; `hold` leaves the advance of fqt to come (R395, R47; spec/93_implementation_defined.md I21) -/
  | report (w0 w1 w2 w3 : Word) (hold : Bool)
  /-- the advance of fqt that was left to come (R47) -/
  | advanceFqt
  /-- a whole device transaction (spec/42_builder.md R234 to R238) -/
  | transact (t : Transaction) (picks : List Pick) (hold : Bool)
  /-- the translation of a device transaction (R234 to R237), its access still to come -/
  | translate (t : Transaction) (picks : List Pick)
  /-- the next access of the `k`-th transaction under way, or the report of its fault -/
  | proceed (k : Nat) (hold : Bool)
  /-- the IOMMU reads the table entries of a translation into its caches without an access (spec/20_memory.md R104) -/
  | prefetch (t : Transaction) (picks : List Pick)
  deriving DecidableEq, Repr

/-- What the outside does next, between the block's operations (log 7). -/
inductive Input where
  /-- the host writes a request to the request port (spec/30_encoding.md R120) -/
  | request (r : Request)
  /-- the IOMMU's command engine takes and processes its next command (spec/45_cmdq.md R364) -/
  | iommu
  /-- a move of the environment -/
  | env (a : EnvAct)
  /-- the host stores `size` bytes to memory it owns (spec/60_exceptions.md R531) -/
  | hostStore (addr size : Nat) (val : Word)
  /-- reset: of the block and the IOMMU together, or of the block alone (spec/70_reset_and_hazards.md R560, R563) -/
  | reset (blockOnly : Bool)
  deriving DecidableEq, Repr

/-- For whom the steps of CQ.SUBMIT run (spec/45_cmdq.md R348, R355). -/
inductive SubmitFor where
  | submit
  | sync (a0 a1 : Word)
  deriving DecidableEq, Repr

/-- The waits an operation can be in while the block stays BUSY, with the values the operation still needs
(spec/00_scope.md R12, spec/10_state.md R33). -/
inductive WaitPoint where
  | cqInit (a0 : Word) (n : BitVec 6) (t0 : Word)
  | submit (d0 d1 t : Word) (by_ : SubmitFor)
  | cqWait (t : Word)
  | cqDisable
  | syncDone (a0 a1 t : Word)
  | fqInit (a0 : Word) (n : BitVec 6) (h0 : Word)
  | fqDisable
  | setModeReady (m : BitVec 4)
  | setModeDone (m : BitVec 4)
  deriving DecidableEq, Repr

structure State where
  /-- the instance parameters (spec/00_scope.md R8) -/
  cfg : Config
  phase : Phase
  /-- the wait a BUSY block is in, none if it is in none -/
  wait : Option WaitPoint
  /-- REQ (spec/10_state.md R31) -/
  req : Request
  /-- RES (R32) -/
  res : Result
  blk : BlockRegs
  regs : IommuRegs
  caches : Caches
  engine : Engine
  /-- Mem_blk (spec/20_memory.md R96) -/
  memBlk : Memory
  /-- Mem_io (R96) -/
  memIo : Memory
  /-- P (R96), oldest first -/
  pend : List PendingWrite
  /-- writes of other agents the block may not yet see (R97) -/
  unseen : List ByteRange
  /-- what the outside does next -/
  inputs : List Input
  /-- the environment's moves at the coming interleaving points inside operations -/
  weave : List (List EnvAct)
  /-- what the last device transaction came to -/
  dev : DevOutcome
  /-- the mode that a write of an unsupported iommu_mode leaves, if the IOMMU supports it; else the mode stays (log 6) -/
  warlMode : BitVec 4
  deriving DecidableEq, Repr

/-- Why a step stops with a fault. -/
inductive Fault where
  /-- An operation that must write a device context (DDT.REBUILD, DDT.SET_S1_MODE, DDT.SET_S2_MODE,
  DDT.SET_MSI_MODE) found its path absent in memory: another agent damaged the directory, and the spec gives `absent`
  no address to write. Safe: the machine stops where a real block would write somewhere. -/
  | contextAbsent
  /-- CQ.SYNC's completion doubleword lies in the IOMMU register window, which is reached only by MMIO
  (spec/10_state.md R45). Safe: the machine stops. -/
  | completionInRegisterFile
  deriving DecidableEq, Repr

/-- Why a step is refused. -/
inductive Refusal where
  /-- The instruction has no meaning in this model. Safe. -/
  | notModelled (mnemonic : String)
  /-- Regions of the instance overlap or are misplaced: spec/00_scope.md R8, "a model refuses it". Raised by the step
  before anything runs. Safe. -/
  | illFormedInstance
  /-- The host stored to memory it does not own, or while the block was BUSY: spec/60_exceptions.md R531,
  spec/93_implementation_defined.md I18. Raised by the step. Safe. -/
  | hostContract
  deriving DecidableEq, Repr

/-- RES after reset (R32). -/
def Result.zero : Result := ⟨0, 0, 0, 0, 0, 0, 0, 0, 0⟩

/-- The block's registers after reset (spec/70_reset_and_hazards.md R560). -/
def BlockRegs.reset : BlockRegs where
  ptReady := false
  s2Root := 0
  s1Root := 0
  poolNext := 0
  ddtReady := false
  ddtLvls := 0
  ddtNext := 0
  devValid := false
  devLo := 0
  devHi := 0
  cfgS1Mode := 0
  cfgS2Mode := 0
  cfgMsiMode := 0
  cfgGscid := 0
  cfgPscid := 0
  cfgMsiMask := 0
  cfgMsiPattern := 0
  cfgDtf := false
  msiReady := false
  cqState := .disabled
  cqBase := 0
  cqLog2n := 0
  fqState := .disabled
  fqBase := 0
  fqLog2n := 0

/-- The IOMMU's registers after its reset (R563, spec/10_state.md R39 to R43; ddtp.PPN: log 3; capabilities and fctl:
log 4). -/
def IommuRegs.reset (c : Config) : IommuRegs where
  capabilities := 0
  fctl := 0
  ddtp := match c.ddtpResetMode with
    | .off => 0
    | .bare => 1
  cqb := 0
  cqh := 0
  cqt := 0
  fqb := 0
  fqh := 0
  fqt := 0
  cqcsr := 0
  fqcsr := 0

/-- Empty caches (R563); no invalidation in progress (log 34). -/
def Caches.empty : Caches := ⟨[], [], [], []⟩

/-- No command read, no record's advance to come, no transaction under way: the model's choice for reset (log 34). -/
def Engine.empty : Engine := ⟨none, false, []⟩

/-- An instance right after reset: R560 and R563, REQ as log 2 says, memory with nothing listed (log 1), the engines'
hidden state and the invalidations in progress empty (log 34), the mode that a write of an unsupported one leaves as
log 6 says, and no input. -/
def State.resetOf (c : Config) : State where
  cfg := c
  phase := .idle
  wait := none
  req := ⟨0, 0, 0, 0, 0⟩
  res := Result.zero
  blk := BlockRegs.reset
  regs := IommuRegs.reset c
  caches := Caches.empty
  engine := Engine.empty
  memBlk := []
  memIo := []
  pend := []
  unseen := []
  inputs := []
  weave := []
  dev := .none
  warlMode := 15

/-- The machine right after reset, on the example instance (log 5). -/
def State.reset : State := State.resetOf Config.example

end Sys2Proof.Machine
end

