-- ==== Sys2Proof/Machine/Memory.lean ====
section
/-! DEFINITION. Physical memory: what an unlisted address reads as, the canonical form, and little-endian loads and
stores (spec/20_memory.md R80). Every access of every agent goes through `Memory.read` and `Memory.store`. -/

namespace Sys2Proof.Machine

/-- What an unlisted address reads as. The spec gives memory no contents at reset
(spec/70_reset_and_hazards.md R560); DESIGN CHOICE, unsafe (log 1). -/
def unlisted : Byte := 0

/-- One byte. -/
def Memory.read : Memory → Nat → Byte
  | [], _ => unlisted
  | (k, v) :: m, a => if k = a then v else Memory.read m a

/-- The canonical form: addresses strictly rising, and no entry equal to what an unlisted address reads as. -/
abbrev Memory.wf (m : Memory) : Prop :=
  m.Pairwise (fun c d => c.1 < d.1) ∧ ∀ c ∈ m, c.2 ≠ unlisted

/-- The entries of the bytes `bs` at `a` and up. -/
def Memory.cells : Nat → List Byte → Memory
  | _, [] => []
  | a, b :: bs => if b = unlisted then Memory.cells (a + 1) bs else (a, b) :: Memory.cells (a + 1) bs

/-- Store the bytes `bs` at `a` and up. -/
def Memory.store (m : Memory) (a : Nat) (bs : List Byte) : Memory :=
  m.filter (fun c => c.1 < a) ++ Memory.cells a bs ++ m.filter (fun c => a + bs.length ≤ c.1)

/-- The low `n` bytes of `v`, least significant first (R80). -/
def leBytes : Nat → Word → List Byte
  | 0, _ => []
  | n + 1, v => v.setWidth 8 :: leBytes n (v >>> 8)

/-- The bytes at `a`, `a + 1`, .. `a + n - 1`. -/
def Memory.bytes (m : Memory) (a : Nat) : Nat → List Byte
  | 0 => []
  | n + 1 => m.read a :: Memory.bytes m (a + 1) n

/-- The little-endian value of bytes (R80). -/
def leValue : List Byte → Word
  | [] => 0
  | b :: bs => b.setWidth 64 ||| (leValue bs <<< 8)

/-- Load `n` bytes at `a`, zero-extended. -/
def Memory.load (m : Memory) (a n : Nat) : Word := leValue (m.bytes a n)

/-- Load a doubleword. -/
def Memory.load64 (m : Memory) (a : Nat) : Word := m.load a 8

/-- Store the low `n` bytes of `v`. -/
def Memory.storeN (m : Memory) (a n : Nat) (v : Word) : Memory := m.store a (leBytes n v)

/-- Store a doubleword. -/
def Memory.store64 (m : Memory) (a : Nat) (v : Word) : Memory := m.storeN a 8 v

/-- Copy the bytes of a range from one memory to another. -/
def Memory.copyFrom (m src : Memory) (r : ByteRange) : Memory := m.store r.addr (src.bytes r.addr r.size)

end Sys2Proof.Machine
end

