-- ==== Sys2Proof/Machine/Mmio.lean ====
section
/-! DEFINITION. The IOMMU registers the block uses: their offsets (spec/30_encoding.md R160), what a read returns and
what a write does (spec/10_state.md R39 to R43, spec/20_memory.md R87), and the queue geometry they hold. -/

namespace Sys2Proof.Machine

/-- The registers marked "used" in R160. -/
inductive MmioReg where
  | ddtp | cqb | cqh | cqt | fqb | fqh | fqt | cqcsr | fqcsr
  deriving DecidableEq, Repr

/-- Offset from IOMMU_BASE (R160). -/
def MmioReg.offset : MmioReg → Nat
  | .ddtp => 0x010
  | .cqb => 0x018
  | .cqh => 0x020
  | .cqt => 0x024
  | .fqb => 0x028
  | .fqh => 0x030
  | .fqt => 0x034
  | .cqcsr => 0x048
  | .fqcsr => 0x04C

/-- Width in bytes (R160): the width of its one kind of access (spec/20_memory.md R81). -/
def MmioReg.bytes : MmioReg → Nat
  | .ddtp | .cqb | .fqb => 8
  | .cqh | .cqt | .fqh | .fqt | .cqcsr | .fqcsr => 4

/-- The address of a register. -/
def mmioAddr (c : Config) (r : MmioReg) : Nat := c.iommuBase.toNat + r.offset

/-- `2^(LOG2SZ-1 + 1)`: the capacity a queue base register programs (R40). -/
def queueCap (base : BitVec 64) : Nat := 2 ^ ((base.extractLsb' 0 5).toNat + 1)

/-- The bits an index register implements: the low LOG2SZ bits, the others read 0 (R41). -/
def indexBits (base : BitVec 64) (v : BitVec 32) : BitVec 32 := BitVec.ofNat 32 (v.toNat % queueCap base)

/-- iommu_mode of a ddtp value (R39). -/
def ddtpMode (v : BitVec 64) : BitVec 4 := v.extractLsb' 0 4

/-- busy of a ddtp value (R39). -/
def ddtpBusy (v : BitVec 64) : Bool := v.getLsbD 4

/-- The IOMMU supports iommu_mode `m` (log 6). -/
def supportsMode (c : Config) (m : BitVec 4) : Bool := c.iommuModes.getLsbD m.toNat

/-- A write of `v` to ddtp: ignored while busy (spec/44_ddt.md R307); iommu_mode is WARL: a mode that the IOMMU does not
support leaves the mode `warl` if that is a supported one (spec/93_implementation_defined.md I11), and the old mode
otherwise (R39; log 6); PPN is written; reserved bits read 0. -/
def ddtpWrite (c : Config) (warl : BitVec 4) (old v : BitVec 64) : BitVec 64 :=
  if ddtpBusy old then old
  else
    let mode :=
      if supportsMode c (ddtpMode v) then ddtpMode v
      else if supportsMode c warl then warl
      else ddtpMode old
    (v &&& ppnFieldMask) ||| mode.setWidth 64

/-- A write of `v` to cqb or fqb: LOG2SZ-1 and PPN are written, reserved bits read 0 (R40). -/
def queueBaseWrite (v : BitVec 64) : BitVec 64 := v &&& (ppnFieldMask ||| 0x1F)

/-- What a read of a register returns, zero-extended; an index register shows the bits it implements (R41). -/
def IommuRegs.get (g : IommuRegs) : MmioReg → Word
  | .ddtp => g.ddtp
  | .cqb => g.cqb
  | .cqh => (indexBits g.cqb g.cqh).setWidth 64
  | .cqt => (indexBits g.cqb g.cqt).setWidth 64
  | .fqb => g.fqb
  | .fqh => (indexBits g.fqb g.fqh).setWidth 64
  | .fqt => (indexBits g.fqb g.fqt).setWidth 64
  | .cqcsr => g.cqcsr.setWidth 64
  | .fqcsr => g.fqcsr.setWidth 64

/-- What a write of `v` does; cqh and fqt are read-only to the block (R41). -/
def IommuRegs.set (c : Config) (warl : BitVec 4) (g : IommuRegs) (r : MmioReg) (v : Word) : IommuRegs :=
  match r with
  | .ddtp => { g with ddtp := ddtpWrite c warl g.ddtp v }
  | .cqb => { g with cqb := queueBaseWrite v }
  | .cqh => g
  | .cqt => { g with cqt := indexBits g.cqb (v.setWidth 32) }
  | .fqb => { g with fqb := queueBaseWrite v }
  | .fqh => { g with fqh := indexBits g.fqb (v.setWidth 32) }
  | .fqt => g
  | .cqcsr => { g with cqcsr := csrWrite cqSticky g.cqcsr (v.setWidth 32) }
  | .fqcsr => { g with fqcsr := csrWrite fqSticky g.fqcsr (v.setWidth 32) }

/-! The queues as the IOMMU sees them. -/

/-- The command queue's head index (R41). -/
def cqHead (g : IommuRegs) : Nat := (indexBits g.cqb g.cqh).toNat
/-- The command queue's tail index (R41). -/
def cqTail (g : IommuRegs) : Nat := (indexBits g.cqb g.cqt).toNat
/-- The fault queue's head index (R41). -/
def fqHead (g : IommuRegs) : Nat := (indexBits g.fqb g.fqh).toNat
/-- The fault queue's tail index (R41). -/
def fqTail (g : IommuRegs) : Nat := (indexBits g.fqb g.fqt).toNat
/-- cqcsr.cqen (R42). -/
def cqEn (g : IommuRegs) : Bool := g.cqcsr.getLsbD 0
/-- cqcsr.cqon (R42). -/
def cqOn (g : IommuRegs) : Bool := g.cqcsr.getLsbD 16
/-- fqcsr.fqen (R43). -/
def fqEn (g : IommuRegs) : Bool := g.fqcsr.getLsbD 0
/-- fqcsr.fqon (R43). -/
def fqOn (g : IommuRegs) : Bool := g.fqcsr.getLsbD 16

/-- The consumer may take a command: cqon = 1, no stop bit, cqh and cqt differ (spec/45_cmdq.md R364). -/
def cqRunning (g : IommuRegs) : Bool := cqOn g && !cqErr g.cqcsr && cqHead g != cqTail g

/-- The commands between head and tail. -/
def cqOutstanding (g : IommuRegs) : Nat := (cqTail g + queueCap g.cqb - cqHead g) % queueCap g.cqb

/-- The address the consumer reads: `(cqb.PPN << 12) + 16*cqh` (R364). -/
def cqSlotIo (g : IommuRegs) : Nat := (fieldPa g.cqb).toNat + 16 * cqHead g

/-- The address the producer of records writes: `(fqb.PPN << 12) + 32*fqt` (spec/46_faultq.md R395). -/
def fqSlotIo (g : IommuRegs) : Nat := (fieldPa g.fqb).toNat + 32 * fqTail g

/-- The next index of a queue: `(i + 1) mod N`. -/
def nextIndex (base : BitVec 64) (i : Nat) : BitVec 32 := BitVec.ofNat 32 ((i + 1) % queueCap base)

/-- Bytes of physical memory that exist and are not the IOMMU's register window (spec/10_state.md R45; log 24). -/
def accessible (c : Config) (a n : Nat) : Bool := a + n ≤ paLimit && !overlaps a n c.iommuBase.toNat 4096

end Sys2Proof.Machine
end

