-- ==== Sys2Proof/Machine/Device.lean ====
section
/-! DEFINITION. What the IOMMU does to memory and to its queues' status: its stores, the record producer
(spec/46_faultq.md R395), and the part of a device transaction that follows its translation: the access, the MRIF
update, the report of a fault (spec/42_builder.md R234 step 5, R238; spec/43_msi.md R272). -/

namespace Sys2Proof.Machine

/-- A store of `n` bytes by an agent other than the block: Mem_io has it at once, the block may see it later
(spec/20_memory.md R97; log 13). -/
def ioStore (a n : Nat) (v : Word) (s : State) : State :=
  { s with memIo := s.memIo.storeN a n v, unseen := s.unseen ++ [⟨a, n⟩] }

/-- Set or clear a bit of cqcsr. -/
def setCqcsr (i : Nat) (b : Bool) (s : State) : State :=
  { s with regs := { s.regs with cqcsr := setBit s.regs.cqcsr i b } }

/-- Set or clear a bit of fqcsr. -/
def setFqcsr (i : Nat) (b : Bool) (s : State) : State :=
  { s with regs := { s.regs with fqcsr := setBit s.regs.fqcsr i b } }

/-! The record producer (spec/46_faultq.md R395). -/

/-- The advance of fqt past a written record. -/
def advanceFqt (s : State) : State :=
  if s.engine.recPending then
    { s with regs := { s.regs with fqt := nextIndex s.regs.fqb (fqTail s.regs) },
             engine := { s.engine with recPending := false } }
  else s

/-- fqon follows fqen, after the advance past a record already written; turning on resets fqt if
ENABLE_RESETS_INDEX. -/
def fqFollow (s : State) : State :=
  if fqEn s.regs == fqOn s.regs then s
  else
    let s := setFqcsr 16 (fqEn s.regs) (advanceFqt s)
    if fqOn s.regs && s.cfg.enableResetsIndex then { s with regs := { s.regs with fqt := 0 } } else s

/-- The fault queue is full: `(fqt + 1) mod N = fqh`. -/
def fqFull (g : IommuRegs) : Bool := (fqTail g + 1) % queueCap g.fqb == fqHead g

/-- The IOMMU reports the record `w`: discarded when the queue is off or stopped, fqof when it is full, fqmf on an
access error, else written at fqt and, unless `hold`, fqt advances. -/
def reportRecord (w0 w1 w2 w3 : Word) (hold : Bool) (s : State) : State :=
  let s := advanceFqt s
  if !fqOn s.regs || fqErr s.regs.fqcsr then s
  else if fqFull s.regs then setFqcsr 9 true s
  else
    let a := fqSlotIo s.regs
    if !accessible s.cfg a 32 then setFqcsr 8 true s
    else
      let s := ioStore (a + 24) 8 w3 (ioStore (a + 16) 8 w2 (ioStore (a + 8) 8 w1 (ioStore a 8 w0 s)))
      let s := { s with engine := { s.engine with recPending := true } }
      if hold then s else advanceFqt s

/-- A record to report meets an access error: fqmf, and the record is lost. -/
def reportAccessError (s : State) : State :=
  let s := advanceFqt s
  if !fqOn s.regs || fqErr s.regs.fqcsr then s
  else if fqFull s.regs then setFqcsr 9 true s
  else setFqcsr 8 true s

/-! Device transactions after their translation. -/

/-- What a transaction does with memory. -/
inductive AccessKind where
  | exec | read | write
  deriving DecidableEq, Repr

/-- The kind by transaction type (spec/30_encoding.md R152), untranslated or translated; the other types make no
access (log 23). -/
def accessKind (ttyp : BitVec 6) : Option AccessKind :=
  if ttyp = 1 ∨ ttyp = 5 then some .exec
  else if ttyp = 2 ∨ ttyp = 6 then some .read
  else if ttyp = 3 ∨ ttyp = 7 then some .write
  else none

/-- The page faults by kind (R151; spec/42_builder.md R236). -/
def pageFault : AccessKind → Nat
  | .exec => 12
  | .read => 13
  | .write => 15

/-- The guest-page faults by kind (R151, R236). -/
def guestPageFault : AccessKind → Nat
  | .exec => 20
  | .read => 21
  | .write => 23

/-- The access faults by kind (R151; log 24). -/
def accessFault : AccessKind → Nat
  | .exec => 1
  | .read => 5
  | .write => 7

/-- Causes that DTF does not silence (R238). -/
def alwaysReported (cause : Nat) : Bool :=
  cause == 256 || cause == 257 || cause == 258 || cause == 259 || cause == 260 || cause == 268

/-- Doubleword 0 of a record (spec/30_encoding.md R150). -/
def recordWord0 (cause : Nat) (t : Transaction) : Word :=
  BitVec.ofNat 64 (cause % 4096) ||| (bit t.priv <<< 33) ||| (t.ttyp.setWidth 64 <<< 34) ||| (t.did.setWidth 64 <<< 40)

/-- A faulting transaction is not performed; the fault is reported unless DTF silences it (R238). -/
def faultTransaction (t : Transaction) (f : XFault) (dtf hold : Bool) (s : State) : State :=
  let s := { s with dev := .faulted f.cause }
  if dtf && !alwaysReported f.cause then s else reportRecord (recordWord0 f.cause t) 0 t.iova f.gpa hold s

/-- The access at a physical address (R234 step 5). -/
def accessMemory (t : Transaction) (pa : Word) (s : State) : State :=
  let n := min t.size 8
  if accessKind t.ttyp = some .write then { ioStore pa.toNat n t.data s with dev := .written }
  else { s with dev := .readData (s.memIo.load pa.toNat n) }

/-- The address of the pair of doublewords of MSI data `d` in the MRIF `mrif` (spec/43_msi.md R270, R272). -/
def mrifPair (mrif : Word) (d : Nat) : Nat := mrif.toNat + 16 * (d / 64)

/-- The next step of a translated transaction, and what is left of it. An address that does not exist is an access
fault, and a write of another size than 4 bytes through an MRIF entry is discarded (log 24, log 27). An MRIF update sets
the pending bit and only then looks at the enable bit (spec/43_msi.md R272); when its notice write faults, the pending
bit stays set (log 35). -/
def accessNext (hold : Bool) (x : Access) (s : State) : Option Access × State :=
  let next (k : AccessStep) : Option Access := some { x with step := k }
  match x.step with
  | .report f => (none, faultTransaction x.trans f x.dtf hold s)
  | .access pa =>
    if accessible s.cfg pa.toNat (min x.trans.size 8) then (none, accessMemory x.trans pa s)
    else (next (.report ⟨accessFault ((accessKind x.trans.ttyp).getD .read), 0⟩), s)
  | .mrif mrif notice nid =>
    let d := x.trans.data.toNat % 2 ^ 32
    let a := mrifPair mrif d
    if x.trans.size ≠ 4 || 2048 ≤ d then (none, { s with dev := .discarded })
    else if !accessible s.cfg a 16 then (next (.report ⟨264, 0⟩), s)
    else (next (.pending a (s.memIo.load64 a ||| BitVec.twoPow 64 (d % 64)) notice nid), s)
  | .pending a v notice nid => (next (.enable a notice nid), ioStore a 8 v s)
  | .enable a notice nid =>
    if (s.memIo.load64 (a + 8)).getLsbD (x.trans.data.toNat % 64) then (next (.notice notice nid), s)
    else (none, { s with dev := .mrifUpdated false })
  | .notice notice nid =>
    if accessible s.cfg notice.toNat 4 then (none, { ioStore notice.toNat 4 nid s with dev := .mrifUpdated true })
    else (next (.report ⟨273, 0⟩), s)

/-- At most `n` steps of a translated transaction; five end any. -/
def accessRun (hold : Bool) : Nat → Access → State → State
  | 0, _, s => s
  | n + 1, x, s =>
    match accessNext hold x s with
    | (none, s) => s
    | (some x, s) => accessRun hold n x s

/-- A translated transaction to its end. -/
def accessFinish (hold : Bool) (x : Access) (s : State) : State := accessRun hold 5 x s

/-- Put the transactions under way at `l`. -/
def setInFlight (l : List Access) (s : State) : State := { s with engine := { s.engine with inFlight := l } }

/-- The next step of the `k`-th transaction under way. -/
def proceed (k : Nat) (hold : Bool) (s : State) : State :=
  match s.engine.inFlight[k]? with
  | none => s
  | some x =>
    match accessNext hold x s with
    | (none, s) => setInFlight (s.engine.inFlight.eraseIdx k) s
    | (some x, s) => setInFlight (s.engine.inFlight.set k x) s

/-- Does IOFENCE.C with PR = `pr` and PW = `pw` wait for the transaction (spec/30_encoding.md R147, spec/45_cmdq.md
R363: PR for earlier reads, PW for earlier writes; log 33)? -/
def awaited (pr pw : Bool) (x : Access) : Bool :=
  if accessKind x.trans.ttyp = some .write then pw else pr

/-- The transactions under way that a fence waits for come to their ends, oldest first. -/
def awaitTransactions (pr pw : Bool) (s : State) : State :=
  let l := s.engine.inFlight
  (l.filter (awaited pr pw)).foldl (fun s x => accessFinish false x s)
    (setInFlight (l.filter (fun x => !awaited pr pw x)) s)

end Sys2Proof.Machine
end

