-- ==== Sys2Proof/Machine/Commands.lean ====
section
/-! DEFINITION. The IOMMU as command consumer (spec/45_cmdq.md R360 to R367): what each command removes from the
caches, IOFENCE.C, the meanings of the four IOMMU commands, and the consumer's steps. -/

namespace Sys2Proof.Machine

/-- The granules that the entry copy `c` covers include the page `addr` (R361, R362: the page of the address). -/
def coversPage (c : PteCopy) (addr : BitVec 52) : Bool :=
  c.page.toNat / levelSize c.level == addr.toNat * 4096 / levelSize c.level

/-- A stage-1 copy selected by IOTINVAL.VMA (R361). -/
def vmaSelects (av pscv gv : Bool) (pscid : BitVec 20) (gscid : BitVec 16) (addr : BitVec 52) (c : PteCopy) : Bool :=
  c.stage == .s1 &&
    (if gv then c.gv && c.gscid == gscid else !c.gv) &&
    (!av || coversPage c addr) &&
    (!pscv || (c.pscid == pscid && !c.val.getLsbD 5))

/-- The stage-2 leaf that translated the guest address covers the page `addr` too (R362). -/
def GuestUse.covers (p : GuestUse) (addr : BitVec 52) : Bool :=
  p.addr.toNat / levelSize p.level == addr.toNat * 4096 / levelSize p.level

/-- A copy selected by IOTINVAL.GVMA (R362): a stage-2 entry of the scope, or a stage-1 entry that was reached through
a stage-2 leaf of the scope. -/
def gvmaSelects (av gv : Bool) (gscid : BitVec 16) (addr : BitVec 52) (c : PteCopy) : Bool :=
  (!gv || c.gscid == gscid) &&
    (match c.stage with
     | .s2 => !av || coversPage c addr
     | .s1 => c.gv && (!av || c.gpas.any (fun p => p.covers addr)))

/-- A cached MSI remap entry selected by IOTINVAL.GVMA (R362). -/
def gvmaSelectsMsi (av gv : Bool) (gscid : BitVec 16) (addr : BitVec 52) (c : MsiCopy) : Bool :=
  (!gv || c.gscid == gscid) && (!av || guestPage c.page == addr)

/-- IODIR.INVAL_DDT on the caches (R360). -/
def invalDdt (dv : Bool) (did : BitVec 24) (c : Caches) : Caches :=
  { c with ddt := c.ddt.filter (fun d => dv && d.did != did) }

/-- IOTINVAL.VMA on the caches (R361). -/
def invalVma (av pscv gv : Bool) (pscid : BitVec 20) (gscid : BitVec 16) (addr : BitVec 52) (c : Caches) : Caches :=
  { c with iotlb := c.iotlb.filter (fun e => !vmaSelects av pscv gv pscid gscid addr e) }

/-- IOTINVAL.GVMA on the caches (R362). -/
def invalGvma (av gv : Bool) (gscid : BitVec 16) (addr : BitVec 52) (c : Caches) : Caches :=
  { c with iotlb := c.iotlb.filter (fun e => !gvmaSelects av gv gscid addr e),
           msi := c.msi.filter (fun e => !gvmaSelectsMsi av gv gscid addr e) }

/-- The cache effect of an invalidation command; any other instruction has none. -/
def invalidate (i : Instr) (c : Caches) : Caches :=
  match i with
  | .iodirInvalDdt dv did => invalDdt dv did c
  | .iotinvalVma av pscv gv pscid gscid addr => invalVma av pscv gv pscid gscid addr c
  | .iotinvalGvma av gv gscid addr => invalGvma av gv gscid addr c
  | _ => c

/-- Every invalidation in progress completes, oldest first. -/
def completeAll (c : Caches) : Caches :=
  { c.inProgress.foldl (fun c i => invalidate i c) c with inProgress := [] }

/-- IOFENCE.C's completion write cannot be made (R366; log 24). -/
def fenceFails (c : Config) (av : Bool) (addr : BitVec 62) : Bool := av && !accessible c (addr.toNat * 4) 4

/-- IOFENCE.C before its completion write (R363): every earlier command completes, and so do the transactions that PR
and PW wait for. -/
def fenceWait (pr pw : Bool) (s : State) : State :=
  awaitTransactions pr pw { s with caches := completeAll s.caches }

/-- IOFENCE.C's completion write, if AV (R363). -/
def fenceWrite (av : Bool) (data : BitVec 32) (addr : BitVec 62) (s : State) : State :=
  if av then ioStore (addr.toNat * 4) 4 (data.setWidth 64) s else s

/-- IOFENCE.C's fence_w_ip, if WSI and FCTL_WSI (R363). -/
def fenceFlag (wsi : Bool) (s : State) : State := if wsi && s.cfg.fctlWsi then setCqcsr 11 true s else s

/-- IOFENCE.C (R363): the wait, the completion write, the flag. A completion write that meets an access error sets cqmf
instead (R366). -/
def fenceCommand (av wsi pr pw : Bool) (data : BitVec 32) (addr : BitVec 62) (s : State) : State :=
  let s := fenceWait pr pw s
  if fenceFails s.cfg av addr then setCqcsr 8 true s else fenceFlag wsi (fenceWrite av data addr s)

/-! The meanings of the four commands: the command's own effect. The advance of cqh is the consumer's (`settle`). -/

def execIodirInvalDdt (dv : Bool) (did : BitVec 24) (s : State) : Host.Outcome State Fault Refusal :=
  .next { s with caches := invalDdt dv did s.caches }

def execIotinvalVma (av pscv gv : Bool) (pscid : BitVec 20) (gscid : BitVec 16) (addr : BitVec 52) (s : State) :
    Host.Outcome State Fault Refusal :=
  .next { s with caches := invalVma av pscv gv pscid gscid addr s.caches }

def execIotinvalGvma (av gv : Bool) (gscid : BitVec 16) (addr : BitVec 52) (s : State) :
    Host.Outcome State Fault Refusal :=
  .next { s with caches := invalGvma av gv gscid addr s.caches }

def execIofenceC (av wsi pr pw : Bool) (data : BitVec 32) (addr : BitVec 62) (s : State) :
    Host.Outcome State Fault Refusal :=
  .next (fenceCommand av wsi pr pw data addr s)

/-! The consumer step (R364). -/

/-- The command at cqh: the one the IOMMU has read, else the slot in Mem_io; none is an access error (R366). -/
def nextCommand (s : State) : Option Command :=
  match s.engine.cmdBuf with
  | some c => some c
  | none =>
    let a := cqSlotIo s.regs
    if accessible s.cfg a 16 then some ⟨s.memIo.load64 a, s.memIo.load64 (a + 8), .fetched⟩ else none

/-- Keep the command. -/
def keepCommand (c : Command) (s : State) : State := { s with engine := { s.engine with cmdBuf := some c } }

/-- Forget the command. -/
def dropCommand (s : State) : State := { s with engine := { s.engine with cmdBuf := none } }

/-- After a command: `cqh` advances past it unless it stopped the queue (R364 to R366). -/
def settle (s : State) : State :=
  let s := dropCommand s
  if cqErr s.regs.cqcsr then s
  else { s with regs := { s.regs with cqh := nextIndex s.regs.cqb (cqHead s.regs) } }

/-- The effect of a command on the caches; with `later`, an invalidation is only put in progress (spec/20_memory.md
R104). -/
def invalidateNow (later : Bool) (i : Instr) (s : State) : State :=
  if later then { s with caches := { s.caches with inProgress := s.caches.inProgress ++ [i] } }
  else { s with caches := invalidate i s.caches }

/-- The effect of a decoded command that has been read. -/
def commandEffect (later : Bool) (i : Instr) (s : State) : State :=
  match i with
  | .iofenceC av wsi pr pw data addr => fenceCommand av wsi pr pw data addr s
  | i => invalidateNow later i s

/-- What is left of a command's effect after the stage it has come to (R363). -/
def commandRest (later : Bool) (k : CmdStage) (i : Instr) (s : State) : State :=
  match k, i with
  | .fetched, i => commandEffect later i s
  | .written, .iofenceC _ wsi _ _ _ _ => fenceFlag wsi s
  | _, _ => s

/-- A memory fault of the consumer: cqmf, with cqh at the command (R366). -/
def memoryFault (s : State) : State := dropCommand (setCqcsr 8 true s)

/-- An illegal command: cmd_ill, with cqh at the command (R365). -/
def illegalCommand (s : State) : State := dropCommand (setCqcsr 10 true s)

/-- The command at cqh is processed to its end (R364 to R366). -/
def consumeCommand (later : Bool) (s : State) : State :=
  if cqRunning s.regs then
    match nextCommand s with
    | none => memoryFault s
    | some c =>
      match decodeCommand c.dw0 c.dw1 with
      | .error _ => illegalCommand s
      | .ok i => settle (commandRest later c.stage i s)
  else s

/-- One step of the processing of the command `c`, decoded to `i`. R363 orders IOFENCE.C's completion write, then
fence_w_ip, then the advance of cqh; any other command has its effect, then the advance. -/
def commandNext (later : Bool) (c : Command) (i : Instr) (s : State) : State :=
  match c.stage, i with
  | .fetched, .iofenceC av _ pr pw data addr =>
    let s := fenceWait pr pw s
    if fenceFails s.cfg av addr then memoryFault s
    else keepCommand { c with stage := .written } (fenceWrite av data addr s)
  | .effected, _ => settle s
  | k, i => keepCommand { c with stage := .effected } (commandRest later k i s)

/-- One step of the consumer (R364). -/
def commandStep (later : Bool) (s : State) : State :=
  if cqRunning s.regs then
    match nextCommand s with
    | none => memoryFault s
    | some c =>
      match decodeCommand c.dw0 c.dw1 with
      | .error _ => illegalCommand s
      | .ok i => commandNext later c i s
  else s

/-- The IOMMU has begun the effect of the command at cqh. -/
def midCommand (e : Engine) : Bool :=
  match e.cmdBuf with
  | some c => c.stage != .fetched
  | none => false

/-- The IOMMU reads the command at cqh and keeps it (R364: "may read a slot any number of times"). -/
def fetchCommand (s : State) : State :=
  if cqRunning s.regs && !midCommand s.engine then
    match nextCommand (dropCommand s) with
    | none => memoryFault s
    | some c => keepCommand c s
  else s

/-- The consumer meets an access error reading the slot (R366; log 24). -/
def commandAccessError (s : State) : State :=
  if cqRunning s.regs && !midCommand s.engine then memoryFault s else s

/-- cqon follows cqen (R364), after the command in process, if any, is done; turning on resets cqh if
ENABLE_RESETS_INDEX; a command only read is forgotten (log 19), and so is what is left of one that a stop bit has
interrupted (log 37). -/
def cqFollow (s : State) : State :=
  if cqEn s.regs == cqOn s.regs then s
  else
    let s := if midCommand s.engine then consumeCommand false s else s
    let s := dropCommand (setCqcsr 16 (cqEn s.regs) s)
    if cqOn s.regs && s.cfg.enableResetsIndex then { s with regs := { s.regs with cqh := 0 } } else s

end Sys2Proof.Machine
end

