-- ==== Sys2Proof/Machine/Translate.lean ====
section
/-! DEFINITION. How the IOMMU translates a device transaction (spec/42_builder.md R234 to R237, spec/43_msi.md R268,
spec/46_faultq.md R396). Every table read takes memory (Mem_io) or a cached copy, as a list of picks says
(spec/20_memory.md R104). -/

namespace Sys2Proof.Machine

/-- The caches so far and the picks still to use. -/
structure Walk where
  caches : Caches
  picks : List Pick
  deriving DecidableEq, Repr

/-- The next pick; memory when the list is used up. -/
def Walk.pick (w : Walk) : Pick := w.picks.headD .memory

/-- After a pick. -/
def Walk.next (w : Walk) : Walk := { w with picks := w.picks.tail }

/-- What a table read gives: the value and whether it came from memory to be kept; none is an access error. -/
def pickValue {α : Type} (p : Pick) (copies : List α) (mem : Option α) : Option (α × Bool) :=
  match p with
  | .memory => mem.map (fun v => (v, false))
  | .memoryFill => mem.map (fun v => (v, true))
  | .cached k =>
    match copies[k]? with
    | some v => some (v, false)
    | none => mem.map (fun v => (v, false))
  | .accessError => none

/-- `n` doublewords of Mem_io at `a`. -/
def loadWords (m : Memory) (a : Nat) : Nat → List Word
  | 0 => []
  | n + 1 => m.load64 a :: loadWords m (a + 8) n

/-- The checks of a LEAF at level `l` (R236): aligned to its granule, the permission, U where required, A, and D on a
write. -/
def leafAllows (need : AccessKind) (user : Bool) (l : Nat) (e : Word) : Bool :=
  (fieldPa e).toNat % levelSize l == 0 &&
    (match need with
     | .exec => e.getLsbD 3
     | .read => e.getLsbD 1
     | .write => e.getLsbD 2 && e.getLsbD 7) &&
    (!user || e.getLsbD 4) && e.getLsbD 6

/-! The device context (spec/30_encoding.md R132 to R138). -/

/-- A device context's fields as the translation uses them. -/
structure Context where
  dtf : Bool
  s2 : Bool
  s2Root : Nat
  gscid : BitVec 16
  pscid : BitVec 20
  s1 : Bool
  s1Root : Nat
  msi : Bool
  msiBase : Nat
  mask : BitVec 52
  pattern : BitVec 52
  deriving DecidableEq, Repr

/-- The MODE of a pointer doubleword (R134, R136, R137). -/
def ptrMode (d : Word) : BitVec 4 := d.extractLsb' 60 4

/-- The fields of the context `w`. -/
def contextOf (f : DcFmt) (w : List Word) : Context where
  dtf := (w.getD 0 0).getLsbD 4
  s2 := ptrMode (w.getD 1 0) == 8
  s2Root := (ptrPa (w.getD 1 0)).toNat
  gscid := (w.getD 1 0).extractLsb' 44 16
  pscid := (w.getD 2 0).extractLsb' 12 20
  s1 := ptrMode (w.getD 3 0) == 8
  s1Root := (ptrPa (w.getD 3 0)).toNat
  msi := f == .ext && ptrMode (w.getD 4 0) == 1
  msiBase := (ptrPa (w.getD 4 0)).toNat
  mask := (w.getD 5 0).setWidth 52
  pattern := (w.getD 6 0).setWidth 52

/-- A reserved bit set or an unsupported mode (R235); the tc bits of features the block never turns on count as
unsupported (log 25). -/
def misconfigured (f : DcFmt) (w : List Word) : Bool :=
  (w.getD 0 0 &&& 0xFFFFFFFF00FFFFEE) != 0 ||
    !(ptrMode (w.getD 1 0) == 0 || ptrMode (w.getD 1 0) == 8) ||
    (w.getD 2 0 &&& 0xFFFFFFFF00000FFF) != 0 ||
    !(ptrMode (w.getD 3 0) == 0 || ptrMode (w.getD 3 0) == 8) || (w.getD 3 0 &&& 0x0FFFF00000000000) != 0 ||
    (f == .ext &&
      (!(ptrMode (w.getD 4 0) == 0 || ptrMode (w.getD 4 0) == 1) || (w.getD 4 0 &&& 0x0FFFF00000000000) != 0 ||
        (w.getD 5 0).extractLsb' 52 12 != 0 || (w.getD 6 0).extractLsb' 52 12 != 0 || w.getD 7 0 != 0))

/-- Read `n` doublewords of the directory at `a` for device `did`. -/
def readDdt (c : Config) (m : Memory) (did : BitVec 24) (a n : Nat) (w : Walk) : Option (List Word) × Walk :=
  let copies := (w.caches.ddt.filter (fun d => d.did == did && d.addr == a && d.words.length == n)).map (·.words)
  let mem := if accessible c a (8 * n) then some (loadWords m a n) else none
  match pickValue w.pick copies mem with
  | none => (none, w.next)
  | some (v, fill) =>
    (some v, if fill then { w.next with caches := { w.caches with ddt := w.caches.ddt ++ [⟨did, a, v⟩] } } else w.next)

/-- The non-leaf levels of the directory (R235): causes 257, 258, 259. -/
def directoryWalk (c : Config) (m : Memory) (did : BitVec 24) : Nat → Nat → Walk → Except XFault Nat × Walk
  | 0, t, w => (.ok t, w)
  | j + 1, t, w =>
    match readDdt c m did (t + 8 * ddi c.dcFmt did.toNat (j + 1)) 1 w with
    | (none, w) => (.error ⟨257, 0⟩, w)
    | (some e, w) =>
      let e := e.getD 0 0
      if !e.getLsbD 0 then (.error ⟨258, 0⟩, w)
      else if e.extractLsb' 1 9 != 0 || e.extractLsb' 54 10 != 0 then (.error ⟨259, 0⟩, w)
      else directoryWalk c m did j (fieldPa e).toNat w

/-- The device context of `did` in a directory of `l` levels (R235). A context that DDT.REBUILD has zeroed is cause 258,
as R235 and R296 say; R577's words name cause 256 for it (log 36). -/
def locateContext (c : Config) (m : Memory) (ddtp : Word) (l : Nat) (did : BitVec 24) (w : Walk) :
    Except XFault Context × Walk :=
  if 2 ^ idBits c.dcFmt l ≤ did.toNat then (.error ⟨260, 0⟩, w)
  else
    match directoryWalk c m did (l - 1) (fieldPa ddtp).toNat w with
    | (.error f, w) => (.error f, w)
    | (.ok t, w) =>
      match readDdt c m did (t + dcBytes c.dcFmt * ddi c.dcFmt did.toNat 0) (dcBytes c.dcFmt / 8) w with
      | (none, w) => (.error ⟨257, 0⟩, w)
      | (some dc, w) =>
        if !(dc.getD 0 0).getLsbD 0 then (.error ⟨258, 0⟩, w)
        else if misconfigured c.dcFmt dc then (.error ⟨259, 0⟩, w)
        else (.ok (contextOf c.dcFmt dc), w)

/-! The two stages (R236). -/

/-- The cached copies with the tags and slot of `key`, made for the same granule of addresses: what an invalidation of
that granule spares, it spares for every later use (spec/20_memory.md R104; log 22). -/
def pteCopies (c : Caches) (key : PteCopy) : List PteCopy :=
  c.iotlb.filter (fun d => d.stage == key.stage && d.gv == key.gv && d.gscid == key.gscid &&
    (d.stage == .s2 || d.pscid == key.pscid) && d.level == key.level && d.addr == key.addr &&
    d.page.toNat / levelSize key.level == key.page.toNat / levelSize key.level)

/-- The next pick takes a copy that exists. -/
def takesCopy (key : PteCopy) (w : Walk) : Bool :=
  match w.pick with
  | .cached k => k < (pteCopies w.caches key).length
  | _ => false

/-- A page-table entry: the pick's copy with the same tags and slot, or the memory at `a`. -/
def readPte (c : Config) (m : Memory) (key : PteCopy) (a : Nat) (w : Walk) : Option PteCopy × Walk :=
  let mem := if accessible c a 8 then some { key with val := m.load64 a } else none
  match pickValue w.pick (pteCopies w.caches key) mem with
  | none => (none, w.next)
  | some (e, fill) =>
    (some e, if fill then { w.next with caches := { w.caches with iotlb := w.caches.iotlb ++ [e] } } else w.next)

/-- The stage-2 walk of `gpa`, `n` levels left, for a transaction of kind `of` that needs `need` of the leaf: the
address and the leaf's level. Every stage-2 access is a user access. -/
def stage2Walk (c : Config) (m : Memory) (x : Context) (of need : AccessKind) (gpa : Word) :
    Nat → Nat → Walk → Except XFault (Word × Nat) × Walk
  | 0, _, w => (.error ⟨guestPageFault of, gpa⟩, w)
  | n + 1, t, w =>
    let l := 2 - n
    let a := slot t .s2 l gpa
    match readPte c m ⟨.s2, true, x.gscid, x.pscid, l, a, gpa, 0, []⟩ a w with
    | (none, w) => (.error ⟨accessFault of, 0⟩, w)
    | (some e, w) =>
      match kind e.val with
      | .nonleaf => stage2Walk c m x of need gpa n (fieldPa e.val).toNat w
      | .leaf =>
        if leafAllows need true l e.val then (.ok (leafTarget e.val gpa l, l), w)
        else (.error ⟨guestPageFault of, gpa⟩, w)
      | _ => (.error ⟨guestPageFault of, gpa⟩, w)

/-- Stage 2: Bare gives the address itself; Sv39x4 walks, and bits 63:41 must be 0. -/
def stage2 (c : Config) (m : Memory) (x : Context) (of need : AccessKind) (gpa : Word) (w : Walk) :
    Except XFault (Word × Nat) × Walk :=
  if !x.s2 then (.ok (gpa, 2), w)
  else if !fits 41 gpa then (.error ⟨guestPageFault of, gpa⟩, w)
  else stage2Walk c m x of need gpa 3 x.s2Root w

/-- The stage-1 walk of `iova`, `n` levels left. A table address goes through stage 2 when stage 2 is active (R230,
log 26), and the walk remembers it as used; a copy of the entry needs no such access and brings what it used. -/
def stage1Walk (c : Config) (m : Memory) (x : Context) (of : AccessKind) (priv : Bool) (iova : Word) :
    Nat → Nat → List GuestUse → Walk → Except XFault Word × Walk
  | 0, _, _, w => (.error ⟨pageFault of, 0⟩, w)
  | n + 1, t, used, w =>
    let l := 2 - n
    let a := slot t .s1 l iova
    let ga : Word := BitVec.ofNat 64 a
    let key : PteCopy := ⟨.s1, x.s2, x.gscid, x.pscid, l, a, iova, 0, used⟩
    let afterRead (r : Option PteCopy × Walk) : Except XFault Word × Walk :=
      match r with
      | (none, w) => (.error ⟨accessFault of, 0⟩, w)
      | (some e, w) =>
        match kind e.val with
        | .nonleaf => stage1Walk c m x of priv iova n (fieldPa e.val).toNat e.gpas w
        | .leaf =>
          if leafAllows of (!priv) l e.val then (.ok (leafTarget e.val iova l), w) else (.error ⟨pageFault of, 0⟩, w)
        | _ => (.error ⟨pageFault of, 0⟩, w)
    if x.s2 && !takesCopy key w then
      match stage2 c m x of .read ga w.next with
      | (.error f, w) => (.error f, w)
      | (.ok (pa, leaf), w') =>
        afterRead (readPte c m { key with gpas := used ++ [⟨ga, leaf⟩] } pa.toNat { w' with picks := w.pick :: w'.picks })
    else afterRead (readPte c m key a w)

/-- Stage 1: Bare gives the IOVA; Sv39 needs a canonical IOVA. -/
def stage1 (c : Config) (m : Memory) (x : Context) (of : AccessKind) (priv : Bool) (iova : Word) (w : Walk) :
    Except XFault Word × Walk :=
  if !x.s1 then (.ok iova, w)
  else if !canonical39 iova then (.error ⟨pageFault of, 0⟩, w)
  else stage1Walk c m x of priv iova 3 x.s1Root [] w

/-! MSI translation (R237). -/

/-- Where a translated transaction goes. -/
inductive Target where
  | mem (pa : Word)
  | mrif (mrif notice nid : Word)
  deriving DecidableEq, Repr

/-- The target of an MSI remap entry (spec/30_encoding.md R140 to R142): causes 262 and 263. -/
def msiTarget (gpa d0 d1 : Word) : Except XFault Target :=
  if !d0.getLsbD 0 then .error ⟨262, 0⟩
  else if d0.getLsbD 63 then .error ⟨263, 0⟩
  else if d0.extractLsb' 1 2 == 3 then
    if (d0 &&& 0x7FC00000000003F8) != 0 || d1 != 0 then .error ⟨263, 0⟩
    else .ok (.mem (fieldPa d0 ||| (gpa &&& 0xFFF)))
  else if d0.extractLsb' 1 2 == 1 then
    if (d0 &&& 0x7FC0000000000078) != 0 || (d1 &&& 0xEFC0000000000000) != 0 then .error ⟨263, 0⟩
    else .ok (.mrif (mrifPa d0) (fieldPa d1) ((d1 &&& 0x3FF) ||| (if d1.getLsbD 60 then 0x400 else 0)))
  else .error ⟨263, 0⟩

/-- The MSI remap entry of a matching write (R237), or a copy made for the same guest page (log 22): cause 261 on an
access error. -/
def msiTranslate (c : Config) (m : Memory) (x : Context) (gpa : Word) (w : Walk) : Except XFault Target × Walk :=
  let a := x.msiBase + 16 * msiIndex gpa x.mask
  let copies := (w.caches.msi.filter (fun d =>
    d.gscid == x.gscid && d.addr == a && guestPage d.page == guestPage gpa)).map (fun d => (d.dw0, d.dw1))
  let mem := if accessible c a 16 then some (m.load64 a, m.load64 (a + 8)) else none
  match pickValue w.pick copies mem with
  | none => (.error ⟨261, 0⟩, w.next)
  | some ((d0, d1), fill) =>
    (msiTarget gpa d0 d1,
      if fill then { w.next with caches := { w.caches with msi := w.caches.msi ++ [⟨x.gscid, a, gpa, d0, d1⟩] } }
      else w.next)

/-- R234 steps 2 to 4 on a context: stage 1, then MSI translation of a matching write, else stage 2. -/
def translateIn (c : Config) (m : Memory) (x : Context) (of : AccessKind) (t : Transaction) (w : Walk) :
    Except XFault Target × Walk :=
  match stage1 c m x of t.priv t.iova w with
  | (.error f, w) => (.error f, w)
  | (.ok gpa, w) =>
    if x.msi && of == .write && msiMatch gpa x.mask x.pattern then msiTranslate c m x gpa w
    else
      match stage2 c m x of of gpa w with
      | (.error f, w) => (.error f, w)
      | (.ok (pa, _), w) => (.ok (.mem pa), w)

/-- R234 steps 1 to 4: the target of a transaction or its fault; with it, whether the context located has DTF = 1. A
type that makes no access is disallowed, cause 260, after the causes 257 to 259 of the directory (log 23). -/
def translate (c : Config) (m : Memory) (ddtp : Word) (t : Transaction) (w : Walk) :
    (Except XFault Target × Bool) × Walk :=
  match (ddtpMode ddtp).toNat with
  | 1 => ((if (accessKind t.ttyp).isSome then .ok (.mem t.iova) else .error ⟨260, 0⟩, false), w)
  | 2 | 3 | 4 =>
    match locateContext c m ddtp ((ddtpMode ddtp).toNat - 1) t.did w with
    | (.error f, w) => ((.error f, false), w)
    | (.ok x, w) =>
      match accessKind t.ttyp with
      | none => ((.error ⟨260, 0⟩, x.dtf), w)
      | some of =>
        let r := translateIn c m x of t w
        ((r.1, x.dtf), r.2)
  | _ => ((.error ⟨256, 0⟩, false), w)

/-! Transactions (R234). -/

/-- What a translation leaves to do. -/
def stepOf : Except XFault Target → AccessStep
  | .error f => .report f
  | .ok (.mem pa) => .access pa
  | .ok (.mrif mrif notice nid) => .mrif mrif notice nid

/-- The translation of a transaction as the IOMMU stands, and the caches after it. -/
def translated (t : Transaction) (picks : List Pick) (s : State) : Access × State :=
  let r := translate s.cfg s.memIo s.regs.ddtp t ⟨s.caches, picks⟩
  (⟨t, r.1.2, stepOf r.1.1⟩, { s with caches := r.2.caches })

/-- A transaction is translated and is under way (log 33). -/
def beginTransaction (t : Transaction) (picks : List Pick) (s : State) : State :=
  let (x, s) := translated t picks s
  setInFlight (s.engine.inFlight ++ [x]) s

/-- A whole transaction (R234 to R238). -/
def transact (t : Transaction) (picks : List Pick) (hold : Bool) (s : State) : State :=
  let (x, s) := translated t picks s
  accessFinish hold x s

/-- The table reads of a transaction, for the caches alone (spec/20_memory.md R104). -/
def prefetch (t : Transaction) (picks : List Pick) (s : State) : State := (translated t picks s).2

end Sys2Proof.Machine
end

