-- ==== Sys2Proof/Machine/Env.lean ====
section
/-! DEFINITION. The environment between the block's steps (spec/20_memory.md R96, R97; spec/70_reset_and_hazards.md
R592): its moves, the interleaving point, and the schedule it follows when no move is given. -/

namespace Sys2Proof.Machine

/-- Two ranges of bytes meet. -/
def PendingWrite.meets (p : PendingWrite) (r : ByteRange) : Bool := overlaps p.addr 8 r.addr r.size

/-- No element of P before the `k`-th covers a byte of it: per-location order is kept (R96; log 12). -/
def mayDrain (pend : List PendingWrite) (k : Nat) (p : PendingWrite) : Bool :=
  (pend.take k).all (fun q => !q.meets ⟨p.addr, 8⟩)

/-- The drain of the `k`-th element of P (R96). -/
def drain (k : Nat) (s : State) : State :=
  match s.pend[k]? with
  | none => s
  | some p =>
    if mayDrain s.pend k p then { s with memIo := s.memIo.store64 p.addr p.val, pend := s.pend.eraseIdx k } else s

/-- The `k`-th range of other agents' writes becomes visible to the block, unless the block itself has a pending write
there (R92, R97; log 13). -/
def reveal (k : Nat) (s : State) : State :=
  match s.unseen[k]? with
  | none => s
  | some r =>
    if s.pend.any (fun p => p.meets r) then s
    else { s with memBlk := s.memBlk.copyFrom s.memIo r, unseen := s.unseen.eraseIdx k }

/-- The `k`-th invalidation in progress completes (R104). -/
def completeOne (k : Nat) (c : Caches) : Caches :=
  match c.inProgress[k]? with
  | none => c
  | some i => { invalidate i c with inProgress := c.inProgress.eraseIdx k }

/-- The IOMMU sets ddtp.busy (spec/10_state.md R39). -/
def setDdtpBusy (b : Bool) (s : State) : State :=
  { s with regs := { s.regs with
      ddtp := if b then s.regs.ddtp ||| 0x10 else s.regs.ddtp &&& ~~~0x10 } }

/-- A queue status register with the busy bit and custom bits as the IOMMU shows them (R42, R43; log 18). -/
def csrOther (busy : Bool) (custom : BitVec 4) (v : BitVec 32) : BitVec 32 :=
  setBit ((v &&& 0x0FFFFFFF) ||| (custom.setWidth 32 <<< 28)) 17 busy

/-- One move of the environment; a move that is not enabled does nothing. -/
def perform (a : EnvAct) (s : State) : State :=
  match a with
  | .drain k => drain k s
  | .reveal k => reveal k s
  | .fetchCommand => fetchCommand s
  | .consume later => consumeCommand later s
  | .commandStep later => commandStep later s
  | .complete k => { s with caches := completeOne k s.caches }
  | .cqFollow => cqFollow s
  | .fqFollow => fqFollow s
  | .ddtpBusy b => setDdtpBusy b s
  | .warlMode m => { s with warlMode := m }
  | .cqcsrOther b v => { s with regs := { s.regs with cqcsr := csrOther b v s.regs.cqcsr } }
  | .fqcsrOther b v => { s with regs := { s.regs with fqcsr := csrOther b v s.regs.fqcsr } }
  | .commandTimeout => setCqcsr 9 true s
  | .cqAccessError => commandAccessError s
  | .fqAccessError => reportAccessError s
  | .report w0 w1 w2 w3 hold => reportRecord w0 w1 w2 w3 hold s
  | .advanceFqt => advanceFqt s
  | .transact t picks hold => transact t picks hold s
  | .translate t picks => beginTransaction t picks s
  | .proceed k hold => proceed k hold s
  | .prefetch t picks => prefetch t picks s

/-- The moves of a list, in order. -/
def performAll (acts : List EnvAct) (s : State) : State := acts.foldl (fun s a => perform a s) s

/-- `n` consumer steps. -/
def consumeMany : Nat → State → State
  | 0, s => s
  | n + 1, s => consumeMany n (consumeCommand false s)

/-- The IOMMU runs to quiescence (spec/95_test_vectors.md section 0.2): it clears busy bits, makes cqon and fqon follow
the enables, finishes a record's advance and the transactions under way, and consumes every command between cqh and
cqt. This is the environment's schedule once `weave` is used up, and it is what the progress assumption of
spec/92_eei_decisions.md D35 asks (log 8). -/
def quiesce (s : State) : State :=
  let s := setDdtpBusy false s
  let s := setFqcsr 17 false (setCqcsr 17 false s)
  let s := awaitTransactions true true (advanceFqt (fqFollow (cqFollow s)))
  consumeMany (cqOutstanding s.regs) s

/-- An interleaving point before a step that is no register read: the next moves of `weave`. -/
def pause (s : State) : State :=
  match s.weave with
  | [] => s
  | acts :: rest => performAll acts { s with weave := rest }

/-- An interleaving point before a register read: as `pause`, and quiescence once `weave` is used up. -/
def pauseRead (s : State) : State :=
  match s.weave with
  | [] => quiesce s
  | acts :: rest => performAll acts { s with weave := rest }

end Sys2Proof.Machine
end

