-- ==== Sys2Proof/Machine/Ops.lean ====
section
/-! DEFINITION. The pseudocode primitives of spec/00_scope.md R11 and R12: memory and register accesses, the fence,
`finish` and `raise` (the block's whole exception mechanism: spec/60_exceptions.md R500 to R504), and `wait until`;
and the regions of the instance (spec/00_scope.md R8). Each access is preceded by an interleaving point. -/

namespace Sys2Proof.Machine

/-- MemRead(a, 8): the block's view (spec/20_memory.md R92). -/
def memRead (a : Nat) (s : State) : Word × State :=
  let s := pause s
  (s.memBlk.load64 a, s)

/-- MemWrite(a, 8, v): the block's view at once, and P (R96). -/
def memWrite (a : Nat) (v : Word) (s : State) : State :=
  let s := pause s
  { s with memBlk := s.memBlk.store64 a v, pend := s.pend ++ [⟨a, v⟩] }

/-- P drained into Mem_io, oldest first. -/
def drainAll (m : Memory) (pend : List PendingWrite) : Memory :=
  pend.foldl (fun m p => m.store64 p.addr p.val) m

/-- The block's view of every range of other agents' writes. -/
def revealAll (m src : Memory) (unseen : List ByteRange) : Memory :=
  unseen.foldl (fun m r => m.copyFrom src r) m

/-- FENCE (spec/48_fence.md R410; R95 to R97): the environment drains P, and what other agents wrote before it becomes
visible to the block. -/
def fence (s : State) : State :=
  let s := pause s
  let io := drainAll s.memIo s.pend
  { s with memIo := io, pend := [], memBlk := revealAll s.memBlk io s.unseen, unseen := [] }

/-- MmioRead32, MmioRead64, zero-extended (spec/20_memory.md R93). -/
def mmioRead (r : MmioReg) (s : State) : Word × State :=
  let s := pauseRead s
  (s.regs.get r, s)

/-- MmioWrite32, MmioWrite64 (R93: not delayed). -/
def mmioWrite (r : MmioReg) (v : Word) (s : State) : State :=
  let s := pause s
  { s with regs := s.regs.set s.cfg s.warlMode r v }

/-- `finish <STATUS>(…)`: all nine result registers are written and the block returns to IDLE (R11, spec/10_state.md
R32, R33). -/
def State.finish (s : State) (r : Result) : State := { s with res := r, phase := .idle, wait := none }

/-- Result words with a status; words not named are 0 (R32). -/
def result (st : Status) (r0 : Word := 0) (r1 : Word := 0) (r2 : Word := 0) (r3 : Word := 0) (r4 : Word := 0)
    (r5 : Word := 0) (r6 : Word := 0) (r7 : Word := 0) : Result :=
  ⟨st.code, r0, r1, r2, r3, r4, r5, r6, r7⟩

/-- `finish` as an operation's outcome. -/
def done (s : State) (r : Result) : Host.Outcome State Fault Refusal := .next (s.finish r)

/-- `raise <ERR>`: `finish` with all result words 0 (R11). The block's one exception entry: no handler, no saved state
beyond RES (spec/60_exceptions.md R504). -/
def raise (st : Status) (s : State) : Host.Outcome State Fault Refusal := done s (result st)

/-- The block stays BUSY in a wait (spec/10_state.md R33). -/
def hang (w : WaitPoint) (s : State) : Host.Outcome State Fault Refusal :=
  .next { s with phase := .busy, wait := some w }

/-- At most `n` polls. -/
def pollLoop {α : Type} (poll : State → Option α × State) : Nat → State → Option α × State
  | 0, s => (none, s)
  | n + 1, s =>
    match poll s with
    | (some v, s) => (some v, s)
    | (none, s) => pollLoop poll n s

/-- The polls a wait makes before it ends or is left to the next step: POLL_BOUND, or enough to use up `weave` and poll
once with the IOMMU quiescent (R12; log 9). -/
def pollCount (s : State) : Nat := s.cfg.pollBound.getD (s.weave.length + 1)

/-- `wait until` (R12): when a poll finds the condition true, go on with what it read; after POLL_BOUND polls,
ERR_TIMEOUT; unbounded, the block stays BUSY. -/
def await {α : Type} (poll : State → Option α × State) (w : WaitPoint)
    (go : α → State → Host.Outcome State Fault Refusal) (s : State) : Host.Outcome State Fault Refusal :=
  match pollLoop poll (pollCount s) s with
  | (some v, s) => go v s
  | (none, s) => if s.cfg.pollBound.isSome then raise .errTimeout s else hang w s

/-- MemWrite of 0 to the `n` doublewords at `a`, `a + 8`, … -/
def zeroFill : Nat → Nat → State → State
  | 0, _, s => s
  | n + 1, a, s => zeroFill n (a + 8) (memWrite a 0 s)

/-- Update the block's registers. -/
def State.setBlk (s : State) (f : BlockRegs → BlockRegs) : State := { s with blk := f s.blk }

/-! The regions of an instance (R8). -/

/-- The command queue's region, 16 bytes a slot (R167): as the block holds it while the queue is READY, as cqb holds it
while it is DISABLED and cqen or cqon is 1 (log 10). -/
def cqRegion (b : BlockRegs) (g : IommuRegs) : ByteRange :=
  match b.cqState with
  | .ready => ⟨b.cqBase.toNat, 16 * 2 ^ b.cqLog2n.toNat⟩
  | .disabled => if cqEn g || cqOn g then ⟨(fieldPa g.cqb).toNat, 16 * queueCap g.cqb⟩ else ⟨0, 0⟩

/-- The fault queue's region, 32 bytes a record, likewise (log 10). -/
def fqRegion (b : BlockRegs) (g : IommuRegs) : ByteRange :=
  match b.fqState with
  | .ready => ⟨b.fqBase.toNat, 32 * 2 ^ b.fqLog2n.toNat⟩
  | .disabled => if fqEn g || fqOn g then ⟨(fieldPa g.fqb).toNat, 32 * queueCap g.fqb⟩ else ⟨0, 0⟩

/-- The pool, the directory region, the MSI region and the two queues. -/
def blockRegions (s : State) : List ByteRange :=
  [⟨s.cfg.poolBase.toNat, 4096 * s.cfg.poolPages⟩, ⟨s.cfg.ddtBase.toNat, 4096 * s.cfg.ddtPages⟩,
    ⟨s.cfg.msiBase.toNat, 4096 * s.cfg.msiPages⟩, cqRegion s.blk s.regs,
    fqRegion s.blk s.regs]

/-- The register file's window. -/
def registerWindow (c : Config) : ByteRange := ⟨c.iommuBase.toNat, 4096⟩

/-- `[a, a + n)` meets one of the ranges. -/
def meetsAny (a n : Nat) (rs : List ByteRange) : Bool := rs.any (fun r => overlaps a n r.addr r.size)

/-- No two ranges of a list meet. -/
def disjointAll : List ByteRange → Bool
  | [] => true
  | r :: rs => !meetsAny r.addr r.size rs && disjointAll rs

/-- The constraints of R8 on the parameters' types and alignments. -/
def Config.paramsOk (c : Config) : Bool :=
  decide (aligned 12 c.iommuBase = true ∧ 1 ≤ c.didW ∧ c.didW ≤ 24 ∧ aligned 14 c.poolBase = true ∧ 5 ≤ c.poolPages ∧
    aligned 12 c.ddtBase = true ∧ 1 ≤ c.ddtPages ∧ c.msiPages ∈ [1, 2, 4, 8, 16, 32, 64, 128, 256] ∧
    c.msiBase.toNat % (c.msiPages * 4096) = 0 ∧ 1 ≤ c.cqLog2nMax ∧ c.cqLog2nMax ≤ 32 ∧ 1 ≤ c.fqLog2nMax ∧
    c.fqLog2nMax ≤ 32 ∧ c.pollBound ≠ some 0)

/-- The instance is well formed (R8): parameters as they must be, every region inside physical memory, no two regions
overlapping, none overlapping the register file. -/
def wellPlaced (s : State) : Bool :=
  decide (Config.paramsOk s.cfg = true ∧ (∀ r ∈ registerWindow s.cfg :: blockRegions s, r.addr + r.size ≤ paLimit) ∧
    disjointAll (registerWindow s.cfg :: blockRegions s) = true)

end Sys2Proof.Machine
end

