-- ==== Sys2Proof/Machine/Builder.lean ====
section
/-! DEFINITION. The page-table builder's meanings (spec/42_builder.md): PT.INIT, PT.MAP, PT.LOOKUP. -/

namespace Sys2Proof.Machine

/-- PT.INIT (R222). -/
def execPtInit (s : State) : Host.Outcome State Fault Refusal :=
  let root2 := s.cfg.poolBase
  let root1 := s.cfg.poolBase + 0x4000
  let s := fence (zeroFill (5 * 512) root2.toNat s)
  let s := s.setBlk (fun b =>
    { b with s2Root := root2.setWidth 56, s1Root := root1.setWidth 56, poolNext := 5, ptReady := true })
  done s (result .ok root2 root1)

/-- `root(s)` (R224). -/
def rootOf (b : BlockRegs) : Stage → Nat
  | .s1 => b.s1Root.toNat
  | .s2 => b.s2Root.toNat

/-- The address prefix that names the table of level `l` that `x` walks through (R228). -/
def tablePrefix (l : Nat) (x : Word) : Nat := x.toNat / 2 ^ (39 - 9 * l)

/-- Remember the tables of levels `l`, .., `l + n - 1` on the path of `x`, each once (R228). -/
def noteTables (x : Word) : Nat → Nat → List (Nat × Nat) → List (Nat × Nat)
  | 0, _, news => news
  | n + 1, l, news =>
    let t := (l, tablePrefix l x)
    noteTables x n (l + 1) (if news.contains t then news else t :: news)

/-- The dry run's walk of one granule from table `t` at level `l`, `n` levels above the leaf (R227, R228); none is a
conflict. -/
def dryWalk (st : Stage) (x : Word) : Nat → Nat → Nat → List (Nat × Nat) → State → Option (List (Nat × Nat)) × State
  | 0, l, t, news, s =>
    let (e, s) := memRead (slot t st l x) s
    match kind e with
    | .invalid | .leaf => (some news, s)
    | .nonleaf | .reserved => (none, s)
  | n + 1, l, t, news, s =>
    let (e, s) := memRead (slot t st l x) s
    match kind e with
    | .invalid => (some (noteTables x (n + 1) (l + 1) news), s)
    | .nonleaf => dryWalk st x n (l + 1) (fieldPa e).toNat news s
    | .leaf | .reserved => (none, s)

/-- `dry_run` (R228): the tables to allocate for `n` granules from `x`, or none at the first conflict. -/
def dryRun (st : Stage) (g : BitVec 2) : Nat → Word → List (Nat × Nat) → State → Option (List (Nat × Nat)) × State
  | 0, _, news, s => (some news, s)
  | n + 1, x, news, s =>
    match dryWalk st x (leafLevel g) 0 (rootOf s.blk st) news s with
    | (none, s) => (none, s)
    | (some news, s) => dryRun st g n (x + BitVec.ofNat 64 (granule g)) news s

/-- Allocate, zero, fence, link (R221, R226): a new table, linked by the entry at `ea`. pool_next is 32 bits wide
(log 11). -/
def allocTable (ea : Nat) (s : State) : Nat × State :=
  let t := s.cfg.poolBase.toNat + 4096 * s.blk.poolNext.toNat
  let s := s.setBlk (fun b => { b with poolNext := b.poolNext + 1 })
  let s := fence (zeroFill 512 t s)
  (t, memWrite ea (nonleafPte (BitVec.ofNat 64 t)) s)

/-- The commit phase's walk of one granule to its last table, inserting non-leaf entries (R225). -/
def descend (st : Stage) (x : Word) : Nat → Nat → Nat → State → Nat × State
  | 0, _, t, s => (t, s)
  | n + 1, l, t, s =>
    let ea := slot t st l x
    let (e, s) := memRead ea s
    match kind e with
    | .invalid =>
      let (t, s) := allocTable ea s
      descend st x n (l + 1) t s
    | .nonleaf | .leaf | .reserved => descend st x n (l + 1) (fieldPa e).toNat s

/-- The commit phase (R225): `n` granules from `x` to `p`; also the address of the last leaf written. -/
def mapGranules (st : Stage) (g : BitVec 2) (fl : BitVec 7) : Nat → Word → Word → Nat → State → Nat × State
  | 0, _, _, last, s => (last, s)
  | n + 1, x, p, _, s =>
    let (t, s) := descend st x (leafLevel g) 0 (rootOf s.blk st) s
    let last := slot t st (leafLevel g) x
    let s := memWrite last (leafPte p fl) s
    mapGranules st g fl n (x + BitVec.ofNat 64 (granule g)) (p + BitVec.ofNat 64 (granule g)) last s

/-- The alignment check of R225. -/
def mapAligned (g : BitVec 2) (a0 a1 : Word) : Bool := a0.toNat % granule g == 0 && a1.toNat % granule g == 0

/-- The range checks of R223, on unbounded integers. -/
def mapInRange (st : Stage) (g : BitVec 2) (a0 a1 a2 : Word) : Bool :=
  let v := a0.toNat
  let len := a2.toNat * granule g
  1 ≤ a2.toNat &&
    (match st with
     | .s1 => v + len ≤ 2 ^ 38 || (2 ^ 64 - 2 ^ 38 ≤ v && v + len ≤ 2 ^ 64)
     | .s2 => v + len ≤ 2 ^ 41) &&
    a1.toNat + len ≤ 2 ^ 56

/-- PT.MAP (R225). -/
def execPtMap (st : Stage) (g : BitVec 2) (fl : BitVec 7) (a0 a1 a2 : Word) (s : State) :
    Host.Outcome State Fault Refusal :=
  if !s.blk.ptReady then raise .errState s
  else if g = 3 then raise .errIllegalReq s
  else if !mapAligned g a0 a1 then raise .errAlign s
  else if !mapInRange st g a0 a1 a2 then raise .errRange s
  else if !legalLeaf fl then raise .errFlags s
  else
    match dryRun st g a2.toNat a0 [] s with
    | (none, s) => raise .errConflict s
    | (some news, s) =>
      if s.cfg.poolPages < s.blk.poolNext.toNat + news.length then raise .errPool s
      else
        let (last, s) := mapGranules st g fl a2.toNat a0 a1 0 s
        done s (result .ok (BitVec.ofNat 64 news.length) (BitVec.ofNat 64 last))

/-- The walk of PT.LOOKUP (R232) from table `t`, `n` levels left. -/
def lookupWalk (st : Stage) (x : Word) : Nat → Nat → State → Result × State
  | 0, _, s => (result .none, s)
  | n + 1, t, s =>
    let l := 2 - n
    let ea := slot t st l x
    let (e, s) := memRead ea s
    let nothing := result .none 0 e (BitVec.ofNat 64 l) (BitVec.ofNat 64 ea)
    match kind e with
    | .invalid | .reserved => (nothing, s)
    | .nonleaf => if n = 0 then (nothing, s) else lookupWalk st x n (fieldPa e).toNat s
    | .leaf => (result .ok (leafTarget e x l) e (BitVec.ofNat 64 l) (BitVec.ofNat 64 ea), s)

/-- The range checks of R232. -/
def lookupInRange (st : Stage) (x : Word) : Bool :=
  match st with
  | .s1 => canonical39 x
  | .s2 => fits 41 x

/-- PT.LOOKUP (R232). -/
def execPtLookup (st : Stage) (a0 : Word) (s : State) : Host.Outcome State Fault Refusal :=
  if !s.blk.ptReady then raise .errState s
  else if !lookupInRange st a0 then raise .errRange s
  else
    let (r, s) := lookupWalk st a0 3 (rootOf s.blk st) s
    done s r

end Sys2Proof.Machine
end

