-- ==== Sys2Proof/Machine/Cmd.lean ====
section
/-! DEFINITION. The command encoders' meanings (spec/45_cmdq.md R340 to R344): pure functions of the request. -/

namespace Sys2Proof.Machine

/-- A field that is written only when its valid bit is 1, at bit `i` (R340 to R343; spec/92_eei_decisions.md D27). -/
def fieldIf (b : Bool) (v : Word) (i : Nat) : Word := if b then v <<< i else 0

/-- The first doubleword of an IOFENCE.C with PR = PW = 0 (R343). -/
def fenceWord0 (av wsi : Bool) (data : Word) : Word :=
  2 ||| (bit av <<< 10) ||| (bit wsi <<< 11) ||| fieldIf av data 32

/-- CMD.IODIR_DDT (R340). -/
def execCmdIodirDdt (dv : Bool) (a0 : Word) (s : State) : Host.Outcome State Fault Refusal :=
  if dv && !fits 24 a0 then raise .errRange s
  else done s (result .ok (3 ||| (bit dv <<< 33) ||| fieldIf dv a0 40))

/-- CMD.IOTINVAL_VMA (R341). -/
def execCmdIotinvalVma (av gv pscv : Bool) (a0 a1 a2 : Word) (s : State) : Host.Outcome State Fault Refusal :=
  if av && !aligned 12 a0 then raise .errAlign s
  else if (gv && !fits 16 a1) || (pscv && !fits 20 a2) then raise .errRange s
  else
    done s (result .ok
      (1 ||| (bit av <<< 10) ||| fieldIf pscv a2 12 ||| (bit pscv <<< 32) ||| (bit gv <<< 33) ||| fieldIf gv a1 44)
      (if av then tlbAddrField a0 else 0))

/-- CMD.IOTINVAL_GVMA (R342). -/
def execCmdIotinvalGvma (av gv : Bool) (a0 a1 : Word) (s : State) : Host.Outcome State Fault Refusal :=
  if av && !aligned 12 a0 then raise .errAlign s
  else if gv && !fits 16 a1 then raise .errRange s
  else
    done s (result .ok (1 ||| (1 <<< 7) ||| (bit av <<< 10) ||| (bit gv <<< 33) ||| fieldIf gv a1 44)
      (if av then tlbAddrField a0 else 0))

/-- CMD.IOFENCE_C (R343). -/
def execCmdIofenceC (av wsi : Bool) (a0 a1 : Word) (s : State) : Host.Outcome State Fault Refusal :=
  if av && !aligned 2 a0 then raise .errAlign s
  else if av && (!fits 56 a0 || !fits 32 a1) then raise .errRange s
  else done s (result .ok (fenceWord0 av wsi a1) (if av then fenceAddrField a0 else 0))

end Sys2Proof.Machine
end

