-- ==== Sys2Proof/Machine/Cmdq.lean ====
section
/-! DEFINITION. The command-queue producer's meanings (spec/45_cmdq.md section 2): CQ.INIT, CQ.SUBMIT, CQ.WAIT,
CQ.STATUS, CQ.CLEAR, CQ.DISABLE, CQ.SYNC. -/

namespace Sys2Proof.Machine

/-- A queue's region fits (R346, R382): the alignment check for `2^n` slots of `2^w` bytes. -/
def queueAligned (w : Nat) (n : BitVec 6) (a0 : Word) : Bool := a0.toNat % max 4096 (2 ^ w * 2 ^ n.toNat) == 0

/-- The queue lies below 2^56 (R346, R382). -/
def queueFits (w : Nat) (n : BitVec 6) (a0 : Word) : Bool := a0.toNat + 2 ^ w * 2 ^ n.toNat ≤ 2 ^ 56

/-- A queue base register's value for a queue at `a0` with `2^n` slots (R346, R382). -/
def queueBase (n : BitVec 6) (a0 : Word) : Word := ppnField a0 ||| (n.setWidth 64 - 1)

/-- cqen or cqon, fqen or fqon of a status register's value: bits 0 and 16 (R42, R43). -/
def enOrOn (c : Word) : Bool := c.getLsbD 0 || c.getLsbD 16

/-- A poll of the on-bit: is bit 16 of the status register `r` equal to `b`? (R346, R354, R382, R389) -/
def pollOn (r : MmioReg) (b : Bool) (s : State) : Option Unit × State :=
  let (c, s) := mmioRead r s
  (if c.getLsbD 16 == b then some () else none, s)

/-- CQ.INIT after its wait (R346). -/
def cqInitDone (a0 : Word) (n : BitVec 6) (t0 : Word) (s : State) : Host.Outcome State Fault Refusal :=
  done (s.setBlk (fun b => { b with cqBase := a0.setWidth 56, cqLog2n := n, cqState := .ready })) (result .ok t0)

/-- CQ.INIT's wait (R346). -/
def cqInitWait (a0 : Word) (n : BitVec 6) (t0 : Word) (s : State) : Host.Outcome State Fault Refusal :=
  await (pollOn .cqcsr true) (.cqInit a0 n t0) (fun _ => cqInitDone a0 n t0) s

/-- CQ.INIT (R346). -/
def execCqInit (n : BitVec 6) (cie : Bool) (a0 : Word) (s : State) : Host.Outcome State Fault Refusal :=
  if s.blk.cqState ≠ .disabled then raise .errState s
  else if n.toNat < 1 || s.cfg.cqLog2nMax < n.toNat then raise .errRange s
  else if !queueAligned 4 n a0 then raise .errAlign s
  else if !queueFits 4 n a0 then raise .errRange s
  else
    let (c, s) := mmioRead .cqcsr s
    if enOrOn c then raise .errState s
    else
      let s := mmioWrite .cqb (queueBase n a0) s
      let (h, s) := mmioRead .cqh s
      let t0 := if s.cfg.enableResetsIndex then 0 else h
      let s := mmioWrite .cqt t0 s
      cqInitWait a0 n t0 (mmioWrite .cqcsr (1 ||| (bit cie <<< 1)) s)

/-- N_cq (R345). -/
def cqCapacity (b : BlockRegs) : Nat := 2 ^ b.cqLog2n.toNat

/-- `cq_slot(i)` (R345). -/
def cqSlot (b : BlockRegs) (i : Word) : Word := slotAddr (b.cqBase.setWidth 64) i 4

/-- A poll of CQ.SYNC's wait (R355): a stop bit, or a FENCE and the completion word. -/
def pollSync (a0 a1 : Word) (s : State) : Option Word × State :=
  let (c, s) := mmioRead .cqcsr s
  if cqErr (c.setWidth 32) then (some c, s)
  else
    let (v, s) := memRead a0.toNat (fence s)
    (if v &&& 0xFFFFFFFF = a1 then some c else none, s)

/-- CQ.SYNC after its wait (R355). -/
def syncFinish (t c : Word) (s : State) : Host.Outcome State Fault Refusal :=
  if cqErr (c.setWidth 32) then done s (result .errQueue t c) else done s (result .ok t c)

/-- CQ.SYNC's wait (R355). -/
def syncWait (a0 a1 t : Word) (s : State) : Host.Outcome State Fault Refusal :=
  await (pollSync a0 a1) (.syncDone a0 a1 t) (syncFinish t) s

/-- What follows the tail write: the end of CQ.SUBMIT, or the wait of CQ.SYNC (R348, R355). -/
def submitThen (by_ : SubmitFor) (t a : Word) (s : State) : Host.Outcome State Fault Refusal :=
  match by_ with
  | .submit => done s (result .ok t a)
  | .sync a0 a1 => syncWait a0 a1 t s

/-- The slot stores and the tail write (R348). -/
def submitStore (d0 d1 t : Word) (by_ : SubmitFor) (s : State) : Host.Outcome State Fault Refusal :=
  let a := cqSlot s.blk t
  let s := fence (memWrite (a.toNat + 8) d1 (memWrite a.toNat d0 s))
  submitThen by_ t a (mmioWrite .cqt (t + 1) s)

/-- A poll of the full-queue wait (R347, R348). -/
def pollNotFull (t : Word) (s : State) : Option Word × State :=
  let (c, s) := mmioRead .cqcsr s
  if cqErr (c.setWidth 32) then (some c, s)
  else
    let (h, s) := mmioRead .cqh s
    (if (t.toNat + 1) % cqCapacity s.blk ≠ h.toNat then some c else none, s)

/-- CQ.SUBMIT's steps after the full-queue wait (R348). -/
def submitChecked (d0 d1 t : Word) (by_ : SubmitFor) (c : Word) (s : State) : Host.Outcome State Fault Refusal :=
  if cqErr (c.setWidth 32) then done s (result .errQueue t c) else submitStore d0 d1 t by_ s

/-- The full-queue wait (R348). -/
def submitWait (d0 d1 t : Word) (by_ : SubmitFor) (s : State) : Host.Outcome State Fault Refusal :=
  await (pollNotFull t) (.submit d0 d1 t by_) (submitChecked d0 d1 t by_) s

/-- The steps of CQ.SUBMIT on a READY queue (R348). -/
def submitSteps (d0 d1 : Word) (by_ : SubmitFor) (s : State) : Host.Outcome State Fault Refusal :=
  let (t, s) := mmioRead .cqt (fence s)
  if s.cfg.cqFullCheck then submitWait d0 d1 t by_ s else submitStore d0 d1 t by_ s

/-- CQ.SUBMIT (R348). -/
def execCqSubmit (a0 a1 : Word) (s : State) : Host.Outcome State Fault Refusal :=
  if s.blk.cqState ≠ .ready then raise .errState s else submitSteps a0 a1 .submit s

/-- A poll of CQ.WAIT (R350): the values of cqh and cqcsr. -/
def pollDrained (t : Word) (s : State) : Option (Word × Word) × State :=
  let (c, s) := mmioRead .cqcsr s
  let (h, s) := mmioRead .cqh s
  (if cqErr (c.setWidth 32) || h == t then some (h, c) else none, s)

/-- CQ.WAIT after its wait (R350). -/
def cqWaitFinish (hc : Word × Word) (s : State) : Host.Outcome State Fault Refusal :=
  if cqErr (hc.2.setWidth 32) then done s (result .errQueue hc.1 hc.2) else done (fence s) (result .ok hc.1 hc.2)

/-- CQ.WAIT's wait (R350). -/
def cqWaitWait (t : Word) (s : State) : Host.Outcome State Fault Refusal :=
  await (pollDrained t) (.cqWait t) cqWaitFinish s

/-- CQ.WAIT (R350). -/
def execCqWait (s : State) : Host.Outcome State Fault Refusal :=
  if s.blk.cqState ≠ .ready then raise .errState s
  else
    let (t, s) := mmioRead .cqt s
    cqWaitWait t s

/-- CQ.STATUS (R352). -/
def execCqStatus (s : State) : Host.Outcome State Fault Refusal :=
  let (c, s) := mmioRead .cqcsr s
  let (h, s) := mmioRead .cqh s
  let (t, s) := mmioRead .cqt s
  done s (result .ok c h t)

/-- CQ.CLEAR (R353). -/
def execCqClear (s : State) : Host.Outcome State Fault Refusal :=
  let (v, s) := mmioRead .cqcsr s
  done (mmioWrite .cqcsr v s) (result .ok v)

/-- CQ.DISABLE after its wait (R354). -/
def cqDisableDone (s : State) : Host.Outcome State Fault Refusal :=
  let s := s.setBlk (fun b => { b with cqState := .disabled })
  let (c, s) := mmioRead .cqcsr s
  done s (result .ok c)

/-- CQ.DISABLE's wait (R354). -/
def cqDisableWait (s : State) : Host.Outcome State Fault Refusal :=
  await (pollOn .cqcsr false) .cqDisable (fun _ => cqDisableDone) s

/-- CQ.DISABLE (R354). -/
def execCqDisable (s : State) : Host.Outcome State Fault Refusal :=
  let (c, s) := mmioRead .cqcsr s
  cqDisableWait (mmioWrite .cqcsr (c &&& 2) s)

/-- CQ.SYNC (R355); a completion doubleword in the register window: log 15. -/
def execCqSync (a0 a1 : Word) (s : State) : Host.Outcome State Fault Refusal :=
  if s.blk.cqState ≠ .ready then raise .errState s
  else if !aligned 3 a0 then raise .errAlign s
  else if 2 ^ 56 < a0.toNat + 8 || a1 = 0 || !fits 32 a1 then raise .errRange s
  else if meetsAny a0.toNat 8 (blockRegions s) then raise .errRange s
  else if meetsAny a0.toNat 8 [registerWindow s.cfg] then .fault .completionInRegisterFile
  else submitSteps (fenceWord0 true false a1) (fenceAddrField a0) (.sync a0 a1) (memWrite a0.toNat 0 s)

end Sys2Proof.Machine
end

