-- ==== Sys2Proof/Machine/Codec.lean ====
section
/-! DEFINITION. The codec's meanings (spec/41_codec.md): PTE.LEAF, PTE.NONLEAF, PTE.DECODE. Pure functions of the
request; the checks stand in the order of the rules (spec/60_exceptions.md R502). -/

namespace Sys2Proof.Machine

/-- PTE.LEAF (R202). -/
def execPteLeaf (fl : BitVec 7) (a0 : Word) (s : State) : Host.Outcome State Fault Refusal :=
  if !aligned 12 a0 then raise .errAlign s
  else if !fits 56 a0 then raise .errRange s
  else if !legalLeaf fl then raise .errFlags s
  else done s (result .ok (leafPte a0 fl))

/-- PTE.NONLEAF (R203). -/
def execPteNonleaf (a0 : Word) (s : State) : Host.Outcome State Fault Refusal :=
  if !aligned 12 a0 then raise .errAlign s
  else if !fits 56 a0 then raise .errRange s
  else done s (result .ok (nonleafPte a0))

/-- PTE.DECODE (R205). -/
def execPteDecode (a0 : Word) (s : State) : Host.Outcome State Fault Refusal :=
  done s (result .ok (fieldPa a0) (a0 &&& 0xFF) (kind a0).code ((a0 >>> 8) &&& 3) (a0 >>> 54))

end Sys2Proof.Machine
end

