-- ==== Sys2Proof/Machine/Ddt.lean ====
section
/-! DEFINITION. The device directory's meanings (spec/44_ddt.md): DDT.CONFIG, DDT.REBUILD, DDT.SET_S1_MODE,
DDT.SET_S2_MODE, DDT.SET_MSI_MODE, DDT.SET_MODE, DDT.LOCATE. -/

namespace Sys2Proof.Machine

/-- DDT.CONFIG (R292). -/
def execDdtConfig (dtf : Bool) (a0 a1 a2 a3 : Word) (s : State) : Host.Outcome State Fault Refusal :=
  if !fits 16 a0 || !fits 20 a1 || !fits 52 a2 || !fits 52 a3 then raise .errRange s
  else
    done (s.setBlk (fun b =>
      { b with cfgGscid := a0.setWidth 16, cfgPscid := a1.setWidth 20, cfgMsiMask := a2.setWidth 52,
               cfgMsiPattern := a3.setWidth 52, cfgDtf := dtf })) (result .ok)

/-! The block's walk of its own directory (R291). -/

/-- The walk from page `t` with `j` levels of links left: the context's address, or the address of the invalid link. -/
def dcWalk (f : DcFmt) (d : Nat) : Nat → Nat → State → Except Nat Nat × State
  | 0, t, s => (.ok (t + dcBytes f * ddi f d 0), s)
  | j + 1, t, s =>
    let ea := t + 8 * ddi f d (j + 1)
    let (e, s) := memRead ea s
    if !e.getLsbD 0 then (.error ea, s) else dcWalk f d j (fieldPa e).toNat s

/-- `dc_addr(d)` (R291). -/
def dcAddr (d : Nat) (s : State) : Except Nat Nat × State :=
  dcWalk s.cfg.dcFmt d (s.blk.ddtLvls.toNat - 1) s.cfg.ddtBase.toNat s

/-- Do `f` at the context of each of the `n` devices from `d`; none if a context's path is absent. -/
def overContexts (f : Nat → State → State) : Nat → Nat → State → Option State
  | 0, _, s => some s
  | n + 1, d, s =>
    match dcAddr d s with
    | (.error _, _) => none
    | (.ok a, s) => overContexts f n (d + 1) (f a s)

/-! DDT.REBUILD. -/

/-- `s2ppn` (R293). -/
def s2Ppn (b : BlockRegs) : Word := if b.ptReady then ptrPpn (b.s2Root.setWidth 64) else 0

/-- `s1ppn` (R293). -/
def s1Ppn (b : BlockRegs) : Word := if b.ptReady then ptrPpn (b.s1Root.setWidth 64) else 0

/-- `msippn` (R293). -/
def msiPpn (c : Config) (b : BlockRegs) : Word := if b.msiReady then ptrPpn c.msiBase else 0

/-- `w[0]`, the doubleword that publishes a context (R293, R300). -/
def tcWord (b : BlockRegs) : Word := 1 ||| (bit b.cfgDtf <<< 4)

/-- `w[1]` .. `w[DCW-1]` (R293). -/
def contextWords (c : Config) (b : BlockRegs) : List Word :=
  [(b.cfgS2Mode.setWidth 64 <<< 60) ||| (b.cfgGscid.setWidth 64 <<< 44) ||| s2Ppn b,
    b.cfgPscid.setWidth 64 <<< 12,
    (b.cfgS1Mode.setWidth 64 <<< 60) ||| s1Ppn b] ++
  (match c.dcFmt with
   | .base => []
   | .ext =>
     [(b.cfgMsiMode.setWidth 64 <<< 60) ||| msiPpn c b, b.cfgMsiMask.setWidth 64, b.cfgMsiPattern.setWidth 64, 0])

/-- MemWrite of the words to `a`, `a + 8`, … -/
def writeWords : List Word → Nat → State → State
  | [], _, s => s
  | w :: ws, a, s => writeWords ws (a + 8) (memWrite a w s)

/-- The link at `ea` to a fresh directory page (R296). -/
def linkPage (ea : Nat) (s : State) : Nat × State :=
  let t := s.cfg.ddtBase.toNat + 4096 * s.blk.ddtNext.toNat
  let s := s.setBlk (fun b => { b with ddtNext := b.ddtNext + 1 })
  (t, memWrite ea (ppnField (BitVec.ofNat 64 t) ||| 1) s)

/-- The path of device `d` from page `t` with `j` levels of links left, linking pages where they are missing (R296). -/
def linkPath (d : Nat) : Nat → Nat → State → Nat × State
  | 0, t, s => (t, s)
  | j + 1, t, s =>
    let ea := t + 8 * ddi s.cfg.dcFmt d (j + 1)
    let (e, s) := memRead ea s
    if !e.getLsbD 0 then
      let (t, s) := linkPage ea s
      linkPath d j t s
    else linkPath d j (fieldPa e).toNat s

/-- Links and all context words but tc for `n` devices from `d` (R296). -/
def buildContexts (l : Nat) : Nat → Nat → State → State
  | 0, _, s => s
  | n + 1, d, s =>
    let (t, s) := linkPath d (l - 1) s.cfg.ddtBase.toNat s
    let dc := t + dcBytes s.cfg.dcFmt * ddi s.cfg.dcFmt d 0
    buildContexts l n (d + 1) (writeWords (contextWords s.cfg s.blk) (dc + 8) s)

/-- A leveled directory mode: 1LVL, 2LVL or 3LVL (R39). -/
def leveled (m : BitVec 4) : Bool := m == 2 || m == 3 || m == 4

/-- DDT.REBUILD (R296, R300). -/
def execDdtRebuild (lv : BitVec 2) (a0 a1 : Word) (s : State) : Host.Outcome State Fault Refusal :=
  let l := lv.toNat
  let n := a1.toNat - a0.toNat + 1
  if lv = 0 then raise .errIllegalReq s
  else if a1.toNat < a0.toNat || 2 ^ limBits s.cfg l ≤ a1.toNat then raise .errRange s
  else if s.cfg.ddtPages < 1 + needPages s.cfg.dcFmt l a0.toNat a1.toNat then raise .errPool s
  else
    let (v, s) := mmioRead .ddtp s
    let cur := ddtpMode v
    if leveled cur && cur.toNat != l + 1 then raise .errMode s
    else
      let s := fence (zeroFill (512 * s.cfg.ddtPages) s.cfg.ddtBase.toNat s)
      let s := s.setBlk (fun b => { b with ddtNext := 1, ddtLvls := lv })
      let s := fence (buildContexts l n a0.toNat s)
      match overContexts (fun a s => memWrite a (tcWord s.blk) s) n a0.toNat s with
      | none => .fault .contextAbsent
      | some s =>
        let s := s.setBlk (fun b =>
          { b with ddtReady := true, devValid := true, devLo := a0.setWidth 24, devHi := a1.setWidth 24 })
        done s (result .ok (s.blk.ddtNext.setWidth 64) (BitVec.ofNat 64 n))

/-! The set-mode operations. -/

/-- `update_ptr(a, m, ppn)` (R304). -/
def updatePtr (m : BitVec 4) (ppn : Word) (a : Nat) (s : State) : State :=
  let (e, s) := memRead a s
  memWrite a ((e &&& 0x0FFFF00000000000) ||| (m.setWidth 64 <<< 60) ||| ppn) s

/-- The number of configured devices (R303). -/
def deviceCount (b : BlockRegs) : Nat := if b.devValid then b.devHi.toNat + 1 - b.devLo.toNat else 0

/-- `update_ptr` on the doubleword at byte `off` of every configured context, then the count (R303). -/
def updateContexts (off : Nat) (m : BitVec 4) (ppn : Word) (s : State) : Host.Outcome State Fault Refusal :=
  let n := deviceCount s.blk
  match overContexts (fun a s => updatePtr m ppn (a + off) s) n s.blk.devLo.toNat s with
  | none => .fault .contextAbsent
  | some s => done s (result .ok (BitVec.ofNat 64 n))

/-- DDT.SET_S1_MODE (R302, R303). -/
def execDdtSetS1Mode (m : BitVec 4) (s : State) : Host.Outcome State Fault Refusal :=
  if m ≠ 0 ∧ m ≠ 8 then raise .errMode s
  else if m = 8 ∧ !s.blk.ptReady then raise .errState s
  else
    let s := s.setBlk (fun b => { b with cfgS1Mode := m })
    updateContexts 24 m (s1Ppn s.blk) s

/-- DDT.SET_S2_MODE (R302, R305). -/
def execDdtSetS2Mode (m : BitVec 4) (s : State) : Host.Outcome State Fault Refusal :=
  if m ≠ 0 ∧ m ≠ 8 then raise .errMode s
  else if m = 8 ∧ !s.blk.ptReady then raise .errState s
  else
    let s := s.setBlk (fun b => { b with cfgS2Mode := m })
    updateContexts 8 m (s2Ppn s.blk) s

/-- DDT.SET_MSI_MODE (R302, R306). -/
def execDdtSetMsiMode (m : BitVec 4) (s : State) : Host.Outcome State Fault Refusal :=
  if s.cfg.dcFmt ≠ .ext then raise .errMode s
  else if m ≠ 0 ∧ m ≠ 1 then raise .errMode s
  else if m = 1 ∧ !s.blk.msiReady then raise .errState s
  else
    let s := s.setBlk (fun b => { b with cfgMsiMode := m })
    updateContexts 32 m (msiPpn s.cfg s.blk) s

/-- A poll of `MmioRead64(ddtp)[4] = 0` (R308). -/
def pollDdtpIdle (s : State) : Option Unit × State :=
  let (v, s) := mmioRead .ddtp s
  (if ddtpBusy v then none else some (), s)

/-- DDT.SET_MODE after its second wait (R308). -/
def setModeCheck (m : BitVec 4) (s : State) : Host.Outcome State Fault Refusal :=
  let (v, s) := mmioRead .ddtp s
  if ddtpMode v ≠ m then done s (result .errMode v) else done s (result .ok v)

/-- The second wait of DDT.SET_MODE (R308). -/
def setModeDone (m : BitVec 4) (s : State) : Host.Outcome State Fault Refusal :=
  await pollDdtpIdle (.setModeDone m) (fun _ => setModeCheck m) s

/-- DDT.SET_MODE between its waits (R308). -/
def setModeProgram (m : BitVec 4) (s : State) : Host.Outcome State Fault Refusal :=
  let (v, s) := mmioRead .ddtp s
  let cur := ddtpMode v
  if leveled cur && leveled m && cur != m then raise .errMode s
  else setModeDone m (mmioWrite .ddtp (ppnField s.cfg.ddtBase ||| m.setWidth 64) (fence s))

/-- The first wait of DDT.SET_MODE (R308). -/
def setModeReady (m : BitVec 4) (s : State) : Host.Outcome State Fault Refusal :=
  await pollDdtpIdle (.setModeReady m) (fun _ => setModeProgram m) s

/-- DDT.SET_MODE (R308). -/
def execDdtSetMode (m : BitVec 4) (s : State) : Host.Outcome State Fault Refusal :=
  if 4 < m.toNat then raise .errMode s
  else if 2 ≤ m.toNat && !(s.blk.ddtReady && s.blk.ddtLvls.toNat == m.toNat - 1) then raise .errState s
  else setModeReady m s

/-- DDT.LOCATE (R310). -/
def execDdtLocate (a0 : Word) (s : State) : Host.Outcome State Fault Refusal :=
  if !s.blk.ddtReady then raise .errState s
  else if 2 ^ limBits s.cfg s.blk.ddtLvls.toNat ≤ a0.toNat then raise .errRange s
  else
    match dcAddr a0.toNat s with
    | (.error ea, s) => done s (result .none 0 (BitVec.ofNat 64 ea))
    | (.ok a, s) =>
      let (tc, s) := memRead a s
      done s (result .ok (BitVec.ofNat 64 a) tc)

end Sys2Proof.Machine
end

