-- ==== Sys2Proof/Machine/Faultq.lean ====
section
/-! DEFINITION. The fault-queue consumer's meanings (spec/46_faultq.md): FQ.INIT, FQ.TRY_READ, FQ.STATUS, FQ.CLEAR,
FQ.DISABLE, FQR.DECODE. -/

namespace Sys2Proof.Machine

/-- FQ.INIT after its wait (R382). -/
def fqInitDone (a0 : Word) (n : BitVec 6) (h0 : Word) (s : State) : Host.Outcome State Fault Refusal :=
  done (s.setBlk (fun b => { b with fqBase := a0.setWidth 56, fqLog2n := n, fqState := .ready })) (result .ok h0)

/-- FQ.INIT's wait (R382). -/
def fqInitWait (a0 : Word) (n : BitVec 6) (h0 : Word) (s : State) : Host.Outcome State Fault Refusal :=
  await (pollOn .fqcsr true) (.fqInit a0 n h0) (fun _ => fqInitDone a0 n h0) s

/-- FQ.INIT (R382). -/
def execFqInit (n : BitVec 6) (fie : Bool) (a0 : Word) (s : State) : Host.Outcome State Fault Refusal :=
  if s.blk.fqState ≠ .disabled then raise .errState s
  else if n.toNat < 1 || s.cfg.fqLog2nMax < n.toNat then raise .errRange s
  else if !queueAligned 5 n a0 then raise .errAlign s
  else if !queueFits 5 n a0 then raise .errRange s
  else
    let (c, s) := mmioRead .fqcsr s
    if enOrOn c then raise .errState s
    else
      let s := mmioWrite .fqb (queueBase n a0) s
      let (t, s) := mmioRead .fqt s
      let h0 := if s.cfg.enableResetsIndex then 0 else t
      let s := mmioWrite .fqh h0 s
      fqInitWait a0 n h0 (mmioWrite .fqcsr (1 ||| (bit fie <<< 1)) s)

/-- `fq_slot(i)` (R380). -/
def fqSlot (b : BlockRegs) (i : Word) : Word := slotAddr (b.fqBase.setWidth 64) i 5

/-- FQ.TRY_READ on a queue that is not empty, with the head `h` (R385). -/
def takeRecord (h : Word) (s : State) : Host.Outcome State Fault Refusal :=
  let s := fence s
  let a := fqSlot s.blk h
  let (w0, s) := memRead a.toNat s
  let (w1, s) := memRead (a.toNat + 8) s
  let (w2, s) := memRead (a.toNat + 16) s
  let (w3, s) := memRead (a.toNat + 24) s
  let s := mmioWrite .fqh (h + 1) (fence s)
  done s (result .ok w0 w1 w2 w3 h a)

/-- FQ.TRY_READ (R385). -/
def execFqTryRead (s : State) : Host.Outcome State Fault Refusal :=
  if s.blk.fqState ≠ .ready then raise .errState s
  else
    let (h, s) := mmioRead .fqh s
    let (t, s) := mmioRead .fqt s
    if h = t then done s (result .none 0 0 0 0 h) else takeRecord h s

/-- FQ.STATUS (R387). -/
def execFqStatus (s : State) : Host.Outcome State Fault Refusal :=
  let (c, s) := mmioRead .fqcsr s
  let (h, s) := mmioRead .fqh s
  let (t, s) := mmioRead .fqt s
  done s (result .ok c h t)

/-- FQ.CLEAR (R388). -/
def execFqClear (s : State) : Host.Outcome State Fault Refusal :=
  let (v, s) := mmioRead .fqcsr s
  done (mmioWrite .fqcsr v s) (result .ok v)

/-- FQ.DISABLE after its wait (R389). -/
def fqDisableDone (s : State) : Host.Outcome State Fault Refusal :=
  let s := s.setBlk (fun b => { b with fqState := .disabled })
  let (c, s) := mmioRead .fqcsr s
  done s (result .ok c)

/-- FQ.DISABLE's wait (R389). -/
def fqDisableWait (s : State) : Host.Outcome State Fault Refusal :=
  await (pollOn .fqcsr false) .fqDisable (fun _ => fqDisableDone) s

/-- FQ.DISABLE (R389). -/
def execFqDisable (s : State) : Host.Outcome State Fault Refusal :=
  let (c, s) := mmioRead .fqcsr s
  fqDisableWait (mmioWrite .fqcsr (c &&& 2) s)

/-- FQR.DECODE (R390). -/
def execFqrDecode (a0 _a1 a2 a3 : Word) (s : State) : Host.Outcome State Fault Refusal :=
  done s (result .ok (a0 &&& 0xFFF) ((a0 >>> 12) &&& 0xFFFFF) ((a0 >>> 32) &&& 1) ((a0 >>> 33) &&& 1)
    ((a0 >>> 34) &&& 0x3F) (a0 >>> 40) a2 a3)

end Sys2Proof.Machine
end

