-- ==== Sys2Proof/Machine/Fence.lean ====
section
/-! DEFINITION. The FENCE request's meaning (spec/48_fence.md R410). -/

namespace Sys2Proof.Machine

/-- FENCE (R410). -/
def execFence (s : State) : Host.Outcome State Fault Refusal := done (fence s) (result .ok)

end Sys2Proof.Machine
end

