-- ==== Sys2Proof/Machine/Msi.lean ====
section
/-! DEFINITION. The MSI remap table's meanings (spec/43_msi.md): MSI.INIT, MSI.SET_BASIC, MSI.SET_MRIF, MSI.INDEX,
MSI.MRIF_LOC. -/

namespace Sys2Proof.Machine

/-- `basic_dw0` (R261). -/
def basicDw0 (ifpa : Word) (c : Bool) : Word := 1 ||| (3 <<< 1) ||| ppnField ifpa ||| (bit c <<< 63)

/-- `mrif_dw0` (R261). -/
def mrifDw0 (m : Word) (c : Bool) : Word := 1 ||| (1 <<< 1) ||| mrifField m ||| (bit c <<< 63)

/-- `mrif_dw1` (R261). -/
def mrifDw1 (npa nid : Word) : Word := (nid &&& 0x3FF) ||| ppnField npa ||| (((nid >>> 10) &&& 1) <<< 60)

/-- `write_msi_entry` (R266). -/
def writeMsiEntry (ea : Nat) (d0 d1 : Word) (s : State) : State :=
  memWrite ea d0 (fence (memWrite (ea + 8) d1 (fence (memWrite ea 0 s))))

/-- MSI.INIT (R262). -/
def execMsiInit (s : State) : Host.Outcome State Fault Refusal :=
  if s.cfg.dcFmt ≠ .ext then raise .errMode s
  else
    let c := s.cfg
    let s := fence (zeroFill (512 * c.msiPages) c.msiBase.toNat s)
    let s := s.setBlk (fun b => { b with msiReady := true })
    done s (result .ok c.msiBase (BitVec.ofNat 64 (msiEntries c)))

/-- MSI.SET_BASIC (R263, R264). -/
def execMsiSetBasic (c : Bool) (a0 a1 : Word) (s : State) : Host.Outcome State Fault Refusal :=
  if s.cfg.dcFmt ≠ .ext then raise .errMode s
  else if !s.blk.msiReady then raise .errState s
  else if msiEntries s.cfg ≤ a0.toNat then raise .errRange s
  else if !aligned 12 a1 then raise .errAlign s
  else if !fits 56 a1 then raise .errRange s
  else
    let ea := msiEntry s.cfg a0.toNat
    let d0 := basicDw0 a1 c
    done (writeMsiEntry ea d0 0 s) (result .ok d0 0 (BitVec.ofNat 64 ea))

/-- MSI.SET_MRIF (R263, R265). -/
def execMsiSetMrif (c : Bool) (a0 a1 a2 a3 : Word) (s : State) : Host.Outcome State Fault Refusal :=
  if s.cfg.dcFmt ≠ .ext then raise .errMode s
  else if !s.blk.msiReady then raise .errState s
  else if msiEntries s.cfg ≤ a0.toNat then raise .errRange s
  else if !aligned 9 a1 || !aligned 12 a2 then raise .errAlign s
  else if !fits 56 a1 || !fits 56 a2 then raise .errRange s
  else if !fits 11 a3 then raise .errRange s
  else
    let ea := msiEntry s.cfg a0.toNat
    let d0 := mrifDw0 a1 c
    let d1 := mrifDw1 a2 a3
    done (writeMsiEntry ea d0 d1 s) (result .ok d0 d1 (BitVec.ofNat 64 ea))

/-- MSI.INDEX (R269). -/
def execMsiIndex (a0 : Word) (s : State) : Host.Outcome State Fault Refusal :=
  if s.cfg.dcFmt ≠ .ext then raise .errMode s
  else
    let i := msiIndex a0 s.blk.cfgMsiMask
    done s (result .ok (bit (msiMatch a0 s.blk.cfgMsiMask s.blk.cfgMsiPattern)) (BitVec.ofNat 64 i)
      (BitVec.ofNat 64 (msiEntry s.cfg i)) (bit (i < msiEntries s.cfg)))

/-- MSI.MRIF_LOC (R271). -/
def execMsiMrifLoc (a0 a1 : Word) (s : State) : Host.Outcome State Fault Refusal :=
  if s.cfg.dcFmt ≠ .ext then raise .errMode s
  else if !aligned 9 a0 then raise .errAlign s
  else if !fits 56 a0 || 2048 ≤ a1.toNat then raise .errRange s
  else
    let w := a0 + 16 * (a1 >>> 6)
    done s (result .ok w (a1 &&& 63) (w + 8))

end Sys2Proof.Machine
end

