-- ==== Sys2Proof/Machine/Dispatch.lean ====
section
/-! DEFINITION. The meaning of every instruction. -/

namespace Sys2Proof.Machine

def exec (i : Instr) (s : State) : Host.Outcome State Fault Refusal :=
  match i with
  | .pteLeaf fl a0 => Sys2Proof.Machine.execPteLeaf fl a0 s
  | .pteNonleaf a0 => Sys2Proof.Machine.execPteNonleaf a0 s
  | .pteDecode a0 => Sys2Proof.Machine.execPteDecode a0 s
  | .ptInit => Sys2Proof.Machine.execPtInit s
  | .ptMap st g fl a0 a1 a2 => Sys2Proof.Machine.execPtMap st g fl a0 a1 a2 s
  | .ptLookup st a0 => Sys2Proof.Machine.execPtLookup st a0 s
  | .msiInit => Sys2Proof.Machine.execMsiInit s
  | .msiSetBasic c a0 a1 => Sys2Proof.Machine.execMsiSetBasic c a0 a1 s
  | .msiSetMrif c a0 a1 a2 a3 => Sys2Proof.Machine.execMsiSetMrif c a0 a1 a2 a3 s
  | .msiIndex a0 => Sys2Proof.Machine.execMsiIndex a0 s
  | .msiMrifLoc a0 a1 => Sys2Proof.Machine.execMsiMrifLoc a0 a1 s
  | .ddtConfig dtf a0 a1 a2 a3 => Sys2Proof.Machine.execDdtConfig dtf a0 a1 a2 a3 s
  | .ddtRebuild lv a0 a1 => Sys2Proof.Machine.execDdtRebuild lv a0 a1 s
  | .ddtSetS1Mode m => Sys2Proof.Machine.execDdtSetS1Mode m s
  | .ddtSetS2Mode m => Sys2Proof.Machine.execDdtSetS2Mode m s
  | .ddtSetMsiMode m => Sys2Proof.Machine.execDdtSetMsiMode m s
  | .ddtSetMode m => Sys2Proof.Machine.execDdtSetMode m s
  | .ddtLocate a0 => Sys2Proof.Machine.execDdtLocate a0 s
  | .cmdIodirDdt dv a0 => Sys2Proof.Machine.execCmdIodirDdt dv a0 s
  | .cmdIotinvalVma av gv pscv a0 a1 a2 => Sys2Proof.Machine.execCmdIotinvalVma av gv pscv a0 a1 a2 s
  | .cmdIotinvalGvma av gv a0 a1 => Sys2Proof.Machine.execCmdIotinvalGvma av gv a0 a1 s
  | .cmdIofenceC av wsi a0 a1 => Sys2Proof.Machine.execCmdIofenceC av wsi a0 a1 s
  | .cqInit n cie a0 => Sys2Proof.Machine.execCqInit n cie a0 s
  | .cqSubmit a0 a1 => Sys2Proof.Machine.execCqSubmit a0 a1 s
  | .cqWait => Sys2Proof.Machine.execCqWait s
  | .cqStatus => Sys2Proof.Machine.execCqStatus s
  | .cqClear => Sys2Proof.Machine.execCqClear s
  | .cqDisable => Sys2Proof.Machine.execCqDisable s
  | .cqSync a0 a1 => Sys2Proof.Machine.execCqSync a0 a1 s
  | .fqInit n fie a0 => Sys2Proof.Machine.execFqInit n fie a0 s
  | .fqTryRead => Sys2Proof.Machine.execFqTryRead s
  | .fqStatus => Sys2Proof.Machine.execFqStatus s
  | .fqClear => Sys2Proof.Machine.execFqClear s
  | .fqDisable => Sys2Proof.Machine.execFqDisable s
  | .fqrDecode a0 a1 a2 a3 => Sys2Proof.Machine.execFqrDecode a0 a1 a2 a3 s
  | .fence => Sys2Proof.Machine.execFence s
  | .iotinvalVma av pscv gv pscid gscid addr => Sys2Proof.Machine.execIotinvalVma av pscv gv pscid gscid addr s
  | .iotinvalGvma av gv gscid addr => Sys2Proof.Machine.execIotinvalGvma av gv gscid addr s
  | .iofenceC av wsi pr pw data addr => Sys2Proof.Machine.execIofenceC av wsi pr pw data addr s
  | .iodirInvalDdt dv did => Sys2Proof.Machine.execIodirInvalDdt dv did s

end Sys2Proof.Machine
end

