-- ==== Sys2Proof/Machine/Resume.lean ====
section
/-! DEFINITION. A BUSY block goes on with the wait it is in (spec/00_scope.md R12, spec/10_state.md R33). -/

namespace Sys2Proof.Machine

/-- The wait `w` and what follows it. -/
def resume (w : WaitPoint) (s : State) : Host.Outcome State Fault Refusal :=
  match w with
  | .cqInit a0 n t0 => cqInitWait a0 n t0 s
  | .submit d0 d1 t by_ => submitWait d0 d1 t by_ s
  | .cqWait t => cqWaitWait t s
  | .cqDisable => cqDisableWait s
  | .syncDone a0 a1 t => syncWait a0 a1 t s
  | .fqInit a0 n h0 => fqInitWait a0 n h0 s
  | .fqDisable => fqDisableWait s
  | .setModeReady m => setModeReady m s
  | .setModeDone m => setModeDone m s

end Sys2Proof.Machine
end

