-- ==== Sys2Proof/Machine/Fetch.lean ====
section
/-! DEFINITION. What happens next: the block takes a request from the request port (spec/30_encoding.md R120, R124),
the IOMMU takes a command from its queue (spec/45_cmdq.md R364), a BUSY block goes on waiting, the host stores to its
memory, or reset arrives. Every input is one step; between them the environment moves (log 7). -/

namespace Sys2Proof.Machine

/-- The block accepts a request: BUSY, decode, and the operation's steps (spec/10_state.md R33); what is no instruction
ends in ERR_ILLEGAL_REQ (spec/30_encoding.md R170). -/
def accept (r : Request) (s : State) : Host.Outcome State Fault Refusal :=
  let s := { s with req := r, phase := .busy, wait := none }
  match decode [r.op, r.a0, r.a1, r.a2, r.a3] with
  | .error _ => raise .errIllegalReq s
  | .ok i => exec i s

/-- A step of the block on its own: it goes on with its wait; idle, it does nothing, and the environment moves. -/
def blockTurn (s : State) : Host.Outcome State Fault Refusal :=
  match s.phase, s.wait with
  | .busy, some w => resume w s
  | _, _ => .next (pause s)

/-- The IOMMU's consumer runs a command: its meaning, then the advance of cqh (R364). -/
def runCommand (i : Instr) (s : State) : Host.Outcome State Fault Refusal :=
  match exec i s with
  | .next s => .next (settle s)
  | o => o

/-- A step of the IOMMU's command consumer (R364 to R366): the whole command at cqh, or the rest of one it has begun. -/
def iommuTurn (s : State) : Host.Outcome State Fault Refusal :=
  if midCommand s.engine then .next (consumeCommand false s)
  else if cqRunning s.regs then
    match nextCommand s with
    | none => .next (memoryFault s)
    | some c =>
      match decode [c.dw0, c.dw1] with
      | .error _ => .next (illegalCommand s)
      | .ok i => runCommand i s
  else .next s

/-- May the host store to `[a, a + n)` (spec/60_exceptions.md R531; spec/20_memory.md R91; log 29)? Not to the
fault-queue region either, which R531's row does not name: the model's choice, after ruling I18 (log 38). -/
def hostMayStore (a n : Nat) (s : State) : Bool :=
  s.phase == .idle && a + n ≤ paLimit && !meetsAny a n (registerWindow s.cfg :: blockRegions s)

/-- Reset of the block (spec/70_reset_and_hazards.md R560): its registers, and P is empty: what it held never reaches
Mem_io (log 30). -/
def resetBlock (s : State) : State :=
  { s with phase := .idle, wait := none, res := Result.zero, blk := BlockRegs.reset, memBlk := s.memIo, pend := [],
           unseen := [] }

/-- Reset of the IOMMU (R563): its registers and its caches, and, as the model's choice (log 34), the engines' hidden
state, the transactions under way and the invalidations in progress. -/
def resetIommu (s : State) : State :=
  { s with regs := { IommuRegs.reset s.cfg with capabilities := s.regs.capabilities, fctl := s.regs.fctl },
           caches := Caches.empty, engine := Engine.empty }

/-- One step: the next input, or, when there is none or the block cannot take it, the block's own turn. -/
def turn (s : State) : Host.Outcome State Fault Refusal :=
  match s.inputs with
  | [] => blockTurn s
  | .request r :: rest =>
    match s.phase with
    | .idle => accept r { s with inputs := rest }
    | .busy => blockTurn s
  | .iommu :: rest => iommuTurn { s with inputs := rest }
  | .env a :: rest => .next (perform a { s with inputs := rest })
  | .hostStore a n v :: rest =>
    if hostMayStore a n s then .next (ioStore a n v { s with inputs := rest }) else .refused .hostContract
  | .reset true :: rest => .next (resetBlock { s with inputs := rest })
  | .reset false :: rest => .next (resetIommu (resetBlock { s with inputs := rest }))

/-- The words of a request stand next at the request port of an idle block. -/
def placeRequest (r : Request) (s : State) : State :=
  { s with phase := .idle, wait := none, inputs := .request r :: s.inputs.drop 1 }

/-- A command stands alone in the slot at cqh of a running queue, and the IOMMU takes the next step. -/
def placeCommand (d0 d1 : Word) (s : State) : State :=
  let g := s.regs
  let g := { g with cqcsr := (g.cqcsr &&& ~~~0x700) ||| 0x10001, cqt := nextIndex g.cqb (cqHead g) }
  let a := cqSlotIo g
  { s with regs := g, engine := { s.engine with cmdBuf := none }, inputs := .iommu :: s.inputs.drop 1,
           memIo := (s.memIo.store64 a d0).store64 (a + 8) d1 }

end Sys2Proof.Machine
end

