-- ==== Sys2Proof/Machine/Step.lean ====
section
/-! DEFINITION. The step, and where the host of this row places an instruction that the next step runs. -/

namespace Sys2Proof.Machine

/-- One step. An ill-formed instance is refused (spec/00_scope.md R8; log 10). -/
def step (s : State) : Host.Outcome State Fault Refusal :=
  if wellPlaced s then turn s else .refused .illFormedInstance

/-- The instruction with the bits `w` stands where the next step takes it: a request at the request port, a command in
the command queue (log 31). -/
def State.withFetchWord (s : State) (nbits w : Nat) : State :=
  let v := w % 2 ^ nbits
  if isCommandWord nbits v then placeCommand (commandOfBits v).1 (commandOfBits v).2 s
  else placeRequest (requestOfBits v) s

end Sys2Proof.Machine
end

