-- ==== Sys2Proof/Safety.lean ====
section
/-! DEFINITION. The terms claims are stated in: what a byte reads in each view of memory, when the environment is at
rest, and what holds of every state a run reaches. -/

namespace Sys2Proof.Machine

/-- The byte at `a` as the block sees it (spec/20_memory.md R92). -/
def State.readBlk (s : State) (a : Nat) : Byte := s.memBlk.read a

/-- The byte at `a` as the IOMMU sees it (R96). -/
def State.readIo (s : State) (a : Nat) : Byte := s.memIo.read a

/-- The doubleword at `a` as the block sees it. -/
def State.wordBlk (s : State) (a : Nat) : Word := s.memBlk.load64 a

/-- The doubleword at `a` as the IOMMU sees it. -/
def State.wordIo (s : State) (a : Nat) : Word := s.memIo.load64 a

/-- No other agent moves inside an operation, and none has anything left to do: the IOMMU is quiescent
(spec/95_test_vectors.md section 0.2). A consumer that is off, stopped or at the tail has nothing to do. -/
def State.settled (s : State) : Bool :=
  s.weave.isEmpty && cqEn s.regs == cqOn s.regs && fqEn s.regs == fqOn s.regs && !s.regs.cqcsr.getLsbD 17 &&
    !s.regs.fqcsr.getLsbD 17 && !ddtpBusy s.regs.ddtp && !cqRunning s.regs && !s.engine.recPending &&
    s.engine.inFlight.isEmpty

/-- The range covers the byte. -/
def ByteRange.covers (r : ByteRange) (a : Nat) : Bool := r.addr ≤ a && a < r.addr + r.size

/-- Both views of memory are in canonical form. -/
def State.MemoryOk (s : State) : Prop := s.memBlk.wf ∧ s.memIo.wf

/-- The two views agree (spec/20_memory.md R92, R96, R97): a byte that no unseen write of another agent covers is, for
the block, what the IOMMU will read once P has drained. -/
def State.Coherent (s : State) : Prop :=
  ∀ a, (∀ r ∈ s.unseen, r.covers a = false) → s.readBlk a = (drainAll s.memIo s.pend).read a

/-- Reserved bits of the IOMMU's registers read 0 (spec/10_state.md R39, R40, R42, R43). -/
def IommuRegs.ReservedZero (g : IommuRegs) : Prop :=
  g.ddtp &&& 0xFFC00000000003E0 = 0 ∧ g.cqb &&& 0xFFC00000000003E0 = 0 ∧ g.fqb &&& 0xFFC00000000003E0 = 0 ∧
    g.cqcsr &&& 0x0FFCF0FC = 0 ∧ g.fqcsr &&& 0x0FFCFCFC = 0

/-- The status is a code of spec/60_exceptions.md R500, and a block that is in a wait is BUSY (spec/10_state.md R33). -/
def State.Sequenced (s : State) : Prop :=
  (∃ st : Status, s.res.status = st.code) ∧ (s.wait.isSome = true → s.phase = .busy)

/-- What every step keeps. -/
structure State.Inv (s : State) : Prop where
  memory : s.MemoryOk
  coherent : s.Coherent
  reserved : s.regs.ReservedZero
  sequenced : s.Sequenced

/-! Reset values, as numbers. -/

/-- The block's registers at reset (spec/70_reset_and_hazards.md R560; spec/10_state.md R34 to R38). -/
structure BlockRegs.AtReset (b : BlockRegs) : Prop where
  builder : b.ptReady = false ∧ b.s2Root.toNat = 0 ∧ b.s1Root.toNat = 0 ∧ b.poolNext.toNat = 0
  directory : b.ddtReady = false ∧ b.ddtLvls.toNat = 0 ∧ b.ddtNext.toNat = 0
  devices : b.devValid = false ∧ b.devLo.toNat = 0 ∧ b.devHi.toNat = 0
  modes : b.cfgS1Mode.toNat = 0 ∧ b.cfgS2Mode.toNat = 0 ∧ b.cfgMsiMode.toNat = 0
  context : b.cfgGscid.toNat = 0 ∧ b.cfgPscid.toNat = 0 ∧ b.cfgMsiMask.toNat = 0 ∧ b.cfgMsiPattern.toNat = 0 ∧
    b.cfgDtf = false
  msi : b.msiReady = false
  cq : b.cqState = .disabled ∧ b.cqBase.toNat = 0 ∧ b.cqLog2n.toNat = 0
  fq : b.fqState = .disabled ∧ b.fqBase.toNat = 0 ∧ b.fqLog2n.toNat = 0

/-- The IOMMU's registers at its reset (R563; spec/10_state.md R39 to R43); ddtp.PPN is unspecified there. -/
structure IommuRegs.AtReset (c : Config) (g : IommuRegs) : Prop where
  mode : g.ddtp.toNat % 16 = if c.ddtpResetMode = .off then 0 else 1
  busy : ddtpBusy g.ddtp = false
  bases : g.cqb.toNat = 0 ∧ g.fqb.toNat = 0
  indices : g.cqh.toNat = 0 ∧ g.cqt.toNat = 0 ∧ g.fqh.toNat = 0 ∧ g.fqt.toNat = 0
  status : g.cqcsr.toNat = 0 ∧ g.fqcsr.toNat = 0

/-! Frames and paths. -/

/-- Everything but the block's result, its sequencing state, its registers and memory is unchanged. -/
structure State.SameOutside (s t : State) : Prop where
  cfg : t.cfg = s.cfg
  req : t.req = s.req
  regs : t.regs = s.regs
  caches : t.caches = s.caches
  engine : t.engine = s.engine
  dev : t.dev = s.dev
  inputs : t.inputs = s.inputs
  weave : t.weave = s.weave
  warlMode : t.warlMode = s.warlMode

/-- Every byte outside `stored` reads, in both views, as after a FENCE alone. -/
def State.AsFenceOutside (s t : State) (stored : Nat → Prop) : Prop :=
  ∀ a, ¬ stored a → t.readBlk a = (fence s).readBlk a ∧ t.readIo a = (fence s).readIo a

/-- The address lies in the `n` bytes from `b`. -/
def within (b n a : Nat) : Prop := b ≤ a ∧ a < b + n

/-- The instruction is a request operation, not a command of the IOMMU. -/
def isRequest (i : Instr) : Bool := (encode i).length == 5

/-- The table of level `l` on the path of `x` through the builder's tree of stage `st`, as the block sees it: from the
root, through NONLEAF entries (spec/42_builder.md R224). -/
def State.tableAt (s : State) (st : Stage) (x : Word) : Nat → Option Nat
  | 0 => some (rootOf s.blk st)
  | l + 1 =>
    match s.tableAt st x l with
    | none => none
    | some t =>
      let e := s.wordBlk (slot t st l x)
      if kind e = .nonleaf then some (fieldPa e).toNat else none

/-- The tables that the first `n` granules of size code `g` from `v` need and do not have, each named once by its level
and the address bits above it (spec/42_builder.md R228). -/
def State.tablesMissing (s : State) (st : Stage) (g : BitVec 2) (v : Word) (n : Nat) : Finset (Nat × Nat) :=
  let x (k : Nat) : Word := v + BitVec.ofNat 64 (k * granule g)
  ((Finset.range n ×ˢ Finset.Icc 1 (2 - g.toNat)).filter (fun p => s.tableAt st (x p.1) p.2 = none)).image
    (fun p => (p.2, (x p.1).toNat / 2 ^ (39 - 9 * p.2)))

/-- The directory page of device `d` after `k` links from the root of a directory of `l` levels, as the block sees it
(spec/44_ddt.md R291). -/
def State.pageAt (s : State) (l d : Nat) : Nat → Option Nat
  | 0 => some s.cfg.ddtBase.toNat
  | k + 1 =>
    match s.pageAt l d k with
    | none => none
    | some t =>
      let e := s.wordBlk (t + 8 * ddi s.cfg.dcFmt d (l - 1 - k))
      if e.getLsbD 0 then some (fieldPa e).toNat else none

/-- The directory page of device `d` after `k` links from the root `root` of a directory of `l` levels in the memory
`m`, as the IOMMU walks it: each link readable, valid and without a reserved bit (spec/42_builder.md R235). -/
def directoryPage (c : Config) (m : Memory) (root l d : Nat) : Nat → Option Nat
  | 0 => some root
  | k + 1 =>
    match directoryPage c m root l d k with
    | none => none
    | some t =>
      let a := t + 8 * ddi c.dcFmt d (l - 1 - k)
      let e := m.load64 a
      if accessible c a 8 = true ∧ e.toNat % 2 = 1 ∧ e.toNat / 2 % 2 ^ 9 = 0 ∧ e.toNat / 2 ^ 54 = 0 then
        some (e.toNat / 1024 % 2 ^ 44 * 4096)
      else none

/-! The builder's trees (spec/42_builder.md R231). -/

/-- The walks of `x` and `y` take the same entries above level `l`. -/
def SamePath (st : Stage) (l : Nat) (x y : Word) : Prop := ∀ k < l, idx st k x = idx st k y

/-- R231: the roots stand where PT.INIT puts them; every other table is a pool page that was handed out, reached by one
path; entries are INVALID, NONLEAF or LEAF, with no NONLEAF at level 2 and every LEAF aligned to its granule. -/
structure State.TreesOk (s : State) : Prop where
  ready : s.blk.ptReady = true
  root2 : s.blk.s2Root.toNat = s.cfg.poolBase.toNat
  root1 : s.blk.s1Root.toNat = s.cfg.poolBase.toNat + 0x4000
  pages : 5 ≤ s.blk.poolNext.toNat ∧ s.blk.poolNext.toNat ≤ s.cfg.poolPages
  handedOut : ∀ st x l t, 1 ≤ l → l ≤ 2 → s.tableAt st x l = some t →
    ∃ i, 5 ≤ i ∧ i < s.blk.poolNext.toNat ∧ t = s.cfg.poolBase.toNat + 4096 * i
  onePath : ∀ st x l st' x' l' t, 1 ≤ l → l ≤ 2 → 1 ≤ l' → l' ≤ 2 → s.tableAt st x l = some t →
    s.tableAt st' x' l' = some t → st = st' ∧ l = l' ∧ SamePath st l x x'
  kinds : ∀ st x l t, l ≤ 2 → s.tableAt st x l = some t →
    kind (s.wordBlk (slot t st l x)) ≠ .reserved ∧ (l = 2 → kind (s.wordBlk (slot t st l x)) ≠ .nonleaf)
  leaves : ∀ st x l t, l ≤ 2 → s.tableAt st x l = some t → kind (s.wordBlk (slot t st l x)) = .leaf →
    (fieldPa (s.wordBlk (slot t st l x))).toNat % levelSize l = 0

/-- No write of another agent that the block has not seen lies in the pool. -/
def State.PoolQuiet (s : State) : Prop :=
  ∀ r ∈ s.unseen, overlaps r.addr r.size s.cfg.poolBase.toNat (4096 * s.cfg.poolPages) = false

/-! The directory (spec/44_ddt.md R291, R293). -/

/-- R293 as numbers: the doublewords of a device context, tc first. -/
def contextNumbers (c : Config) (b : BlockRegs) : List Nat :=
  [1 + 16 * b.cfgDtf.toNat,
    b.cfgS2Mode.toNat * 2 ^ 60 + b.cfgGscid.toNat * 2 ^ 44 + (if b.ptReady then b.s2Root.toNat / 4096 else 0),
    b.cfgPscid.toNat * 4096,
    b.cfgS1Mode.toNat * 2 ^ 60 + (if b.ptReady then b.s1Root.toNat / 4096 else 0)] ++
  (match c.dcFmt with
   | .base => []
   | .ext =>
     [b.cfgMsiMode.toNat * 2 ^ 60 + (if b.msiReady then c.msiBase.toNat / 4096 else 0), b.cfgMsiMask.toNat,
       b.cfgMsiPattern.toNat, 0])

/-- Doubleword `k` of the context at `a` is word `k` of R293, in the block's view. -/
def State.HoldsContext (t : State) (a : Nat) : Prop :=
  ∀ k (h : k < (contextNumbers t.cfg t.blk).length),
    t.wordBlk (a + 8 * k) = BitVec.ofNat 64 ((contextNumbers t.cfg t.blk)[k])

/-- `d` is a configured device. -/
def State.configured (s : State) (d : Nat) : Prop :=
  s.blk.devValid = true ∧ s.blk.devLo.toNat ≤ d ∧ d ≤ s.blk.devHi.toNat

/-- `at_ d` is the address of the context of each configured device; contexts lie apart from each other and from the
links that lead to them. -/
structure State.DirectoryAt (s : State) (at_ : Nat → Nat) : Prop where
  found : ∀ d, s.configured d → ∃ t, s.pageAt s.blk.ddtLvls.toNat d (s.blk.ddtLvls.toNat - 1) = some t ∧
    at_ d = t + dcBytes s.cfg.dcFmt * ddi s.cfg.dcFmt d 0
  apart : ∀ d d', s.configured d → s.configured d' → d ≠ d' →
    at_ d + dcBytes s.cfg.dcFmt ≤ at_ d' ∨ at_ d' + dcBytes s.cfg.dcFmt ≤ at_ d
  links : ∀ d d' k t, s.configured d → s.configured d' → k + 1 < s.blk.ddtLvls.toNat →
    s.pageAt s.blk.ddtLvls.toNat d' k = some t →
    t + 8 * ddi s.cfg.dcFmt d' (s.blk.ddtLvls.toNat - 1 - k) + 8 ≤ at_ d ∨
      at_ d + dcBytes s.cfg.dcFmt ≤ t + 8 * ddi s.cfg.dcFmt d' (s.blk.ddtLvls.toNat - 1 - k)

/-- From `s` to `t`, the doubleword at byte `off` of every configured context took the mode `m` and the page number
`ppn` and kept its bits 59:44 (spec/44_ddt.md R304); nothing else of memory changed, and Mem_io did not change yet. -/
structure State.PtrsUpdated (s t : State) (at_ : Nat → Nat) (off m ppn : Nat) : Prop where
  words : ∀ d, s.configured d → (t.wordBlk (at_ d + off)).toNat =
    m * 2 ^ 60 + (s.wordBlk (at_ d + off)).toNat / 2 ^ 44 % 2 ^ 16 * 2 ^ 44 + ppn
  others : ∀ a, (∀ d, s.configured d → ¬ within (at_ d + off) 8 a) → t.readBlk a = s.readBlk a
  io : t.memIo = s.memIo
  outside : s.SameOutside t

/-! The queues as CQ.INIT and FQ.INIT leave them (spec/45_cmdq.md R346, spec/46_faultq.md R382). -/

/-- The block's registers and `cqb` describe one command queue. -/
structure State.CqGeometry (s : State) : Prop where
  ready : s.blk.cqState = .ready
  base : (fieldPa s.regs.cqb).toNat = s.blk.cqBase.toNat
  size : (s.regs.cqb.extractLsb' 0 5).toNat + 1 = s.blk.cqLog2n.toNat
  aligned : s.blk.cqBase.toNat % (16 * 2 ^ s.blk.cqLog2n.toNat) = 0

/-- The block's registers and `fqb` describe one fault queue. -/
structure State.FqGeometry (s : State) : Prop where
  ready : s.blk.fqState = .ready
  base : (fieldPa s.regs.fqb).toNat = s.blk.fqBase.toNat
  size : (s.regs.fqb.extractLsb' 0 5).toNat + 1 = s.blk.fqLog2n.toNat
  aligned : s.blk.fqBase.toNat % (32 * 2 ^ s.blk.fqLog2n.toNat) = 0

/-- A wait makes at least one poll (spec/00_scope.md R8: POLL_BOUND is at least 1). -/
def State.polls (s : State) : Prop := s.cfg.pollBound ≠ some 0

end Sys2Proof.Machine
end

