-- ==== Sys2Proof/Certificates/Slice0/Obligations.lean ====
section
/-! DEFINITION. The statements for the provers. Numbers are unbounded (spec/00_scope.md R15) wherever a rule's bit
operation can be said by arithmetic, so that a statement does not repeat the definition it is about. -/

open Sys2Proof Sys2Proof.Machine

/-! Encoding and decoding. -/

/-- Decoding the words of any instruction gives it back, with every operand at every value. -/
def Obligations.DecodeEncode : Prop := ∀ i : Instr, decode (encode i) = .ok i

/-- A request that decodes matches exactly one row of the operation map and any other matches none; and no bit of REQ.op
is dropped: the operation word is the encoder's word of what it decodes to (R121, R124, R170). -/
def Obligations.RequestWordsDecode : Prop :=
  (∀ r : Request, (requestRows.filter (rowMatches r.op)).length =
    (match decode [r.op, r.a0, r.a1, r.a2, r.a3] with
     | .ok _ => 1
     | .error _ => 0)) ∧
  ∀ (r : Request) (i : Instr), decode [r.op, r.a0, r.a1, r.a2, r.a3] = .ok i → (encode i).head? = some r.op

/-- Words written out from the operation map (R124) and the command layouts (R145 to R148). -/
def Obligations.WordsOfTheSpec : Prop :=
  decode [0x6B0001, 0x80200000, 0, 0, 0] = .ok (.pteLeaf 0x6B 0x80200000) ∧
  decode [0x6B0011, 0x40000000, 0x80200000, 1, 0] = .ok (.ptMap .s1 0 0x6B 0x40000000 0x80200000 1) ∧
  decode [0x10021, 5, 0x28005000, 0, 0] = .ok (.msiSetBasic true 5 0x28005000) ∧
  decode [0x131, 0, 1, 0, 0] = .ok (.ddtRebuild 1 0 1) ∧
  decode [0x10040, 1, 0, 0, 0] = .ok (.cmdIodirDdt true 1) ∧
  decode [0x648, 0x80501000, 0, 0, 0] = .ok (.cqInit 6 false 0x80501000) ∧
  decode [0x51, 0, 0, 0, 0] = .ok .fqTryRead ∧
  decode [0x60, 0, 0, 0, 0] = .ok .fence ∧
  decode [0x500300007401, 0x10000000] = .ok (.iotinvalVma true true true 7 5 0x40000) ∧
  decode [0x1234567800000402, 0x80500000] = .ok (.iofenceC true false false false 0x12345678 0x20140000)

/-! Steps. -/

/-- A request that decodes to `i`, next at the port of an idle block, makes the step `exec i`, from the state in which
REQ holds the request and the block is BUSY (R31, R33; log 7 and log 31 for the port). -/
def Obligations.StepRunsRequest : Prop :=
  ∀ (s : State) (r : Request) (rest : List Input) (i : Instr), wellPlaced s = true → s.phase = .idle →
    s.inputs = .request r :: rest → decode [r.op, r.a0, r.a1, r.a2, r.a3] = .ok i →
    step s = exec i { s with req := r, phase := .busy, wait := none, inputs := rest }

/-- When the IOMMU's consumer may take a command and the slot holds the words of `i`, the IOMMU's step is `exec i`; then
`cqh` advances by one, modulo the capacity, unless a stop bit is set (R364, R366; log 7 for the turn). -/
def Obligations.StepRunsCommand : Prop :=
  ∀ (s t : State) (rest : List Input) (d0 d1 : Word) (i : Instr), wellPlaced s = true → s.inputs = .iommu :: rest →
    cqOn s.regs = true → cqErr s.regs.cqcsr = false → cqHead s.regs ≠ cqTail s.regs → s.engine.cmdBuf = none →
    accessible s.cfg (cqSlotIo s.regs) 16 = true → s.wordIo (cqSlotIo s.regs) = d0 →
    s.wordIo (cqSlotIo s.regs + 8) = d1 → decode [d0, d1] = .ok i → exec i { s with inputs := rest } = .next t →
    let n := queueCap t.regs.cqb
    let next : BitVec 32 := BitVec.ofNat 32 ((t.regs.cqh.toNat % n + 1) % n)
    let head := if cqErr t.regs.cqcsr then t.regs.cqh else next
    step s = .next { t with engine := { t.engine with cmdBuf := none }, regs := { t.regs with cqh := head } }

/-- What decodes to no request ends in ERR_ILLEGAL_REQ, with every result word 0 and no other effect (R170, R503). -/
def Obligations.IllegalRequestRefused : Prop :=
  ∀ (s : State) (r : Request) (rest : List Input), wellPlaced s = true → s.phase = .idle →
    s.inputs = .request r :: rest → (∀ i, decode [r.op, r.a0, r.a1, r.a2, r.a3] ≠ .ok i) →
    step s = .next { s with req := r, inputs := rest, phase := .idle, wait := none,
                            res := ⟨0x10, 0, 0, 0, 0, 0, 0, 0, 0⟩ }

/-- An illegal command sets cmd_ill and stops the consumer with `cqh` at it; it runs no further command (R365). -/
def Obligations.IllegalCommandStops : Prop :=
  ∀ (s : State) (rest : List Input) (c : Command), wellPlaced s = true → s.inputs = .iommu :: rest →
    cqOn s.regs = true → cqErr s.regs.cqcsr = false → cqHead s.regs ≠ cqTail s.regs → nextCommand s = some c →
    (∀ i, decode [c.dw0, c.dw1] ≠ .ok i) →
    ∃ t, step s = .next t ∧
      t = { s with inputs := rest, engine := { s.engine with cmdBuf := none },
                   regs := { s.regs with cqcsr := s.regs.cqcsr ||| 0x400 } } ∧
      ∀ later, consumeCommand later t = t ∧ commandStep later t = t

/-- A BUSY block goes on with its wait and leaves a further request in the port (R33, R504; the request left waiting is
the model's choice, log 7). -/
def Obligations.BusyBlockWaits : Prop :=
  ∀ (s : State) (w : WaitPoint), wellPlaced s = true → s.phase = .busy → s.wait = some w →
    (s.inputs = [] ∨ ∃ r rest, s.inputs = .request r :: rest) →
    step s = resume w s ∧ ∀ t, step s = .next t → t.inputs = s.inputs

/-- Reset of the block: its registers and RES at their reset values, nothing pending; the IOMMU's registers, its caches
and what it sees of memory are untouched (R560; log 30 for the writes that were pending). Reset of the block and the
IOMMU together: the IOMMU's registers and caches at their reset values besides (R563). Clauses that are the model's
choice: REQ, which R560 leaves unspecified, keeps its words (log 2); capabilities and fctl keep theirs through a joint
reset (log 4); and no command, record, transaction or invalidation is under way after one (log 34). -/
def Obligations.BlockReset : Prop :=
  ∀ (s : State) (both : Bool) (rest : List Input), wellPlaced s = true → s.inputs = .reset (!both) :: rest →
    ∃ t, step s = .next t ∧ t.phase = .idle ∧ t.wait = none ∧ t.res = ⟨0, 0, 0, 0, 0, 0, 0, 0, 0⟩ ∧ t.blk.AtReset ∧
      t.pend = [] ∧ t.memIo = s.memIo ∧ t.memBlk = s.memIo ∧ t.cfg = s.cfg ∧ t.req = s.req ∧
      (both = false → t.regs = s.regs ∧ t.caches = s.caches ∧ t.engine = s.engine) ∧
      (both = true → t.regs.AtReset s.cfg ∧ t.regs.capabilities = s.regs.capabilities ∧ t.regs.fctl = s.regs.fctl ∧
        t.caches.ddt = [] ∧ t.caches.iotlb = [] ∧ t.caches.msi = [] ∧ t.caches.inProgress = [] ∧
        t.engine.cmdBuf = none ∧ t.engine.recPending = false ∧ t.engine.inFlight = [])

/-! Invariants. -/

/-- Every step keeps both views of memory in canonical form. -/
def Obligations.StepKeepsMemory : Prop := ∀ s t : State, s.MemoryOk → step s = .next t → t.MemoryOk

/-- Every step keeps the two views of memory in agreement: up to the pending writes of the block and the unseen writes
of the others, there is one memory (R92, R96, R97, as log 12 and log 13 read them). -/
def Obligations.StepKeepsCoherence : Prop :=
  ∀ s t : State, s.MemoryOk → s.Coherent → step s = .next t → t.Coherent

/-- Every step keeps the reserved bits of ddtp, cqb, fqb, cqcsr and fqcsr at 0 (R39, R40, R42, R43). -/
def Obligations.StepKeepsReserved : Prop :=
  ∀ s t : State, s.regs.ReservedZero → step s = .next t → t.regs.ReservedZero

/-- Every step keeps RES.status a code of R500, and a block in a wait BUSY (R33). -/
def Obligations.StepKeepsSequencing : Prop := ∀ s t : State, s.Sequenced → step s = .next t → t.Sequenced

/-- Every instance's reset state satisfies the invariants, and holds the reset values the spec gives: IDLE, RES, every
register of the block and of the IOMMU, nothing pending, empty caches (R560, R563). -/
def Obligations.ResetState : Prop :=
  ∀ c : Config, (State.resetOf c).Inv ∧ (State.resetOf c).cfg = c ∧ (State.resetOf c).phase = .idle ∧
    (State.resetOf c).wait = none ∧ (State.resetOf c).res = ⟨0, 0, 0, 0, 0, 0, 0, 0, 0⟩ ∧
    (State.resetOf c).blk.AtReset ∧ (State.resetOf c).regs.AtReset c ∧ (State.resetOf c).pend = [] ∧
    (State.resetOf c).caches.ddt = [] ∧ (State.resetOf c).caches.iotlb = [] ∧ (State.resetOf c).caches.msi = []

/-- The model's reading of FENCE (log 12, log 13). It completes, whatever the environment does, with nothing pending;
from a coherent state the block and the IOMMU then see one memory. When no other agent moves, Mem_io is the old one
with the pending writes in it, in order, and nothing else changed (R410, R95 to R97). -/
def Obligations.FenceOrders : Prop :=
  ∀ s : State, ∃ t, exec .fence s = .next t ∧ t.res = result .ok ∧ t.pend = [] ∧ t.unseen = [] ∧
    (s.MemoryOk → s.Coherent → t.memBlk = t.memIo) ∧
    (s.weave = [] → t.memIo = drainAll s.memIo s.pend ∧ t.blk = s.blk ∧ s.SameOutside t ∧
      ∀ a, (∀ r ∈ s.unseen, r.covers a = false) → t.readBlk a = s.readBlk a)

/-- The result and request registers of every request operation, whatever the environment does: REQ and the parameters
stay; the block ends IDLE, or BUSY in a wait with RES as it was (R31 to R33). -/
def Obligations.OperationsFinish : Prop :=
  ∀ (i : Instr) (s t : State), isRequest i = true → exec i s = .next t →
    t.req = s.req ∧ t.cfg = s.cfg ∧ t.inputs = s.inputs ∧
      ((t.phase = .idle ∧ t.wait = none) ∨ (t.phase = .busy ∧ t.wait.isSome = true ∧ t.res = s.res))

/-- Whatever the environment does, each of the block's registers changes only by the operations that R34 to R38 name as
its writers. -/
def Obligations.RegistersHaveTheirWriters : Prop :=
  ∀ (i : Instr) (s t : State), exec i s = .next t →
    (i ≠ .ptInit → t.blk.ptReady = s.blk.ptReady ∧ t.blk.s1Root = s.blk.s1Root ∧ t.blk.s2Root = s.blk.s2Root) ∧
    (i ≠ .ptInit → (∀ st g fl a0 a1 a2, i ≠ .ptMap st g fl a0 a1 a2) → t.blk.poolNext = s.blk.poolNext) ∧
    ((∀ lv a0 a1, i ≠ .ddtRebuild lv a0 a1) →
      t.blk.ddtReady = s.blk.ddtReady ∧ t.blk.ddtLvls = s.blk.ddtLvls ∧ t.blk.ddtNext = s.blk.ddtNext ∧
      t.blk.devValid = s.blk.devValid ∧ t.blk.devLo = s.blk.devLo ∧ t.blk.devHi = s.blk.devHi) ∧
    ((∀ m, i ≠ .ddtSetS1Mode m) → t.blk.cfgS1Mode = s.blk.cfgS1Mode) ∧
    ((∀ m, i ≠ .ddtSetS2Mode m) → t.blk.cfgS2Mode = s.blk.cfgS2Mode) ∧
    ((∀ m, i ≠ .ddtSetMsiMode m) → t.blk.cfgMsiMode = s.blk.cfgMsiMode) ∧
    ((∀ b a0 a1 a2 a3, i ≠ .ddtConfig b a0 a1 a2 a3) →
      t.blk.cfgGscid = s.blk.cfgGscid ∧ t.blk.cfgPscid = s.blk.cfgPscid ∧ t.blk.cfgMsiMask = s.blk.cfgMsiMask ∧
      t.blk.cfgMsiPattern = s.blk.cfgMsiPattern ∧ t.blk.cfgDtf = s.blk.cfgDtf) ∧
    (i ≠ .msiInit → t.blk.msiReady = s.blk.msiReady) ∧
    ((∀ n b a0, i ≠ .cqInit n b a0) → t.blk.cqBase = s.blk.cqBase ∧ t.blk.cqLog2n = s.blk.cqLog2n ∧
      (i ≠ .cqDisable → t.blk.cqState = s.blk.cqState)) ∧
    ((∀ n b a0, i ≠ .fqInit n b a0) → t.blk.fqBase = s.blk.fqBase ∧ t.blk.fqLog2n = s.blk.fqLog2n ∧
      (i ≠ .fqDisable → t.blk.fqState = s.blk.fqState))

/-- A refused request leaves no effect: with the environment at rest, every status of R503's first list comes with a
state that differs from the one before in RES alone (and in the block being IDLE). -/
def Obligations.RefusalLeavesNoEffect : Prop :=
  ∀ (i : Instr) (s t : State), isRequest i = true → s.settled = true → exec i s = .next t →
    t.phase = .idle →
    (t.res.status ∈ [0x10, 0x11, 0x12, 0x13, 0x14, 0x15, 0x17] ∨
      (t.res.status = 0x18 ∧ ∀ m, i ≠ .ddtSetMode m)) →
    t = { s with res := t.res, phase := .idle, wait := none } ∧
      t.res = ⟨t.res.status, 0, 0, 0, 0, 0, 0, 0, 0⟩

/-! The codec (spec/41_codec.md). -/

/-- PTE.LEAF, PTE.NONLEAF and PTE.DECODE in every state, with their checks in order, as numbers (R202 to R205). -/
def Obligations.CodecResults : Prop :=
  (∀ (fl : BitVec 7) (a : Word) (s : State), exec (.pteLeaf fl a) s = .next (s.finish
    (if a.toNat % 4096 ≠ 0 then result .errAlign
     else if 2 ^ 56 ≤ a.toNat then result .errRange
     else if fl.toNat % 8 = 0 ∨ fl.toNat % 4 = 2 then result .errFlags
     else result .ok (BitVec.ofNat 64 (a.toNat / 4096 * 1024 + 2 * fl.toNat + 1))))) ∧
  (∀ (a : Word) (s : State), exec (.pteNonleaf a) s = .next (s.finish
    (if a.toNat % 4096 ≠ 0 then result .errAlign
     else if 2 ^ 56 ≤ a.toNat then result .errRange
     else result .ok (BitVec.ofNat 64 (a.toNat / 4096 * 1024 + 1))))) ∧
  (∀ (e : Word) (s : State), exec (.pteDecode e) s = .next (s.finish
    (result .ok (BitVec.ofNat 64 (e.toNat / 1024 % 2 ^ 44 * 4096)) (BitVec.ofNat 64 (e.toNat % 256))
      (if e.toNat % 2 = 0 then 0
       else if e.toNat / 2 ^ 54 ≠ 0 then 3
       else if e.toNat / 2 % 8 = 0 then (if e.toNat / 64 % 4 ≠ 0 ∨ e.toNat / 16 % 2 = 1 then 3 else 1)
       else if e.toNat / 2 % 4 = 2 then 3
       else 2)
      (BitVec.ofNat 64 (e.toNat / 256 % 4)) (BitVec.ofNat 64 (e.toNat / 2 ^ 54)))))

/-- R206: what PTE.LEAF and PTE.NONLEAF pack, PTE.DECODE unpacks; and an entry without RSW and high bits is its frame
field and its flag byte. -/
def Obligations.CodecRoundTrip : Prop :=
  (∀ (pa : Word) (fl : BitVec 7) (s : State), pa.toNat % 4096 = 0 → pa.toNat < 2 ^ 56 → legalLeaf fl = true →
    exec (.pteDecode (leafPte pa fl)) s = .next (s.finish (result .ok pa (flags8 fl) 2 0 0))) ∧
  (∀ (pa : Word) (s : State), pa.toNat % 4096 = 0 → pa.toNat < 2 ^ 56 →
    exec (.pteDecode (nonleafPte pa)) s = .next (s.finish (result .ok pa 1 1 0 0))) ∧
  (∀ e : Word, e.toNat / 256 % 4 = 0 → e.toNat / 2 ^ 54 = 0 → e = ppnField (fieldPa e) ||| (e &&& 0xFF))

/-! The builder (spec/42_builder.md). -/

/-- PT.INIT with no other agent moving: both roots empty in both views of memory, the builder's registers as R222 says,
every byte outside the five pages as a FENCE alone leaves it. -/
def Obligations.PtInitEmptiesRoots : Prop :=
  ∀ s : State, s.weave = [] → ∃ t, exec .ptInit s = .next t ∧
    t.res = result .ok s.cfg.poolBase (s.cfg.poolBase + 0x4000) ∧
    t.blk = { s.blk with ptReady := true, s2Root := s.cfg.poolBase.setWidth 56,
                         s1Root := (s.cfg.poolBase + 0x4000).setWidth 56, poolNext := 5 } ∧
    t.pend = [] ∧ s.SameOutside t ∧ s.AsFenceOutside t (within s.cfg.poolBase.toNat (5 * 4096)) ∧
    ∀ a, within s.cfg.poolBase.toNat (5 * 4096) a → t.readBlk a = 0 ∧ t.readIo a = 0

/-- PT.MAP's checks before its first memory access, in order; each leaves the state as it was (R225, R223, R201). -/
def Obligations.PtMapChecks : Prop :=
  ∀ (st : Stage) (g : BitVec 2) (fl : BitVec 7) (v p n : Word) (s : State),
    let size := 4096 * 512 ^ g.toNat
    let len := n.toNat * size
    let inRange := 1 ≤ n.toNat ∧ p.toNat + len ≤ 2 ^ 56 ∧
      (st = .s1 → v.toNat + len ≤ 2 ^ 38 ∨ 2 ^ 64 - 2 ^ 38 ≤ v.toNat ∧ v.toNat + len ≤ 2 ^ 64) ∧
      (st = .s2 → v.toNat + len ≤ 2 ^ 41)
    let refused (c : Status) : Prop := exec (.ptMap st g fl v p n) s = .next (s.finish (result c))
    if s.blk.ptReady = false then refused .errState
    else if g = 3 then refused .errIllegalReq
    else if v.toNat % size ≠ 0 ∨ p.toNat % size ≠ 0 then refused .errAlign
    else if ¬ inRange then refused .errRange
    else (fl.toNat % 8 = 0 ∨ fl.toNat % 4 = 2) → refused .errFlags

/-- The conflicts of R227, with no other agent moving inside the operation (`weave` empty, log 8): if the walk of any
granule of the request meets a LEAF or RESERVED entry above the leaf level, or a NONLEAF or RESERVED entry at it, PT.MAP
ends in ERR_CONFLICT and changes nothing. -/
def Obligations.PtMapConflict : Prop :=
  ∀ (st : Stage) (g : BitVec 2) (fl : BitVec 7) (v p n x : Word) (s : State) (k l t : Nat), s.weave = [] →
    s.blk.ptReady = true → (Instr.ptMap st g fl v p n).wellFormed = true → k < n.toNat → l ≤ 2 - g.toNat →
    x = v + BitVec.ofNat 64 (k * granule g) → s.tableAt st x l = some t →
    (kind (s.wordBlk (slot t st l x)) = .reserved ∨
      (l < 2 - g.toNat ∧ kind (s.wordBlk (slot t st l x)) = .leaf) ∨
      (l = 2 - g.toNat ∧ kind (s.wordBlk (slot t st l x)) = .nonleaf)) →
    exec (.ptMap st g fl v p n) s = .next (s.finish (result .errConflict))

/-- A PT.MAP of one granule whose tables exist, with no other agent moving inside the operation (`weave` empty, log 8),
issues one aligned store of its leaf and nothing else (R229, R225). The store is pending when the operation ends, and
what the IOMMU sees of memory is unchanged until it drains, which R94 lets it do at any time. -/
def Obligations.PtMapOneStore : Prop :=
  ∀ (st : Stage) (g : BitVec 2) (fl : BitVec 7) (v p : Word) (s : State) (t : Nat), s.weave = [] →
    s.blk.ptReady = true → s.blk.poolNext.toNat ≤ s.cfg.poolPages →
    (Instr.ptMap st g fl v p 1).wellFormed = true → s.tableAt st v (2 - g.toNat) = some t →
    (kind (s.wordBlk (slot t st (2 - g.toNat) v)) = .invalid ∨ kind (s.wordBlk (slot t st (2 - g.toNat) v)) = .leaf) →
    let ea := slot t st (2 - g.toNat) v
    let leaf : Word := BitVec.ofNat 64 (p.toNat / 4096 * 1024 + 2 * fl.toNat + 1)
    ∃ u, exec (.ptMap st g fl v p 1) s = .next u ∧ u.res = result .ok 0 (BitVec.ofNat 64 ea) ∧
      u.wordBlk ea = leaf ∧ u.pend = s.pend ++ [⟨ea, leaf⟩] ∧ u.memIo = s.memIo ∧ u.blk = s.blk ∧ s.SameOutside u ∧
      ∀ a, ¬ within ea 8 a → u.readBlk a = s.readBlk a

/-- PT.MAP with sound trees, no conflict, and no other agent moving (log 8): `need` is the number of tables its granules
miss, each counted once (R228). With more than the pool holds it ends in ERR_POOL and changes nothing. Otherwise it
completes: it allocates `need` tables and reports them and the last leaf's address; of the pool pages in use it changes
only entries on the walks of its granules, and nothing outside the pool (R225). pool_next does not wrap (log 11). -/
def Obligations.PtMapCompletes : Prop :=
  ∀ (st : Stage) (g : BitVec 2) (fl : BitVec 7) (v p n : Word) (s : State), s.weave = [] → wellPlaced s = true →
    s.TreesOk → s.PoolQuiet → (Instr.ptMap st g fl v p n).wellFormed = true →
    (∀ k < n.toNat, ∀ l ≤ 2 - g.toNat, ∀ t, s.tableAt st (v + BitVec.ofNat 64 (k * granule g)) l = some t →
      kind (s.wordBlk (slot t st l (v + BitVec.ofNat 64 (k * granule g)))) = .invalid ∨
      (l < 2 - g.toNat ∧ kind (s.wordBlk (slot t st l (v + BitVec.ofNat 64 (k * granule g)))) = .nonleaf) ∨
      (l = 2 - g.toNat ∧ kind (s.wordBlk (slot t st l (v + BitVec.ofNat 64 (k * granule g)))) = .leaf)) →
    let need := (s.tablesMissing st g v n.toNat).card
    let lastX : Word := v + BitVec.ofNat 64 ((n.toNat - 1) * granule g)
    (s.cfg.poolPages < s.blk.poolNext.toNat + need →
      exec (.ptMap st g fl v p n) s = .next (s.finish (result .errPool))) ∧
    (s.blk.poolNext.toNat + need ≤ s.cfg.poolPages → s.blk.poolNext.toNat + need < 2 ^ 32 →
      ∃ u table, exec (.ptMap st g fl v p n) s = .next u ∧ u.tableAt st lastX (2 - g.toNat) = some table ∧
        u.res = result .ok (BitVec.ofNat 64 need) (BitVec.ofNat 64 (slot table st (2 - g.toNat) lastX)) ∧
        u.blk = { s.blk with poolNext := BitVec.ofNat 32 (s.blk.poolNext.toNat + need) } ∧ s.SameOutside u ∧
        ∀ a, (∀ r ∈ s.unseen, r.covers a = false) →
          ¬ within (s.cfg.poolBase.toNat + 4096 * s.blk.poolNext.toNat) (4096 * need) a →
          (∀ k < n.toNat, ∀ l ≤ 2 - g.toNat, ∀ t, s.tableAt st (v + BitVec.ofNat 64 (k * granule g)) l = some t →
            ¬ within (slot t st l (v + BitVec.ofNat 64 (k * granule g))) 8 a) →
          u.readBlk a = s.readBlk a)

/-- PT.INIT establishes the invariants of the builder's trees (R231), and PT.MAP keeps them, refused or not, with no
other agent moving inside the operation (`weave` empty, log 8), no unseen write of another agent in the pool, and the
pages it could hand out below 2^32, so that pool_next does not wrap (log 11). -/
def Obligations.TreesStayOk : Prop :=
  (∀ s t : State, s.weave = [] → wellPlaced s = true → exec .ptInit s = .next t → t.TreesOk) ∧
  (∀ (st : Stage) (g : BitVec 2) (fl : BitVec 7) (v p n : Word) (s t : State), s.weave = [] → wellPlaced s = true →
    s.TreesOk → s.PoolQuiet →
    min s.cfg.poolPages (s.blk.poolNext.toNat + (s.tablesMissing st g v n.toNat).card) < 2 ^ 32 →
    exec (.ptMap st g fl v p n) s = .next t → t.TreesOk)

/-- What R233 says of a mapping and its lookup, with no other agent moving inside either operation (`weave` empty, log
8), no unseen write of another agent in the pool, and pool_next not wrapping (log 11): after a PT.MAP that finished OK,
PT.LOOKUP of any address it mapped finds the mapped frame, the leaf and the leaf's level. -/
def Obligations.MapThenLookup : Prop :=
  ∀ (st : Stage) (g : BitVec 2) (fl : BitVec 7) (v p n : Word) (s t : State) (k o : Nat), s.weave = [] →
    wellPlaced s = true → s.TreesOk → s.PoolQuiet →
    min s.cfg.poolPages (s.blk.poolNext.toNat + (s.tablesMissing st g v n.toNat).card) < 2 ^ 32 →
    exec (.ptMap st g fl v p n) s = .next t →
    t.res.status = Status.ok.code → k < n.toNat → o < granule g →
    ∃ ea, exec (.ptLookup st (v + BitVec.ofNat 64 (k * granule g + o))) t =
      .next (t.finish (result .ok (BitVec.ofNat 64 (p.toNat + k * granule g + o))
        (BitVec.ofNat 64 ((p.toNat + k * granule g) / 4096 * 1024 + 2 * fl.toNat + 1))
        (BitVec.ofNat 64 (2 - g.toNat)) ea))

/-- PT.LOOKUP in full (R232): its checks, and what it finds at the entry its walk ends at, with the translation as
numbers. It changes nothing. -/
def Obligations.PtLookupResults : Prop :=
  (∀ (st : Stage) (x : Word) (s : State), s.blk.ptReady = false →
    exec (.ptLookup st x) s = .next (s.finish (result .errState))) ∧
  (∀ (st : Stage) (x : Word) (s : State), s.blk.ptReady = true →
    ¬ (st = .s1 ∧ (x.toNat < 2 ^ 38 ∨ 2 ^ 64 - 2 ^ 38 ≤ x.toNat) ∨ st = .s2 ∧ x.toNat < 2 ^ 41) →
    exec (.ptLookup st x) s = .next (s.finish (result .errRange))) ∧
  (∀ (st : Stage) (x : Word) (s : State) (l t : Nat), s.weave = [] → s.blk.ptReady = true →
    (st = .s1 ∧ (x.toNat < 2 ^ 38 ∨ 2 ^ 64 - 2 ^ 38 ≤ x.toNat) ∨ st = .s2 ∧ x.toNat < 2 ^ 41) → l ≤ 2 →
    s.tableAt st x l = some t →
    let ea := t + 8 * (x.toNat / (4096 * 512 ^ (2 - l)) % (if st = .s2 ∧ l = 0 then 2048 else 512))
    let e := s.wordBlk ea
    let size := 4096 * 512 ^ (2 - l)
    (kind e = .leaf → exec (.ptLookup st x) s = .next (s.finish (result .ok
      (BitVec.ofNat 64 (e.toNat / 1024 % 2 ^ 44 * 4096 / size * size + x.toNat % size)) e
      (BitVec.ofNat 64 l) (BitVec.ofNat 64 ea)))) ∧
    (kind e = .invalid ∨ kind e = .reserved ∨ (kind e = .nonleaf ∧ l = 2) →
      exec (.ptLookup st x) s = .next (s.finish (result .none 0 e (BitVec.ofNat 64 l) (BitVec.ofNat 64 ea)))))

/-- The IOMMU reads the builder's stage-1 tree as PT.LOOKUP does: an access through a device context whose stage 1 is
that tree and whose stage 2 is Bare reaches the address PT.LOOKUP gives when the leaf has what the access needs (X; R;
W and D; and always A, and U unless it is privileged), and is the page fault of its kind otherwise (R232, R236), once
memory is drained and no copy is used. -/
def Obligations.IommuAgreesWithLookup : Prop :=
  ∀ (s t : State) (x : Context) (w : Walk) (of : AccessKind) (priv : Bool) (iova : Word), s.weave = [] →
    wellPlaced s = true → s.TreesOk → s.memIo = s.memBlk → w.picks = [] → x.s1 = true → x.s2 = false →
    x.s1Root = s.blk.s1Root.toNat → exec (.ptLookup .s1 iova) s = .next t →
    let needed : Word := (match of with | .exec => 0x48 | .read => 0x42 | .write => 0xC4) ||| (if priv then 0 else 0x10)
    let cause := match of with | .exec => 12 | .read => 13 | .write => 15
    stage1 s.cfg s.memIo x of priv iova w =
      (if t.res.status = Status.ok.code ∧ t.res.r1 &&& needed = needed then .ok t.res.r0 else .error ⟨cause, 0⟩, w)

/-! The MSI remap table (spec/43_msi.md). -/

/-- MSI.INIT with no other agent moving: every entry of the table empty in both views of memory, `msi_ready` set (R262);
on a BASE instance, ERR_MODE. -/
def Obligations.MsiInitEmptiesTable : Prop :=
  (∀ s : State, s.cfg.dcFmt = .base → exec .msiInit s = .next (s.finish (result .errMode))) ∧
  (∀ s : State, s.weave = [] → s.cfg.dcFmt = .ext → ∃ t, exec .msiInit s = .next t ∧
    t.res = result .ok s.cfg.msiBase (BitVec.ofNat 64 (256 * s.cfg.msiPages)) ∧
    t.blk = { s.blk with msiReady := true } ∧ t.pend = [] ∧ s.SameOutside t ∧
    s.AsFenceOutside t (within s.cfg.msiBase.toNat (4096 * s.cfg.msiPages)) ∧
    ∀ a, within s.cfg.msiBase.toNat (4096 * s.cfg.msiPages) a → t.readBlk a = 0 ∧ t.readIo a = 0)

/-- The checks of MSI.SET_BASIC and MSI.SET_MRIF, in order; each leaves the state as it was (R263 to R265). -/
def Obligations.MsiChecks : Prop :=
  (∀ (c : Bool) (a0 a1 : Word) (s : State) (st : Status),
    (if s.cfg.dcFmt = .base then st = .errMode
     else if s.blk.msiReady = false then st = .errState
     else if 256 * s.cfg.msiPages ≤ a0.toNat then st = .errRange
     else if a1.toNat % 4096 ≠ 0 then st = .errAlign
     else 2 ^ 56 ≤ a1.toNat ∧ st = .errRange) →
    exec (.msiSetBasic c a0 a1) s = .next (s.finish (result st))) ∧
  (∀ (c : Bool) (a0 a1 a2 a3 : Word) (s : State) (st : Status),
    (if s.cfg.dcFmt = .base then st = .errMode
     else if s.blk.msiReady = false then st = .errState
     else if 256 * s.cfg.msiPages ≤ a0.toNat then st = .errRange
     else if a1.toNat % 512 ≠ 0 ∨ a2.toNat % 4096 ≠ 0 then st = .errAlign
     else (2 ^ 56 ≤ a1.toNat ∨ 2 ^ 56 ≤ a2.toNat ∨ 2 ^ 11 ≤ a3.toNat) ∧ st = .errRange) →
    exec (.msiSetMrif c a0 a1 a2 a3) s = .next (s.finish (result st)))

/-- MSI.SET_BASIC with no other agent moving (R264, R266): the entry's words as numbers; while DW0 is still pending the
IOMMU sees DW1 already and DW0 as 0, so it never sees one entry's DW0 beside another's DW1. -/
def Obligations.MsiSetBasicWrites : Prop :=
  ∀ (c : Bool) (a0 a1 : Word) (s : State), s.weave = [] → s.cfg.dcFmt = .ext → s.blk.msiReady = true →
    a0.toNat < 256 * s.cfg.msiPages → a1.toNat % 4096 = 0 → a1.toNat < 2 ^ 56 →
    let ea := s.cfg.msiBase.toNat + 16 * a0.toNat
    let d0 : Word := BitVec.ofNat 64 (7 + a1.toNat / 4096 * 1024 + c.toNat * 2 ^ 63)
    ∃ t, exec (.msiSetBasic c a0 a1) s = .next t ∧ t.res = result .ok d0 0 (BitVec.ofNat 64 ea) ∧ t.blk = s.blk ∧
      t.wordBlk ea = d0 ∧ t.wordBlk (ea + 8) = 0 ∧ t.wordIo ea = 0 ∧ t.wordIo (ea + 8) = 0 ∧ t.pend = [⟨ea, d0⟩] ∧
      s.SameOutside t ∧ s.AsFenceOutside t (within ea 16)

/-- MSI.SET_MRIF with no other agent moving (R265, R266): as MSI.SET_BASIC, with the MRIF entry's words. -/
def Obligations.MsiSetMrifWrites : Prop :=
  ∀ (c : Bool) (a0 a1 a2 a3 : Word) (s : State), s.weave = [] → s.cfg.dcFmt = .ext → s.blk.msiReady = true →
    a0.toNat < 256 * s.cfg.msiPages → a1.toNat % 512 = 0 → a2.toNat % 4096 = 0 → a1.toNat < 2 ^ 56 →
    a2.toNat < 2 ^ 56 → a3.toNat < 2 ^ 11 →
    let ea := s.cfg.msiBase.toNat + 16 * a0.toNat
    let d0 : Word := BitVec.ofNat 64 (3 + a1.toNat / 512 * 128 + c.toNat * 2 ^ 63)
    let d1 : Word := BitVec.ofNat 64 (a3.toNat % 1024 + a2.toNat / 4096 * 1024 + a3.toNat / 1024 * 2 ^ 60)
    ∃ t, exec (.msiSetMrif c a0 a1 a2 a3) s = .next t ∧ t.res = result .ok d0 d1 (BitVec.ofNat 64 ea) ∧
      t.blk = s.blk ∧ t.wordBlk ea = d0 ∧ t.wordBlk (ea + 8) = d1 ∧ t.wordIo ea = 0 ∧ t.wordIo (ea + 8) = d1 ∧
      t.pend = [⟨ea, d0⟩] ∧ s.SameOutside t ∧ s.AsFenceOutside t (within ea 16)

/-- MSI.INDEX (R269) bit by bit (R268): it matches when the guest page agrees with the pattern at every bit the mask
leaves clear; bit `n` of the index is the guest page's bit at the mask's `n`-th set bit, and no other bit is set.
MSI.MRIF_LOC as numbers (R271). On a BASE instance both are ERR_MODE. -/
def Obligations.MsiLocators : Prop :=
  (∀ (x : Word) (s : State), s.cfg.dcFmt = .base → exec (.msiIndex x) s = .next (s.finish (result .errMode))) ∧
  (∀ (x : Word) (s : State), s.cfg.dcFmt = .ext →
    let mask := s.blk.cfgMsiMask
    let setBelow (j : Nat) : Nat := ((List.range j).filter (fun b => mask.getLsbD b)).length
    ∃ (i : Nat) (hit : Bool), exec (.msiIndex x) s = .next (s.finish (result .ok (if hit then 1 else 0)
        (BitVec.ofNat 64 i) (s.cfg.msiBase + BitVec.ofNat 64 (16 * i)) (if i < 256 * s.cfg.msiPages then 1 else 0))) ∧
      (hit = true ↔ ∀ j < 52, mask.getLsbD j = false → x.getLsbD (12 + j) = s.blk.cfgMsiPattern.getLsbD j) ∧
      i < 2 ^ setBelow 52 ∧ ∀ j < 52, mask.getLsbD j = true → i.testBit (setBelow j) = x.getLsbD (12 + j)) ∧
  (∀ (a0 a1 : Word) (s : State), exec (.msiMrifLoc a0 a1) s = .next (s.finish
     (if s.cfg.dcFmt = .base then result .errMode
      else if a0.toNat % 512 ≠ 0 then result .errAlign
      else if 2 ^ 56 ≤ a0.toNat ∨ 2048 ≤ a1.toNat then result .errRange
      else result .ok (BitVec.ofNat 64 (a0.toNat + 16 * (a1.toNat / 64))) (BitVec.ofNat 64 (a1.toNat % 64))
        (BitVec.ofNat 64 (a0.toNat + 16 * (a1.toNat / 64) + 8)))))

/-- What the IOMMU makes of the entries the block writes (R237): an entry of MSI.SET_BASIC redirects to the interrupt
file's page, one of MSI.SET_MRIF names its MRIF, notice address and notice data, and either with C = 1 is cause 263
(R267). -/
def Obligations.MsiEntriesMean : Prop :=
  (∀ (c : Bool) (a0 a1 gpa : Word) (s t : State), exec (.msiSetBasic c a0 a1) s = .next t →
    t.res.status = Status.ok.code →
    msiTarget gpa t.res.r0 t.res.r1 =
      if c then .error ⟨263, 0⟩ else .ok (.mem (BitVec.ofNat 64 (a1.toNat + gpa.toNat % 4096)))) ∧
  (∀ (c : Bool) (a0 a1 a2 a3 gpa : Word) (s t : State), exec (.msiSetMrif c a0 a1 a2 a3) s = .next t →
    t.res.status = Status.ok.code →
    msiTarget gpa t.res.r0 t.res.r1 = if c then .error ⟨263, 0⟩ else .ok (.mrif a1 a2 a3))

/-- R272: a 32-bit MSI write of identity `d` below 2048 through an MRIF entry sets the identity's pending bit, and only
if the paired enable bit is set writes the notice: with the enable bit clear it changes nothing but the pending
doubleword, and with it set nothing but the pending doubleword and the 4 bytes of the notice. A larger `d` is discarded.
(Another size of write is log 27; a block's or another agent's step between the accesses is log 33.) -/
def Obligations.MrifUpdate : Prop :=
  ∀ (x : Transaction) (mrif notice nid : Word) (dtf hold : Bool) (s : State), x.size = 4 →
    let d := x.data.toNat % 2 ^ 32
    let pair := mrif.toNat + 16 * (d / 64)
    let bits : Word := s.wordIo pair ||| BitVec.twoPow 64 (d % 64)
    let t := accessFinish hold ⟨x, dtf, .mrif mrif notice nid⟩ s
    (2048 ≤ d → t = { s with dev := .discarded }) ∧
    (d < 2048 → accessible s.cfg pair 16 = true → (s.wordIo (pair + 8)).getLsbD (d % 64) = false →
      t = { s with dev := .mrifUpdated false, memIo := t.memIo, unseen := s.unseen ++ [⟨pair, 8⟩] } ∧
      t.wordIo pair = bits ∧ ∀ a, ¬ within pair 8 a → t.readIo a = s.readIo a) ∧
    (d < 2048 → accessible s.cfg pair 16 = true → (s.wordIo (pair + 8)).getLsbD (d % 64) = true →
      accessible s.cfg notice.toNat 4 = true →
      t = { s with dev := .mrifUpdated true, memIo := t.memIo,
                   unseen := s.unseen ++ [⟨pair, 8⟩, ⟨notice.toNat, 4⟩] } ∧
      t.memIo.load notice.toNat 4 = BitVec.ofNat 64 (nid.toNat % 2 ^ 32) ∧
      (overlaps notice.toNat 4 pair 8 = false → t.wordIo pair = bits) ∧
      ∀ a, ¬ within pair 8 a → ¬ within notice.toNat 4 a → t.readIo a = s.readIo a)

/-! The device directory (spec/44_ddt.md). -/

/-- DDT.CONFIG in every state (R292): one argument too wide refuses it; otherwise five registers and nothing else. -/
def Obligations.DdtConfigResults : Prop :=
  ∀ (dtf : Bool) (a0 a1 a2 a3 : Word) (s : State), exec (.ddtConfig dtf a0 a1 a2 a3) s = .next
    (if 2 ^ 16 ≤ a0.toNat ∨ 2 ^ 20 ≤ a1.toNat ∨ 2 ^ 52 ≤ a2.toNat ∨ 2 ^ 52 ≤ a3.toNat then
       s.finish (result .errRange)
     else
       { s with res := result .ok, phase := .idle, wait := none,
                blk := { s.blk with cfgGscid := BitVec.ofNat 16 a0.toNat, cfgPscid := BitVec.ofNat 20 a1.toNat,
                                    cfgMsiMask := BitVec.ofNat 52 a2.toNat,
                                    cfgMsiPattern := BitVec.ofNat 52 a3.toNat, cfgDtf := dtf } })

/-- DDT.REBUILD's checks in order, the environment being at rest, and the modes DDT.SET_S1_MODE, DDT.SET_S2_MODE and
DDT.SET_MSI_MODE refuse with the steps they require; each leaves the state as it was (R296, R290, R294, R302, R303,
R305, R306). -/
def Obligations.DdtChecks : Prop :=
  (∀ (lv : BitVec 2) (lo hi : Word) (s : State) (st : Status), s.settled = true →
     let b0 := if s.cfg.dcFmt = .ext then 6 else 7
     let width := min s.cfg.didW (if lv = 3 then 24 else if lv = 2 then b0 + 9 else b0)
     let leaves := hi.toNat / 2 ^ b0 - lo.toNat / 2 ^ b0 + 1
     let mids := hi.toNat / 2 ^ (b0 + 9) - lo.toNat / 2 ^ (b0 + 9) + 1
     let pages := if lv = 3 then 1 + mids + leaves else if lv = 2 then 1 + leaves else 1
     let mode := s.regs.ddtp.toNat % 16
     (if lv = 0 then st = .errIllegalReq
      else if hi.toNat < lo.toNat ∨ 2 ^ width ≤ hi.toNat then st = .errRange
      else if s.cfg.ddtPages < pages then st = .errPool
      else (mode = 2 ∨ mode = 3 ∨ mode = 4) ∧ mode ≠ lv.toNat + 1 ∧ st = .errMode) →
     exec (.ddtRebuild lv lo hi) s = .next (s.finish (result st))) ∧
  (∀ (m : BitVec 4) (s : State),
     (m ≠ 0 → m ≠ 8 → exec (.ddtSetS1Mode m) s = .next (s.finish (result .errMode)) ∧
       exec (.ddtSetS2Mode m) s = .next (s.finish (result .errMode))) ∧
     (m = 8 → s.blk.ptReady = false → exec (.ddtSetS1Mode m) s = .next (s.finish (result .errState)) ∧
       exec (.ddtSetS2Mode m) s = .next (s.finish (result .errState))) ∧
     (s.cfg.dcFmt = .base ∨ (m ≠ 0 ∧ m ≠ 1) →
       exec (.ddtSetMsiMode m) s = .next (s.finish (result .errMode))) ∧
     (s.cfg.dcFmt = .ext → m = 1 → s.blk.msiReady = false →
       exec (.ddtSetMsiMode m) s = .next (s.finish (result .errState))))

/-- A one-level DDT.REBUILD, the environment at rest (R296, R293, R300): every device of the range has its context, the
rest of the region is 0; the IOMMU already sees every doubleword of every context but the publishing one, still 0. -/
def Obligations.DdtRebuildOneLevel : Prop :=
  ∀ (lo hi : Word) (s : State), s.settled = true → wellPlaced s = true → lo.toNat ≤ hi.toNat →
    hi.toNat < 2 ^ min s.cfg.didW (if s.cfg.dcFmt = .ext then 6 else 7) →
    (s.regs.ddtp.toNat % 16 = 2 ∨ s.regs.ddtp.toNat % 16 < 2 ∨ 4 < s.regs.ddtp.toNat % 16) →
    ∃ t, exec (.ddtRebuild 1 lo hi) s = .next t ∧
      t.res = result .ok 1 (BitVec.ofNat 64 (hi.toNat - lo.toNat + 1)) ∧
      t.blk = { s.blk with ddtReady := true, ddtLvls := 1, ddtNext := 1, devValid := true,
                           devLo := BitVec.ofNat 24 lo.toNat, devHi := BitVec.ofNat 24 hi.toNat } ∧
      (∀ d, lo.toNat ≤ d → d ≤ hi.toNat →
        t.HoldsContext (s.cfg.ddtBase.toNat + dcBytes s.cfg.dcFmt * d) ∧
        t.wordIo (s.cfg.ddtBase.toNat + dcBytes s.cfg.dcFmt * d) = 0 ∧
        ∀ a, within (s.cfg.ddtBase.toNat + dcBytes s.cfg.dcFmt * d + 8) (dcBytes s.cfg.dcFmt - 8) a →
          t.readIo a = t.readBlk a) ∧
      (∀ a, within s.cfg.ddtBase.toNat (4096 * s.cfg.ddtPages) a →
        (∀ d, lo.toNat ≤ d → d ≤ hi.toNat →
          ¬ within (s.cfg.ddtBase.toNat + dcBytes s.cfg.dcFmt * d) (dcBytes s.cfg.dcFmt) a) →
        t.readBlk a = 0 ∧ t.readIo a = 0) ∧
      s.SameOutside t ∧ s.AsFenceOutside t (within s.cfg.ddtBase.toNat (4096 * s.cfg.ddtPages))

/-- DDT.REBUILD of any number of levels (R296, R291, R294), the environment at rest: it takes `1 + need` pages, and the
directory it leaves has every device of the range, each in a context of its own holding the words of R293 where
DDT.LOCATE finds it, and no valid context for any other device. -/
def Obligations.DdtRebuildBuildsDirectory : Prop :=
  ∀ (lv : BitVec 2) (lo hi : Word) (s : State), s.settled = true → wellPlaced s = true →
    (Instr.ddtRebuild lv lo hi).wellFormed = true → hi.toNat < 2 ^ limBits s.cfg lv.toNat →
    1 + needPages s.cfg.dcFmt lv.toNat lo.toNat hi.toNat ≤ s.cfg.ddtPages →
    (s.regs.ddtp.toNat % 16 = lv.toNat + 1 ∨ s.regs.ddtp.toNat % 16 < 2 ∨ 4 < s.regs.ddtp.toNat % 16) →
    ∃ t at_, exec (.ddtRebuild lv lo hi) s = .next t ∧
      t.res = result .ok (BitVec.ofNat 64 (1 + needPages s.cfg.dcFmt lv.toNat lo.toNat hi.toNat))
        (BitVec.ofNat 64 (hi.toNat - lo.toNat + 1)) ∧
      t.DirectoryAt at_ ∧ (∀ d, t.configured d ↔ lo.toNat ≤ d ∧ d ≤ hi.toNat) ∧
      (∀ d, lo.toNat ≤ d → d ≤ hi.toNat → t.HoldsContext (at_ d) ∧
        exec (.ddtLocate (BitVec.ofNat 64 d)) t =
          .next (t.finish (result .ok (BitVec.ofNat 64 (at_ d)) (if s.blk.cfgDtf then 0x11 else 1)))) ∧
      (∀ d < 2 ^ limBits s.cfg lv.toNat, d < lo.toNat ∨ hi.toNat < d →
        ∃ u, exec (.ddtLocate (BitVec.ofNat 64 d)) t = .next u ∧
          (u.res.status = Status.none.code ∨ (u.res.status = Status.ok.code ∧ u.res.r1 = 0))) ∧
      s.SameOutside t ∧ s.AsFenceOutside t (within s.cfg.ddtBase.toNat (4096 * s.cfg.ddtPages))

/-- DDT.LOCATE in full (R310): its checks; the context of a device whose path is there, with its tc; the address of the
invalid link of one whose path is not. It changes nothing. -/
def Obligations.DdtLocateResults : Prop :=
  (∀ (d : Word) (s : State), s.blk.ddtReady = false →
    exec (.ddtLocate d) s = .next (s.finish (result .errState))) ∧
  (∀ (d : Word) (s : State), s.blk.ddtReady = true → 2 ^ limBits s.cfg s.blk.ddtLvls.toNat ≤ d.toNat →
    exec (.ddtLocate d) s = .next (s.finish (result .errRange))) ∧
  (∀ (d : Word) (s : State) (k t : Nat), s.weave = [] → s.blk.ddtReady = true →
    d.toNat < 2 ^ limBits s.cfg s.blk.ddtLvls.toNat → s.pageAt s.blk.ddtLvls.toNat d.toNat k = some t →
    let b0 := if s.cfg.dcFmt = .ext then 6 else 7
    let link := t + 8 * ddi s.cfg.dcFmt d.toNat (s.blk.ddtLvls.toNat - 1 - k)
    let ctx := t + 8 * (if s.cfg.dcFmt = .ext then 8 else 4) * (d.toNat % 2 ^ b0)
    (k = s.blk.ddtLvls.toNat - 1 →
      exec (.ddtLocate d) s = .next (s.finish (result .ok (BitVec.ofNat 64 ctx) (s.wordBlk ctx)))) ∧
    (k + 1 < s.blk.ddtLvls.toNat → (s.wordBlk link).getLsbD 0 = false →
      exec (.ddtLocate d) s = .next (s.finish (result .none 0 (BitVec.ofNat 64 link)))))

/-- DDT.SET_S1_MODE, DDT.SET_S2_MODE and DDT.SET_MSI_MODE on a directory of any shape, no other agent moving (R303,
R305, R306, R304): the mode register and, in every configured context, one doubleword. -/
def Obligations.SetModeUpdatesContexts : Prop :=
  ∀ (m : BitVec 4) (s : State) (at_ : Nat → Nat), s.weave = [] → s.DirectoryAt at_ →
    let count := if s.blk.devValid then s.blk.devHi.toNat + 1 - s.blk.devLo.toNat else 0
    ((m = 0 ∨ m = 8 ∧ s.blk.ptReady = true) → ∃ t, exec (.ddtSetS1Mode m) s = .next t ∧
      t.res = result .ok (BitVec.ofNat 64 count) ∧ t.blk = { s.blk with cfgS1Mode := m } ∧
      s.PtrsUpdated t at_ 24 m.toNat (if s.blk.ptReady then s.blk.s1Root.toNat / 4096 else 0)) ∧
    ((m = 0 ∨ m = 8 ∧ s.blk.ptReady = true) → ∃ t, exec (.ddtSetS2Mode m) s = .next t ∧
      t.res = result .ok (BitVec.ofNat 64 count) ∧ t.blk = { s.blk with cfgS2Mode := m } ∧
      s.PtrsUpdated t at_ 8 m.toNat (if s.blk.ptReady then s.blk.s2Root.toNat / 4096 else 0)) ∧
    (s.cfg.dcFmt = .ext → s.cfg.msiBase.toNat < 2 ^ 56 → (m = 0 ∨ m = 1 ∧ s.blk.msiReady = true) →
      ∃ t, exec (.ddtSetMsiMode m) s = .next t ∧
        t.res = result .ok (BitVec.ofNat 64 count) ∧ t.blk = { s.blk with cfgMsiMode := m } ∧
        s.PtrsUpdated t at_ 32 m.toNat (if s.blk.msiReady then s.cfg.msiBase.toNat / 4096 else 0))

/-- DDT.SET_MODE with the environment at rest (R308, R307): its checks, the refused change between leveled modes, and
otherwise a FENCE and one write of ddtp with the directory's page number, which reads back the new mode, or, where the
IOMMU does not support it, another one with ERR_MODE: the legal mode the IOMMU then takes, or else the old one (log 6,
which settles R39 against ruling I11). -/
def Obligations.DdtSetModeResults : Prop :=
  ∀ (m : BitVec 4) (s : State), s.settled = true → s.polls → s.cfg.ddtBase.toNat < 2 ^ 56 →
    let old := s.regs.ddtp.toNat % 16
    let left := if s.cfg.iommuModes.getLsbD s.warlMode.toNat then s.warlMode.toNat else old
    let isLeveled (k : Nat) : Prop := k = 2 ∨ k = 3 ∨ k = 4
    let ppn := s.cfg.ddtBase.toNat / 4096 * 1024
    let written (mode : Nat) : State :=
      { s with memIo := drainAll s.memIo s.pend, pend := [], unseen := [],
               memBlk := revealAll s.memBlk (drainAll s.memIo s.pend) s.unseen,
               regs := { s.regs with ddtp := BitVec.ofNat 64 (ppn + mode) } }
    (4 < m.toNat → exec (.ddtSetMode m) s = .next (s.finish (result .errMode))) ∧
    (2 ≤ m.toNat → m.toNat ≤ 4 → (s.blk.ddtReady = false ∨ s.blk.ddtLvls.toNat ≠ m.toNat - 1) →
      exec (.ddtSetMode m) s = .next (s.finish (result .errState))) ∧
    (m.toNat < 2 ∨ (m.toNat ≤ 4 ∧ s.blk.ddtReady = true ∧ s.blk.ddtLvls.toNat = m.toNat - 1) →
      (isLeveled old → isLeveled m.toNat → old ≠ m.toNat →
        exec (.ddtSetMode m) s = .next (s.finish (result .errMode))) ∧
      (¬ (isLeveled old ∧ isLeveled m.toNat ∧ old ≠ m.toNat) → s.cfg.iommuModes.getLsbD m.toNat = true →
        exec (.ddtSetMode m) s =
          .next ((written m.toNat).finish (result .ok (BitVec.ofNat 64 (ppn + m.toNat))))) ∧
      (¬ (isLeveled old ∧ isLeveled m.toNat ∧ old ≠ m.toNat) → s.cfg.iommuModes.getLsbD m.toNat = false →
        left ≠ m.toNat →
        exec (.ddtSetMode m) s = .next ((written left).finish (result .errMode (BitVec.ofNat 64 (ppn + left))))))

/-- The IOMMU reads the directory (R235) and finds in it what DDT.REBUILD wrote (R293). In any memory with no copy used:
an id too wide for the level count is cause 260; on the way, an entry that cannot be read is cause 257 (R235; which
addresses those are is the model's presumption, log 24), an invalid one 258, and a link with a reserved bit, or a
context with a reserved bit of tc or an unsupported stage mode, 259. After a rebuild of any level count and a FENCE, with
`ddtp` on the directory, every device of the range has its context located with the tags, roots, modes and aperture of
the block's registers, and every other id the levels can hold is cause 258. -/
def Obligations.RebuiltContextIsRead : Prop :=
  (∀ (c : Config) (m : Memory) (ddtp : Word) (l : Nat) (d : BitVec 24) (w : Walk), w.picks = [] →
    1 ≤ l → l ≤ 3 →
    let root := ddtp.toNat / 1024 % 2 ^ 44 * 4096
    (2 ^ idBits c.dcFmt l ≤ d.toNat → locateContext c m ddtp l d w = (.error ⟨260, 0⟩, w)) ∧
    ∀ k t, d.toNat < 2 ^ idBits c.dcFmt l → k < l → directoryPage c m root l d.toNat k = some t →
      let isLink := k + 1 < l
      let a := if isLink then t + 8 * ddi c.dcFmt d.toNat (l - 1 - k) else t + dcBytes c.dcFmt * ddi c.dcFmt d.toNat 0
      let size := if isLink then 8 else dcBytes c.dcFmt
      let e := (m.load64 a).toNat
      let mode (a : Nat) := (m.load64 a).toNat / 2 ^ 60
      (accessible c a size = false → locateContext c m ddtp l d w = (.error ⟨257, 0⟩, w)) ∧
      (accessible c a size = true → e % 2 = 0 → locateContext c m ddtp l d w = (.error ⟨258, 0⟩, w)) ∧
      (accessible c a size = true → e % 2 = 1 →
        (if isLink then e / 2 % 2 ^ 9 ≠ 0 ∨ e / 2 ^ 54 ≠ 0
         else e / 2 ^ 32 ≠ 0 ∨ (mode (a + 8) ≠ 0 ∧ mode (a + 8) ≠ 8) ∨ (mode (a + 24) ≠ 0 ∧ mode (a + 24) ≠ 8)) →
        locateContext c m ddtp l d w = (.error ⟨259, 0⟩, w))) ∧
  (∀ (lv : BitVec 2) (lo hi : Word) (s t u : State) (ddtp : Word) (w : Walk) (d : BitVec 24), s.settled = true →
    wellPlaced s = true → exec (.ddtRebuild lv lo hi) s = .next t → t.res.status = Status.ok.code →
    exec .fence t = .next u → ddtp.toNat / 1024 % 2 ^ 44 * 4096 = s.cfg.ddtBase.toNat → w.picks = [] →
    (s.blk.cfgS1Mode = 0 ∨ s.blk.cfgS1Mode = 8) → (s.blk.cfgS2Mode = 0 ∨ s.blk.cfgS2Mode = 8) →
    (s.blk.cfgMsiMode = 0 ∨ s.blk.cfgMsiMode = 1) → d.toNat < 2 ^ idBits s.cfg.dcFmt lv.toNat →
    (d.toNat < lo.toNat ∨ hi.toNat < d.toNat →
      locateContext u.cfg u.memIo ddtp lv.toNat d w = (.error ⟨258, 0⟩, w)) ∧
    (lo.toNat ≤ d.toNat → d.toNat ≤ hi.toNat →
      ∃ x, locateContext u.cfg u.memIo ddtp lv.toNat d w = (.ok x, w) ∧ x.dtf = s.blk.cfgDtf ∧
        x.gscid = s.blk.cfgGscid ∧ x.pscid = s.blk.cfgPscid ∧ (x.s1 = true ↔ s.blk.cfgS1Mode = 8) ∧
        (x.s2 = true ↔ s.blk.cfgS2Mode = 8) ∧
        (x.msi = true ↔ s.cfg.dcFmt = .ext ∧ s.blk.cfgMsiMode = 1) ∧
        (s.blk.ptReady = true → x.s1Root = s.blk.s1Root.toNat / 4096 * 4096 ∧
          x.s2Root = s.blk.s2Root.toNat / 4096 * 4096) ∧
        (s.cfg.dcFmt = .ext → x.mask = s.blk.cfgMsiMask ∧ x.pattern = s.blk.cfgMsiPattern ∧
          (s.blk.msiReady = true → x.msiBase = s.cfg.msiBase.toNat))))

/-! The command encoders (spec/45_cmdq.md section 1). -/

/-- R344 with R340 to R343: an encoder that is not refused gives the words of the legal command with its operands, a
field whose valid bit is 0 being 0; it touches no memory and no register. -/
def Obligations.EncodersMakeCommands : Prop :=
  (∀ (dv : Bool) (a0 : Word) (s : State), (dv = true → a0.toNat < 2 ^ 24) →
    ∃ d0 d1, exec (.cmdIodirDdt dv a0) s = .next (s.finish (result .ok d0 d1)) ∧
      decode [d0, d1] = .ok (.iodirInvalDdt dv (if dv then BitVec.ofNat 24 a0.toNat else 0))) ∧
  (∀ (av gv pscv : Bool) (a0 a1 a2 : Word) (s : State), (av = true → a0.toNat % 4096 = 0) →
    (gv = true → a1.toNat < 2 ^ 16) → (pscv = true → a2.toNat < 2 ^ 20) →
    ∃ d0 d1, exec (.cmdIotinvalVma av gv pscv a0 a1 a2) s = .next (s.finish (result .ok d0 d1)) ∧
      decode [d0, d1] = .ok (.iotinvalVma av pscv gv (if pscv then BitVec.ofNat 20 a2.toNat else 0)
        (if gv then BitVec.ofNat 16 a1.toNat else 0) (if av then BitVec.ofNat 52 (a0.toNat / 4096) else 0))) ∧
  (∀ (av gv : Bool) (a0 a1 : Word) (s : State), (av = true → a0.toNat % 4096 = 0) →
    (gv = true → a1.toNat < 2 ^ 16) →
    ∃ d0 d1, exec (.cmdIotinvalGvma av gv a0 a1) s = .next (s.finish (result .ok d0 d1)) ∧
      decode [d0, d1] = .ok (.iotinvalGvma av gv (if gv then BitVec.ofNat 16 a1.toNat else 0)
        (if av then BitVec.ofNat 52 (a0.toNat / 4096) else 0))) ∧
  (∀ (av wsi : Bool) (a0 a1 : Word) (s : State),
    (av = true → a0.toNat % 4 = 0 ∧ a0.toNat < 2 ^ 56 ∧ a1.toNat < 2 ^ 32) →
    ∃ d0 d1, exec (.cmdIofenceC av wsi a0 a1) s = .next (s.finish (result .ok d0 d1)) ∧
      decode [d0, d1] = .ok (.iofenceC av wsi false false (if av then BitVec.ofNat 32 a1.toNat else 0)
        (if av then BitVec.ofNat 62 (a0.toNat / 4) else 0)))

/-- The encoders' checks, in order (R340 to R343): an operand is checked only when its valid bit is 1. -/
def Obligations.EncoderChecks : Prop :=
  (∀ (a0 : Word) (s : State), 2 ^ 24 ≤ a0.toNat →
    exec (.cmdIodirDdt true a0) s = .next (s.finish (result .errRange))) ∧
  (∀ (av gv pscv : Bool) (a0 a1 a2 : Word) (s : State) (st : Status),
    (if av = true ∧ a0.toNat % 4096 ≠ 0 then st = .errAlign
     else (gv = true ∧ 2 ^ 16 ≤ a1.toNat ∨ pscv = true ∧ 2 ^ 20 ≤ a2.toNat) ∧ st = .errRange) →
    exec (.cmdIotinvalVma av gv pscv a0 a1 a2) s = .next (s.finish (result st))) ∧
  (∀ (av gv : Bool) (a0 a1 : Word) (s : State) (st : Status),
    (if av = true ∧ a0.toNat % 4096 ≠ 0 then st = .errAlign
     else gv = true ∧ 2 ^ 16 ≤ a1.toNat ∧ st = .errRange) →
    exec (.cmdIotinvalGvma av gv a0 a1) s = .next (s.finish (result st))) ∧
  (∀ (wsi : Bool) (a0 a1 : Word) (s : State) (st : Status),
    (if a0.toNat % 4 ≠ 0 then st = .errAlign
     else (2 ^ 56 ≤ a0.toNat ∨ 2 ^ 32 ≤ a1.toNat) ∧ st = .errRange) →
    exec (.cmdIofenceC true wsi a0 a1) s = .next (s.finish (result st)))

/-! The command queue (spec/45_cmdq.md). "At rest" is `settled`: no other agent has anything to do. -/

/-- CQ.INIT on a queue that is off, the environment at rest but for turning the queue on (R346, R364): the base
register, the tail set to the head (both 0 when ENABLE_RESETS_INDEX), cqen and cie, cqon, the sticky bits kept, and
READY; the block's registers and `cqb` then describe one queue. The model's choices in it: a command only read is
forgotten (log 19), the head keeps the bits above the capacity it shows (log 17), and the custom and busy bits keep
their values through the write of 0 (log 18). -/
def Obligations.CqInitResults : Prop :=
  ∀ (n : BitVec 6) (cie : Bool) (a0 : Word) (s : State), s.settled = true → s.polls →
    s.cfg.cqLog2nMax ≤ 32 → s.blk.cqState = .disabled → 1 ≤ n.toNat → n.toNat ≤ s.cfg.cqLog2nMax →
    a0.toNat % max 4096 (16 * 2 ^ n.toNat) = 0 → a0.toNat + 16 * 2 ^ n.toNat ≤ 2 ^ 56 → cqOn s.regs = false →
    let t0 := if s.cfg.enableResetsIndex then 0 else s.regs.cqh.toNat % 2 ^ n.toNat
    let t : State := { s with
      phase := .idle, wait := none, res := result .ok (BitVec.ofNat 64 t0),
      blk := { s.blk with cqState := .ready, cqBase := BitVec.ofNat 56 a0.toNat, cqLog2n := n },
      engine := { s.engine with cmdBuf := none },
      regs := { s.regs with
        cqb := BitVec.ofNat 64 (a0.toNat / 4096 * 1024 + (n.toNat - 1)), cqt := BitVec.ofNat 32 t0,
        cqh := if s.cfg.enableResetsIndex then 0 else s.regs.cqh,
        cqcsr := (s.regs.cqcsr &&& 0xFFFFFFFC) ||| (if cie then 0x10003 else 0x10001) } }
    exec (.cqInit n cie a0) s = .next t ∧ t.CqGeometry

/-- FQ.INIT on a queue that is off, likewise (spec/46_faultq.md R382, R395): the head set to the tail. The model's
choices in it: the tail keeps the bits above the capacity it shows (log 17), and the custom and busy bits keep their
values through the write of 0 (log 18). -/
def Obligations.FqInitResults : Prop :=
  ∀ (n : BitVec 6) (fie : Bool) (a0 : Word) (s : State), s.settled = true → s.polls →
    s.cfg.fqLog2nMax ≤ 32 → s.blk.fqState = .disabled → 1 ≤ n.toNat → n.toNat ≤ s.cfg.fqLog2nMax →
    a0.toNat % max 4096 (32 * 2 ^ n.toNat) = 0 → a0.toNat + 32 * 2 ^ n.toNat ≤ 2 ^ 56 → fqOn s.regs = false →
    let h0 := if s.cfg.enableResetsIndex then 0 else s.regs.fqt.toNat % 2 ^ n.toNat
    let t : State := { s with
      phase := .idle, wait := none, res := result .ok (BitVec.ofNat 64 h0),
      blk := { s.blk with fqState := .ready, fqBase := BitVec.ofNat 56 a0.toNat, fqLog2n := n },
      regs := { s.regs with
        fqb := BitVec.ofNat 64 (a0.toNat / 4096 * 1024 + (n.toNat - 1)), fqh := BitVec.ofNat 32 h0,
        fqt := if s.cfg.enableResetsIndex then 0 else s.regs.fqt,
        fqcsr := (s.regs.fqcsr &&& 0xFFFFFFFC) ||| (if fie then 0x10003 else 0x10001) } }
    exec (.fqInit n fie a0) s = .next t ∧ t.FqGeometry

/-- The checks of CQ.INIT and FQ.INIT with the environment at rest, those of CQ.SYNC's operands on a READY queue, and
the READY queue CQ.SUBMIT, CQ.WAIT and CQ.SYNC need, in order; each leaves the state as it was (R346, R382, R355,
R348, R350). -/
def Obligations.QueueChecks : Prop :=
  (∀ (n : BitVec 6) (cie : Bool) (a0 : Word) (s : State) (st : Status), s.settled = true →
    (if s.blk.cqState = .ready then st = .errState
     else if n.toNat < 1 ∨ s.cfg.cqLog2nMax < n.toNat then st = .errRange
     else if a0.toNat % max 4096 (16 * 2 ^ n.toNat) ≠ 0 then st = .errAlign
     else if 2 ^ 56 < a0.toNat + 16 * 2 ^ n.toNat then st = .errRange
     else (cqEn s.regs = true ∨ cqOn s.regs = true) ∧ st = .errState) →
    exec (.cqInit n cie a0) s = .next (s.finish (result st))) ∧
  (∀ (n : BitVec 6) (fie : Bool) (a0 : Word) (s : State) (st : Status), s.settled = true →
    (if s.blk.fqState = .ready then st = .errState
     else if n.toNat < 1 ∨ s.cfg.fqLog2nMax < n.toNat then st = .errRange
     else if a0.toNat % max 4096 (32 * 2 ^ n.toNat) ≠ 0 then st = .errAlign
     else if 2 ^ 56 < a0.toNat + 32 * 2 ^ n.toNat then st = .errRange
     else (fqEn s.regs = true ∨ fqOn s.regs = true) ∧ st = .errState) →
    exec (.fqInit n fie a0) s = .next (s.finish (result st))) ∧
  (∀ (a0 data : Word) (s : State) (st : Status), s.blk.cqState = .ready →
     (if a0.toNat % 8 ≠ 0 then st = .errAlign
      else (2 ^ 56 < a0.toNat + 8 ∨ data = 0 ∨ 2 ^ 32 ≤ data.toNat ∨
        meetsAny a0.toNat 8 (blockRegions s) = true) ∧ st = .errRange) →
     exec (.cqSync a0 data) s = .next (s.finish (result st))) ∧
  (∀ (d0 d1 : Word) (s : State), s.blk.cqState = .disabled →
    exec (.cqSubmit d0 d1) s = .next (s.finish (result .errState)) ∧
    exec .cqWait s = .next (s.finish (result .errState)) ∧
    exec (.cqSync d0 d1) s = .next (s.finish (result .errState)))

/-- CQ.SUBMIT into a queue that is not full, the environment at rest (R348, R345): the two words in the slot at the
tail, visible to the IOMMU, then the tail advanced by one modulo the capacity. -/
def Obligations.CqSubmitStores : Prop :=
  ∀ (d0 d1 : Word) (s : State), s.settled = true → s.polls → s.CqGeometry →
    (s.cfg.cqFullCheck = true → cqErr s.regs.cqcsr = false ∧
      (cqTail s.regs + 1) % 2 ^ s.blk.cqLog2n.toNat ≠ cqHead s.regs) →
    let a := s.blk.cqBase.toNat + 16 * cqTail s.regs
    ∃ t, exec (.cqSubmit d0 d1) s = .next t ∧
      t.res = result .ok (BitVec.ofNat 64 (cqTail s.regs)) (BitVec.ofNat 64 a) ∧ t.blk = s.blk ∧
      t.regs = { s.regs with cqt := BitVec.ofNat 32 ((cqTail s.regs + 1) % 2 ^ s.blk.cqLog2n.toNat) } ∧
      t.pend = [] ∧ t.wordBlk a = d0 ∧ t.wordBlk (a + 8) = d1 ∧ t.wordIo a = d0 ∧ t.wordIo (a + 8) = d1 ∧
      s.SameOutside { t with regs := s.regs } ∧ s.AsFenceOutside t (within a 16)

/-- How the waits of CQ.WAIT and CQ.SUBMIT end, the environment at rest: a drained queue ends CQ.WAIT, which changes
nothing but through its last FENCE; a stopped consumer (cqmf, cmd_to or cmd_ill) ends both in ERR_QUEUE with cqcsr in
r1; a wait that nothing ends times out at POLL_BOUND, or leaves the block BUSY when there is none (R347, R348, R350;
spec/00_scope.md R12; log 8 and log 9 for the environment's part). -/
def Obligations.CqWaitsEnd : Prop :=
  ∀ (d0 d1 : Word) (s : State), s.settled = true → s.polls → s.blk.cqState = .ready →
    let t : Word := BitVec.ofNat 64 (cqTail s.regs)
    let csr : Word := BitVec.ofNat 64 s.regs.cqcsr.toNat
    (cqErr s.regs.cqcsr = false → cqHead s.regs = cqTail s.regs →
      exec .cqWait s = .next ((fence s).finish (result .ok t csr))) ∧
    (cqErr s.regs.cqcsr = true →
      exec .cqWait s = .next (s.finish (result .errQueue (BitVec.ofNat 64 (cqHead s.regs)) csr)) ∧
      (s.cfg.cqFullCheck = true →
        exec (.cqSubmit d0 d1) s = .next ((fence s).finish (result .errQueue t csr)))) ∧
    (cqErr s.regs.cqcsr = false → cqHead s.regs ≠ cqTail s.regs →
      exec .cqWait s = .next (if s.cfg.pollBound.isSome then s.finish (result .errTimeout)
        else { s with phase := .busy, wait := some (.cqWait t) })) ∧
    (cqErr s.regs.cqcsr = false → s.cfg.cqFullCheck = true →
      (cqTail s.regs + 1) % 2 ^ s.blk.cqLog2n.toNat = cqHead s.regs →
      exec (.cqSubmit d0 d1) s = .next (if s.cfg.pollBound.isSome then (fence s).finish (result .errTimeout)
        else { fence s with phase := .busy, wait := some (.submit d0 d1 t .submit) }))

/-- CQ.STATUS and FQ.STATUS read the three registers, and CQ.CLEAR and FQ.CLEAR clear exactly the sticky bits, the
environment at rest (R352, R353; spec/46_faultq.md R387, R388). -/
def Obligations.QueueStatusAndClear : Prop :=
  ∀ s : State, s.settled = true →
    exec .cqStatus s = .next (s.finish (result .ok (BitVec.ofNat 64 s.regs.cqcsr.toNat)
      (BitVec.ofNat 64 (cqHead s.regs)) (BitVec.ofNat 64 (cqTail s.regs)))) ∧
    exec .fqStatus s = .next (s.finish (result .ok (BitVec.ofNat 64 s.regs.fqcsr.toNat)
      (BitVec.ofNat 64 (fqHead s.regs)) (BitVec.ofNat 64 (fqTail s.regs)))) ∧
    exec .cqClear s = .next { s with
      phase := .idle, wait := none, res := result .ok (BitVec.ofNat 64 s.regs.cqcsr.toNat),
      regs := { s.regs with cqcsr := s.regs.cqcsr &&& 0xFFFFF0FF } } ∧
    exec .fqClear s = .next { s with
      phase := .idle, wait := none, res := result .ok (BitVec.ofNat 64 s.regs.fqcsr.toNat),
      regs := { s.regs with fqcsr := s.regs.fqcsr &&& 0xFFFFFCFF } }

/-- CQ.DISABLE and FQ.DISABLE, the environment at rest but for turning the queue off (R354; spec/46_faultq.md R389): the
enable and the on bit clear, the interrupt enable and the sticky bits kept, and DISABLED. The model's choices in it: a
command only read is forgotten (log 19), and the custom and busy bits keep their values through the write of 0
(log 18). -/
def Obligations.QueueDisable : Prop :=
  ∀ s : State, s.settled = true → s.polls →
    (exec .cqDisable s = .next { s with
      phase := .idle, wait := none, res := result .ok (BitVec.ofNat 64 (s.regs.cqcsr &&& 0xFFFEFFFE).toNat),
      blk := { s.blk with cqState := .disabled },
      engine := if cqOn s.regs then { s.engine with cmdBuf := none } else s.engine,
      regs := { s.regs with cqcsr := s.regs.cqcsr &&& 0xFFFEFFFE } }) ∧
    (exec .fqDisable s = .next { s with
      phase := .idle, wait := none, res := result .ok (BitVec.ofNat 64 (s.regs.fqcsr &&& 0xFFFEFFFE).toNat),
      blk := { s.blk with fqState := .disabled },
      regs := { s.regs with fqcsr := s.regs.fqcsr &&& 0xFFFEFFFE } })

/-- CQ.SYNC on a running, drained queue, the IOMMU consuming what is submitted (R355, R363, R364; log 8, log 21): it
ends OK with the fence's index; the completion doubleword reads the data; no invalidation is in progress any more, and
no copy that one of them selects is left; the head and the tail meet one further on; nothing else of memory changed. -/
def Obligations.CqSyncCompletes : Prop :=
  ∀ (a0 data : Word) (s : State), s.settled = true → s.polls → wellPlaced s = true → s.CqGeometry →
    cqOn s.regs = true → cqErr s.regs.cqcsr = false → s.engine.cmdBuf = none → a0.toNat % 8 = 0 →
    a0.toNat + 8 ≤ 2 ^ 56 → data ≠ 0 → data.toNat < 2 ^ 32 →
    meetsAny a0.toNat 8 (registerWindow s.cfg :: blockRegions s) = false →
    let next : BitVec 32 := BitVec.ofNat 32 ((cqTail s.regs + 1) % 2 ^ s.blk.cqLog2n.toNat)
    ∃ t, exec (.cqSync a0 data) s = .next t ∧
      t.res = result .ok (BitVec.ofNat 64 (cqTail s.regs)) (BitVec.ofNat 64 s.regs.cqcsr.toNat) ∧
      t.wordBlk a0.toNat = data ∧ t.wordIo a0.toNat = data ∧ t.pend = [] ∧ t.blk = s.blk ∧
      t.regs = { s.regs with cqt := next, cqh := next } ∧
      t.caches.inProgress = [] ∧ (∀ i ∈ s.caches.inProgress, invalidate i t.caches = t.caches) ∧
      s.SameOutside { t with regs := s.regs, caches := s.caches } ∧
      s.AsFenceOutside t (fun a => within a0.toNat 8 a ∨ within (s.blk.cqBase.toNat + 16 * cqTail s.regs) 16 a)

/-! The fault queue (spec/46_faultq.md). -/

/-- FQ.TRY_READ, the environment at rest (R385, R380): without a READY queue, ERR_STATE; empty, NONE with the head in
r4; otherwise the four doublewords of the record at the head, as a FENCE leaves them, and the head advanced by one
modulo the capacity. -/
def Obligations.FqTryReadResults : Prop :=
  ∀ s : State, s.settled = true →
    (s.blk.fqState = .disabled → exec .fqTryRead s = .next (s.finish (result .errState))) ∧
    (s.blk.fqState = .ready → fqHead s.regs = fqTail s.regs →
      exec .fqTryRead s = .next (s.finish (result .none 0 0 0 0 (BitVec.ofNat 64 (fqHead s.regs))))) ∧
    (s.FqGeometry → fqHead s.regs ≠ fqTail s.regs →
      let a := s.blk.fqBase.toNat + 32 * fqHead s.regs
      ∃ t, exec .fqTryRead s = .next t ∧
        t.res = result .ok (t.wordBlk a) (t.wordBlk (a + 8)) (t.wordBlk (a + 16)) (t.wordBlk (a + 24))
          (BitVec.ofNat 64 (fqHead s.regs)) (BitVec.ofNat 64 a) ∧ t.blk = s.blk ∧ t.pend = [] ∧
        t.regs = { s.regs with fqh := BitVec.ofNat 32 ((fqHead s.regs + 1) % 2 ^ s.blk.fqLog2n.toNat) } ∧
        s.SameOutside { t with regs := s.regs } ∧ s.AsFenceOutside t (fun _ => False))

/-- FQR.DECODE in every state, as numbers (R390, spec/30_encoding.md R150). -/
def Obligations.FqrDecodeFields : Prop :=
  ∀ (a0 a1 a2 a3 : Word) (s : State), exec (.fqrDecode a0 a1 a2 a3) s = .next (s.finish (result .ok
    (BitVec.ofNat 64 (a0.toNat % 4096)) (BitVec.ofNat 64 (a0.toNat / 2 ^ 12 % 2 ^ 20))
    (BitVec.ofNat 64 (a0.toNat / 2 ^ 32 % 2)) (BitVec.ofNat 64 (a0.toNat / 2 ^ 33 % 2))
    (BitVec.ofNat 64 (a0.toNat / 2 ^ 34 % 64)) (BitVec.ofNat 64 (a0.toNat / 2 ^ 40)) a2 a3))

/-- Once DDT.SET_MODE off has finished OK, the IOMMU being at rest and no other agent moving (`settled`, log 8), a
device's transaction, whatever its type and address, is not performed; the next FQ.TRY_READ of the empty queue finishes
OK, and FQR.DECODE of its words gives cause 256, the device and the address (R309, R397). The PRIV bit of the record and
the types other than accesses are log 23; `dev` is the model's observation of the transaction (log 28). -/
def Obligations.OffModeReportsEveryTransfer : Prop :=
  ∀ (s0 s : State) (x : Transaction) (picks : List Pick), exec (.ddtSetMode 0) s0 = .next s →
    s.phase = .idle → s.res.status = Status.ok.code → s.settled = true → wellPlaced s = true → s.FqGeometry →
    fqOn s.regs = true → fqErr s.regs.fqcsr = false → fqHead s.regs = fqTail s.regs → s.pend = [] →
    ∃ u v w0 w1 w2 w3 h a, perform (.transact x picks false) s = u ∧ u.dev = .faulted 256 ∧
      exec .fqTryRead u = .next v ∧ v.res = result .ok w0 w1 w2 w3 h a ∧
      exec (.fqrDecode w0 w1 w2 w3) v = .next (v.finish (result .ok 256 0 0 (if x.priv then 1 else 0)
        (BitVec.ofNat 64 x.ttyp.toNat) (BitVec.ofNat 64 x.did.toNat) x.iova 0))

/-! The IOMMU's commands (spec/45_cmdq.md section 3). -/

/-- IODIR.INVAL_DDT, IOTINVAL.VMA and IOTINVAL.GVMA remove exactly the cached copies that R360, R361 and R362 select, as
log 22 reads them, and change nothing else. -/
def Obligations.InvalidationEffects : Prop :=
  (∀ (dv : Bool) (did : BitVec 24) (s : State), ∃ t, exec (.iodirInvalDdt dv did) s = .next t ∧
     t = { s with caches := { s.caches with ddt := t.caches.ddt } } ∧
     ∀ c, c ∈ t.caches.ddt ↔ c ∈ s.caches.ddt ∧ dv = true ∧ c.did ≠ did) ∧
  (∀ (av pscv gv : Bool) (pscid : BitVec 20) (gscid : BitVec 16) (addr : BitVec 52) (s : State),
    ∃ t, exec (.iotinvalVma av pscv gv pscid gscid addr) s = .next t ∧
      t = { s with caches := { s.caches with iotlb := t.caches.iotlb } } ∧
      ∀ c, c ∈ t.caches.iotlb ↔ c ∈ s.caches.iotlb ∧ ¬ (c.stage = .s1 ∧
        (if gv then c.gv = true ∧ c.gscid = gscid else c.gv = false) ∧
        (av = true → c.page.toNat / levelSize c.level = addr.toNat * 4096 / levelSize c.level) ∧
        (pscv = true → c.pscid = pscid ∧ c.val.getLsbD 5 = false))) ∧
  (∀ (av gv : Bool) (gscid : BitVec 16) (addr : BitVec 52) (s : State),
    ∃ t, exec (.iotinvalGvma av gv gscid addr) s = .next t ∧
      t = { s with caches := { s.caches with iotlb := t.caches.iotlb, msi := t.caches.msi } } ∧
      (∀ c, c ∈ t.caches.iotlb ↔ c ∈ s.caches.iotlb ∧ ¬ ((gv = true → c.gscid = gscid) ∧
        (c.stage = .s2 → av = true → c.page.toNat / levelSize c.level = addr.toNat * 4096 / levelSize c.level) ∧
        (c.stage = .s1 → c.gv = true ∧ (av = true → ∃ p ∈ c.gpas,
          p.addr.toNat / levelSize p.level = addr.toNat * 4096 / levelSize p.level)))) ∧
      ∀ c, c ∈ t.caches.msi ↔ c ∈ s.caches.msi ∧ ¬ ((gv = true → c.gscid = gscid) ∧
        (av = true → c.page.toNat / 4096 = addr.toNat)))

/-- IOFENCE.C (R363, R366): every invalidation in progress completes, and the transactions under way that PR and PW wait
for are performed (with PR = PW = 0 none is; log 33); then, with AV, DATA is stored in 4 bytes at ADDR, or cqmf is set
when ADDR cannot be written (log 24); then fence_w_ip with WSI on an instance with FCTL_WSI. -/
def Obligations.IofenceEffect : Prop :=
  ∀ (av wsi pr pw : Bool) (data : BitVec 32) (addr : BitVec 62) (s : State),
    let a := 4 * addr.toNat
    let ready := av = true → accessible s.cfg a 4 = true
    let u := awaitTransactions pr pw s
    ∃ t, exec (.iofenceC av wsi pr pw data addr) s = .next t ∧ (pr = false → pw = false → u = s) ∧
      t.engine.inFlight = s.engine.inFlight.filter (fun x => !awaited pr pw x) ∧ t.caches.inProgress = [] ∧
      (∀ i ∈ s.caches.inProgress, invalidate i t.caches = t.caches) ∧
      (¬ ready → t = { u with caches := t.caches, regs := { u.regs with cqcsr := u.regs.cqcsr ||| 0x100 } }) ∧
      (ready → t = { u with caches := t.caches, memIo := t.memIo, unseen := t.unseen, regs := { u.regs with
          cqcsr := if wsi && s.cfg.fctlWsi then u.regs.cqcsr ||| 0x800 else u.regs.cqcsr } } ∧
        (av = false → t.memIo = u.memIo ∧ t.unseen = u.unseen) ∧
        (av = true → t.memIo.load a 4 = data.setWidth 64 ∧ t.unseen = u.unseen ++ [⟨a, 4⟩] ∧
          ∀ b, ¬ within a 4 b → t.readIo b = u.readIo b))

/-! Waits that are resumed. -/

/-- A block that stayed BUSY in a wait goes on with it in a later step (R33, R12), here once the IOMMU is at rest
(log 8): where what the wait is for has come, or a stop bit that ends it, the operation finishes as its rule says from
there (R346, R347, R348, R350, R354, R355, R382, R389, R308); where it has not, the block stays BUSY, or the wait ends
in ERR_TIMEOUT on an instance with POLL_BOUND (log 9). A submission that is CQ.SYNC's goes on with CQ.SYNC's own
wait. -/
def Obligations.WaitsEndLater : Prop :=
  ∀ s : State, wellPlaced s = true → s.settled = true → s.polls → s.phase = .busy → s.inputs = [] →
    let csr : Word := BitVec.ofNat 64 s.regs.cqcsr.toNat
    let fcsr : Word := BitVec.ofNat 64 s.regs.fqcsr.toNat
    let head : Word := BitVec.ofNat 64 (cqHead s.regs)
    let still (u : State) : State := if s.cfg.pollBound.isSome then u.finish (result .errTimeout) else u
    let ended (u : State) (b : BlockRegs) (r : Result) : State := { u with phase := .idle, wait := none, blk := b, res := r }
    (∀ t, s.wait = some (.cqWait t) →
      step s = .next (if cqErr s.regs.cqcsr then s.finish (result .errQueue head csr)
        else if head = t then (fence s).finish (result .ok t csr) else still s)) ∧
    (∀ a0 n t0, s.wait = some (.cqInit a0 n t0) →
      step s = .next (if cqOn s.regs then
        ended s { s.blk with cqState := .ready, cqBase := BitVec.ofNat 56 a0.toNat, cqLog2n := n } (result .ok t0)
        else still s)) ∧
    (∀ a0 n h0, s.wait = some (.fqInit a0 n h0) →
      step s = .next (if fqOn s.regs then
        ended s { s.blk with fqState := .ready, fqBase := BitVec.ofNat 56 a0.toNat, fqLog2n := n } (result .ok h0)
        else still s)) ∧
    (s.wait = some .cqDisable →
      step s = .next (if cqOn s.regs then still s
        else ended s { s.blk with cqState := .disabled } (result .ok csr))) ∧
    (s.wait = some .fqDisable →
      step s = .next (if fqOn s.regs then still s
        else ended s { s.blk with fqState := .disabled } (result .ok fcsr))) ∧
    (∀ a0 a1 t, s.wait = some (.syncDone a0 a1 t) →
      step s = .next (if cqErr s.regs.cqcsr then s.finish (result .errQueue t csr)
        else if ((fence s).wordBlk a0.toNat).toNat % 2 ^ 32 = a1.toNat then (fence s).finish (result .ok t csr)
        else still (fence s))) ∧
    (∀ d0 d1 t for_, s.wait = some (.submit d0 d1 t for_) → s.CqGeometry → t = BitVec.ofNat 64 (cqTail s.regs) →
      let a := s.blk.cqBase.toNat + 16 * cqTail s.regs
      let next := (cqTail s.regs + 1) % 2 ^ s.blk.cqLog2n.toNat
      if cqErr s.regs.cqcsr then step s = .next (s.finish (result .errQueue t csr))
      else if next = cqHead s.regs then step s = .next (still s)
      else ∃ u, step { s with wait := some (.submit d0 d1 t .submit) } = .next u ∧
        u.res = result .ok t (BitVec.ofNat 64 a) ∧ u.phase = .idle ∧ u.blk = s.blk ∧
        u.regs = { s.regs with cqt := BitVec.ofNat 32 next } ∧ u.pend = [] ∧ u.wordIo a = d0 ∧ u.wordIo (a + 8) = d1 ∧
        s.SameOutside { u with regs := s.regs } ∧ s.AsFenceOutside u (within a 16) ∧
        step s = match for_ with
          | .submit => .next u
          | .sync a0 a1 => step { u with phase := .busy, wait := some (.syncDone a0 a1 t), res := s.res }) ∧
    (∀ m, s.wait = some (.setModeReady m) → m.toNat < 2 ∨ (m.toNat ≤ 4 ∧ s.blk.ddtReady = true ∧
        s.blk.ddtLvls.toNat = m.toNat - 1) → step s = exec (.ddtSetMode m) s) ∧
    (∀ m, s.wait = some (.setModeDone m) →
      step s = .next (s.finish (if s.regs.ddtp.toNat % 16 = m.toNat then result .ok s.regs.ddtp
        else result .errMode s.regs.ddtp)))
end

