-- ==== Sys2Proof/Laws/Memory.lean ====
section
/-! SUPPORT. Memory: reading after a store, the canonical form, and loads after stores. -/

namespace Sys2Proof.Machine

/-! Reading one byte. -/

theorem Memory.read_of_no_key (m : Memory) (b : Nat) (h : ∀ c ∈ m, c.1 ≠ b) : m.read b = unlisted := by
  induction m with
  | nil => rfl
  | cons c m ih =>
    simp only [Memory.read]
    rw [if_neg (h c (by simp))]
    exact ih fun d hd => h d (by simp [hd])

theorem Memory.read_append_right (m n : Memory) (b : Nat) (h : ∀ c ∈ m, c.1 ≠ b) :
    Memory.read (m ++ n) b = n.read b := by
  induction m with
  | nil => rfl
  | cons c m ih =>
    simp only [List.cons_append, Memory.read]
    rw [if_neg (h c (by simp))]
    exact ih fun d hd => h d (by simp [hd])

theorem Memory.read_append_left (m n : Memory) (b : Nat) (h : ∀ c ∈ n, c.1 ≠ b) :
    Memory.read (m ++ n) b = m.read b := by
  induction m with
  | nil => exact Memory.read_of_no_key n b h
  | cons c m ih =>
    simp only [List.cons_append, Memory.read]
    split
    · rfl
    · exact ih

theorem Memory.read_filter (m : Memory) (p : Host.Cell → Bool) (b : Nat)
    (h : ∀ c ∈ m, c.1 = b → p c = true) : Memory.read (m.filter p) b = m.read b := by
  induction m with
  | nil => rfl
  | cons c m ih =>
    have ih := ih fun d hd => h d (by simp [hd])
    by_cases hp : p c = true
    · simp only [List.filter_cons_of_pos hp, Memory.read, ih]
    · rw [List.filter_cons_of_neg hp]
      simp only [Memory.read]
      rw [if_neg (fun e => hp (h c (by simp) e)), ih]

theorem Memory.cells_key (a : Nat) (bs : List Byte) : ∀ c ∈ Memory.cells a bs, a ≤ c.1 ∧ c.1 < a + bs.length := by
  induction bs generalizing a with
  | nil => simp [Memory.cells]
  | cons b bs ih =>
    intro c hc
    simp only [Memory.cells] at hc
    have step : ∀ c ∈ Memory.cells (a + 1) bs, a ≤ c.1 ∧ c.1 < a + (b :: bs).length := by
      intro c hc
      have := ih (a + 1) c hc
      simp only [List.length_cons]
      omega
    split at hc
    · exact step c hc
    · rcases List.mem_cons.1 hc with rfl | hc
      · simp
      · exact step c hc

theorem Memory.read_cells (a : Nat) (bs : List Byte) (b : Nat) (ha : a ≤ b) :
    Memory.read (Memory.cells a bs) b = bs.getD (b - a) unlisted := by
  induction bs generalizing a with
  | nil => rfl
  | cons x bs ih =>
    have tail (h : a + 1 ≤ b) : (x :: bs).getD (b - a) unlisted = bs.getD (b - (a + 1)) unlisted := by
      obtain ⟨k, rfl⟩ : ∃ k, b = a + 1 + k := ⟨b - (a + 1), by omega⟩
      simp [show a + 1 + k - a = k + 1 by omega]
    rcases Nat.eq_or_lt_of_le ha with rfl | h
    · simp only [Memory.cells]
      split
      · rename_i hx
        rw [Memory.read_of_no_key _ _ fun c hc => by have := Memory.cells_key _ _ c hc; omega]
        simp [hx]
      · simp [Memory.read]
    · rw [tail h, ← ih (a + 1) h]
      simp only [Memory.cells]
      split
      · rfl
      · simp only [Memory.read]
        rw [if_neg (by omega)]

/-- Reading after a store: the stored bytes in their range, the old bytes elsewhere. -/
theorem Memory.read_store (m : Memory) (a : Nat) (bs : List Byte) (b : Nat) :
    (m.store a bs).read b = if a ≤ b ∧ b < a + bs.length then bs.getD (b - a) unlisted else m.read b := by
  unfold Memory.store
  have low : ∀ c ∈ m.filter (fun c => decide (c.1 < a)), c.1 < a := by
    intro c hc
    simpa using (List.mem_filter.1 hc).2
  have high : ∀ c ∈ m.filter (fun c => decide (a + bs.length ≤ c.1)), a + bs.length ≤ c.1 := by
    intro c hc
    simpa using (List.mem_filter.1 hc).2
  rcases Nat.lt_or_ge b a with h | h
  · rw [if_neg (by omega), List.append_assoc, Memory.read_append_left, Memory.read_filter]
    · intro c _ e
      simpa using e ▸ h
    · intro c hc
      rcases List.mem_append.1 hc with hc | hc
      · have := Memory.cells_key _ _ c hc
        omega
      · have := high c hc
        omega
  · rcases Nat.lt_or_ge b (a + bs.length) with h' | h'
    · rw [if_pos ⟨h, h'⟩, Memory.read_append_left _ _ _ fun c hc => by have := high c hc; omega,
        Memory.read_append_right _ _ _ fun c hc => by have := low c hc; omega, Memory.read_cells _ _ _ h]
    · rw [if_neg (by omega), Memory.read_append_right, Memory.read_filter]
      · intro c _ e
        simpa using e ▸ h'
      · intro c hc
        rcases List.mem_append.1 hc with hc | hc
        · have := low c hc
          omega
        · have := Memory.cells_key _ _ c hc
          omega

/-! The canonical form. -/

theorem Memory.wf_nil : Memory.wf [] := by simp [Memory.wf]

theorem Memory.cells_sorted (a : Nat) (bs : List Byte) : (Memory.cells a bs).Pairwise (fun c d => c.1 < d.1) := by
  induction bs generalizing a with
  | nil => simp [Memory.cells]
  | cons b bs ih =>
    simp only [Memory.cells]
    split
    · exact ih (a + 1)
    · refine List.pairwise_cons.2 ⟨fun c hc => ?_, ih (a + 1)⟩
      have := Memory.cells_key _ _ c hc
      omega

theorem Memory.cells_listed (a : Nat) (bs : List Byte) : ∀ c ∈ Memory.cells a bs, c.2 ≠ unlisted := by
  induction bs generalizing a with
  | nil => simp [Memory.cells]
  | cons b bs ih =>
    intro c hc
    simp only [Memory.cells] at hc
    split at hc
    · exact ih (a + 1) c hc
    · rename_i h
      rcases List.mem_cons.1 hc with rfl | hc
      · exact h
      · exact ih (a + 1) c hc

/-- A store keeps the canonical form. -/
theorem Memory.wf_store (m : Memory) (a : Nat) (bs : List Byte) (h : m.wf) : (m.store a bs).wf := by
  unfold Memory.store
  refine ⟨?_, ?_⟩
  · rw [List.append_assoc, List.pairwise_append, List.pairwise_append]
    refine ⟨h.1.filter _, ⟨Memory.cells_sorted a bs, h.1.filter _, ?_⟩, ?_⟩
    · intro c hc d hd
      have := Memory.cells_key _ _ c hc
      have := List.mem_filter.1 hd
      simp only [decide_eq_true_eq] at this
      omega
    · intro c hc d hd
      have hc := (List.mem_filter.1 hc).2
      simp only [decide_eq_true_eq] at hc
      rcases List.mem_append.1 hd with hd | hd
      · have := Memory.cells_key _ _ d hd
        omega
      · have hd := (List.mem_filter.1 hd).2
        simp only [decide_eq_true_eq] at hd
        omega
  · intro c hc
    rcases List.mem_append.1 hc with hc | hc
    · rcases List.mem_append.1 hc with hc | hc
      · exact h.2 c (List.mem_filter.1 hc).1
      · exact Memory.cells_listed _ _ c hc
    · exact h.2 c (List.mem_filter.1 hc).1

/-- In canonical form, memories that read the same are the same data. -/
theorem Memory.eq_of_read (m n : Memory) (hm : m.wf) (hn : n.wf) (h : ∀ a, m.read a = n.read a) : m = n := by
  induction m generalizing n with
  | nil =>
    cases n with
    | nil => rfl
    | cons d n =>
      have := h d.1
      simp only [Memory.read, if_true] at this
      exact absurd this.symm (hn.2 d (by simp))
  | cons c m ih =>
    cases n with
    | nil =>
      have := h c.1
      simp only [Memory.read, if_true] at this
      exact absurd this (hm.2 c (by simp))
    | cons d n =>
      have sm := List.pairwise_cons.1 hm.1
      have sn := List.pairwise_cons.1 hn.1
      have key : c.1 = d.1 := by
        rcases Nat.lt_trichotomy c.1 d.1 with lt | eq | gt
        · have := h c.1
          simp only [Memory.read, if_true] at this
          rw [if_neg (by omega), Memory.read_of_no_key n _ fun e he => by have := sn.1 e he; omega] at this
          exact absurd this (hm.2 c (by simp))
        · exact eq
        · have := h d.1
          simp only [Memory.read, if_true] at this
          rw [if_neg (by omega), Memory.read_of_no_key m _ fun e he => by have := sm.1 e he; omega] at this
          exact absurd this.symm (hn.2 d (by simp))
      have val : c.2 = d.2 := by
        have := h c.1
        simpa only [Memory.read, if_true, key] using this
      have rest : m = n := by
        refine ih n ⟨sm.2, fun e he => hm.2 e (by simp [he])⟩ ⟨sn.2, fun e he => hn.2 e (by simp [he])⟩ fun a => ?_
        by_cases ha : c.1 = a
        · rw [Memory.read_of_no_key m a fun e he => by have := sm.1 e he; omega,
            Memory.read_of_no_key n a fun e he => by have := sn.1 e he; omega]
        · have := h a
          simpa only [Memory.read, if_neg ha, if_neg (key ▸ ha)] using this
      rw [rest, show c = d from Prod.ext key val]

/-! Bytes and words. -/

@[simp] theorem leBytes_length (n : Nat) (v : Word) : (leBytes n v).length = n := by
  induction n generalizing v with
  | zero => rfl
  | succ n ih => simp [leBytes, ih]

@[simp] theorem Memory.bytes_length (m : Memory) (a n : Nat) : (m.bytes a n).length = n := by
  induction n generalizing a with
  | zero => rfl
  | succ n ih => simp [Memory.bytes, ih]

theorem Memory.bytes_getD (m : Memory) (a n k : Nat) (h : k < n) : (m.bytes a n).getD k unlisted = m.read (a + k) := by
  induction n generalizing a k with
  | zero => omega
  | succ n ih =>
    cases k with
    | zero => rfl
    | succ k =>
      simp only [Memory.bytes, List.getD_cons_succ]
      rw [ih (a + 1) k (by omega)]
      congr 1
      omega

theorem Memory.bytes_congr (m n : Memory) (a k : Nat) (h : ∀ b, a ≤ b → b < a + k → m.read b = n.read b) :
    m.bytes a k = n.bytes a k := by
  induction k generalizing a with
  | zero => rfl
  | succ k ih =>
    simp only [Memory.bytes]
    rw [h a (by omega) (by omega), ih (a + 1) fun b h1 h2 => h b (by omega) (by omega)]

theorem Memory.load64_congr (m n : Memory) (a : Nat) (h : ∀ b, a ≤ b → b < a + 8 → m.read b = n.read b) :
    m.load64 a = n.load64 a := by
  rw [Memory.load64, Memory.load64, Memory.load, Memory.load, Memory.bytes_congr m n a 8 h]

theorem Memory.bytes_store (m : Memory) (a : Nat) (bs : List Byte) : (m.store a bs).bytes a bs.length = bs := by
  refine List.ext_getElem (by simp) fun k h1 h2 => ?_
  have := Memory.bytes_getD (m.store a bs) a bs.length k (by simpa using h1)
  rw [List.getD_eq_getElem _ _ h1] at this
  rw [this, Memory.read_store, if_pos (by omega), Nat.add_sub_cancel_left, List.getD_eq_getElem _ _ h2]

theorem leValue_leBytes (v : Word) : leValue (leBytes 8 v) = v := by
  simp only [leBytes, leValue]
  ext i hi
  simp only [BitVec.getElem_or, BitVec.getElem_shiftLeft, BitVec.getElem_setWidth, BitVec.getLsbD_setWidth,
    BitVec.getLsbD_ushiftRight]
  interval_cases i <;> simp [BitVec.getLsbD_eq_getElem]

/-- A load of what was stored. -/
@[simp] theorem Memory.load64_store64_same (m : Memory) (a : Nat) (v : Word) : (m.store64 a v).load64 a = v := by
  have := Memory.bytes_store m a (leBytes 8 v)
  rw [leBytes_length] at this
  rw [Memory.load64, Memory.load, Memory.store64, Memory.storeN, this, leValue_leBytes]

theorem Memory.read_storeN (m : Memory) (a n : Nat) (v : Word) (b : Nat) (h : b < a ∨ a + n ≤ b) :
    (m.storeN a n v).read b = m.read b := by
  rw [Memory.storeN, Memory.read_store, leBytes_length, if_neg (by omega)]

theorem Memory.read_store64 (m : Memory) (a : Nat) (v : Word) (b : Nat) (h : b < a ∨ a + 8 ≤ b) :
    (m.store64 a v).read b = m.read b := Memory.read_storeN m a 8 v b h

/-- A load of what was not stored to. -/
theorem Memory.load64_store64_other (m : Memory) (a b : Nat) (v : Word) (h : b + 8 ≤ a ∨ a + 8 ≤ b) :
    (m.store64 a v).load64 b = m.load64 b :=
  Memory.load64_congr _ _ _ fun c h1 h2 => Memory.read_store64 m a v c (by omega)

theorem Memory.wf_storeN (m : Memory) (a n : Nat) (v : Word) (h : m.wf) : (m.storeN a n v).wf :=
  Memory.wf_store m a _ h

theorem Memory.wf_store64 (m : Memory) (a : Nat) (v : Word) (h : m.wf) : (m.store64 a v).wf :=
  Memory.wf_store m a _ h

theorem Memory.wf_copyFrom (m src : Memory) (r : ByteRange) (h : m.wf) : (m.copyFrom src r).wf :=
  Memory.wf_store m _ _ h

/-- A copied range reads as the source, the rest as before. -/
theorem Memory.read_copyFrom (m src : Memory) (r : ByteRange) (b : Nat) :
    (m.copyFrom src r).read b = if r.addr ≤ b ∧ b < r.addr + r.size then src.read b else m.read b := by
  rw [Memory.copyFrom, Memory.read_store, Memory.bytes_length]
  split
  · rename_i h
    rw [Memory.bytes_getD _ _ _ _ (by omega)]
    congr 1
    omega
  · rfl

end Sys2Proof.Machine
end

