-- ==== Sys2Proof/Laws/State.lean ====
section
/-! SUPPORT. One lemma per field per update of the state, each true by definition, so that no proof unfolds a record
update. -/

namespace Sys2Proof.Machine

/-! `finish` -/

@[simp] theorem finish_cfg (s : State) (r : Result) : (s.finish r).cfg = s.cfg := rfl
@[simp] theorem finish_phase (s : State) (r : Result) : (s.finish r).phase = .idle := rfl
@[simp] theorem finish_wait (s : State) (r : Result) : (s.finish r).wait = none := rfl
@[simp] theorem finish_req (s : State) (r : Result) : (s.finish r).req = s.req := rfl
@[simp] theorem finish_res (s : State) (r : Result) : (s.finish r).res = r := rfl
@[simp] theorem finish_blk (s : State) (r : Result) : (s.finish r).blk = s.blk := rfl
@[simp] theorem finish_regs (s : State) (r : Result) : (s.finish r).regs = s.regs := rfl
@[simp] theorem finish_caches (s : State) (r : Result) : (s.finish r).caches = s.caches := rfl
@[simp] theorem finish_engine (s : State) (r : Result) : (s.finish r).engine = s.engine := rfl
@[simp] theorem finish_memBlk (s : State) (r : Result) : (s.finish r).memBlk = s.memBlk := rfl
@[simp] theorem finish_memIo (s : State) (r : Result) : (s.finish r).memIo = s.memIo := rfl
@[simp] theorem finish_pend (s : State) (r : Result) : (s.finish r).pend = s.pend := rfl
@[simp] theorem finish_unseen (s : State) (r : Result) : (s.finish r).unseen = s.unseen := rfl
@[simp] theorem finish_inputs (s : State) (r : Result) : (s.finish r).inputs = s.inputs := rfl
@[simp] theorem finish_weave (s : State) (r : Result) : (s.finish r).weave = s.weave := rfl
@[simp] theorem finish_dev (s : State) (r : Result) : (s.finish r).dev = s.dev := rfl
@[simp] theorem finish_warlMode (s : State) (r : Result) : (s.finish r).warlMode = s.warlMode := rfl

/-! `setBlk` -/

@[simp] theorem setBlk_cfg (s : State) (f : BlockRegs → BlockRegs) : (s.setBlk f).cfg = s.cfg := rfl
@[simp] theorem setBlk_phase (s : State) (f : BlockRegs → BlockRegs) : (s.setBlk f).phase = s.phase := rfl
@[simp] theorem setBlk_wait (s : State) (f : BlockRegs → BlockRegs) : (s.setBlk f).wait = s.wait := rfl
@[simp] theorem setBlk_req (s : State) (f : BlockRegs → BlockRegs) : (s.setBlk f).req = s.req := rfl
@[simp] theorem setBlk_res (s : State) (f : BlockRegs → BlockRegs) : (s.setBlk f).res = s.res := rfl
@[simp] theorem setBlk_blk (s : State) (f : BlockRegs → BlockRegs) : (s.setBlk f).blk = f s.blk := rfl
@[simp] theorem setBlk_regs (s : State) (f : BlockRegs → BlockRegs) : (s.setBlk f).regs = s.regs := rfl
@[simp] theorem setBlk_caches (s : State) (f : BlockRegs → BlockRegs) : (s.setBlk f).caches = s.caches := rfl
@[simp] theorem setBlk_engine (s : State) (f : BlockRegs → BlockRegs) : (s.setBlk f).engine = s.engine := rfl
@[simp] theorem setBlk_memBlk (s : State) (f : BlockRegs → BlockRegs) : (s.setBlk f).memBlk = s.memBlk := rfl
@[simp] theorem setBlk_memIo (s : State) (f : BlockRegs → BlockRegs) : (s.setBlk f).memIo = s.memIo := rfl
@[simp] theorem setBlk_pend (s : State) (f : BlockRegs → BlockRegs) : (s.setBlk f).pend = s.pend := rfl
@[simp] theorem setBlk_unseen (s : State) (f : BlockRegs → BlockRegs) : (s.setBlk f).unseen = s.unseen := rfl
@[simp] theorem setBlk_inputs (s : State) (f : BlockRegs → BlockRegs) : (s.setBlk f).inputs = s.inputs := rfl
@[simp] theorem setBlk_weave (s : State) (f : BlockRegs → BlockRegs) : (s.setBlk f).weave = s.weave := rfl
@[simp] theorem setBlk_dev (s : State) (f : BlockRegs → BlockRegs) : (s.setBlk f).dev = s.dev := rfl
@[simp] theorem setBlk_warlMode (s : State) (f : BlockRegs → BlockRegs) : (s.setBlk f).warlMode = s.warlMode := rfl

/-! `ioStore` -/

@[simp] theorem ioStore_cfg (a n : Nat) (v : Word) (s : State) : (ioStore a n v s).cfg = s.cfg := rfl
@[simp] theorem ioStore_phase (a n : Nat) (v : Word) (s : State) : (ioStore a n v s).phase = s.phase := rfl
@[simp] theorem ioStore_wait (a n : Nat) (v : Word) (s : State) : (ioStore a n v s).wait = s.wait := rfl
@[simp] theorem ioStore_req (a n : Nat) (v : Word) (s : State) : (ioStore a n v s).req = s.req := rfl
@[simp] theorem ioStore_res (a n : Nat) (v : Word) (s : State) : (ioStore a n v s).res = s.res := rfl
@[simp] theorem ioStore_blk (a n : Nat) (v : Word) (s : State) : (ioStore a n v s).blk = s.blk := rfl
@[simp] theorem ioStore_regs (a n : Nat) (v : Word) (s : State) : (ioStore a n v s).regs = s.regs := rfl
@[simp] theorem ioStore_caches (a n : Nat) (v : Word) (s : State) : (ioStore a n v s).caches = s.caches := rfl
@[simp] theorem ioStore_engine (a n : Nat) (v : Word) (s : State) : (ioStore a n v s).engine = s.engine := rfl
@[simp] theorem ioStore_memBlk (a n : Nat) (v : Word) (s : State) : (ioStore a n v s).memBlk = s.memBlk := rfl
@[simp] theorem ioStore_memIo (a n : Nat) (v : Word) (s : State) : (ioStore a n v s).memIo = s.memIo.storeN a n v := rfl
@[simp] theorem ioStore_pend (a n : Nat) (v : Word) (s : State) : (ioStore a n v s).pend = s.pend := rfl
@[simp] theorem ioStore_unseen (a n : Nat) (v : Word) (s : State) : (ioStore a n v s).unseen = s.unseen ++ [⟨a, n⟩] := rfl
@[simp] theorem ioStore_inputs (a n : Nat) (v : Word) (s : State) : (ioStore a n v s).inputs = s.inputs := rfl
@[simp] theorem ioStore_weave (a n : Nat) (v : Word) (s : State) : (ioStore a n v s).weave = s.weave := rfl
@[simp] theorem ioStore_dev (a n : Nat) (v : Word) (s : State) : (ioStore a n v s).dev = s.dev := rfl
@[simp] theorem ioStore_warlMode (a n : Nat) (v : Word) (s : State) : (ioStore a n v s).warlMode = s.warlMode := rfl

/-! `setCqcsr` -/

@[simp] theorem setCqcsr_cfg (i : Nat) (b : Bool) (s : State) : (setCqcsr i b s).cfg = s.cfg := rfl
@[simp] theorem setCqcsr_phase (i : Nat) (b : Bool) (s : State) : (setCqcsr i b s).phase = s.phase := rfl
@[simp] theorem setCqcsr_wait (i : Nat) (b : Bool) (s : State) : (setCqcsr i b s).wait = s.wait := rfl
@[simp] theorem setCqcsr_req (i : Nat) (b : Bool) (s : State) : (setCqcsr i b s).req = s.req := rfl
@[simp] theorem setCqcsr_res (i : Nat) (b : Bool) (s : State) : (setCqcsr i b s).res = s.res := rfl
@[simp] theorem setCqcsr_blk (i : Nat) (b : Bool) (s : State) : (setCqcsr i b s).blk = s.blk := rfl
@[simp] theorem setCqcsr_regs (i : Nat) (b : Bool) (s : State) : (setCqcsr i b s).regs = { s.regs with cqcsr := setBit s.regs.cqcsr i b } := rfl
@[simp] theorem setCqcsr_caches (i : Nat) (b : Bool) (s : State) : (setCqcsr i b s).caches = s.caches := rfl
@[simp] theorem setCqcsr_engine (i : Nat) (b : Bool) (s : State) : (setCqcsr i b s).engine = s.engine := rfl
@[simp] theorem setCqcsr_memBlk (i : Nat) (b : Bool) (s : State) : (setCqcsr i b s).memBlk = s.memBlk := rfl
@[simp] theorem setCqcsr_memIo (i : Nat) (b : Bool) (s : State) : (setCqcsr i b s).memIo = s.memIo := rfl
@[simp] theorem setCqcsr_pend (i : Nat) (b : Bool) (s : State) : (setCqcsr i b s).pend = s.pend := rfl
@[simp] theorem setCqcsr_unseen (i : Nat) (b : Bool) (s : State) : (setCqcsr i b s).unseen = s.unseen := rfl
@[simp] theorem setCqcsr_inputs (i : Nat) (b : Bool) (s : State) : (setCqcsr i b s).inputs = s.inputs := rfl
@[simp] theorem setCqcsr_weave (i : Nat) (b : Bool) (s : State) : (setCqcsr i b s).weave = s.weave := rfl
@[simp] theorem setCqcsr_dev (i : Nat) (b : Bool) (s : State) : (setCqcsr i b s).dev = s.dev := rfl
@[simp] theorem setCqcsr_warlMode (i : Nat) (b : Bool) (s : State) : (setCqcsr i b s).warlMode = s.warlMode := rfl

/-! `setFqcsr` -/

@[simp] theorem setFqcsr_cfg (i : Nat) (b : Bool) (s : State) : (setFqcsr i b s).cfg = s.cfg := rfl
@[simp] theorem setFqcsr_phase (i : Nat) (b : Bool) (s : State) : (setFqcsr i b s).phase = s.phase := rfl
@[simp] theorem setFqcsr_wait (i : Nat) (b : Bool) (s : State) : (setFqcsr i b s).wait = s.wait := rfl
@[simp] theorem setFqcsr_req (i : Nat) (b : Bool) (s : State) : (setFqcsr i b s).req = s.req := rfl
@[simp] theorem setFqcsr_res (i : Nat) (b : Bool) (s : State) : (setFqcsr i b s).res = s.res := rfl
@[simp] theorem setFqcsr_blk (i : Nat) (b : Bool) (s : State) : (setFqcsr i b s).blk = s.blk := rfl
@[simp] theorem setFqcsr_regs (i : Nat) (b : Bool) (s : State) : (setFqcsr i b s).regs = { s.regs with fqcsr := setBit s.regs.fqcsr i b } := rfl
@[simp] theorem setFqcsr_caches (i : Nat) (b : Bool) (s : State) : (setFqcsr i b s).caches = s.caches := rfl
@[simp] theorem setFqcsr_engine (i : Nat) (b : Bool) (s : State) : (setFqcsr i b s).engine = s.engine := rfl
@[simp] theorem setFqcsr_memBlk (i : Nat) (b : Bool) (s : State) : (setFqcsr i b s).memBlk = s.memBlk := rfl
@[simp] theorem setFqcsr_memIo (i : Nat) (b : Bool) (s : State) : (setFqcsr i b s).memIo = s.memIo := rfl
@[simp] theorem setFqcsr_pend (i : Nat) (b : Bool) (s : State) : (setFqcsr i b s).pend = s.pend := rfl
@[simp] theorem setFqcsr_unseen (i : Nat) (b : Bool) (s : State) : (setFqcsr i b s).unseen = s.unseen := rfl
@[simp] theorem setFqcsr_inputs (i : Nat) (b : Bool) (s : State) : (setFqcsr i b s).inputs = s.inputs := rfl
@[simp] theorem setFqcsr_weave (i : Nat) (b : Bool) (s : State) : (setFqcsr i b s).weave = s.weave := rfl
@[simp] theorem setFqcsr_dev (i : Nat) (b : Bool) (s : State) : (setFqcsr i b s).dev = s.dev := rfl
@[simp] theorem setFqcsr_warlMode (i : Nat) (b : Bool) (s : State) : (setFqcsr i b s).warlMode = s.warlMode := rfl

/-! `dropCommand` -/

@[simp] theorem dropCommand_cfg (s : State) : (dropCommand s).cfg = s.cfg := rfl
@[simp] theorem dropCommand_phase (s : State) : (dropCommand s).phase = s.phase := rfl
@[simp] theorem dropCommand_wait (s : State) : (dropCommand s).wait = s.wait := rfl
@[simp] theorem dropCommand_req (s : State) : (dropCommand s).req = s.req := rfl
@[simp] theorem dropCommand_res (s : State) : (dropCommand s).res = s.res := rfl
@[simp] theorem dropCommand_blk (s : State) : (dropCommand s).blk = s.blk := rfl
@[simp] theorem dropCommand_regs (s : State) : (dropCommand s).regs = s.regs := rfl
@[simp] theorem dropCommand_caches (s : State) : (dropCommand s).caches = s.caches := rfl
@[simp] theorem dropCommand_engine (s : State) : (dropCommand s).engine = { s.engine with cmdBuf := none } := rfl
@[simp] theorem dropCommand_memBlk (s : State) : (dropCommand s).memBlk = s.memBlk := rfl
@[simp] theorem dropCommand_memIo (s : State) : (dropCommand s).memIo = s.memIo := rfl
@[simp] theorem dropCommand_pend (s : State) : (dropCommand s).pend = s.pend := rfl
@[simp] theorem dropCommand_unseen (s : State) : (dropCommand s).unseen = s.unseen := rfl
@[simp] theorem dropCommand_inputs (s : State) : (dropCommand s).inputs = s.inputs := rfl
@[simp] theorem dropCommand_weave (s : State) : (dropCommand s).weave = s.weave := rfl
@[simp] theorem dropCommand_dev (s : State) : (dropCommand s).dev = s.dev := rfl
@[simp] theorem dropCommand_warlMode (s : State) : (dropCommand s).warlMode = s.warlMode := rfl

/-! `keepCommand` -/

@[simp] theorem keepCommand_cfg (c : Command) (s : State) : (keepCommand c s).cfg = s.cfg := rfl
@[simp] theorem keepCommand_phase (c : Command) (s : State) : (keepCommand c s).phase = s.phase := rfl
@[simp] theorem keepCommand_wait (c : Command) (s : State) : (keepCommand c s).wait = s.wait := rfl
@[simp] theorem keepCommand_req (c : Command) (s : State) : (keepCommand c s).req = s.req := rfl
@[simp] theorem keepCommand_res (c : Command) (s : State) : (keepCommand c s).res = s.res := rfl
@[simp] theorem keepCommand_blk (c : Command) (s : State) : (keepCommand c s).blk = s.blk := rfl
@[simp] theorem keepCommand_regs (c : Command) (s : State) : (keepCommand c s).regs = s.regs := rfl
@[simp] theorem keepCommand_caches (c : Command) (s : State) : (keepCommand c s).caches = s.caches := rfl
@[simp] theorem keepCommand_engine (c : Command) (s : State) : (keepCommand c s).engine = { s.engine with cmdBuf := some c } := rfl
@[simp] theorem keepCommand_memBlk (c : Command) (s : State) : (keepCommand c s).memBlk = s.memBlk := rfl
@[simp] theorem keepCommand_memIo (c : Command) (s : State) : (keepCommand c s).memIo = s.memIo := rfl
@[simp] theorem keepCommand_pend (c : Command) (s : State) : (keepCommand c s).pend = s.pend := rfl
@[simp] theorem keepCommand_unseen (c : Command) (s : State) : (keepCommand c s).unseen = s.unseen := rfl
@[simp] theorem keepCommand_inputs (c : Command) (s : State) : (keepCommand c s).inputs = s.inputs := rfl
@[simp] theorem keepCommand_weave (c : Command) (s : State) : (keepCommand c s).weave = s.weave := rfl
@[simp] theorem keepCommand_dev (c : Command) (s : State) : (keepCommand c s).dev = s.dev := rfl
@[simp] theorem keepCommand_warlMode (c : Command) (s : State) : (keepCommand c s).warlMode = s.warlMode := rfl

/-! `setInFlight` -/

@[simp] theorem setInFlight_cfg (l : List Access) (s : State) : (setInFlight l s).cfg = s.cfg := rfl
@[simp] theorem setInFlight_phase (l : List Access) (s : State) : (setInFlight l s).phase = s.phase := rfl
@[simp] theorem setInFlight_wait (l : List Access) (s : State) : (setInFlight l s).wait = s.wait := rfl
@[simp] theorem setInFlight_req (l : List Access) (s : State) : (setInFlight l s).req = s.req := rfl
@[simp] theorem setInFlight_res (l : List Access) (s : State) : (setInFlight l s).res = s.res := rfl
@[simp] theorem setInFlight_blk (l : List Access) (s : State) : (setInFlight l s).blk = s.blk := rfl
@[simp] theorem setInFlight_regs (l : List Access) (s : State) : (setInFlight l s).regs = s.regs := rfl
@[simp] theorem setInFlight_caches (l : List Access) (s : State) : (setInFlight l s).caches = s.caches := rfl
@[simp] theorem setInFlight_engine (l : List Access) (s : State) : (setInFlight l s).engine = { s.engine with inFlight := l } := rfl
@[simp] theorem setInFlight_memBlk (l : List Access) (s : State) : (setInFlight l s).memBlk = s.memBlk := rfl
@[simp] theorem setInFlight_memIo (l : List Access) (s : State) : (setInFlight l s).memIo = s.memIo := rfl
@[simp] theorem setInFlight_pend (l : List Access) (s : State) : (setInFlight l s).pend = s.pend := rfl
@[simp] theorem setInFlight_unseen (l : List Access) (s : State) : (setInFlight l s).unseen = s.unseen := rfl
@[simp] theorem setInFlight_inputs (l : List Access) (s : State) : (setInFlight l s).inputs = s.inputs := rfl
@[simp] theorem setInFlight_weave (l : List Access) (s : State) : (setInFlight l s).weave = s.weave := rfl
@[simp] theorem setInFlight_dev (l : List Access) (s : State) : (setInFlight l s).dev = s.dev := rfl
@[simp] theorem setInFlight_warlMode (l : List Access) (s : State) : (setInFlight l s).warlMode = s.warlMode := rfl

/-! `resetBlock` -/

@[simp] theorem resetBlock_cfg (s : State) : (resetBlock s).cfg = s.cfg := rfl
@[simp] theorem resetBlock_phase (s : State) : (resetBlock s).phase = .idle := rfl
@[simp] theorem resetBlock_wait (s : State) : (resetBlock s).wait = none := rfl
@[simp] theorem resetBlock_req (s : State) : (resetBlock s).req = s.req := rfl
@[simp] theorem resetBlock_res (s : State) : (resetBlock s).res = Result.zero := rfl
@[simp] theorem resetBlock_blk (s : State) : (resetBlock s).blk = BlockRegs.reset := rfl
@[simp] theorem resetBlock_regs (s : State) : (resetBlock s).regs = s.regs := rfl
@[simp] theorem resetBlock_caches (s : State) : (resetBlock s).caches = s.caches := rfl
@[simp] theorem resetBlock_engine (s : State) : (resetBlock s).engine = s.engine := rfl
@[simp] theorem resetBlock_memBlk (s : State) : (resetBlock s).memBlk = s.memIo := rfl
@[simp] theorem resetBlock_memIo (s : State) : (resetBlock s).memIo = s.memIo := rfl
@[simp] theorem resetBlock_pend (s : State) : (resetBlock s).pend = [] := rfl
@[simp] theorem resetBlock_unseen (s : State) : (resetBlock s).unseen = [] := rfl
@[simp] theorem resetBlock_inputs (s : State) : (resetBlock s).inputs = s.inputs := rfl
@[simp] theorem resetBlock_weave (s : State) : (resetBlock s).weave = s.weave := rfl
@[simp] theorem resetBlock_dev (s : State) : (resetBlock s).dev = s.dev := rfl
@[simp] theorem resetBlock_warlMode (s : State) : (resetBlock s).warlMode = s.warlMode := rfl

/-! `resetIommu` -/

@[simp] theorem resetIommu_cfg (s : State) : (resetIommu s).cfg = s.cfg := rfl
@[simp] theorem resetIommu_phase (s : State) : (resetIommu s).phase = s.phase := rfl
@[simp] theorem resetIommu_wait (s : State) : (resetIommu s).wait = s.wait := rfl
@[simp] theorem resetIommu_req (s : State) : (resetIommu s).req = s.req := rfl
@[simp] theorem resetIommu_res (s : State) : (resetIommu s).res = s.res := rfl
@[simp] theorem resetIommu_blk (s : State) : (resetIommu s).blk = s.blk := rfl
@[simp] theorem resetIommu_regs (s : State) : (resetIommu s).regs = { IommuRegs.reset s.cfg with capabilities := s.regs.capabilities, fctl := s.regs.fctl } := rfl
@[simp] theorem resetIommu_caches (s : State) : (resetIommu s).caches = Caches.empty := rfl
@[simp] theorem resetIommu_engine (s : State) : (resetIommu s).engine = Engine.empty := rfl
@[simp] theorem resetIommu_memBlk (s : State) : (resetIommu s).memBlk = s.memBlk := rfl
@[simp] theorem resetIommu_memIo (s : State) : (resetIommu s).memIo = s.memIo := rfl
@[simp] theorem resetIommu_pend (s : State) : (resetIommu s).pend = s.pend := rfl
@[simp] theorem resetIommu_unseen (s : State) : (resetIommu s).unseen = s.unseen := rfl
@[simp] theorem resetIommu_inputs (s : State) : (resetIommu s).inputs = s.inputs := rfl
@[simp] theorem resetIommu_weave (s : State) : (resetIommu s).weave = s.weave := rfl
@[simp] theorem resetIommu_dev (s : State) : (resetIommu s).dev = s.dev := rfl
@[simp] theorem resetIommu_warlMode (s : State) : (resetIommu s).warlMode = s.warlMode := rfl

/-! `placeRequest` -/

@[simp] theorem placeRequest_cfg (r : Request) (s : State) : (placeRequest r s).cfg = s.cfg := rfl
@[simp] theorem placeRequest_phase (r : Request) (s : State) : (placeRequest r s).phase = .idle := rfl
@[simp] theorem placeRequest_wait (r : Request) (s : State) : (placeRequest r s).wait = none := rfl
@[simp] theorem placeRequest_req (r : Request) (s : State) : (placeRequest r s).req = s.req := rfl
@[simp] theorem placeRequest_res (r : Request) (s : State) : (placeRequest r s).res = s.res := rfl
@[simp] theorem placeRequest_blk (r : Request) (s : State) : (placeRequest r s).blk = s.blk := rfl
@[simp] theorem placeRequest_regs (r : Request) (s : State) : (placeRequest r s).regs = s.regs := rfl
@[simp] theorem placeRequest_caches (r : Request) (s : State) : (placeRequest r s).caches = s.caches := rfl
@[simp] theorem placeRequest_engine (r : Request) (s : State) : (placeRequest r s).engine = s.engine := rfl
@[simp] theorem placeRequest_memBlk (r : Request) (s : State) : (placeRequest r s).memBlk = s.memBlk := rfl
@[simp] theorem placeRequest_memIo (r : Request) (s : State) : (placeRequest r s).memIo = s.memIo := rfl
@[simp] theorem placeRequest_pend (r : Request) (s : State) : (placeRequest r s).pend = s.pend := rfl
@[simp] theorem placeRequest_unseen (r : Request) (s : State) : (placeRequest r s).unseen = s.unseen := rfl
@[simp] theorem placeRequest_inputs (r : Request) (s : State) : (placeRequest r s).inputs = .request r :: s.inputs.drop 1 := rfl
@[simp] theorem placeRequest_weave (r : Request) (s : State) : (placeRequest r s).weave = s.weave := rfl
@[simp] theorem placeRequest_dev (r : Request) (s : State) : (placeRequest r s).dev = s.dev := rfl
@[simp] theorem placeRequest_warlMode (r : Request) (s : State) : (placeRequest r s).warlMode = s.warlMode := rfl

end Sys2Proof.Machine
end

