-- ==== Sys2Proof/Laws/Env.lean ====
section
/-! SUPPORT. Said once: what the environment can do. Every move of the IOMMU, of a device, of the memory system and of
the schedule is a chain of the elementary moves of `EnvMove`; what each of those keeps, every interleaving point
keeps. -/

namespace Sys2Proof.Machine

/-- The IOMMU's own changes of its registers. -/
inductive RegsMove : IommuRegs → IommuRegs → Prop
  | cqBit (g : IommuRegs) (i : Nat) (b : Bool) (h : i ∈ [8, 9, 10, 11, 16, 17]) :
    RegsMove g { g with cqcsr := setBit g.cqcsr i b }
  | fqBit (g : IommuRegs) (i : Nat) (b : Bool) (h : i ∈ [8, 9, 16, 17]) :
    RegsMove g { g with fqcsr := setBit g.fqcsr i b }
  | cqh (g : IommuRegs) (v : BitVec 32) : RegsMove g { g with cqh := v }
  | fqt (g : IommuRegs) (v : BitVec 32) : RegsMove g { g with fqt := v }
  | ddtpBusy (g : IommuRegs) (b : Bool) :
    RegsMove g { g with ddtp := if b then g.ddtp ||| 0x10 else g.ddtp &&& ~~~0x10 }
  | cqOther (g : IommuRegs) (b : Bool) (v : BitVec 4) : RegsMove g { g with cqcsr := csrOther b v g.cqcsr }
  | fqOther (g : IommuRegs) (b : Bool) (v : BitVec 4) : RegsMove g { g with fqcsr := csrOther b v g.fqcsr }

/-- The elementary moves of the environment. -/
inductive EnvMove : State → State → Prop
  | drain (s : State) (k : Nat) : EnvMove s (drain k s)
  | reveal (s : State) (k : Nat) : EnvMove s (reveal k s)
  | store (s : State) (a n : Nat) (v : Word) : EnvMove s (ioStore a n v s)
  | regs (s : State) (g : IommuRegs) (h : RegsMove s.regs g) : EnvMove s { s with regs := g }
  | caches (s : State) (c : Caches) : EnvMove s { s with caches := c }
  | engine (s : State) (e : Engine) : EnvMove s { s with engine := e }
  | dev (s : State) (d : DevOutcome) : EnvMove s { s with dev := d }
  | weave (s : State) (w : List (List EnvAct)) : EnvMove s { s with weave := w }
  | warl (s : State) (m : BitVec 4) : EnvMove s { s with warlMode := m }

/-- A chain of moves of the environment. -/
abbrev EnvMoves : State → State → Prop := Relation.ReflTransGen EnvMove

theorem EnvMove.one {s t : State} (h : EnvMove s t) : EnvMoves s t := Relation.ReflTransGen.single h

theorem EnvMoves.refl {s : State} : EnvMoves s s := Relation.ReflTransGen.refl

/-- What every elementary move keeps, a chain keeps. -/
theorem EnvMoves.keep {P : State → Prop} (hP : ∀ s t, EnvMove s t → P s → P t) {s t : State} (h : EnvMoves s t)
    (hs : P s) : P t := by
  induction h with
  | refl => exact hs
  | tail _ h ih => exact hP _ _ h ih

theorem EnvMoves.thenStore {s t : State} (h : EnvMoves s t) (a n : Nat) (v : Word) : EnvMoves s (ioStore a n v t) :=
  h.tail (.store t a n v)

theorem EnvMoves.thenRegs {s t : State} (h : EnvMoves s t) (g : IommuRegs) (hg : RegsMove t.regs g) :
    EnvMoves s { t with regs := g } := h.tail (.regs t g hg)

theorem EnvMoves.thenEngine {s t : State} (h : EnvMoves s t) (e : Engine) : EnvMoves s { t with engine := e } :=
  h.tail (.engine t e)

theorem EnvMoves.thenDev {s t : State} (h : EnvMoves s t) (d : DevOutcome) : EnvMoves s { t with dev := d } :=
  h.tail (.dev t d)

theorem setCqcsr_moves (i : Nat) (b : Bool) (s : State) (h : i ∈ [8, 9, 10, 11, 16, 17]) : EnvMoves s (setCqcsr i b s) :=
  (EnvMove.regs s _ (.cqBit _ i b h)).one

theorem setFqcsr_moves (i : Nat) (b : Bool) (s : State) (h : i ∈ [8, 9, 16, 17]) : EnvMoves s (setFqcsr i b s) :=
  (EnvMove.regs s _ (.fqBit _ i b h)).one

theorem keepCommand_moves (c : Command) (s : State) : EnvMoves s (keepCommand c s) := (EnvMove.engine s _).one

theorem dropCommand_moves (s : State) : EnvMoves s (dropCommand s) := (EnvMove.engine s _).one

theorem setInFlight_moves (l : List Access) (s : State) : EnvMoves s (setInFlight l s) := (EnvMove.engine s _).one

theorem memoryFault_moves (s : State) : EnvMoves s (memoryFault s) :=
  (setCqcsr_moves 8 true s (by simp)).trans (dropCommand_moves _)

theorem illegalCommand_moves (s : State) : EnvMoves s (illegalCommand s) :=
  (setCqcsr_moves 10 true s (by simp)).trans (dropCommand_moves _)

theorem settle_moves (s : State) : EnvMoves s (settle s) := by
  unfold settle
  refine (dropCommand_moves s).trans ?_
  dsimp only
  split
  · exact .refl
  · exact (EnvMove.regs _ _ (.cqh _ _)).one

theorem advanceFqt_moves (s : State) : EnvMoves s (advanceFqt s) := by
  unfold advanceFqt
  split
  · exact (EnvMoves.refl.thenRegs (t := s) { s.regs with fqt := nextIndex s.regs.fqb (fqTail s.regs) } (.fqt _ _)).thenEngine _
  · exact .refl

theorem fqFollow_moves (s : State) : EnvMoves s (fqFollow s) := by
  unfold fqFollow
  split
  · exact .refl
  · refine (advanceFqt_moves s).trans ((setFqcsr_moves 16 (fqEn s.regs) _ (by simp)).trans ?_)
    dsimp only
    split
    · exact (EnvMove.regs _ _ (.fqt _ _)).one
    · exact .refl

theorem reportRecord_moves (w0 w1 w2 w3 : Word) (hold : Bool) (s : State) :
    EnvMoves s (reportRecord w0 w1 w2 w3 hold s) := by
  unfold reportRecord
  refine (advanceFqt_moves s).trans ?_
  dsimp only
  split
  · exact .refl
  · split
    · exact setFqcsr_moves _ _ _ (by simp)
    · split
      · exact setFqcsr_moves _ _ _ (by simp)
      · have written := ((((EnvMoves.refl (s := advanceFqt s)).thenStore (fqSlotIo (advanceFqt s).regs) 8 w0).thenStore
          (fqSlotIo (advanceFqt s).regs + 8) 8 w1).thenStore (fqSlotIo (advanceFqt s).regs + 16) 8 w2).thenStore
          (fqSlotIo (advanceFqt s).regs + 24) 8 w3
        split
        · exact written.thenEngine _
        · exact (written.thenEngine _).trans (advanceFqt_moves _)

theorem reportAccessError_moves (s : State) : EnvMoves s (reportAccessError s) := by
  unfold reportAccessError
  refine (advanceFqt_moves s).trans ?_
  dsimp only
  split
  · exact .refl
  · split <;> exact setFqcsr_moves _ _ _ (by simp)

theorem faultTransaction_moves (t : Transaction) (f : XFault) (dtf hold : Bool) (s : State) :
    EnvMoves s (faultTransaction t f dtf hold s) := by
  unfold faultTransaction
  refine (EnvMove.dev s (.faulted f.cause)).one.trans ?_
  dsimp only
  split
  · exact .refl
  · exact reportRecord_moves _ _ _ _ _ _

theorem accessMemory_moves (t : Transaction) (pa : Word) (s : State) : EnvMoves s (accessMemory t pa s) := by
  unfold accessMemory
  dsimp only
  split
  · exact (EnvMoves.refl.thenStore _ _ _).thenDev _
  · exact (EnvMove.dev _ _).one

theorem accessNext_moves (hold : Bool) (x : Access) (s : State) : EnvMoves s (accessNext hold x s).2 := by
  unfold accessNext
  dsimp only
  split
  · exact faultTransaction_moves _ _ _ _ _
  · split
    · exact accessMemory_moves _ _ _
    · exact .refl
  · split
    · exact (EnvMove.dev _ _).one
    · split <;> exact .refl
  · exact EnvMoves.refl.thenStore _ _ _
  · split
    · exact .refl
    · exact (EnvMove.dev _ _).one
  · split
    · exact (EnvMoves.refl.thenStore _ _ _).thenDev _
    · exact .refl

theorem accessRun_moves (hold : Bool) (n : Nat) (x : Access) (s : State) : EnvMoves s (accessRun hold n x s) := by
  induction n generalizing x s with
  | zero => exact .refl
  | succ n ih =>
    have next := accessNext_moves hold x s
    simp only [accessRun]
    split <;> rename_i heq <;> rw [heq] at next
    · exact next
    · exact next.trans (ih _ _)

theorem accessFinish_moves (hold : Bool) (x : Access) (s : State) : EnvMoves s (accessFinish hold x s) :=
  accessRun_moves hold 5 x s

theorem proceed_moves (k : Nat) (hold : Bool) (s : State) : EnvMoves s (proceed k hold s) := by
  unfold proceed
  split
  · exact .refl
  · rename_i x _
    have next := accessNext_moves hold x s
    split <;> rename_i heq <;> rw [heq] at next <;> exact next.trans (setInFlight_moves _ _)

theorem finishAll_moves (l : List Access) (s : State) :
    EnvMoves s (l.foldl (fun s x => accessFinish false x s) s) := by
  induction l generalizing s with
  | nil => exact .refl
  | cons x l ih => exact (accessFinish_moves false x s).trans (ih _)

theorem awaitTransactions_moves (pr pw : Bool) (s : State) : EnvMoves s (awaitTransactions pr pw s) :=
  (setInFlight_moves _ s).trans (finishAll_moves _ _)

theorem fenceWait_moves (pr pw : Bool) (s : State) : EnvMoves s (fenceWait pr pw s) :=
  (EnvMove.caches s (completeAll s.caches)).one.trans (awaitTransactions_moves _ _ _)

theorem fenceWrite_moves (av : Bool) (data : BitVec 32) (addr : BitVec 62) (s : State) :
    EnvMoves s (fenceWrite av data addr s) := by
  unfold fenceWrite
  split
  · exact EnvMoves.refl.thenStore _ _ _
  · exact .refl

theorem fenceFlag_moves (wsi : Bool) (s : State) : EnvMoves s (fenceFlag wsi s) := by
  unfold fenceFlag
  split
  · exact setCqcsr_moves _ _ _ (by simp)
  · exact .refl

theorem fenceCommand_moves (av wsi pr pw : Bool) (data : BitVec 32) (addr : BitVec 62) (s : State) :
    EnvMoves s (fenceCommand av wsi pr pw data addr s) := by
  unfold fenceCommand
  refine (fenceWait_moves pr pw s).trans ?_
  dsimp only
  split
  · exact setCqcsr_moves _ _ _ (by simp)
  · exact (fenceWrite_moves _ _ _ _).trans (fenceFlag_moves _ _)

theorem invalidateNow_moves (later : Bool) (i : Instr) (s : State) : EnvMoves s (invalidateNow later i s) := by
  unfold invalidateNow
  split <;> exact (EnvMove.caches s _).one

theorem commandEffect_moves (later : Bool) (i : Instr) (s : State) : EnvMoves s (commandEffect later i s) := by
  cases i <;> first | exact fenceCommand_moves _ _ _ _ _ _ _ | exact invalidateNow_moves _ _ _

theorem commandRest_moves (later : Bool) (k : CmdStage) (i : Instr) (s : State) :
    EnvMoves s (commandRest later k i s) := by
  unfold commandRest
  split
  · exact commandEffect_moves _ _ _
  · exact fenceFlag_moves _ _
  · exact .refl

theorem consumeCommand_moves (later : Bool) (s : State) : EnvMoves s (consumeCommand later s) := by
  unfold consumeCommand
  split
  · split
    · exact memoryFault_moves s
    · split
      · exact illegalCommand_moves s
      · exact (commandRest_moves _ _ _ s).trans (settle_moves _)
  · exact .refl

theorem commandNext_moves (later : Bool) (c : Command) (i : Instr) (s : State) :
    EnvMoves s (commandNext later c i s) := by
  unfold commandNext
  split
  · rename_i pr pw _ _ _
    refine (fenceWait_moves pr pw s).trans ?_
    dsimp only
    split
    · exact memoryFault_moves _
    · exact (fenceWrite_moves _ _ _ _).trans (keepCommand_moves _ _)
  · exact settle_moves s
  · exact (commandRest_moves _ _ _ s).trans (keepCommand_moves _ _)

theorem commandStep_moves (later : Bool) (s : State) : EnvMoves s (commandStep later s) := by
  unfold commandStep
  split
  · split
    · exact memoryFault_moves s
    · split
      · exact illegalCommand_moves s
      · exact commandNext_moves _ _ _ s
  · exact .refl

theorem fetchCommand_moves (s : State) : EnvMoves s (fetchCommand s) := by
  unfold fetchCommand
  split
  · split
    · exact memoryFault_moves s
    · exact keepCommand_moves _ s
  · exact .refl

theorem commandAccessError_moves (s : State) : EnvMoves s (commandAccessError s) := by
  unfold commandAccessError
  split
  · exact memoryFault_moves s
  · exact .refl

theorem cqFollow_moves (s : State) : EnvMoves s (cqFollow s) := by
  unfold cqFollow
  split
  · exact .refl
  · have done : EnvMoves s (if midCommand s.engine then consumeCommand false s else s) := by
      split
      · exact consumeCommand_moves false s
      · exact .refl
    refine done.trans ?_
    generalize (if midCommand s.engine then consumeCommand false s else s) = u
    refine ((setCqcsr_moves 16 (cqEn u.regs) u (by simp)).trans (dropCommand_moves _)).trans ?_
    dsimp only
    split
    · exact (EnvMove.regs _ _ (.cqh _ _)).one
    · exact .refl

theorem translated_moves (t : Transaction) (picks : List Pick) (s : State) : EnvMoves s (translated t picks s).2 :=
  (EnvMove.caches s _).one

theorem beginTransaction_moves (t : Transaction) (picks : List Pick) (s : State) :
    EnvMoves s (beginTransaction t picks s) := (translated_moves t picks s).trans (setInFlight_moves _ _)

theorem transact_moves (t : Transaction) (picks : List Pick) (hold : Bool) (s : State) :
    EnvMoves s (transact t picks hold s) := (translated_moves t picks s).trans (accessFinish_moves _ _ _)

theorem perform_moves (a : EnvAct) (s : State) : EnvMoves s (perform a s) := by
  cases a with
  | drain k => exact (EnvMove.drain s k).one
  | reveal k => exact (EnvMove.reveal s k).one
  | fetchCommand => exact fetchCommand_moves s
  | consume later => exact consumeCommand_moves later s
  | commandStep later => exact commandStep_moves later s
  | complete k => exact (EnvMove.caches s _).one
  | cqFollow => exact cqFollow_moves s
  | fqFollow => exact fqFollow_moves s
  | ddtpBusy b => exact (EnvMove.regs s _ (.ddtpBusy _ b)).one
  | warlMode m => exact (EnvMove.warl s m).one
  | cqcsrOther b v => exact (EnvMove.regs s _ (.cqOther _ b v)).one
  | fqcsrOther b v => exact (EnvMove.regs s _ (.fqOther _ b v)).one
  | commandTimeout => exact setCqcsr_moves _ _ s (by simp)
  | cqAccessError => exact commandAccessError_moves s
  | fqAccessError => exact reportAccessError_moves s
  | report w0 w1 w2 w3 hold => exact reportRecord_moves w0 w1 w2 w3 hold s
  | advanceFqt => exact advanceFqt_moves s
  | transact t picks hold => exact transact_moves t picks hold s
  | translate t picks => exact beginTransaction_moves t picks s
  | proceed k hold => exact proceed_moves k hold s
  | prefetch t picks => exact translated_moves t picks s

theorem performAll_moves (acts : List EnvAct) (s : State) : EnvMoves s (performAll acts s) := by
  induction acts generalizing s with
  | nil => exact .refl
  | cons a acts ih => exact (perform_moves a s).trans (ih _)

theorem consumeMany_moves (n : Nat) (s : State) : EnvMoves s (consumeMany n s) := by
  induction n generalizing s with
  | zero => exact .refl
  | succ n ih => exact (consumeCommand_moves false s).trans (ih _)

theorem quiesce_moves (s : State) : EnvMoves s (quiesce s) := by
  unfold quiesce
  exact (((((((EnvMove.regs s _ (.ddtpBusy _ false)).one.trans (setCqcsr_moves 17 false _ (by simp))).trans
    (setFqcsr_moves 17 false _ (by simp))).trans (cqFollow_moves _)).trans (fqFollow_moves _)).trans
    (advanceFqt_moves _)).trans (awaitTransactions_moves _ _ _)).trans (consumeMany_moves _ _)

/-- An interleaving point is a chain of moves of the environment. -/
theorem pause_moves (s : State) : EnvMoves s (pause s) := by
  unfold pause
  split
  · exact .refl
  · exact (EnvMove.weave s _).one.trans (performAll_moves _ _)

/-- So is one before a register read. -/
theorem pauseRead_moves (s : State) : EnvMoves s (pauseRead s) := by
  unfold pauseRead
  split
  · exact quiesce_moves s
  · exact (EnvMove.weave s _).one.trans (performAll_moves _ _)

/-! What no move of the environment changes. -/

/-- The instance, the request, the result, the sequencing state, the block's registers and the inputs. -/
structure SameBlock (s t : State) : Prop where
  cfg : t.cfg = s.cfg
  phase : t.phase = s.phase
  wait : t.wait = s.wait
  req : t.req = s.req
  res : t.res = s.res
  blk : t.blk = s.blk
  inputs : t.inputs = s.inputs

theorem SameBlock.refl (s : State) : SameBlock s s := ⟨rfl, rfl, rfl, rfl, rfl, rfl, rfl⟩

theorem SameBlock.trans {s t u : State} (h : SameBlock s t) (k : SameBlock t u) : SameBlock s u :=
  ⟨k.cfg.trans h.cfg, k.phase.trans h.phase, k.wait.trans h.wait, k.req.trans h.req, k.res.trans h.res,
    k.blk.trans h.blk, k.inputs.trans h.inputs⟩

theorem drain_sameBlock (k : Nat) (s : State) : SameBlock s (drain k s) := by
  unfold drain
  split
  · exact .refl s
  · split
    · exact ⟨rfl, rfl, rfl, rfl, rfl, rfl, rfl⟩
    · exact .refl s

theorem reveal_sameBlock (k : Nat) (s : State) : SameBlock s (reveal k s) := by
  unfold reveal
  split
  · exact .refl s
  · split
    · exact .refl s
    · exact ⟨rfl, rfl, rfl, rfl, rfl, rfl, rfl⟩

theorem EnvMove.sameBlock {s t : State} (h : EnvMove s t) : SameBlock s t := by
  cases h with
  | drain k => exact drain_sameBlock k s
  | reveal k => exact reveal_sameBlock k s
  | _ => exact ⟨rfl, rfl, rfl, rfl, rfl, rfl, rfl⟩

theorem EnvMoves.sameBlock {s t : State} (h : EnvMoves s t) : SameBlock s t := by
  induction h with
  | refl => exact .refl s
  | tail _ h ih => exact ih.trans h.sameBlock

@[simp] theorem pause_cfg (s : State) : (pause s).cfg = s.cfg := (pause_moves s).sameBlock.cfg
@[simp] theorem pause_blk (s : State) : (pause s).blk = s.blk := (pause_moves s).sameBlock.blk
@[simp] theorem pause_req (s : State) : (pause s).req = s.req := (pause_moves s).sameBlock.req
@[simp] theorem pause_inputs (s : State) : (pause s).inputs = s.inputs := (pause_moves s).sameBlock.inputs
@[simp] theorem pauseRead_cfg (s : State) : (pauseRead s).cfg = s.cfg := (pauseRead_moves s).sameBlock.cfg
@[simp] theorem pauseRead_blk (s : State) : (pauseRead s).blk = s.blk := (pauseRead_moves s).sameBlock.blk
@[simp] theorem pauseRead_req (s : State) : (pauseRead s).req = s.req := (pauseRead_moves s).sameBlock.req
@[simp] theorem pauseRead_inputs (s : State) : (pauseRead s).inputs = s.inputs :=
  (pauseRead_moves s).sameBlock.inputs

end Sys2Proof.Machine
end

