-- ==== Sys2Proof/Laws/Moves.lean ====
section
/-! SUPPORT. Said once: what a step can do. Every instruction, every wait and every step is a chain of the elementary
moves of `Move`; an invariant is proved on those seven moves of an instruction, or those eleven of a step, alone. -/

namespace Sys2Proof.Machine

/-- The elementary moves of an instruction. -/
inductive Move : State → State → Prop
  | env {s t : State} (h : EnvMove s t) : Move s t
  | write (s : State) (a : Nat) (v : Word) :
    Move s { s with memBlk := s.memBlk.store64 a v, pend := s.pend ++ [⟨a, v⟩] }
  | fence (s : State) :
    Move s { s with memIo := drainAll s.memIo s.pend, pend := [],
                    memBlk := revealAll s.memBlk (drainAll s.memIo s.pend) s.unseen, unseen := [] }
  | mmio (s : State) (r : MmioReg) (v : Word) : Move s { s with regs := s.regs.set s.cfg s.warlMode r v }
  | blk (s : State) (f : BlockRegs → BlockRegs) : Move s (s.setBlk f)
  | finish (s : State) (r : Result) (h : ∃ st : Status, r.status = st.code) : Move s (s.finish r)
  | hang (s : State) (w : WaitPoint) : Move s { s with phase := .busy, wait := some w }

/-- A chain of moves of an instruction. -/
abbrev Moves : State → State → Prop := Relation.ReflTransGen Move

/-- What every elementary move keeps, a chain keeps. -/
theorem Moves.keep {P : State → Prop} (hP : ∀ s t, Move s t → P s → P t) {s t : State} (h : Moves s t) (hs : P s) :
    P t := by
  induction h with
  | refl => exact hs
  | tail _ h ih => exact hP _ _ h ih

theorem EnvMoves.moves {s t : State} (h : EnvMoves s t) : Moves s t := by
  induction h with
  | refl => exact .refl
  | tail _ h ih => exact ih.tail (.env h)

namespace Moves

variable {s t u : State}

theorem refl : Moves s s := Relation.ReflTransGen.refl

protected theorem trans (h : Moves s t) (k : Moves t u) : Moves s u := Relation.ReflTransGen.trans h k

theorem thenPause (h : Moves s t) : Moves s (pause t) := h.trans (pause_moves t).moves

theorem thenPauseRead (h : Moves s t) : Moves s (pauseRead t) := h.trans (pauseRead_moves t).moves

theorem thenWrite (h : Moves s t) (a : Nat) (v : Word) : Moves s (memWrite a v t) :=
  h.thenPause.tail (.write (pause t) a v)

theorem thenFence (h : Moves s t) : Moves s (fence t) := h.thenPause.tail (.fence (pause t))

theorem thenMmio (h : Moves s t) (r : MmioReg) (v : Word) : Moves s (mmioWrite r v t) :=
  h.thenPause.tail (.mmio (pause t) r v)

theorem thenBlk (h : Moves s t) (f : BlockRegs → BlockRegs) : Moves s (t.setBlk f) := h.tail (.blk t f)

theorem thenZero (h : Moves s t) (n a : Nat) : Moves s (zeroFill n a t) := by
  induction n generalizing a t with
  | zero => exact h
  | succ n ih => exact ih (h.thenWrite a 0) (a + 8)

theorem ofFinish {r : Result} (h : Moves s t) (hr : ∃ st : Status, r.status = st.code) (e : done t r = .next u) :
    Moves s u := by
  cases e
  exact h.tail (.finish t r hr)

theorem ofDone {c : Status} {r0 r1 r2 r3 r4 r5 r6 r7 : Word} (h : Moves s t)
    (e : done t (result c r0 r1 r2 r3 r4 r5 r6 r7) = .next u) : Moves s u := h.ofFinish ⟨c, rfl⟩ e

theorem ofRaise {st : Status} (h : Moves s t) (e : raise st t = .next u) : Moves s u := h.ofDone e

theorem ofAwait {α : Type} {poll : State → Option α × State} {w : WaitPoint}
    {go : α → State → Host.Outcome State Fault Refusal} (hp : ∀ t, Moves t (poll t).2)
    (hg : ∀ v t u, go v t = .next u → Moves t u) (h : Moves s t) (e : await poll w go t = .next u) : Moves s u := by
  have loop : ∀ n t, Moves t (pollLoop poll n t).2 := by
    intro n
    induction n with
    | zero => exact fun t => .refl
    | succ n ih =>
      intro t
      simp only [pollLoop]
      have := hp t
      split
      · rename_i heq
        simpa [heq] using this
      · rename_i heq
        rw [heq] at this
        exact this.trans (ih _)
  have moved := loop (pollCount t) t
  unfold await at e
  split at e
  · rename_i heq
    rw [heq] at moved
    exact (h.trans moved).trans (hg _ _ _ e)
  · rename_i heq
    rw [heq] at moved
    split at e
    · exact ofRaise (h.trans moved) e
    · cases e
      exact (h.trans moved).tail (.hang _ w)

end Moves

/-! Every instruction is a chain of moves. Each proof follows the checks of the instruction's rule. -/

variable {s t : State}

theorem execPteLeaf_moves (fl : BitVec 7) (a0 : Word) (e : execPteLeaf fl a0 s = .next t) : Moves s t := by
  unfold execPteLeaf at e
  repeat' split at e
  all_goals exact Moves.refl.ofDone e

theorem execPteNonleaf_moves (a0 : Word) (e : execPteNonleaf a0 s = .next t) : Moves s t := by
  unfold execPteNonleaf at e
  repeat' split at e
  all_goals exact Moves.refl.ofDone e

theorem execPteDecode_moves (a0 : Word) (e : execPteDecode a0 s = .next t) : Moves s t :=
  Moves.refl.ofDone e

theorem execPtInit_moves (e : execPtInit s = .next t) : Moves s t :=
  (((Moves.refl.thenZero _ _).thenFence).thenBlk _).ofDone e

theorem dryWalk_moves (st : Stage) (x : Word) (n l a : Nat) (news : List (Nat × Nat)) (s : State) :
    Moves s (dryWalk st x n l a news s).2 := by
  induction n generalizing l a s with
  | zero =>
    simp only [dryWalk, memRead]
    split <;> exact Moves.refl.thenPause
  | succ n ih =>
    simp only [dryWalk, memRead]
    split
    · exact Moves.refl.thenPause
    · exact Moves.refl.thenPause.trans (ih _ _ _)
    · exact Moves.refl.thenPause
    · exact Moves.refl.thenPause

theorem dryRun_moves (st : Stage) (g : BitVec 2) (n : Nat) (x : Word) (news : List (Nat × Nat)) (s : State) :
    Moves s (dryRun st g n x news s).2 := by
  induction n generalizing x news s with
  | zero => exact .refl
  | succ n ih =>
    have walk := dryWalk_moves st x (leafLevel g) 0 (rootOf s.blk st) news s
    simp only [dryRun]
    split
    · rename_i heq
      rwa [heq] at walk
    · rename_i heq
      rw [heq] at walk
      exact walk.trans (ih _ _ _)

theorem allocTable_moves (ea : Nat) (s : State) : Moves s (allocTable ea s).2 :=
  (((Moves.refl.thenBlk _).thenZero _ _).thenFence).thenWrite _ _

theorem descend_moves (st : Stage) (x : Word) (n l a : Nat) (s : State) : Moves s (descend st x n l a s).2 := by
  induction n generalizing l a s with
  | zero => exact .refl
  | succ n ih =>
    simp only [descend, memRead]
    split
    · exact (Moves.refl.thenPause.trans (allocTable_moves _ _)).trans (ih _ _ _)
    all_goals exact Moves.refl.thenPause.trans (ih _ _ _)

theorem mapGranules_moves (st : Stage) (g : BitVec 2) (fl : BitVec 7) (n : Nat) (x p : Word) (last : Nat) (s : State) :
    Moves s (mapGranules st g fl n x p last s).2 := by
  induction n generalizing x p last s with
  | zero => exact .refl
  | succ n ih => exact ((descend_moves _ _ _ _ _ _).thenWrite _ _).trans (ih _ _ _ _)

theorem execPtMap_moves (st : Stage) (g : BitVec 2) (fl : BitVec 7) (a0 a1 a2 : Word)
    (e : execPtMap st g fl a0 a1 a2 s = .next t) : Moves s t := by
  have dry := dryRun_moves st g a2.toNat a0 [] s
  unfold execPtMap at e
  repeat' split at e
  all_goals try exact Moves.refl.ofRaise e
  · rename_i heq
    rw [heq] at dry
    exact dry.ofRaise e
  · rename_i heq _
    rw [heq] at dry
    exact dry.ofRaise e
  · rename_i s' heq _ _ _ _ heq'
    rw [heq] at dry
    have commit := mapGranules_moves st g fl a2.toNat a0 a1 0 s'
    rw [heq'] at commit
    exact Moves.ofDone (Moves.trans dry commit) e

theorem lookupWalk_moves (st : Stage) (x : Word) (n a : Nat) (s : State) :
    Moves s (lookupWalk st x n a s).2 ∧ ∃ c : Status, (lookupWalk st x n a s).1.status = c.code := by
  induction n generalizing a s with
  | zero => exact ⟨.refl, .none, rfl⟩
  | succ n ih =>
    simp only [lookupWalk, memRead]
    split
    · exact ⟨Moves.refl.thenPause, .none, rfl⟩
    · exact ⟨Moves.refl.thenPause, .none, rfl⟩
    · split
      · exact ⟨Moves.refl.thenPause, .none, rfl⟩
      · exact ⟨Moves.refl.thenPause.trans (ih _ _).1, (ih _ _).2⟩
    · exact ⟨Moves.refl.thenPause, .ok, rfl⟩

theorem execPtLookup_moves (st : Stage) (a0 : Word) (e : execPtLookup st a0 s = .next t) : Moves s t := by
  have walk := lookupWalk_moves st a0 3 (rootOf s.blk st) s
  unfold execPtLookup at e
  split at e
  · exact Moves.refl.ofRaise e
  · split at e
    · exact Moves.refl.ofRaise e
    · exact walk.1.ofFinish walk.2 e

theorem execMsiInit_moves (e : execMsiInit s = .next t) : Moves s t := by
  unfold execMsiInit at e
  split at e
  · exact Moves.refl.ofRaise e
  · exact (((Moves.refl.thenZero _ _).thenFence).thenBlk _).ofDone e

theorem writeMsiEntry_moves (ea : Nat) (d0 d1 : Word) (s : State) : Moves s (writeMsiEntry ea d0 d1 s) :=
  ((((Moves.refl.thenWrite _ _).thenFence).thenWrite _ _).thenFence).thenWrite _ _

theorem execMsiSetBasic_moves (c : Bool) (a0 a1 : Word) (e : execMsiSetBasic c a0 a1 s = .next t) : Moves s t := by
  unfold execMsiSetBasic at e
  repeat' split at e
  all_goals try exact Moves.refl.ofRaise e
  exact (writeMsiEntry_moves _ _ _ s).ofDone e

theorem execMsiSetMrif_moves (c : Bool) (a0 a1 a2 a3 : Word) (e : execMsiSetMrif c a0 a1 a2 a3 s = .next t) :
    Moves s t := by
  unfold execMsiSetMrif at e
  repeat' split at e
  all_goals try exact Moves.refl.ofRaise e
  exact (writeMsiEntry_moves _ _ _ s).ofDone e

theorem execMsiIndex_moves (a0 : Word) (e : execMsiIndex a0 s = .next t) : Moves s t := by
  unfold execMsiIndex at e
  split at e <;> exact Moves.refl.ofDone e

theorem execMsiMrifLoc_moves (a0 a1 : Word) (e : execMsiMrifLoc a0 a1 s = .next t) : Moves s t := by
  unfold execMsiMrifLoc at e
  repeat' split at e
  all_goals exact Moves.refl.ofDone e

theorem execDdtConfig_moves (dtf : Bool) (a0 a1 a2 a3 : Word) (e : execDdtConfig dtf a0 a1 a2 a3 s = .next t) :
    Moves s t := by
  unfold execDdtConfig at e
  split at e
  · exact Moves.refl.ofRaise e
  · exact (Moves.refl.thenBlk _).ofDone e

theorem dcWalk_moves (f : DcFmt) (d j a : Nat) (s : State) : Moves s (dcWalk f d j a s).2 := by
  induction j generalizing a s with
  | zero => exact .refl
  | succ j ih =>
    unfold dcWalk memRead
    dsimp only
    split
    · exact Moves.refl.thenPause
    · exact Moves.refl.thenPause.trans (ih _ _)

theorem dcAddr_moves (d : Nat) (s : State) : Moves s (dcAddr d s).2 := dcWalk_moves _ _ _ _ _

theorem overContexts_moves {f : Nat → State → State} (hf : ∀ a s, Moves s (f a s)) (n d : Nat)
    (e : overContexts f n d s = some t) : Moves s t := by
  induction n generalizing d s with
  | zero =>
    cases e
    exact .refl
  | succ n ih =>
    have walk := dcAddr_moves d s
    simp only [overContexts] at e
    split at e
    · cases e
    · rename_i heq
      rw [heq] at walk
      exact (walk.trans (hf _ _)).trans (ih _ e)

theorem writeWords_moves (ws : List Word) (a : Nat) (s : State) : Moves s (writeWords ws a s) := by
  induction ws generalizing a s with
  | nil => exact .refl
  | cons w ws ih => exact (Moves.refl.thenWrite a w).trans (ih _ _)

theorem linkPath_moves (d j a : Nat) (s : State) : Moves s (linkPath d j a s).2 := by
  induction j generalizing a s with
  | zero => exact .refl
  | succ j ih =>
    unfold linkPath memRead
    dsimp only
    split
    · exact ((Moves.refl.thenPause.thenBlk _).thenWrite _ _).trans (ih _ _)
    · exact Moves.refl.thenPause.trans (ih _ _)

theorem buildContexts_moves (l n d : Nat) (s : State) : Moves s (buildContexts l n d s) := by
  induction n generalizing d s with
  | zero => exact .refl
  | succ n ih => exact ((linkPath_moves _ _ _ _).trans (writeWords_moves _ _ _)).trans (ih _ _)

theorem execDdtRebuild_moves (lv : BitVec 2) (a0 a1 : Word) (e : execDdtRebuild lv a0 a1 s = .next t) :
    Moves s t := by
  have built (s : State) (l n d : Nat) := Moves.trans
    (((Moves.refl (s := s)).thenPauseRead.thenZero (512 * (pauseRead s).cfg.ddtPages)
      (pauseRead s).cfg.ddtBase.toNat).thenFence.thenBlk (fun b => { b with ddtNext := 1, ddtLvls := lv }))
    (buildContexts_moves l n d _)
  unfold execDdtRebuild mmioRead at e
  dsimp only at e
  repeat' split at e
  all_goals first
    | exact Moves.refl.ofRaise e
    | exact Moves.refl.thenPauseRead.ofRaise e
    | (rename_i heq
       have published := overContexts_moves (fun a s => Moves.refl.thenWrite a (tcWord s.blk)) _ _ heq
       exact ((Moves.trans (Moves.thenFence (built s _ _ _)) published).thenBlk _).ofDone e)
    | cases e

theorem updatePtr_moves (m : BitVec 4) (ppn : Word) (a : Nat) (s : State) : Moves s (updatePtr m ppn a s) :=
  Moves.refl.thenPause.thenWrite _ _

theorem updateContexts_moves (off : Nat) (m : BitVec 4) (ppn : Word) (e : updateContexts off m ppn s = .next t) :
    Moves s t := by
  unfold updateContexts at e
  dsimp only at e
  split at e
  · cases e
  · rename_i heq
    exact (overContexts_moves (fun a s => updatePtr_moves _ _ _ _) _ _ heq).ofDone e

theorem execDdtSetS1Mode_moves (m : BitVec 4) (e : execDdtSetS1Mode m s = .next t) : Moves s t := by
  unfold execDdtSetS1Mode at e
  repeat' split at e
  · exact Moves.refl.ofRaise e
  · exact Moves.refl.ofRaise e
  · exact (Moves.refl.thenBlk _).trans (updateContexts_moves _ _ _ e)

theorem execDdtSetS2Mode_moves (m : BitVec 4) (e : execDdtSetS2Mode m s = .next t) : Moves s t := by
  unfold execDdtSetS2Mode at e
  repeat' split at e
  · exact Moves.refl.ofRaise e
  · exact Moves.refl.ofRaise e
  · exact (Moves.refl.thenBlk _).trans (updateContexts_moves _ _ _ e)

theorem execDdtSetMsiMode_moves (m : BitVec 4) (e : execDdtSetMsiMode m s = .next t) : Moves s t := by
  unfold execDdtSetMsiMode at e
  repeat' split at e
  · exact Moves.refl.ofRaise e
  · exact Moves.refl.ofRaise e
  · exact Moves.refl.ofRaise e
  · exact (Moves.refl.thenBlk _).trans (updateContexts_moves _ _ _ e)

theorem pollDdtpIdle_moves (s : State) : Moves s (pollDdtpIdle s).2 := Moves.refl.thenPauseRead

theorem setModeCheck_moves (m : BitVec 4) (e : setModeCheck m s = .next t) : Moves s t := by
  unfold setModeCheck mmioRead at e
  dsimp only at e
  split at e <;> exact Moves.refl.thenPauseRead.ofDone e

theorem setModeDone_moves (m : BitVec 4) (e : setModeDone m s = .next t) : Moves s t :=
  Moves.ofAwait pollDdtpIdle_moves (fun _ _ _ h => setModeCheck_moves m h) .refl e

theorem setModeProgram_moves (m : BitVec 4) (e : setModeProgram m s = .next t) : Moves s t := by
  unfold setModeProgram mmioRead at e
  dsimp only at e
  split at e
  · exact Moves.refl.thenPauseRead.ofRaise e
  · exact (Moves.refl.thenPauseRead.thenFence.thenMmio _ _).trans (setModeDone_moves m e)

theorem setModeReady_moves (m : BitVec 4) (e : setModeReady m s = .next t) : Moves s t :=
  Moves.ofAwait pollDdtpIdle_moves (fun _ _ _ h => setModeProgram_moves m h) .refl e

theorem execDdtSetMode_moves (m : BitVec 4) (e : execDdtSetMode m s = .next t) : Moves s t := by
  unfold execDdtSetMode at e
  repeat' split at e
  · exact Moves.refl.ofRaise e
  · exact Moves.refl.ofRaise e
  · exact setModeReady_moves m e

theorem execDdtLocate_moves (a0 : Word) (e : execDdtLocate a0 s = .next t) : Moves s t := by
  have walk := dcAddr_moves a0.toNat s
  unfold execDdtLocate memRead at e
  dsimp only at e
  repeat' split at e
  · exact Moves.refl.ofRaise e
  · exact Moves.refl.ofRaise e
  · rename_i heq
    rw [heq] at walk
    exact walk.ofDone e
  · rename_i heq
    rw [heq] at walk
    exact walk.thenPause.ofDone e

theorem execCmdIodirDdt_moves (dv : Bool) (a0 : Word) (e : execCmdIodirDdt dv a0 s = .next t) : Moves s t := by
  unfold execCmdIodirDdt at e
  repeat' split at e
  all_goals exact Moves.refl.ofDone e

theorem execCmdIotinvalVma_moves (av gv pscv : Bool) (a0 a1 a2 : Word)
    (e : execCmdIotinvalVma av gv pscv a0 a1 a2 s = .next t) : Moves s t := by
  unfold execCmdIotinvalVma at e
  split at e
  · exact Moves.refl.ofRaise e
  · split at e <;> exact Moves.refl.ofDone e

theorem execCmdIotinvalGvma_moves (av gv : Bool) (a0 a1 : Word) (e : execCmdIotinvalGvma av gv a0 a1 s = .next t) :
    Moves s t := by
  unfold execCmdIotinvalGvma at e
  split at e
  · exact Moves.refl.ofRaise e
  · split at e <;> exact Moves.refl.ofDone e

theorem execCmdIofenceC_moves (av wsi : Bool) (a0 a1 : Word) (e : execCmdIofenceC av wsi a0 a1 s = .next t) :
    Moves s t := by
  unfold execCmdIofenceC at e
  split at e
  · exact Moves.refl.ofRaise e
  · split at e <;> exact Moves.refl.ofDone e

theorem pollOn_moves (r : MmioReg) (b : Bool) (s : State) : Moves s (pollOn r b s).2 := Moves.refl.thenPauseRead

theorem cqInitWait_moves (a0 : Word) (n : BitVec 6) (t0 : Word) (e : cqInitWait a0 n t0 s = .next t) : Moves s t :=
  Moves.ofAwait (pollOn_moves _ _) (fun _ _ _ h => (Moves.refl.thenBlk _).ofDone h) .refl e

theorem execCqInit_moves (n : BitVec 6) (cie : Bool) (a0 : Word) (e : execCqInit n cie a0 s = .next t) :
    Moves s t := by
  unfold execCqInit mmioRead at e
  dsimp only at e
  repeat' split at e
  all_goals first
    | exact Moves.refl.ofRaise e
    | exact Moves.refl.thenPauseRead.ofRaise e
    | exact (((Moves.refl.thenPauseRead.thenMmio _ _).thenPauseRead.thenMmio _ _).thenMmio _ _).trans
        (cqInitWait_moves _ _ _ e)

theorem pollSync_moves (a0 a1 : Word) (s : State) : Moves s (pollSync a0 a1 s).2 := by
  unfold pollSync mmioRead memRead
  dsimp only
  split
  · exact Moves.refl.thenPauseRead
  · exact Moves.refl.thenPauseRead.thenFence.thenPause

theorem syncWait_moves (a0 a1 x : Word) (e : syncWait a0 a1 x s = .next t) : Moves s t := by
  refine Moves.ofAwait (pollSync_moves a0 a1) (fun v u w h => ?_) .refl e
  unfold syncFinish at h
  split at h <;> exact Moves.refl.ofDone h

theorem submitThen_moves (b : SubmitFor) (x a : Word) (e : submitThen b x a s = .next t) : Moves s t := by
  cases b with
  | submit => exact Moves.refl.ofDone e
  | sync a0 a1 => exact syncWait_moves _ _ _ e

theorem submitStore_moves (d0 d1 x : Word) (b : SubmitFor) (e : submitStore d0 d1 x b s = .next t) : Moves s t :=
  ((((Moves.refl.thenWrite _ _).thenWrite _ _).thenFence).thenMmio _ _).trans (submitThen_moves _ _ _ e)

theorem pollNotFull_moves (x : Word) (s : State) : Moves s (pollNotFull x s).2 := by
  unfold pollNotFull mmioRead
  dsimp only
  split
  · exact Moves.refl.thenPauseRead
  · exact Moves.refl.thenPauseRead.thenPauseRead

theorem submitWait_moves (d0 d1 x : Word) (b : SubmitFor) (e : submitWait d0 d1 x b s = .next t) : Moves s t := by
  refine Moves.ofAwait (pollNotFull_moves x) (fun v u w h => ?_) .refl e
  unfold submitChecked at h
  split at h
  · exact Moves.refl.ofDone h
  · exact submitStore_moves _ _ _ _ h

theorem submitSteps_moves (d0 d1 : Word) (b : SubmitFor) (e : submitSteps d0 d1 b s = .next t) : Moves s t := by
  unfold submitSteps mmioRead at e
  dsimp only at e
  split at e
  · exact Moves.refl.thenFence.thenPauseRead.trans (submitWait_moves _ _ _ _ e)
  · exact Moves.refl.thenFence.thenPauseRead.trans (submitStore_moves _ _ _ _ e)

theorem execCqSubmit_moves (a0 a1 : Word) (e : execCqSubmit a0 a1 s = .next t) : Moves s t := by
  unfold execCqSubmit at e
  split at e
  · exact Moves.refl.ofRaise e
  · exact submitSteps_moves _ _ _ e

theorem pollDrained_moves (x : Word) (s : State) : Moves s (pollDrained x s).2 :=
  Moves.refl.thenPauseRead.thenPauseRead

theorem cqWaitWait_moves (x : Word) (e : cqWaitWait x s = .next t) : Moves s t := by
  refine Moves.ofAwait (pollDrained_moves x) (fun v u w h => ?_) .refl e
  unfold cqWaitFinish at h
  split at h
  · exact Moves.refl.ofDone h
  · exact Moves.refl.thenFence.ofDone h

theorem execCqWait_moves (e : execCqWait s = .next t) : Moves s t := by
  unfold execCqWait at e
  split at e
  · exact Moves.refl.ofRaise e
  · exact Moves.refl.thenPauseRead.trans (cqWaitWait_moves _ e)

theorem execCqStatus_moves (e : execCqStatus s = .next t) : Moves s t :=
  Moves.refl.thenPauseRead.thenPauseRead.thenPauseRead.ofDone e

theorem execCqClear_moves (e : execCqClear s = .next t) : Moves s t :=
  (Moves.refl.thenPauseRead.thenMmio _ _).ofDone e

theorem cqDisableWait_moves (e : cqDisableWait s = .next t) : Moves s t :=
  Moves.ofAwait (pollOn_moves _ _) (fun _ _ _ h => (Moves.refl.thenBlk _).thenPauseRead.ofDone h) .refl e

theorem execCqDisable_moves (e : execCqDisable s = .next t) : Moves s t :=
  (Moves.refl.thenPauseRead.thenMmio _ _).trans (cqDisableWait_moves e)

theorem execCqSync_moves (a0 a1 : Word) (e : execCqSync a0 a1 s = .next t) : Moves s t := by
  unfold execCqSync at e
  repeat' split at e
  all_goals first
    | exact Moves.refl.ofRaise e
    | cases e
    | exact (Moves.refl.thenWrite _ _).trans (submitSteps_moves _ _ _ e)

theorem fqInitWait_moves (a0 : Word) (n : BitVec 6) (h0 : Word) (e : fqInitWait a0 n h0 s = .next t) : Moves s t :=
  Moves.ofAwait (pollOn_moves _ _) (fun _ _ _ h => (Moves.refl.thenBlk _).ofDone h) .refl e

theorem execFqInit_moves (n : BitVec 6) (fie : Bool) (a0 : Word) (e : execFqInit n fie a0 s = .next t) :
    Moves s t := by
  unfold execFqInit mmioRead at e
  dsimp only at e
  repeat' split at e
  all_goals first
    | exact Moves.refl.ofRaise e
    | exact Moves.refl.thenPauseRead.ofRaise e
    | exact (((Moves.refl.thenPauseRead.thenMmio _ _).thenPauseRead.thenMmio _ _).thenMmio _ _).trans
        (fqInitWait_moves _ _ _ e)

theorem takeRecord_moves (h : Word) (e : takeRecord h s = .next t) : Moves s t :=
  (Moves.refl.thenFence.thenPause.thenPause.thenPause.thenPause.thenFence.thenMmio _ _).ofDone e

theorem execFqTryRead_moves (e : execFqTryRead s = .next t) : Moves s t := by
  unfold execFqTryRead mmioRead at e
  dsimp only at e
  split at e
  · exact Moves.refl.ofRaise e
  · split at e
    · exact Moves.refl.thenPauseRead.thenPauseRead.ofDone e
    · exact Moves.refl.thenPauseRead.thenPauseRead.trans (takeRecord_moves _ e)

theorem execFqStatus_moves (e : execFqStatus s = .next t) : Moves s t :=
  Moves.refl.thenPauseRead.thenPauseRead.thenPauseRead.ofDone e

theorem execFqClear_moves (e : execFqClear s = .next t) : Moves s t :=
  (Moves.refl.thenPauseRead.thenMmio _ _).ofDone e

theorem fqDisableWait_moves (e : fqDisableWait s = .next t) : Moves s t :=
  Moves.ofAwait (pollOn_moves _ _) (fun _ _ _ h => (Moves.refl.thenBlk _).thenPauseRead.ofDone h) .refl e

theorem execFqDisable_moves (e : execFqDisable s = .next t) : Moves s t :=
  (Moves.refl.thenPauseRead.thenMmio _ _).trans (fqDisableWait_moves e)

theorem execFqrDecode_moves (a0 a1 a2 a3 : Word) (e : execFqrDecode a0 a1 a2 a3 s = .next t) : Moves s t :=
  Moves.refl.ofDone e

theorem execFence_moves (e : execFence s = .next t) : Moves s t := Moves.refl.thenFence.ofDone e

/-- An instruction that answers a next state got there by elementary moves. -/
theorem exec_moves (i : Instr) (e : exec i s = .next t) : Moves s t := by
  cases i with
  | pteLeaf fl a0 => exact execPteLeaf_moves fl a0 e
  | pteNonleaf a0 => exact execPteNonleaf_moves a0 e
  | pteDecode a0 => exact execPteDecode_moves a0 e
  | ptInit => exact execPtInit_moves e
  | ptMap st g fl a0 a1 a2 => exact execPtMap_moves st g fl a0 a1 a2 e
  | ptLookup st a0 => exact execPtLookup_moves st a0 e
  | msiInit => exact execMsiInit_moves e
  | msiSetBasic c a0 a1 => exact execMsiSetBasic_moves c a0 a1 e
  | msiSetMrif c a0 a1 a2 a3 => exact execMsiSetMrif_moves c a0 a1 a2 a3 e
  | msiIndex a0 => exact execMsiIndex_moves a0 e
  | msiMrifLoc a0 a1 => exact execMsiMrifLoc_moves a0 a1 e
  | ddtConfig dtf a0 a1 a2 a3 => exact execDdtConfig_moves dtf a0 a1 a2 a3 e
  | ddtRebuild lv a0 a1 => exact execDdtRebuild_moves lv a0 a1 e
  | ddtSetS1Mode m => exact execDdtSetS1Mode_moves m e
  | ddtSetS2Mode m => exact execDdtSetS2Mode_moves m e
  | ddtSetMsiMode m => exact execDdtSetMsiMode_moves m e
  | ddtSetMode m => exact execDdtSetMode_moves m e
  | ddtLocate a0 => exact execDdtLocate_moves a0 e
  | cmdIodirDdt dv a0 => exact execCmdIodirDdt_moves dv a0 e
  | cmdIotinvalVma av gv pscv a0 a1 a2 => exact execCmdIotinvalVma_moves av gv pscv a0 a1 a2 e
  | cmdIotinvalGvma av gv a0 a1 => exact execCmdIotinvalGvma_moves av gv a0 a1 e
  | cmdIofenceC av wsi a0 a1 => exact execCmdIofenceC_moves av wsi a0 a1 e
  | cqInit n cie a0 => exact execCqInit_moves n cie a0 e
  | cqSubmit a0 a1 => exact execCqSubmit_moves a0 a1 e
  | cqWait => exact execCqWait_moves e
  | cqStatus => exact execCqStatus_moves e
  | cqClear => exact execCqClear_moves e
  | cqDisable => exact execCqDisable_moves e
  | cqSync a0 a1 => exact execCqSync_moves a0 a1 e
  | fqInit n fie a0 => exact execFqInit_moves n fie a0 e
  | fqTryRead => exact execFqTryRead_moves e
  | fqStatus => exact execFqStatus_moves e
  | fqClear => exact execFqClear_moves e
  | fqDisable => exact execFqDisable_moves e
  | fqrDecode a0 a1 a2 a3 => exact execFqrDecode_moves a0 a1 a2 a3 e
  | fence => exact execFence_moves e
  | iotinvalVma av pscv gv pscid gscid addr =>
    cases e
    exact (EnvMove.caches s _).one.moves
  | iotinvalGvma av gv gscid addr =>
    cases e
    exact (EnvMove.caches s _).one.moves
  | iofenceC av wsi pr pw data addr =>
    cases e
    exact (fenceCommand_moves av wsi pr pw data addr s).moves
  | iodirInvalDdt dv did =>
    cases e
    exact (EnvMove.caches s _).one.moves

theorem resume_moves (w : WaitPoint) (e : resume w s = .next t) : Moves s t := by
  cases w with
  | cqInit a0 n t0 => exact cqInitWait_moves _ _ _ e
  | submit d0 d1 x b => exact submitWait_moves _ _ _ _ e
  | cqWait x => exact cqWaitWait_moves _ e
  | cqDisable => exact cqDisableWait_moves e
  | syncDone a0 a1 x => exact syncWait_moves _ _ _ e
  | fqInit a0 n h0 => exact fqInitWait_moves _ _ _ e
  | fqDisable => exact fqDisableWait_moves e
  | setModeReady m => exact setModeReady_moves m e
  | setModeDone m => exact setModeDone_moves m e

/-- The elementary moves of a step: those of an instruction, and taking an input. -/
inductive StepMove : State → State → Prop
  | move {s t : State} (h : Move s t) : StepMove s t
  | take (s : State) (l : List Input) : StepMove s { s with inputs := l }
  | begin (s : State) (r : Request) : StepMove s { s with req := r, phase := .busy, wait := none }
  | resetBlock (s : State) : StepMove s (resetBlock s)
  | resetIommu (s : State) : StepMove s (resetIommu s)

/-- A chain of moves of a step. -/
abbrev StepMoves : State → State → Prop := Relation.ReflTransGen StepMove

/-- What every elementary move keeps, a chain keeps. -/
theorem StepMoves.keep {P : State → Prop} (hP : ∀ s t, StepMove s t → P s → P t) {s t : State} (h : StepMoves s t)
    (hs : P s) : P t := by
  induction h with
  | refl => exact hs
  | tail _ h ih => exact hP _ _ h ih

theorem Moves.stepMoves {s t : State} (h : Moves s t) : StepMoves s t := by
  induction h with
  | refl => exact .refl
  | tail _ h ih => exact ih.tail (.move h)

theorem StepMoves.take (s : State) (l : List Input) : StepMoves s { s with inputs := l } :=
  Relation.ReflTransGen.single (.take s l)

theorem accept_moves (r : Request) (e : accept r s = .next t) : StepMoves s t := by
  refine Relation.ReflTransGen.head (.begin s r) (Moves.stepMoves ?_)
  unfold accept at e
  split at e
  · exact Moves.refl.ofRaise e
  · exact exec_moves _ e

theorem blockTurn_moves (e : blockTurn s = .next t) : Moves s t := by
  unfold blockTurn at e
  split at e
  · exact resume_moves _ e
  · cases e
    exact Moves.refl.thenPause

theorem iommuTurn_moves (e : iommuTurn s = .next t) : Moves s t := by
  unfold iommuTurn at e
  split at e
  · cases e
    exact (consumeCommand_moves false s).moves
  · split at e
    · split at e
      · cases e
        exact (memoryFault_moves s).moves
      · split at e
        · cases e
          exact (illegalCommand_moves s).moves
        · rename_i i _
          unfold runCommand at e
          split at e
          · rename_i h
            cases e
            exact (exec_moves i h).trans (settle_moves _).moves
          · rename_i h
            exact absurd e (h t)
    · cases e
      exact .refl

/-- A step that answers a next state got there by elementary moves. -/
theorem step_moves (e : step s = .next t) : StepMoves s t := by
  unfold step at e
  split at e
  · unfold turn at e
    split at e
    · exact (blockTurn_moves e).stepMoves
    · split at e
      · exact (StepMoves.take s _).trans (accept_moves _ e)
      · exact (blockTurn_moves e).stepMoves
    · exact (StepMoves.take s _).trans (iommuTurn_moves e).stepMoves
    · cases e
      exact (StepMoves.take s _).trans (perform_moves _ _).moves.stepMoves
    · split at e
      · cases e
        exact (StepMoves.take s _).trans (EnvMove.store _ _ _ _).one.moves.stepMoves
      · cases e
    · cases e
      exact (StepMoves.take s _).tail (.resetBlock _)
    · cases e
      exact ((StepMoves.take s _).tail (.resetBlock _)).tail (.resetIommu _)
  · cases e

end Sys2Proof.Machine
end

