-- ==== Sys2Proof/Laws/Calm.lean ====
section
/-! SUPPORT. Said once: what each primitive of the block does when no other agent moves inside the operation (`weave`
empty), and when the IOMMU is at rest as well (`settled`). -/

namespace Sys2Proof.Machine

variable {s : State}

theorem pause_calm (h : s.weave = []) : pause s = s := by
  unfold pause
  rw [h]

theorem memRead_calm (h : s.weave = []) (a : Nat) : memRead a s = (s.wordBlk a, s) := by
  unfold memRead State.wordBlk
  rw [pause_calm h]

theorem memWrite_calm (h : s.weave = []) (a : Nat) (v : Word) :
    memWrite a v s = { s with memBlk := s.memBlk.store64 a v, pend := s.pend ++ [⟨a, v⟩] } := by
  unfold memWrite
  rw [pause_calm h]

theorem fence_calm (h : s.weave = []) :
    fence s = { s with memIo := drainAll s.memIo s.pend, pend := [],
                       memBlk := revealAll s.memBlk (drainAll s.memIo s.pend) s.unseen, unseen := [] } := by
  unfold fence
  rw [pause_calm h]

theorem mmioWrite_calm (h : s.weave = []) (r : MmioReg) (v : Word) :
    mmioWrite r v s = { s with regs := s.regs.set s.cfg s.warlMode r v } := by
  unfold mmioWrite
  rw [pause_calm h]

/-! Draining and revealing, byte by byte. -/

theorem drainAll_append (m : Memory) (p q : List PendingWrite) : drainAll m (p ++ q) = drainAll (drainAll m p) q := by
  simp [drainAll]

theorem drainAll_wf (m : Memory) (p : List PendingWrite) (h : m.wf) : (drainAll m p).wf := by
  unfold drainAll
  induction p generalizing m with
  | nil => exact h
  | cons w p ih => exact ih _ (Memory.wf_store64 _ _ _ h)

theorem revealAll_wf (m src : Memory) (u : List ByteRange) (h : m.wf) : (revealAll m src u).wf := by
  unfold revealAll
  induction u generalizing m with
  | nil => exact h
  | cons r u ih => exact ih _ (Memory.wf_copyFrom _ _ _ h)

/-- What P holds reaches a byte from the memory below only through that byte. -/
theorem drainAll_read_congr (m n : Memory) (p : List PendingWrite) (a : Nat) (h : m.read a = n.read a) :
    (drainAll m p).read a = (drainAll n p).read a := by
  unfold drainAll
  induction p generalizing m n with
  | nil => exact h
  | cons w p ih =>
    refine ih _ _ ?_
    simp only [Memory.store64, Memory.storeN, Memory.read_store, h]

/-- A byte no pending write covers is not changed by draining. -/
theorem drainAll_read_other (m : Memory) (p : List PendingWrite) (a : Nat)
    (h : ∀ w ∈ p, a < w.addr ∨ w.addr + 8 ≤ a) : (drainAll m p).read a = m.read a := by
  unfold drainAll
  induction p generalizing m with
  | nil => rfl
  | cons w p ih =>
    simp only [List.foldl_cons]
    rw [ih _ fun v hv => h v (by simp [hv]), Memory.read_store64 _ _ _ _ (h w (by simp))]

/-- Revealing gives the source's byte where a range covers it, the old byte elsewhere. -/
theorem revealAll_read (m src : Memory) (u : List ByteRange) (a : Nat) :
    (revealAll m src u).read a = if u.any (fun r => r.covers a) then src.read a else m.read a := by
  unfold revealAll
  induction u generalizing m with
  | nil => rfl
  | cons r u ih =>
    simp only [List.foldl_cons, List.any_cons]
    rw [ih, Memory.read_copyFrom]
    by_cases hc : r.covers a = true
    · have hr : r.addr ≤ a ∧ a < r.addr + r.size := by simpa [ByteRange.covers] using hc
      simp [hc, hr]
    · have hr : ¬ (r.addr ≤ a ∧ a < r.addr + r.size) := by simpa [ByteRange.covers] using hc
      simp [hc, hr]

/-! The IOMMU at rest. -/

theorem setBit_same (c : BitVec 32) (i : Nat) (h : c.getLsbD i = false) : setBit c i false = c := by
  ext j hj
  simp only [setBit, Bool.false_eq_true, if_false, BitVec.getElem_and, BitVec.getElem_not, BitVec.getElem_twoPow]
  by_cases e : i = j
  · subst e
    simp [← BitVec.getLsbD_eq_getElem, h]
  · simp [show j ≠ i from fun h => e h.symm]

theorem clearBusy_same (v : BitVec 64) (h : ddtpBusy v = false) : v &&& ~~~0x10 = v := by
  ext j hj
  have : (0x10 : BitVec 64) = BitVec.twoPow 64 4 := rfl
  simp only [this, BitVec.getElem_and, BitVec.getElem_not, BitVec.getElem_twoPow]
  by_cases e : j = 4
  · subst e
    simpa [ddtpBusy, BitVec.getLsbD_eq_getElem] using h
  · simp [e]

/-- The parts of `settled`. -/
theorem settled_iff (s : State) : s.settled = true ↔
    s.weave = [] ∧ cqEn s.regs = cqOn s.regs ∧ fqEn s.regs = fqOn s.regs ∧ s.regs.cqcsr.getLsbD 17 = false ∧
      s.regs.fqcsr.getLsbD 17 = false ∧ ddtpBusy s.regs.ddtp = false ∧ cqRunning s.regs = false ∧
      s.engine.recPending = false ∧ s.engine.inFlight = [] := by
  simp [State.settled, and_assoc]

theorem consumeMany_stopped (n : Nat) (s : State) (h : cqRunning s.regs = false) : consumeMany n s = s := by
  induction n with
  | zero => rfl
  | succ n ih => simp [consumeMany, consumeCommand, h, ih]

/-- With no transaction under way there is none to wait for. -/
theorem awaitTransactions_none (pr pw : Bool) (h : s.engine.inFlight = []) : awaitTransactions pr pw s = s := by
  obtain ⟨cfg, phase, wait, req, res, blk, regs, caches, ⟨cmd, rec, l⟩, mb, mi, pend, un, inp, weave, dev, warl⟩ := s
  cases h
  rfl

theorem quiesce_settled (h : s.settled = true) : quiesce s = s := by
  obtain ⟨_, hc, hf, h1, h2, h3, h4, h5, h6⟩ := (settled_iff s).1 h
  have e1 : setDdtpBusy false s = s := by
    simp only [setDdtpBusy, Bool.false_eq_true, if_false, clearBusy_same _ h3]
  have e2 : setCqcsr 17 false s = s := by
    simp only [setCqcsr, setBit_same _ _ h1]
  have e3 : setFqcsr 17 false s = s := by
    simp only [setFqcsr, setBit_same _ _ h2]
  have e4 : cqFollow s = s := by simp [cqFollow, hc]
  have e5 : fqFollow s = s := by simp [fqFollow, hf]
  have e6 : advanceFqt s = s := by simp [advanceFqt, h5]
  simp only [quiesce, e1, e2, e3, e4, e5, e6, awaitTransactions_none _ _ h6, consumeMany_stopped _ _ h4]

theorem pauseRead_settled (h : s.settled = true) : pauseRead s = s := by
  unfold pauseRead
  rw [((settled_iff s).1 h).1]
  exact quiesce_settled h

theorem mmioRead_settled (h : s.settled = true) (r : MmioReg) : mmioRead r s = (s.regs.get r, s) := by
  unfold mmioRead
  rw [pauseRead_settled h]

/-- Whether the IOMMU is at rest does not depend on memory, the block's registers or the result. -/
theorem settled_congr {s t : State} (hw : t.weave = s.weave) (hr : t.regs = s.regs) (he : t.engine = s.engine) :
    t.settled = s.settled := by
  unfold State.settled
  rw [hw, hr, he]

/-! A wait that ends at its first poll. -/

theorem pollCount_pos (s : State) (h : s.cfg.pollBound ≠ some 0) : ∃ n, pollCount s = n + 1 := by
  unfold pollCount
  cases hb : s.cfg.pollBound with
  | none => exact ⟨s.weave.length, rfl⟩
  | some k =>
    cases k with
    | zero => exact absurd hb h
    | succ k => exact ⟨k, rfl⟩

theorem await_now {α : Type} {poll : State → Option α × State} {w : WaitPoint}
    {go : α → State → Host.Outcome State Fault Refusal} {v : α} {s t : State} (hb : s.cfg.pollBound ≠ some 0)
    (hp : poll s = (some v, t)) : await poll w go s = go v t := by
  obtain ⟨n, hn⟩ := pollCount_pos s hb
  simp only [await, hn, pollLoop, hp]

end Sys2Proof.Machine
end

