-- ==== Sys2Proof/Laws/Device.lean ====
section
/-! SUPPORT. What the part of a device transaction after its translation can change, and what a fence's wait for such
transactions leaves. -/

namespace Sys2Proof.Machine

/-- Only Mem_io, the unseen ranges, fqt, fqcsr, the pending advance of fqt and the observation may differ. -/
structure DeviceFrame (s t : State) : Prop where
  cfg : t.cfg = s.cfg
  phase : t.phase = s.phase
  wait : t.wait = s.wait
  req : t.req = s.req
  res : t.res = s.res
  blk : t.blk = s.blk
  caches : t.caches = s.caches
  regs : t.regs = { s.regs with fqt := t.regs.fqt, fqcsr := t.regs.fqcsr }
  engine : t.engine = { s.engine with recPending := t.engine.recPending }
  memBlk : t.memBlk = s.memBlk
  pend : t.pend = s.pend
  inputs : t.inputs = s.inputs
  weave : t.weave = s.weave
  warlMode : t.warlMode = s.warlMode

theorem DeviceFrame.refl (s : State) : DeviceFrame s s := by constructor <;> rfl

theorem DeviceFrame.trans {s t u : State} (h : DeviceFrame s t) (k : DeviceFrame t u) : DeviceFrame s u where
  cfg := k.cfg.trans h.cfg
  phase := k.phase.trans h.phase
  wait := k.wait.trans h.wait
  req := k.req.trans h.req
  res := k.res.trans h.res
  blk := k.blk.trans h.blk
  caches := k.caches.trans h.caches
  regs := k.regs.trans (by rw [h.regs])
  engine := k.engine.trans (by rw [h.engine])
  memBlk := k.memBlk.trans h.memBlk
  pend := k.pend.trans h.pend
  inputs := k.inputs.trans h.inputs
  weave := k.weave.trans h.weave
  warlMode := k.warlMode.trans h.warlMode

theorem ioStore_frame (a n : Nat) (v : Word) (s : State) : DeviceFrame s (ioStore a n v s) := by constructor <;> rfl

theorem setFqcsr_frame (i : Nat) (b : Bool) (s : State) : DeviceFrame s (setFqcsr i b s) := by constructor <;> rfl

theorem dev_frame (d : DevOutcome) (s : State) : DeviceFrame s { s with dev := d } := by constructor <;> rfl

theorem recPending_frame (b : Bool) (s : State) :
    DeviceFrame s { s with engine := { s.engine with recPending := b } } := by constructor <;> rfl

theorem advanceFqt_frame (s : State) : DeviceFrame s (advanceFqt s) := by
  unfold advanceFqt
  split
  · constructor <;> rfl
  · exact .refl s

theorem recordStores_frame (a : Nat) (w0 w1 w2 w3 : Word) (s : State) :
    let t := ioStore (a + 24) 8 w3 (ioStore (a + 16) 8 w2 (ioStore (a + 8) 8 w1 (ioStore a 8 w0 s)))
    DeviceFrame s { t with engine := { t.engine with recPending := true } } := by constructor <;> rfl

theorem reportRecord_frame (w0 w1 w2 w3 : Word) (hold : Bool) (s : State) :
    DeviceFrame s (reportRecord w0 w1 w2 w3 hold s) := by
  have h := advanceFqt_frame s
  simp only [reportRecord]
  split_ifs
  · exact h
  · exact h.trans (setFqcsr_frame 9 true _)
  · exact h.trans (setFqcsr_frame 8 true _)
  · exact h.trans (recordStores_frame _ w0 w1 w2 w3 _)
  · exact (h.trans (recordStores_frame _ w0 w1 w2 w3 _)).trans (advanceFqt_frame _)

theorem faultTransaction_frame (x : Transaction) (f : XFault) (dtf hold : Bool) (s : State) :
    DeviceFrame s (faultTransaction x f dtf hold s) := by
  simp only [faultTransaction]
  split_ifs
  · exact dev_frame _ s
  · exact (dev_frame _ s).trans (reportRecord_frame _ _ _ _ _ _)

theorem accessMemory_frame (x : Transaction) (pa : Word) (s : State) : DeviceFrame s (accessMemory x pa s) := by
  simp only [accessMemory]
  split_ifs
  · exact (ioStore_frame _ _ _ s).trans (dev_frame _ _)
  · exact dev_frame _ s

theorem accessNext_frame (hold : Bool) (x : Access) (s : State) : DeviceFrame s (accessNext hold x s).2 := by
  unfold accessNext
  split
  · exact faultTransaction_frame _ _ _ _ s
  · split_ifs
    · exact accessMemory_frame _ _ s
    · exact .refl s
  · simp only
    split_ifs
    · exact dev_frame _ s
    all_goals exact .refl s
  · exact ioStore_frame _ _ _ s
  · simp only
    split_ifs
    · exact .refl s
    · exact dev_frame _ s
  · split_ifs
    · exact (ioStore_frame _ _ _ s).trans (dev_frame _ _)
    · exact .refl s

theorem accessRun_frame (hold : Bool) (n : Nat) (x : Access) (s : State) : DeviceFrame s (accessRun hold n x s) := by
  induction n generalizing x s with
  | zero => exact .refl s
  | succ n ih =>
    have h := accessNext_frame hold x s
    simp only [accessRun]
    split
    · next e => simpa only [e] using h
    · next e => exact DeviceFrame.trans (by simpa only [e] using h) (ih _ _)

theorem accessFinish_frame (hold : Bool) (x : Access) (s : State) : DeviceFrame s (accessFinish hold x s) :=
  accessRun_frame hold 5 x s

/-- How many steps may be left. -/
def AccessStep.left : AccessStep → Nat
  | .report _ => 1
  | .access _ => 2
  | .notice _ _ => 2
  | .enable _ _ _ => 3
  | .pending _ _ _ _ => 4
  | .mrif _ _ _ => 5

theorem accessNext_left {hold : Bool} {x y : Access} {s t : State} (h : accessNext hold x s = (some y, t)) :
    y.step.left < x.step.left := by
  obtain ⟨x, dtf, step⟩ := x
  cases step <;> simp only [accessNext] at h <;> (try split_ifs at h) <;> cases h <;> simp [AccessStep.left]

theorem accessRun_congr (hold : Bool) {n m : Nat} {x : Access} (s : State) (hn : x.step.left ≤ n)
    (hm : x.step.left ≤ m) : accessRun hold n x s = accessRun hold m x s := by
  have pos (x : Access) : 0 < x.step.left := by cases x.step <;> simp [AccessStep.left]
  induction n generalizing m x s with
  | zero => exact absurd hn (by have := pos x; omega)
  | succ n ih =>
    obtain _ | m := m
    · exact absurd hm (by have := pos x; omega)
    · simp only [accessRun]
      split
      · rfl
      · next h => have := accessNext_left h; exact ih _ (by omega) (by omega)

/-- A translated transaction is over after at most five steps: more fuel changes nothing. -/
theorem accessRun_enough (hold : Bool) (n : Nat) (x : Access) (s : State) :
    accessRun hold (n + 5) x s = accessFinish hold x s :=
  have five : x.step.left ≤ 5 := by cases x.step <;> simp [AccessStep.left]
  accessRun_congr hold s (by omega) five

/-- What the wait for the transactions of PR and PW does: it takes them out of those under way, and otherwise only what
`DeviceFrame` allows. -/
theorem awaitTransactions_frame (pr pw : Bool) (s : State) :
    DeviceFrame (setInFlight (s.engine.inFlight.filter (fun x => !awaited pr pw x)) s) (awaitTransactions pr pw s) := by
  have run (l : List Access) (t : State) : DeviceFrame t (l.foldl (fun s x => accessFinish false x s) t) := by
    induction l generalizing t with
    | nil => exact .refl t
    | cons x l ih => exact (accessFinish_frame false x t).trans (ih _)
  exact run _ _

end Sys2Proof.Machine
end

