-- ==== Sys2Proof/Laws/PerInstr.lean ====
section
/-! SUPPORT. A family of statements about every instruction as syntax: the words an instruction is encoded in belong
to one row of the opcode table. -/

namespace Sys2Proof.Laws.RowWord

/-- The header of a command's first doubleword: opcode and func3 (spec/30_encoding.md R145). -/
def commandHeaders : List (BitVec 10) := [0x001, 0x081, 0x002, 0x003]

/-- How many rows of the table the words of an instruction match: rows of R124 for a request's five words, headers of
R145 for a command's two. -/
def rowsMatched : List Word → Nat
  | [op, _, _, _, _] => requestRows.countP (rowMatches op)
  | [d0, _] => commandHeaders.countP (· == d0.setWidth 10)
  | _ => 0

/-- The words of `i` match exactly one row (R124: "exactly one row matches a legal request"). -/
def Statement (i : Instr) : Prop := rowsMatched (encode i) = 1

/-! Over the bits of an operation word alone. -/

theorem leaf_row : ∀ fl : BitVec 7, requestRows.countP (rowMatches (opWord 0x01 0 (fl.setWidth 8))) = 1 := by
  decide +kernel

theorem map_row : ∀ (g : BitVec 2) (fl : BitVec 7),
    requestRows.countP (rowMatches (opWord 0x11 (0 ||| (g.setWidth 8 <<< 1)) (fl.setWidth 8))) = 1 ∧
      requestRows.countP (rowMatches (opWord 0x11 (1 ||| (g.setWidth 8 <<< 1)) (fl.setWidth 8))) = 1 := by
  decide +kernel

theorem queue_row : ∀ (n : BitVec 6) (b : Bool),
    requestRows.countP (rowMatches (opWord 0x48 (n.setWidth 8) (flag b 0))) = 1 ∧
      requestRows.countP (rowMatches (opWord 0x50 (n.setWidth 8) (flag b 0))) = 1 := by
  decide +kernel

theorem mode_row : ∀ m : BitVec 4,
    requestRows.countP (rowMatches (opWord 0x32 (m.setWidth 8) 0)) = 1 ∧
      requestRows.countP (rowMatches (opWord 0x33 (m.setWidth 8) 0)) = 1 ∧
      requestRows.countP (rowMatches (opWord 0x34 (m.setWidth 8) 0)) = 1 ∧
      requestRows.countP (rowMatches (opWord 0x35 (m.setWidth 8) 0)) = 1 := by
  decide +kernel

theorem levels_row : ∀ l : BitVec 2, requestRows.countP (rowMatches (opWord 0x31 (l.setWidth 8) 0)) = 1 := by
  decide +kernel

/-- The low ten bits of a command are its header when every other field lies above them. -/
theorem header_row (h : BitVec 10) (d0 d1 : Word) (hd : d0.setWidth 10 = h) (hh : commandHeaders.countP (· == h) = 1) :
    rowsMatched [d0, d1] = 1 := by
  simp only [rowsMatched, hd, hh]

/-- A field above bit 9 leaves the header alone. -/
theorem header_or (d e : Word) (he : e.setWidth 10 = 0) : (d ||| e).setWidth 10 = d.setWidth 10 := by
  rw [BitVec.setWidth_or, he]
  exact BitVec.or_zero

theorem wordBit_header (b : Bool) (i : Nat) (hi : 10 ≤ i) : (wordBit b i).setWidth 10 = 0 := by
  ext j hj
  cases b
  · simp [wordBit]
  · simp [wordBit, BitVec.getLsbD_twoPow, show i ≠ j by omega]

theorem wordField_header {n : Nat} (v : BitVec n) (i : Nat) (hi : 10 ≤ i) : (wordField v i).setWidth 10 = 0 := by
  ext j hj
  simp [wordField, show j < i by omega]

/-! Every instruction. -/

theorem pteLeaf (fl : BitVec 7) (a0 : Word) : Statement (.pteLeaf fl a0) := leaf_row fl

theorem pteNonleaf (a0 : Word) : Statement (.pteNonleaf a0) := rfl

theorem pteDecode (a0 : Word) : Statement (.pteDecode a0) := rfl

theorem ptInit : Statement .ptInit := rfl

theorem ptMap (st : Stage) (g : BitVec 2) (fl : BitVec 7) (a0 a1 a2 : Word) : Statement (.ptMap st g fl a0 a1 a2) := by
  cases st with
  | s1 => exact (map_row g fl).1
  | s2 => exact (map_row g fl).2

theorem ptLookup (st : Stage) (a0 : Word) : Statement (.ptLookup st a0) := by
  cases st <;> rfl

theorem msiInit : Statement .msiInit := rfl

theorem msiSetBasic (c : Bool) (a0 a1 : Word) : Statement (.msiSetBasic c a0 a1) := by
  cases c <;> rfl

theorem msiSetMrif (c : Bool) (a0 a1 a2 a3 : Word) : Statement (.msiSetMrif c a0 a1 a2 a3) := by
  cases c <;> rfl

theorem msiIndex (a0 : Word) : Statement (.msiIndex a0) := rfl

theorem msiMrifLoc (a0 a1 : Word) : Statement (.msiMrifLoc a0 a1) := rfl

theorem ddtConfig (dtf : Bool) (a0 a1 a2 a3 : Word) : Statement (.ddtConfig dtf a0 a1 a2 a3) := by
  cases dtf <;> rfl

theorem ddtRebuild (lv : BitVec 2) (a0 a1 : Word) : Statement (.ddtRebuild lv a0 a1) := levels_row lv

theorem ddtSetS1Mode (m : BitVec 4) : Statement (.ddtSetS1Mode m) := (mode_row m).1

theorem ddtSetS2Mode (m : BitVec 4) : Statement (.ddtSetS2Mode m) := (mode_row m).2.1

theorem ddtSetMsiMode (m : BitVec 4) : Statement (.ddtSetMsiMode m) := (mode_row m).2.2.1

theorem ddtSetMode (m : BitVec 4) : Statement (.ddtSetMode m) := (mode_row m).2.2.2

theorem ddtLocate (a0 : Word) : Statement (.ddtLocate a0) := rfl

theorem cmdIodirDdt (dv : Bool) (a0 : Word) : Statement (.cmdIodirDdt dv a0) := by
  cases dv <;> rfl

theorem cmdIotinvalVma (av gv pscv : Bool) (a0 a1 a2 : Word) : Statement (.cmdIotinvalVma av gv pscv a0 a1 a2) := by
  cases av <;> cases gv <;> cases pscv <;> rfl

theorem cmdIotinvalGvma (av gv : Bool) (a0 a1 : Word) : Statement (.cmdIotinvalGvma av gv a0 a1) := by
  cases av <;> cases gv <;> rfl

theorem cmdIofenceC (av wsi : Bool) (a0 a1 : Word) : Statement (.cmdIofenceC av wsi a0 a1) := by
  cases av <;> cases wsi <;> rfl

theorem cqInit (n : BitVec 6) (cie : Bool) (a0 : Word) : Statement (.cqInit n cie a0) := (queue_row n cie).1

theorem cqSubmit (a0 a1 : Word) : Statement (.cqSubmit a0 a1) := rfl

theorem cqWait : Statement .cqWait := rfl

theorem cqStatus : Statement .cqStatus := rfl

theorem cqClear : Statement .cqClear := rfl

theorem cqDisable : Statement .cqDisable := rfl

theorem cqSync (a0 a1 : Word) : Statement (.cqSync a0 a1) := rfl

theorem fqInit (n : BitVec 6) (fie : Bool) (a0 : Word) : Statement (.fqInit n fie a0) := (queue_row n fie).2

theorem fqTryRead : Statement .fqTryRead := rfl

theorem fqStatus : Statement .fqStatus := rfl

theorem fqClear : Statement .fqClear := rfl

theorem fqDisable : Statement .fqDisable := rfl

theorem fqrDecode (a0 a1 a2 a3 : Word) : Statement (.fqrDecode a0 a1 a2 a3) := rfl

theorem fence : Statement .fence := rfl

theorem iotinvalVma (av pscv gv : Bool) (pscid : BitVec 20) (gscid : BitVec 16) (addr : BitVec 52) :
    Statement (.iotinvalVma av pscv gv pscid gscid addr) := by
  refine header_row 0x001 _ _ ?_ (by decide)
  repeat first
    | rw [header_or _ _ (wordBit_header _ _ (by omega))]
    | rw [header_or _ _ (wordField_header _ _ (by omega))]
  rfl

theorem iotinvalGvma (av gv : Bool) (gscid : BitVec 16) (addr : BitVec 52) :
    Statement (.iotinvalGvma av gv gscid addr) := by
  refine header_row 0x081 _ _ ?_ (by decide)
  repeat first
    | rw [header_or _ _ (wordBit_header _ _ (by omega))]
    | rw [header_or _ _ (wordField_header _ _ (by omega))]
  rfl

theorem iofenceC (av wsi pr pw : Bool) (data : BitVec 32) (addr : BitVec 62) :
    Statement (.iofenceC av wsi pr pw data addr) := by
  refine header_row 0x002 _ _ ?_ (by decide)
  repeat first
    | rw [header_or _ _ (wordBit_header _ _ (by omega))]
    | rw [header_or _ _ (wordField_header _ _ (by omega))]
  rfl

theorem iodirInvalDdt (dv : Bool) (did : BitVec 24) : Statement (.iodirInvalDdt dv did) := by
  refine header_row 0x003 _ _ ?_ (by decide)
  repeat first
    | rw [header_or _ _ (wordBit_header _ _ (by omega))]
    | rw [header_or _ _ (wordField_header _ _ (by omega))]
  rfl

end Sys2Proof.Laws.RowWord
end

