-- ==== Sys2Proof/Tests/Slice0.lean ====
section
/-! SUPPORT. The package's own tests: the ill-formed terms that WellFormed refuses, one written-out word for every
instruction, one step of every instruction (expected values from spec/95_test_vectors.md and the rules' examples), and
for every statement a witness that meets its hypotheses. -/

open Sys2Proof Sys2Proof.Machine

namespace Sys2Proof.Tests

set_option Elab.async false

/-! States. -/

/-- The example instance after reset. -/
def base : State := State.reset

/-- A BASE-format instance after reset. -/
def baseFmt : State := State.resetOf { Config.example with dcFmt := .base }

/-- An instance with one directory page. -/
def onePage : State := State.resetOf { Config.example with ddtPages := 1 }

/-- `s` as PT.INIT leaves the block's registers, on memory that reads 0. -/
def withTrees (s : State) : State :=
  { s with blk := { s.blk with ptReady := true, s2Root := 0x80100000, s1Root := 0x80104000, poolNext := 5 } }

def ptS : State := withTrees base

/-- Doublewords stored into empty memory. -/
def memOf (ws : List (Nat × Word)) : Memory := ws.foldl (fun m w => m.store64 w.1 w.2) []

/-- The tables of spec/95_test_vectors.md 2.2.2 after step 1, with a NONLEAF entry at level 2 and a RESERVED one. -/
def treeS : State :=
  { ptS with
    blk := { ptS.blk with poolNext := 7 }
    memBlk := memOf [(0x80104008, 0x20041401), (0x80105000, 0x20041801), (0x80106000, 0x200800D7),
      (0x80106008, 0x20041801), (0x80106010, 0x41)] }

/-- One 1 GiB leaf at entry 1 of the stage-1 root, in both views of memory. -/
def gigS : State :=
  { ptS with memBlk := memOf [(0x80104008, 0x200000D7)], memIo := memOf [(0x80104008, 0x200000D7)] }

def msiS : State :=
  { base with blk := { base.blk with msiReady := true, cfgMsiMask := 7, cfgMsiPattern := 0x28000 } }

/-- A one-level directory of devices 0 and 1, every table present (2.4.3). -/
def ddtS : State :=
  { ptS with
    blk := { ptS.blk with ddtReady := true, ddtLvls := 1, ddtNext := 1, devValid := true, devLo := 0, devHi := 1,
                          msiReady := true }
    memBlk := memOf [(0x80080000, 1), (0x80080008, 0x300000080100), (0x80080040, 1)] }

/-- A running 64-slot command queue (2.5.2), drained at its last slot. -/
def cqS : State :=
  { base with
    blk := { base.blk with cqState := .ready, cqBase := 0x80501000, cqLog2n := 6 }
    regs := { base.regs with cqb := 0x20140405, cqcsr := 0x10001, cqh := 63, cqt := 63 } }

/-- As `cqS`, with one command at the last slot. -/
def cmdS (d0 d1 : Word) : State :=
  { cqS with regs := { cqS.regs with cqt := 0 }, memIo := memOf [(0x805013F0, d0), (0x805013F8, d1)],
             inputs := [.iommu] }

/-- A running 16-record fault queue (2.6.1) with one record. -/
def fqS : State :=
  { base with
    blk := { base.blk with fqState := .ready, fqBase := 0x80510000, fqLog2n := 4 }
    regs := { base.regs with fqb := 0x20144003, fqcsr := 0x10001, fqt := 1 }
    memBlk := memOf [(0x80510000, 0x10800000100), (0x80510010, 0x40000000)]
    memIo := memOf [(0x80510000, 0x10800000100), (0x80510010, 0x40000000)] }

/-- One pending write of the block. -/
def pendS : State :=
  { base with memBlk := memOf [(0x80600000, 0x11)], pend := [⟨0x80600000, 0x11⟩] }

/-! Running one step. -/

/-- The result of the step that takes a request. -/
def resOf (s : State) (op : Word) (a0 : Word := 0) (a1 : Word := 0) (a2 : Word := 0) (a3 : Word := 0) :
    Option Result :=
  match step { s with inputs := [.request ⟨op, a0, a1, a2, a3⟩] } with
  | .next t => some t.res
  | _ => none

/-- The state after an outcome; the reset state after a stop. -/
def stateOf : Host.Outcome State Fault Refusal → State
  | .next t => t
  | _ => base

/-- The outcome is a next state. -/
def isNext : Host.Outcome State Fault Refusal → Bool
  | .next _ => true
  | _ => false

theorem eq_next (o : Host.Outcome State Fault Refusal) (h : isNext o = true) : o = .next (stateOf o) := by
  cases o <;> simp_all [isNext, stateOf]

/-- The state after the step that takes a request. -/
def after (s : State) (op : Word) (a0 : Word := 0) (a1 : Word := 0) (a2 : Word := 0) (a3 : Word := 0) : State :=
  stateOf (step { s with inputs := [.request ⟨op, a0, a1, a2, a3⟩] })

/-! WellFormed refuses. -/

theorem test_wf_leaf_align : (Instr.pteLeaf 0x6B 0x80200800).wellFormed = false := by decide
theorem test_wf_leaf_range : (Instr.pteLeaf 0x6B 0x100000000000000).wellFormed = false := by decide
theorem test_wf_leaf_flags : (Instr.pteLeaf 0x02 0x80200000).wellFormed = false := by decide
theorem test_wf_nonleaf : (Instr.pteNonleaf 0x80005008).wellFormed = false := by decide
theorem test_wf_map_granule : (Instr.ptMap .s1 3 0x6B 0 0 1).wellFormed = false := by decide
theorem test_wf_map_align : (Instr.ptMap .s1 1 0x6B 0x40100000 0x80400000 1).wellFormed = false := by decide
theorem test_wf_map_count : (Instr.ptMap .s1 0 0x6B 0x40006000 0x80206000 0).wellFormed = false := by decide
theorem test_wf_map_range : (Instr.ptMap .s1 0 0x6B 0x3FFFFFF000 0x80210000 2).wellFormed = false := by decide
theorem test_wf_map_range_s2 : (Instr.ptMap .s2 0 0x6B 0x20000000000 0x80200000 1).wellFormed = false := by decide
theorem test_wf_map_flags : (Instr.ptMap .s1 0 0x02 0x40006000 0x80206000 1).wellFormed = false := by decide
theorem test_wf_lookup_s1 : (Instr.ptLookup .s1 0x4000000000).wellFormed = false := by decide
theorem test_wf_lookup_s2 : (Instr.ptLookup .s2 0x20000000000).wellFormed = false := by decide
theorem test_wf_basic_index : (Instr.msiSetBasic false 0x10000 0).wellFormed = false := by decide
theorem test_wf_basic_addr : (Instr.msiSetBasic false 7 0x28007800).wellFormed = false := by decide
theorem test_wf_mrif_align : (Instr.msiSetMrif false 9 0x80400100 0x80410000 1).wellFormed = false := by decide
theorem test_wf_mrif_nid : (Instr.msiSetMrif false 9 0x80400200 0x80410000 0x800).wellFormed = false := by decide
theorem test_wf_mrifloc : (Instr.msiMrifLoc 0x80400200 2048).wellFormed = false := by decide
theorem test_wf_config : (Instr.ddtConfig false 0x10000 0 0 0).wellFormed = false := by decide
theorem test_wf_rebuild_levels : (Instr.ddtRebuild 0 0 0).wellFormed = false := by decide
theorem test_wf_rebuild_order : (Instr.ddtRebuild 1 1 0).wellFormed = false := by decide
theorem test_wf_s1mode : (Instr.ddtSetS1Mode 9).wellFormed = false := by decide
theorem test_wf_s2mode : (Instr.ddtSetS2Mode 9).wellFormed = false := by decide
theorem test_wf_msimode : (Instr.ddtSetMsiMode 2).wellFormed = false := by decide
theorem test_wf_mode : (Instr.ddtSetMode 5).wellFormed = false := by decide
theorem test_wf_locate : (Instr.ddtLocate 0x1000000).wellFormed = false := by decide
theorem test_wf_iodir : (Instr.cmdIodirDdt true 0x1000000).wellFormed = false := by decide
theorem test_wf_vma : (Instr.cmdIotinvalVma false true false 0 0x10000 0).wellFormed = false := by decide
theorem test_wf_gvma : (Instr.cmdIotinvalGvma true false 0x100000010 0).wellFormed = false := by decide
theorem test_wf_iofence : (Instr.cmdIofenceC true false 0x80500002 1).wellFormed = false := by decide
theorem test_wf_cqinit : (Instr.cqInit 9 false 0x80501000).wellFormed = false := by decide
theorem test_wf_cqinit_zero : (Instr.cqInit 0 false 0x80501000).wellFormed = false := by decide
theorem test_wf_sync : (Instr.cqSync 0x80600000 0).wellFormed = false := by decide
theorem test_wf_fqinit : (Instr.fqInit 8 false 0x80511000).wellFormed = false := by decide

/-! Decoding: one word for every instruction, written out from spec/30_encoding.md R124 and R145 to R148. -/

/-- A request of the operation word and four argument words. -/
def request (op : Word) (a0 : Word := 0) (a1 : Word := 0) (a2 : Word := 0) (a3 : Word := 0) : List Word :=
  [op, a0, a1, a2, a3]

theorem test_decode_codec :
    decode (request 0x6B0001 0x80200000) = .ok (.pteLeaf 0x6B 0x80200000) ∧
    decode (request 0x2 0x80005000) = .ok (.pteNonleaf 0x80005000) ∧
    decode (request 0x3 0x200800D7) = .ok (.pteDecode 0x200800D7) := by decide

theorem test_decode_builder :
    decode (request 0x10) = .ok .ptInit ∧
    decode (request 0x6D0511 0x1FFC0000000 0xC0000000 1) = .ok (.ptMap .s2 2 0x6D 0x1FFC0000000 0xC0000000 1) ∧
    decode (request 0x112 0x100000080) = .ok (.ptLookup .s2 0x100000080) := by decide

theorem test_decode_msi :
    decode (request 0x20) = .ok .msiInit ∧
    decode (request 0x10021 6 0x28006000) = .ok (.msiSetBasic true 6 0x28006000) ∧
    decode (request 0x22 2 0x80400200 0x80410000 0x455) = .ok (.msiSetMrif false 2 0x80400200 0x80410000 0x455) ∧
    decode (request 0x23 0x28005000) = .ok (.msiIndex 0x28005000) ∧
    decode (request 0x24 0x80400200 130) = .ok (.msiMrifLoc 0x80400200 130) := by decide

theorem test_decode_ddt :
    decode (request 0x10030 3 7 7 0x28000) = .ok (.ddtConfig true 3 7 7 0x28000) ∧
    decode (request 0x231 0 447) = .ok (.ddtRebuild 2 0 447) ∧
    decode (request 0x832) = .ok (.ddtSetS1Mode 8) ∧ decode (request 0x833) = .ok (.ddtSetS2Mode 8) ∧
    decode (request 0x134) = .ok (.ddtSetMsiMode 1) ∧ decode (request 0x235) = .ok (.ddtSetMode 2) ∧
    decode (request 0x36 1) = .ok (.ddtLocate 1) := by decide

theorem test_decode_encoders :
    decode (request 0x10040 1) = .ok (.cmdIodirDdt true 1) ∧
    decode (request 0x60041 0 5 7) = .ok (.cmdIotinvalVma false true true 0 5 7) ∧
    decode (request 0x20042 0 3) = .ok (.cmdIotinvalGvma false true 0 3) ∧
    decode (request 0x20043) = .ok (.cmdIofenceC false true 0 0) := by decide

theorem test_decode_queues :
    decode (request 0x10648 0x80501000) = .ok (.cqInit 6 true 0x80501000) ∧
    decode (request 0x49 3) = .ok (.cqSubmit 3 0) ∧ decode (request 0x4A) = .ok .cqWait ∧
    decode (request 0x4B) = .ok .cqStatus ∧ decode (request 0x4C) = .ok .cqClear ∧
    decode (request 0x4D) = .ok .cqDisable ∧ decode (request 0x4E 0x80600000 1) = .ok (.cqSync 0x80600000 1) ∧
    decode (request 0x450 0x80510000) = .ok (.fqInit 4 false 0x80510000) ∧
    decode (request 0x51) = .ok .fqTryRead ∧ decode (request 0x52) = .ok .fqStatus ∧
    decode (request 0x53) = .ok .fqClear ∧ decode (request 0x54) = .ok .fqDisable ∧
    decode (request 0x55 1 2 3 4) = .ok (.fqrDecode 1 2 3 4) ∧ decode (request 0x60) = .ok .fence := by decide

theorem test_decode_commands :
    decode [0x500300007401, 0x10000000] = .ok (.iotinvalVma true true true 7 5 0x40000) ∧
    decode [0x300200000481, 0x40000000] = .ok (.iotinvalGvma true true 3 0x100000) ∧
    decode [0x1234567800000402, 0x80500000] = .ok (.iofenceC true false false false 0x12345678 0x20140000) ∧
    decode [0x0000010200000003, 0] = .ok (.iodirInvalDdt true 1) := by decide

/-- Rejected words (2.1.1, 2.2.2, 2.5.6, 2.7), by name. -/
theorem test_decode_rejects :
    decode (request 0x810001) = .error .unusedFl ∧ decode (request 0x10101) = .error .unusedFn ∧
    decode (request 0x1010001) = .error .reservedOp ∧ decode (request 0x6B0811) = .error .unusedFn ∧
    decode (request 0x4F) = .error .unassignedOpc ∧ decode [0x203, 0] = .error .unknownCommand ∧
    decode [5, 0] = .error .unknownCommand ∧ decode [0x100000081, 0] = .error .gvmaPscv ∧
    decode [0x803, 0] = .error .reservedField ∧ decode [1] = .error .badLength := by decide

/-! One step of each instruction. -/

theorem test_pte_leaf : resOf base 0x6B0001 0x80200000 = some (result .ok 0x200800D7) := by decide +kernel
theorem test_pte_leaf_top :
    resOf base 0x7F0001 0xFFFFFFFFFFF000 = some (result .ok 0x3FFFFFFFFFFCFF) := by decide +kernel
theorem test_pte_nonleaf : resOf base 0x2 0x80005000 = some (result .ok 0x20001401) := by decide +kernel
theorem test_pte_decode :
    resOf base 0x3 0x200800D7 = some (result .ok 0x80200000 0xD7 2) := by decide +kernel
theorem test_pte_decode_reserved :
    resOf base 0x3 0x00400000200800CF = some (result .ok 0x80200000 0xCF 3 0 1) := by decide +kernel

theorem test_pt_init : resOf base 0x10 = some (result .ok 0x80100000 0x80104000) := by decide +kernel
theorem test_pt_map :
    resOf ptS 0x6B0011 0x40000000 0x80200000 1 = some (result .ok 2 0x80106000) := by decide +kernel
/-- The leaf is written with one store, which the IOMMU does not see yet (R229). -/
theorem test_pt_map_store :
    let t := after treeS 0x6B0011 0x40003000 0x80203000 1
    t.res = result .ok 0 0x80106018 ∧ t.wordBlk 0x80106018 = 0x20080CD7 ∧ t.wordIo 0x80106018 = 0 := by
  decide +kernel
theorem test_pt_lookup :
    resOf treeS 0x12 0x40000123 = some (result .ok 0x80200123 0x200800D7 2 0x80106000) := by decide +kernel
theorem test_pt_lookup_gigabyte :
    resOf gigS 0x12 0x52345678 = some (result .ok 0x92345678 0x200000D7 0 0x80104008) := by decide +kernel

theorem test_msi_init : resOf base 0x20 = some (result .ok 0x80300000 256) := by decide +kernel
theorem test_msi_set_basic :
    resOf msiS 0x21 5 0x28005000 = some (result .ok 0x0A001407 0 0x80300050) := by decide +kernel
theorem test_msi_set_basic_custom :
    resOf msiS 0x10021 6 0x28006000 = some (result .ok 0x800000000A001807 0 0x80300060) := by decide +kernel
theorem test_msi_set_mrif : resOf msiS 0x22 2 0x80400200 0x80410000 0x455 =
    some (result .ok 0x20100083 0x1000000020104055 0x80300020) := by decide +kernel
theorem test_msi_index : resOf msiS 0x23 0x28005ABC = some (result .ok 1 5 0x80300050 1) := by decide +kernel
theorem test_msi_index_past :
    resOf { msiS with blk := { msiS.blk with cfgMsiMask := 0x1FF } } 0x23 0x281FF000 =
      some (result .ok 1 0x1FF 0x80301FF0 0) := by decide +kernel
theorem test_msi_mrif_loc :
    resOf base 0x24 0x80400200 130 = some (result .ok 0x80400220 2 0x80400228) := by decide +kernel

theorem test_ddt_config :
    let b := (after base 0x10030 3 7 7 0x28000).blk
    b.cfgGscid = 3 ∧ b.cfgPscid = 7 ∧ b.cfgMsiMask = 7 ∧ b.cfgMsiPattern = 0x28000 ∧ b.cfgDtf = true := by
  decide +kernel
theorem test_ddt_rebuild : resOf onePage 0x131 0 1 = some (result .ok 1 2) := by decide +kernel
theorem test_ddt_set_s1_mode :
    let t := after ddtS 0x832
    t.res = result .ok 2 ∧ t.wordBlk 0x80080018 = 0x8000000000080104 := by decide +kernel
theorem test_ddt_set_s2_mode :
    let t := after ddtS 0x833
    t.res = result .ok 2 ∧ t.wordBlk 0x80080008 = 0x8000300000080100 := by decide +kernel
theorem test_ddt_set_msi_mode :
    let t := after ddtS 0x134
    t.res = result .ok 2 ∧ t.wordBlk 0x80080060 = 0x1000000000080300 := by decide +kernel
theorem test_ddt_set_mode : resOf ddtS 0x235 = some (result .ok 0x20020002) := by decide +kernel
theorem test_ddt_set_mode_refused : resOf ddtS 0x335 = some (result .errState) := by decide +kernel
theorem test_ddt_locate : resOf ddtS 0x36 1 = some (result .ok 0x80080040 1) := by decide +kernel
theorem test_ddt_locate_unconfigured : resOf ddtS 0x36 63 = some (result .ok 0x80080FC0 0) := by decide +kernel

theorem test_cmd_iodir_ddt : resOf base 0x10040 1 = some (result .ok 0x0000010200000003) := by decide +kernel
theorem test_cmd_iotinval_vma :
    resOf base 0x70041 0x40000000 5 7 = some (result .ok 0x0000500300007401 0x10000000) := by decide +kernel
theorem test_cmd_iotinval_gvma :
    resOf base 0x30042 0x100000000 3 = some (result .ok 0x0000300200000481 0x40000000) := by decide +kernel
theorem test_cmd_iofence_c :
    resOf base 0x10043 0x80500000 0x12345678 = some (result .ok 0x1234567800000402 0x80500000) := by decide +kernel

theorem test_cq_init :
    let t := after base 0x648 0x80501000
    t.res = result .ok ∧ t.regs.cqb = 0x20140405 ∧ t.regs.cqcsr = 0x10001 ∧ t.blk.cqState = .ready := by
  decide +kernel
theorem test_cq_init_align : resOf base 0x10648 0x80500800 = some (result .errAlign) := by decide +kernel
/-- The tail wraps at the last slot (2.5.3). -/
theorem test_cq_submit_wraps :
    let t := after cqS 0x49 0x0000010200000003
    t.res = result .ok 63 0x805013F0 ∧ t.regs.cqt = 0 ∧ t.wordIo 0x805013F0 = 0x0000010200000003 := by
  decide +kernel
theorem test_cq_wait : resOf cqS 0x4A = some (result .ok 63 0x10001) := by decide +kernel
theorem test_cq_status : resOf cqS 0x4B = some (result .ok 0x10001 63 63) := by decide +kernel
theorem test_cq_clear :
    let t := after { cqS with regs := { cqS.regs with cqcsr := 0x10801 } } 0x4C
    t.res = result .ok 0x10801 ∧ t.regs.cqcsr = 0x10001 := by decide +kernel
theorem test_cq_disable :
    let t := after cqS 0x4D
    t.res = result .ok ∧ t.regs.cqcsr = 0 ∧ t.blk.cqState = .disabled := by decide +kernel
theorem test_cq_sync :
    let t := after cqS 0x4E 0x80600000 1
    t.res = result .ok 63 0x10001 ∧ t.wordBlk 0x80600000 = 1 ∧ t.regs.cqh = 0 := by decide +kernel

theorem test_fq_init :
    let t := after base 0x450 0x80510000
    t.res = result .ok ∧ t.regs.fqb = 0x20144003 ∧ t.regs.fqcsr = 0x10001 := by decide +kernel
theorem test_fq_try_read :
    let t := after fqS 0x51
    t.res = result .ok 0x10800000100 0 0x40000000 0 0 0x80510000 ∧ t.regs.fqh = 1 := by decide +kernel
theorem test_fq_status : resOf fqS 0x52 = some (result .ok 0x10001 0 1) := by decide +kernel
theorem test_fq_clear :
    let t := after { fqS with regs := { fqS.regs with fqcsr := 0x10201 } } 0x53
    t.res = result .ok 0x10201 ∧ t.regs.fqcsr = 0x10001 := by decide +kernel
theorem test_fq_disable :
    let t := after fqS 0x54
    t.res = result .ok ∧ t.blk.fqState = .disabled := by decide +kernel
theorem test_fqr_decode :
    resOf base 0x55 0x1234560A0000000D 0 0xFFFFFFFFFFFFF000 0 =
      some (result .ok 13 0 0 1 2 0x123456 0xFFFFFFFFFFFFF000) := by decide +kernel
theorem test_fence :
    let t := after pendS 0x60
    t.res = result .ok ∧ t.pend = [] ∧ t.wordIo 0x80600000 = 0x11 := by decide +kernel

/-- Copies for two devices, of which IODIR.INVAL_DDT of device 1 removes one (R360). -/
theorem test_iodir_inval_ddt :
    let s := cmdS 0x0000010200000003 0
    let t := stateOf (step { s with caches := { s.caches with ddt := [⟨0, 0x80080000, [1]⟩, ⟨1, 0x80080040, [1]⟩] } })
    t.caches.ddt = [⟨0, 0x80080000, [1]⟩] ∧ t.regs.cqh = 0 := by decide +kernel
/-- IOTINVAL.VMA with GV, AV and PSCV keeps a copy of another PSCID (R361). -/
theorem test_iotinval_vma :
    let c (p : BitVec 20) : PteCopy := ⟨.s1, true, 5, p, 2, 0x80106000, 0x40000000, 0x200800D7, []⟩
    let s := cmdS 0x500300007401 0x10000000
    (stateOf (step { s with caches := { s.caches with iotlb := [c 7, c 8] } })).caches.iotlb = [c 8] := by
  decide +kernel
/-- IOTINVAL.GVMA of GSCID 3 keeps a copy of another GSCID (R362). -/
theorem test_iotinval_gvma :
    let c (g : BitVec 16) : PteCopy := ⟨.s2, true, g, 0, 2, 0x80106000, 0x40000000, 0x200800D7, []⟩
    let s := cmdS 0x300200000081 0
    (stateOf (step { s with caches := { s.caches with iotlb := [c 3, c 4] } })).caches.iotlb = [c 4] := by
  decide +kernel
theorem test_iofence_c :
    let t := stateOf (step (cmdS 0x1234567800000402 0x80500000))
    t.memIo.load 0x80500000 4 = 0x12345678 ∧ t.regs.cqh = 0 := by decide +kernel

/-! Witnesses: for each statement, a state and operands that meet its hypotheses (each branch that has some). -/

/-- The state right before `exec` of a request, as StepRunsRequest gives it. -/
def port (s : State) (rs : List Request) : State := { s with inputs := rs.map .request }

theorem witness_RequestWordsDecode :
    decode [0xFFFFFFFFFFFFFFFF, 0, 0, 0, 0] = .error .reservedOp ∧
      decode [0x7F0001, 5, 6, 7, 8] = .ok (.pteLeaf 0x7F 5) :=
  by decide

theorem witness_StepRunsRequest :
    let s := port cqS [⟨0x4A, 1, 2, 3, 4⟩]
    wellPlaced s = true ∧ s.phase = .idle ∧ s.inputs = [.request ⟨0x4A, 1, 2, 3, 4⟩] ∧
      decode [0x4A, 1, 2, 3, 4] = .ok .cqWait := by decide

/-- The command at the last slot, so that the head wraps. -/
theorem witness_StepRunsCommand :
    let s := cmdS 0x0000010200000003 0
    wellPlaced s = true ∧ s.inputs = [.iommu] ∧ cqOn s.regs = true ∧ cqErr s.regs.cqcsr = false ∧
      cqHead s.regs ≠ cqTail s.regs ∧ s.engine.cmdBuf = none ∧ accessible s.cfg (cqSlotIo s.regs) 16 = true ∧
      s.wordIo (cqSlotIo s.regs) = 0x0000010200000003 ∧ s.wordIo (cqSlotIo s.regs + 8) = 0 ∧
      decode [0x0000010200000003, 0] = .ok (.iodirInvalDdt true 1) ∧
      isNext (exec (.iodirInvalDdt true 1) { s with inputs := [] }) = true := by decide +kernel

theorem witness_IllegalRequestRefused :
    let s := port cqS [⟨0x810001, 0, 0, 0, 0⟩]
    wellPlaced s = true ∧ s.phase = .idle ∧ s.inputs = [.request ⟨0x810001, 0, 0, 0, 0⟩] ∧
      ∀ i, decode [0x810001, 0, 0, 0, 0] ≠ .ok i := by
  refine ⟨by decide, rfl, rfl, fun i => ?_⟩
  rw [show decode [0x810001, 0, 0, 0, 0] = .error .unusedFl from by decide]
  exact nofun

theorem witness_IllegalCommandStops :
    let s := cmdS 0x203 0
    wellPlaced s = true ∧ s.inputs = [.iommu] ∧ cqOn s.regs = true ∧ cqErr s.regs.cqcsr = false ∧
      cqHead s.regs ≠ cqTail s.regs ∧ nextCommand s = some ⟨0x203, 0, .fetched⟩ ∧ ∀ i, decode [0x203, 0] ≠ .ok i := by
  refine ⟨by decide, rfl, by decide, by decide, by decide, by decide +kernel, fun i => ?_⟩
  rw [show decode [0x203, 0] = .error .unknownCommand from by decide]
  exact nofun

theorem witness_BusyBlockWaits :
    let s := { port cqS [⟨0x60, 0, 0, 0, 0⟩] with phase := .busy, wait := some (.cqWait 63) }
    wellPlaced s = true ∧ s.phase = .busy ∧ s.wait = some (.cqWait 63) ∧
      ∃ r rest, s.inputs = .request r :: rest :=
  ⟨by decide, rfl, rfl, _, _, rfl⟩

/-- The block alone, and with the IOMMU while its queue runs. -/
theorem witness_BlockReset :
    (let s := { pendS with inputs := [.reset true], phase := .busy }
     wellPlaced s = true ∧ s.inputs = [.reset (!false)]) ∧
    (let s := { cqS with inputs := [.reset false] }
     wellPlaced s = true ∧ s.inputs = [.reset (!true)]) := by decide

theorem pendS_coherent : pendS.Coherent := fun _ _ => rfl

theorem witness_StepKeepsMemory :
    (port pendS [⟨0x60, 0, 0, 0, 0⟩]).MemoryOk ∧ isNext (step (port pendS [⟨0x60, 0, 0, 0, 0⟩])) = true :=
  ⟨by unfold State.MemoryOk; decide +kernel, by decide +kernel⟩

theorem witness_StepKeepsCoherence :
    (port pendS [⟨0x60, 0, 0, 0, 0⟩]).MemoryOk ∧ (port pendS [⟨0x60, 0, 0, 0, 0⟩]).Coherent ∧
      isNext (step (port pendS [⟨0x60, 0, 0, 0, 0⟩])) = true :=
  ⟨by unfold State.MemoryOk; decide +kernel, fun _ _ => rfl, by decide +kernel⟩

theorem witness_StepKeepsReserved :
    cqS.regs.ReservedZero ∧ isNext (step (port cqS [⟨0x4C, 0, 0, 0, 0⟩])) = true :=
  ⟨by unfold IommuRegs.ReservedZero; decide, by decide +kernel⟩

theorem witness_StepKeepsSequencing :
    (port cqS [⟨0x4A, 0, 0, 0, 0⟩]).Sequenced ∧ isNext (step (port cqS [⟨0x4A, 0, 0, 0, 0⟩])) = true :=
  ⟨⟨⟨.ok, rfl⟩, nofun⟩, by decide +kernel⟩

theorem witness_FenceOrders :
    pendS.MemoryOk ∧ pendS.Coherent ∧ pendS.weave = [] ∧ ∀ r ∈ pendS.unseen, r.covers 0 = false :=
  ⟨by unfold State.MemoryOk; decide +kernel, fun _ _ => rfl, rfl, nofun⟩

theorem witness_OperationsFinish :
    isRequest .cqWait = true ∧ isNext (exec .cqWait cqS) = true ∧
      (stateOf (exec .cqWait { cqS with regs := { cqS.regs with cqcsr := 0, cqt := 5 } })).phase = .busy := by
  decide +kernel

theorem witness_RegistersHaveTheirWriters :
    isNext (exec .ptInit base) = true ∧ isNext (exec (.ddtSetS2Mode 0) ddtS) = true ∧
      isNext (exec (.iodirInvalDdt true 1) cqS) = true := by decide +kernel

theorem witness_RefusalLeavesNoEffect :
    (let t := stateOf (exec (.pteNonleaf 0x80005008) cqS)
     isRequest (.pteNonleaf 0x80005008) = true ∧ cqS.settled = true ∧
      isNext (exec (.pteNonleaf 0x80005008) cqS) = true ∧ t.phase = .idle ∧ t.res.status = 0x11) ∧
    (let t := stateOf (exec (.ddtSetS1Mode 9) cqS)
     isNext (exec (.ddtSetS1Mode 9) cqS) = true ∧ t.phase = .idle ∧ t.res.status = 0x18 ∧
      ∀ m, Instr.ddtSetS1Mode 9 ≠ .ddtSetMode m) :=
  ⟨by decide +kernel, by decide +kernel, by decide +kernel, by decide +kernel, nofun⟩

theorem witness_CodecRoundTrip :
    (0xFFFFFFFFFFF000 : Word).toNat % 4096 = 0 ∧ (0xFFFFFFFFFFF000 : Word).toNat < 2 ^ 56 ∧ legalLeaf 0x7F = true ∧
      (0x3FFFFFFFFFFCFF : Word).toNat / 256 % 4 = 0 ∧ (0x3FFFFFFFFFFCFF : Word).toNat / 2 ^ 54 = 0 := by decide

theorem witness_PtInitEmptiesRoots : pendS.weave = [] ∧ within pendS.cfg.poolBase.toNat (5 * 4096) 0x80104FFF :=
  ⟨rfl, by unfold within; decide⟩

/-- One state and operands for each clause, in order. -/
theorem witness_PtMapChecks :
    base.blk.ptReady = false ∧ ptS.blk.ptReady = true ∧ (0x40100000 : Nat) % (4096 * 512 ^ 1) ≠ 0 ∧
      ¬ ((0x3FFFFFF000 : Nat) + 2 * 4096 ≤ 2 ^ 38 ∨ 2 ^ 64 - 2 ^ 38 ≤ (0x3FFFFFF000 : Nat)) ∧
      ((0x3FFFFFF000 : Nat) + 1 * 4096 ≤ 2 ^ 38) ∧ (0x02 : BitVec 7).toNat % 4 = 2 := by decide

/-- The three ways an entry stops a walk: reserved, a leaf above, a table below. -/
theorem witness_PtMapConflict :
    (treeS.weave = [] ∧ treeS.blk.ptReady = true ∧ (Instr.ptMap .s1 0 0x6B 0x40002000 0x80202000 1).wellFormed = true ∧
      treeS.tableAt .s1 0x40002000 2 = some 0x80106000 ∧
      kind (treeS.wordBlk (slot 0x80106000 .s1 2 0x40002000)) = .reserved) ∧
    (gigS.weave = [] ∧ gigS.blk.ptReady = true ∧ (Instr.ptMap .s1 0 0x6B 0x40000000 0x80200000 1).wellFormed = true ∧
      gigS.tableAt .s1 0x40000000 0 = some 0x80104000 ∧
      kind (gigS.wordBlk (slot 0x80104000 .s1 0 0x40000000)) = .leaf) ∧
    ((Instr.ptMap .s1 1 0x6B 0x40000000 0x80400000 1).wellFormed = true ∧
      treeS.tableAt .s1 0x40000000 1 = some 0x80105000 ∧
      kind (treeS.wordBlk (slot 0x80105000 .s1 1 0x40000000)) = .nonleaf) := by decide +kernel

theorem witness_PtMapOneStore :
    treeS.weave = [] ∧ treeS.blk.ptReady = true ∧ treeS.blk.poolNext.toNat ≤ treeS.cfg.poolPages ∧
      (Instr.ptMap .s1 0 0x29 0x40000000 0x80301000 1).wellFormed = true ∧
      (Instr.ptMap .s1 0 0x29 0x401FF000 0x80301000 1).wellFormed = true ∧
      treeS.tableAt .s1 0x40000000 2 = some 0x80106000 ∧ treeS.tableAt .s1 0x401FF000 2 = some 0x80106000 ∧
      kind (treeS.wordBlk (slot 0x80106000 .s1 2 0x40000000)) = .leaf ∧
      kind (treeS.wordBlk (slot 0x80106000 .s1 2 0x401FF000)) = .invalid := by decide +kernel

/-! Sound trees. -/

/-- Trees whose roots hold only invalid entries and aligned leaves are sound. -/
theorem treesOk_of_roots (s : State) (hready : s.blk.ptReady = true)
    (h2 : s.blk.s2Root.toNat = s.cfg.poolBase.toNat) (h1 : s.blk.s1Root.toNat = s.cfg.poolBase.toNat + 0x4000)
    (hp : 5 ≤ s.blk.poolNext.toNat ∧ s.blk.poolNext.toNat ≤ s.cfg.poolPages)
    (hk : ∀ st x, kind (s.wordBlk (slot (rootOf s.blk st) st 0 x)) = .invalid ∨
      (kind (s.wordBlk (slot (rootOf s.blk st) st 0 x)) = .leaf ∧
        (fieldPa (s.wordBlk (slot (rootOf s.blk st) st 0 x))).toNat % levelSize 0 = 0)) : s.TreesOk := by
  have ht : ∀ st x l t, s.tableAt st x l = some t → l = 0 ∧ t = rootOf s.blk st := by
    intro st x l
    induction l with
    | zero => intro t h; exact ⟨rfl, (Option.some.inj h).symm⟩
    | succ l ih =>
      intro t h
      simp only [State.tableAt] at h
      split at h
      · cases h
      · rename_i u hu
        obtain ⟨rfl, rfl⟩ := ih u hu
        rcases hk st x with h' | ⟨h', -⟩ <;> rw [h'] at h <;> simp at h
  refine ⟨hready, h2, h1, hp, ?_, ?_, ?_, ?_⟩
  · intro st x l t hl _ h; have := (ht st x l t h).1; omega
  · intro st x l st' x' l' t hl _ _ _ h; have := (ht st x l t h).1; omega
  · intro st x l t _ h
    obtain ⟨rfl, rfl⟩ := ht st x l t h
    rcases hk st x with h' | ⟨h', -⟩ <;> simp [h']
  · intro st x l t _ h hleaf
    obtain ⟨rfl, rfl⟩ := ht st x l t h
    rcases hk st x with h' | ⟨-, h'⟩
    · rw [h'] at hleaf; cases hleaf
    · exact h'

theorem wordBlk_empty (s : State) (h : s.memBlk = []) (a : Nat) : s.wordBlk a = 0 := by
  unfold State.wordBlk
  rw [h]
  simp [Memory.load64, Memory.load, Memory.bytes, Memory.read, leValue, unlisted]

theorem ptS_treesOk : ptS.TreesOk :=
  treesOk_of_roots ptS rfl rfl rfl (by decide) fun st x => .inl (by rw [wordBlk_empty _ rfl]; rfl)

theorem gigS_entries :
    (∀ i < 512, kind (gigS.wordBlk (0x80104000 + 8 * i)) = .invalid ∨ kind (gigS.wordBlk (0x80104000 + 8 * i)) = .leaf ∧
      (fieldPa (gigS.wordBlk (0x80104000 + 8 * i))).toNat % levelSize 0 = 0) ∧
    ∀ i < 2048, kind (gigS.wordBlk (0x80100000 + 8 * i)) = .invalid := by decide +kernel

theorem gigS_treesOk : gigS.TreesOk := by
  refine treesOk_of_roots gigS rfl rfl rfl (by decide) fun st x => ?_
  cases st with
  | s1 => exact gigS_entries.1 (idx .s1 0 x) (x.extractLsb' 30 9).isLt
  | s2 => exact .inl (gigS_entries.2 (idx .s2 0 x) (x.extractLsb' 30 11).isLt)

/-- Empty trees in a pool of `pages` pages. -/
def poolS (pages : Nat) : State := { ptS with cfg := { ptS.cfg with poolPages := pages } }

theorem poolS_treesOk : (poolS 6).TreesOk ∧ (poolS 7).TreesOk :=
  ⟨treesOk_of_roots _ rfl rfl rfl (by decide) fun st x => .inl (by rw [wordBlk_empty _ rfl]; rfl),
    treesOk_of_roots _ rfl rfl rfl (by decide) fun st x => .inl (by rw [wordBlk_empty _ rfl]; rfl)⟩

/-- The request's table paths are empty: it misses two tables, and the pool has just those two pages, or one too few. -/
theorem witness_PtMapCompletes :
    ((poolS 7).weave = [] ∧ (poolS 7).TreesOk ∧ (poolS 7).PoolQuiet ∧ (poolS 6).TreesOk ∧ (poolS 6).PoolQuiet ∧
      ∀ pages x l t, (poolS pages).tableAt .s1 x l = some t →
        kind ((poolS pages).wordBlk (slot t .s1 l x)) = .invalid) ∧
    wellPlaced (poolS 7) = true ∧ wellPlaced (poolS 6) = true ∧
      (Instr.ptMap .s1 0 0x6B 0x40000000 0x80200000 1).wellFormed = true ∧
      (poolS 7).blk.poolNext.toNat + ((poolS 7).tablesMissing .s1 0 0x40000000 1).card = 7 ∧
      (poolS 6).blk.poolNext.toNat + ((poolS 6).tablesMissing .s1 0 0x40000000 1).card = 7 :=
  ⟨⟨rfl, poolS_treesOk.2, nofun, poolS_treesOk.1, nofun, fun _ _ _ _ _ => by
    rw [wordBlk_empty _ rfl]; rfl⟩, by decide +kernel⟩

theorem witness_TreesStayOk :
    base.weave = [] ∧ wellPlaced base = true ∧ isNext (exec .ptInit base) = true ∧ gigS.weave = [] ∧
      wellPlaced gigS = true ∧ gigS.TreesOk ∧ gigS.PoolQuiet ∧
      min gigS.cfg.poolPages
        (gigS.blk.poolNext.toNat + (gigS.tablesMissing .s1 0 0x80000000 (1 : Word).toNat).card) < 2 ^ 32 ∧
      isNext (exec (.ptMap .s1 0 0x6B 0x80000000 0x80200000 1) gigS) = true :=
  ⟨rfl, by decide, by decide +kernel, rfl, by decide +kernel, gigS_treesOk, nofun,
    by decide +kernel, by decide +kernel⟩

/-- The last byte of the second of two granules. -/
theorem witness_MapThenLookup :
    ptS.weave = [] ∧ wellPlaced ptS = true ∧ ptS.TreesOk ∧ ptS.PoolQuiet ∧
      min ptS.cfg.poolPages
        (ptS.blk.poolNext.toNat + (ptS.tablesMissing .s1 0 0x40000000 (2 : Word).toNat).card) < 2 ^ 32 ∧
      isNext (exec (.ptMap .s1 0 0x6B 0x40000000 0x80200000 2) ptS) = true ∧
      (stateOf (exec (.ptMap .s1 0 0x6B 0x40000000 0x80200000 2) ptS)).res.status = Status.ok.code ∧
      1 < (2 : Word).toNat ∧ 4095 < granule 0 :=
  ⟨rfl, by decide, ptS_treesOk, nofun, by decide +kernel, by decide +kernel, by decide +kernel, by decide, by decide⟩

/-- Not ready; out of range; and each kind of entry a walk ends at. -/
theorem witness_PtLookupResults :
    base.blk.ptReady = false ∧ ptS.blk.ptReady = true ∧
      ¬ ((0x4000000000 : Word).toNat < 2 ^ 38 ∨ 2 ^ 64 - 2 ^ 38 ≤ (0x4000000000 : Word).toNat) ∧
      ¬ (0x20000000000 : Word).toNat < 2 ^ 41 ∧ treeS.blk.ptReady = true ∧ treeS.weave = [] ∧
      treeS.tableAt .s1 0x40000FFF 2 = some 0x80106000 ∧ kind (treeS.wordBlk 0x80106000) = .leaf ∧
      treeS.tableAt .s1 0x40001000 2 = some 0x80106000 ∧ kind (treeS.wordBlk 0x80106008) = .nonleaf ∧
      kind (treeS.wordBlk 0x80106010) = .reserved ∧ treeS.tableAt .s2 0x1FFFFFFFFFF 0 = some 0x80100000 ∧
      kind (treeS.wordBlk (0x80100000 + 8 * 2047)) = .invalid := by decide +kernel

/-- A leaf that an unprivileged write may use, one it has no X for, and an address with none. -/
theorem witness_IommuAgreesWithLookup :
    let x : Context := { dtf := false, s1 := true, s2 := false, gscid := 0, pscid := 0, s1Root := 0x80104000,
                         s2Root := 0, msi := false, mask := 0, pattern := 0, msiBase := 0 }
    let t := stateOf (exec (.ptLookup .s1 0x7FFFFFFF) gigS)
    gigS.weave = [] ∧ wellPlaced gigS = true ∧ gigS.TreesOk ∧ gigS.memIo = gigS.memBlk ∧ x.s1 = true ∧ x.s2 = false ∧
      x.s1Root = gigS.blk.s1Root.toNat ∧ isNext (exec (.ptLookup .s1 0x7FFFFFFF) gigS) = true ∧
      (t.res.status = Status.ok.code ∧ t.res.r1 &&& 0xD4 = 0xD4 ∧ t.res.r1 &&& 0x58 ≠ 0x58) ∧
      (stateOf (exec (.ptLookup .s1 0x80000000) gigS)).res.status = Status.none.code :=
  ⟨rfl, by decide +kernel, gigS_treesOk, rfl, rfl, rfl, rfl, by decide +kernel, by decide +kernel, by decide +kernel⟩

theorem witness_MsiInitEmptiesTable :
    baseFmt.cfg.dcFmt = .base ∧ pendS.weave = [] ∧ pendS.cfg.dcFmt = .ext ∧
      within pendS.cfg.msiBase.toNat (4096 * pendS.cfg.msiPages) 0x80300FFF :=
  ⟨rfl, rfl, rfl, by unfold within; decide⟩

/-- Each clause at a boundary value. -/
theorem witness_MsiChecks :
    baseFmt.cfg.dcFmt = .base ∧ (base.cfg.dcFmt = .ext ∧ base.blk.msiReady = false) ∧ msiS.blk.msiReady = true ∧
      256 * msiS.cfg.msiPages ≤ (256 : Word).toNat ∧ (7 : Word).toNat < 256 * msiS.cfg.msiPages ∧
      (0x28007800 : Word).toNat % 4096 ≠ 0 ∧
      ((0x100000000000000 : Word).toNat % 4096 = 0 ∧ 2 ^ 56 ≤ (0x100000000000000 : Word).toNat) ∧
      (0x80400100 : Word).toNat % 512 ≠ 0 ∧ 2 ^ 11 ≤ (0x800 : Word).toNat := by decide

theorem witness_MsiSetBasicWrites :
    msiS.weave = [] ∧ msiS.cfg.dcFmt = .ext ∧ msiS.blk.msiReady = true ∧
      (255 : Word).toNat < 256 * msiS.cfg.msiPages ∧ (0xFFFFFFFFFFF000 : Word).toNat % 4096 = 0 ∧
      (0xFFFFFFFFFFF000 : Word).toNat < 2 ^ 56 := by decide

theorem witness_MsiSetMrifWrites :
    msiS.weave = [] ∧ msiS.cfg.dcFmt = .ext ∧ msiS.blk.msiReady = true ∧
      (255 : Word).toNat < 256 * msiS.cfg.msiPages ∧ (0xFFFFFFFFFFFE00 : Word).toNat % 512 = 0 ∧
      (0xFFFFFFFFFFF000 : Word).toNat % 4096 = 0 ∧ (0xFFFFFFFFFFFE00 : Word).toNat < 2 ^ 56 ∧
      (0xFFFFFFFFFFF000 : Word).toNat < 2 ^ 56 ∧ (0x7FF : Word).toNat < 2 ^ 11 := by decide

theorem witness_MsiLocators :
    baseFmt.cfg.dcFmt = .base ∧ msiS.cfg.dcFmt = .ext ∧
      (∀ j < 52, msiS.blk.cfgMsiMask.getLsbD j = false →
        (0x28007FFC : Word).getLsbD (12 + j) = msiS.blk.cfgMsiPattern.getLsbD j) ∧
      (0x28008000 : Word).getLsbD (12 + 3) ≠ msiS.blk.cfgMsiPattern.getLsbD 3 := by decide

theorem witness_MsiEntriesMean :
    isNext (exec (.msiSetBasic true 255 0x28007000) msiS) = true ∧
      (stateOf (exec (.msiSetBasic true 255 0x28007000) msiS)).res.status = Status.ok.code ∧
      isNext (exec (.msiSetBasic false 5 0x28005000) msiS) = true ∧
      (stateOf (exec (.msiSetBasic false 5 0x28005000) msiS)).res.status = Status.ok.code ∧
      isNext (exec (.msiSetMrif false 2 0x80400200 0x80410000 0x455) msiS) = true ∧
      (stateOf (exec (.msiSetMrif false 2 0x80400200 0x80410000 0x455) msiS)).res.status = Status.ok.code := by
  decide +kernel

/-- R272: with the pending bit stored, an enable bit that the host has set by now calls for the notice. -/
theorem test_mrif_enable_after_pending :
    let x : Access := ⟨⟨0, 0x28002000, 3, false, 4, 5⟩, false, .enable 0x80400200 0x80410000 0x455⟩
    let on : State := { base with memIo := memOf [(0x80400208, 0x20)] }
    (accessNext false x on).1 = some { x with step := .notice 0x80410000 0x455 } ∧
      (accessNext false x base).1 = none ∧ (accessNext false x base).2.dev = .mrifUpdated false := by decide +kernel

/-- The first identity that is discarded and the last one that is not, with its enable bit clear and set. -/
theorem witness_MrifUpdate :
    let x (d : Word) : Transaction := ⟨0, 0x28002000, 3, false, 4, d⟩
    let pair := (0x80400200 : Word).toNat + 16 * (2047 / 64)
    let on : State := { base with memIo := memOf [(0x804003F8, 0x8000000000000000)] }
    (x 2048).size = 4 ∧ 2048 ≤ (x 2048).data.toNat % 2 ^ 32 ∧ (x 2047).data.toNat % 2 ^ 32 = 2047 ∧
      accessible base.cfg pair 16 = true ∧ accessible base.cfg (0x80410000 : Word).toNat 4 = true ∧
      (base.wordIo (pair + 8)).getLsbD (2047 % 64) = false ∧ (on.wordIo (pair + 8)).getLsbD (2047 % 64) = true ∧
      overlaps 0x80410000 4 pair 8 = false := by decide +kernel

/-- Each clause of DDT.REBUILD's checks and of the mode checks, at boundary values. -/
theorem witness_DdtChecks :
    base.settled = true ∧ (1 : Word).toNat > (0 : Word).toNat ∧ 2 ^ min base.cfg.didW 6 ≤ (64 : Word).toNat ∧
      (448 : Word).toNat < 2 ^ min base.cfg.didW 15 ∧ base.cfg.ddtPages < 1 + (448 / 2 ^ 6 - 0 / 2 ^ 6 + 1) ∧
      (let s : State := { ddtS with regs := { ddtS.regs with ddtp := 0x20020002 } }
       s.settled = true ∧ s.regs.ddtp.toNat % 16 = 2 ∧ 2 ≠ (2 : BitVec 2).toNat + 1) ∧
      base.blk.ptReady = false ∧ baseFmt.cfg.dcFmt = .base ∧ base.cfg.dcFmt = .ext ∧ base.blk.msiReady = false := by
  decide

theorem witness_DdtRebuildOneLevel :
    ddtS.settled = true ∧ wellPlaced ddtS = true ∧ (62 : Word).toNat ≤ (63 : Word).toNat ∧
      (63 : Word).toNat < 2 ^ min ddtS.cfg.didW 6 ∧ ddtS.cfg.dcFmt = .ext ∧ ddtS.regs.ddtp.toNat % 16 < 2 ∧
      (baseFmt.settled = true ∧ wellPlaced baseFmt = true ∧ (127 : Word).toNat < 2 ^ min baseFmt.cfg.didW 7) := by
  decide

/-- A three-level directory over two leaf pages and two middle pages (2.4.2), and a two-level one of all eight pages. -/
theorem witness_DdtRebuildBuildsDirectory :
    base.settled = true ∧ wellPlaced base = true ∧ (Instr.ddtRebuild 3 0x7FFF 0x8000).wellFormed = true ∧
      (0x8000 : Word).toNat < 2 ^ limBits base.cfg 3 ∧ 1 + needPages .ext 3 0x7FFF 0x8000 = 5 ∧
      5 ≤ base.cfg.ddtPages ∧ base.regs.ddtp.toNat % 16 < 2 ∧ (Instr.ddtRebuild 2 0 447).wellFormed = true ∧
      1 + needPages .ext 2 0 447 = base.cfg.ddtPages := by decide

theorem witness_DdtLocateResults :
    base.blk.ddtReady = false ∧ ddtS.blk.ddtReady = true ∧
      2 ^ limBits ddtS.cfg ddtS.blk.ddtLvls.toNat ≤ (64 : Word).toNat ∧ ddtS.weave = [] ∧
      (63 : Word).toNat < 2 ^ limBits ddtS.cfg ddtS.blk.ddtLvls.toNat ∧ ddtS.pageAt 1 63 0 = some 0x80080000 ∧
      (let s : State := { ddtS with blk := { ddtS.blk with ddtLvls := 2 } }
       (200 : Word).toNat < 2 ^ limBits s.cfg s.blk.ddtLvls.toNat ∧ s.pageAt 2 200 0 = some 0x80080000 ∧
         (s.wordBlk (0x80080000 + 8 * ddi .ext 200 1)).getLsbD 0 = false) := by decide +kernel

theorem ddtS_directory : ddtS.DirectoryAt (fun d => 0x80080000 + 64 * d) := by
  have hd : ∀ d, ddtS.configured d → d ≤ 1 := fun d h => h.2.2
  refine ⟨fun d h => ⟨0x80080000, rfl, ?_⟩, fun d d' _ _ hne => ?_, fun d d' k t _ _ hk => ?_⟩
  · have h1 := hd d h
    change _ = 0x80080000 + 64 * (d % 64)
    omega
  · change 0x80080000 + 64 * d + 64 ≤ 0x80080000 + 64 * d' ∨ 0x80080000 + 64 * d' + 64 ≤ 0x80080000 + 64 * d
    omega
  · change k + 1 < 1 at hk
    omega

theorem witness_SetModeUpdatesContexts :
    ddtS.weave = [] ∧ ddtS.DirectoryAt (fun d => 0x80080000 + 64 * d) ∧ ddtS.configured 0 ∧ ddtS.configured 1 ∧
      ddtS.blk.ptReady = true ∧ ddtS.blk.msiReady = true ∧ ddtS.cfg.dcFmt = .ext ∧
      ddtS.cfg.msiBase.toNat < 2 ^ 56 :=
  ⟨rfl, ddtS_directory, by unfold State.configured; decide, by unfold State.configured; decide, rfl, rfl, rfl,
    by decide⟩

/-- The largest mode refused, the directory of the wrong depth, a change between leveled modes, an allowed change, and
a mode the IOMMU does not support. -/
theorem witness_DdtSetModeResults :
    ddtS.settled = true ∧ ddtS.polls ∧ ddtS.cfg.ddtBase.toNat < 2 ^ 56 ∧ 4 < (5 : BitVec 4).toNat ∧
      ddtS.blk.ddtLvls.toNat ≠ (4 : BitVec 4).toNat - 1 ∧ ddtS.blk.ddtReady = true ∧
      ddtS.blk.ddtLvls.toNat = (2 : BitVec 4).toNat - 1 ∧ ddtS.regs.ddtp.toNat % 16 = 0 ∧
      ddtS.cfg.iommuModes.getLsbD 2 = true ∧
      (let s : State := { ddtS with regs := { ddtS.regs with ddtp := 0x20020004 } }
       s.settled = true ∧ s.regs.ddtp.toNat % 16 = 4) ∧
      (let c : Config := { ddtS.cfg with iommuModes := 0x3 }
       let s (m : BitVec 4) : State := { ddtS with cfg := c, warlMode := m }
       c.iommuModes.getLsbD 2 = false ∧ (s 1).settled = true ∧ c.iommuModes.getLsbD (s 1).warlMode.toNat = true ∧
         (s 1).warlMode.toNat ≠ 2 ∧ c.iommuModes.getLsbD (s 15).warlMode.toNat = false ∧
         (s 15).regs.ddtp.toNat % 16 ≠ 2) :=
  ⟨by decide, nofun, by decide⟩

/-- Each cause of the walk. -/
theorem witness_RebuiltContextIsRead_causes :
    let c : Config := base.cfg
    let m := memOf [(0x1000, 0x801), (0x1008, 3), (0x2000, 0x100000001), (0x2040, 1), (0x2058, 0x9000000000000000),
      (0x1010, 0x4000001)]
    directoryPage c m 0x1000 2 64 0 = some 0x1000 ∧ (m.load64 (0x1000 + 8)).toNat / 2 % 2 ^ 9 ≠ 0 ∧
      (m.load64 (0x1000 + 8 * 511)).toNat % 2 = 0 ∧ directoryPage c m 0x1000 2 1 1 = some 0x2000 ∧
      (m.load64 0x2000).toNat / 2 ^ 32 ≠ 0 ∧ (m.load64 (0x2040 + 24)).toNat / 2 ^ 60 = 9 ∧
      directoryPage c m 0x1000 2 128 1 = some 0x10000000 ∧ accessible c 0x10000000 64 = false ∧
      2 ^ idBits c.dcFmt 2 ≤ (0x8000 : BitVec 24).toNat := by decide +kernel

set_option maxRecDepth 20000 in
/-- A one-level and a two-level instance, with its last device in the range and the one before it outside. -/
theorem witness_RebuiltContextIsRead :
    let s (pages : Nat) : State := { base with cfg := { base.cfg with ddtPages := pages },
                                               blk := { ddtS.blk with cfgS1Mode := 8, cfgMsiMode := 1 } }
    let run (pages : Nat) (lv : BitVec 2) (d : Word) : Bool :=
      match exec (.ddtRebuild lv d d) (s pages) with
      | .next t => t.res.status == Status.ok.code && isNext (exec .fence t)
      | _ => false
    ((s 1).settled = true ∧ wellPlaced (s 1) = true ∧ (s 2).settled = true ∧ wellPlaced (s 2) = true ∧
      (0x20020003 : Word).toNat / 1024 % 2 ^ 44 * 4096 = (s 1).cfg.ddtBase.toNat ∧ (s 1).blk.cfgS1Mode = 8 ∧
      (s 1).blk.cfgS2Mode = 0 ∧ (s 1).blk.cfgMsiMode = 1 ∧ (63 : BitVec 24).toNat < 2 ^ idBits .ext 1 ∧
      (0x7FFF : BitVec 24).toNat < 2 ^ idBits .ext 2) ∧
    run 1 1 63 = true ∧ run 2 2 0x7FFF = true :=
  ⟨by decide +kernel, by decide +kernel, by decide +kernel⟩

theorem witness_EncodersMakeCommands :
    (0xFFFFFF : Word).toNat < 2 ^ 24 ∧ (0xFFFFFFFFFFFFF000 : Word).toNat % 4096 = 0 ∧ (0xFFFF : Word).toNat < 2 ^ 16 ∧
      (0xFFFFF : Word).toNat < 2 ^ 20 ∧ (0xFFFFFFFFFFFFFC : Word).toNat % 4 = 0 ∧
      (0xFFFFFFFFFFFFFC : Word).toNat < 2 ^ 56 ∧ (0xFFFFFFFF : Word).toNat < 2 ^ 32 := by decide

theorem witness_EncoderChecks :
    2 ^ 24 ≤ (0x1000000 : Word).toNat ∧ (0xFFF : Word).toNat % 4096 ≠ 0 ∧ (0x1000 : Word).toNat % 4096 = 0 ∧
      2 ^ 16 ≤ (0x10000 : Word).toNat ∧ 2 ^ 20 ≤ (0x100000 : Word).toNat ∧ (0x80500002 : Word).toNat % 4 ≠ 0 ∧
      2 ^ 56 ≤ (0x100000000000000 : Word).toNat ∧ 2 ^ 32 ≤ (0x100000000 : Word).toNat := by decide

/-- The largest queue of the instance, ending at the top of memory. -/
theorem witness_CqInitResults :
    base.settled = true ∧ base.polls ∧ base.cfg.cqLog2nMax ≤ 32 ∧ base.blk.cqState = .disabled ∧
      1 ≤ (10 : BitVec 6).toNat ∧ (10 : BitVec 6).toNat ≤ base.cfg.cqLog2nMax ∧
      (0xFFFFFFFFFFC000 : Word).toNat % max 4096 (16 * 2 ^ (10 : BitVec 6).toNat) = 0 ∧
      (0xFFFFFFFFFFC000 : Word).toNat + 16 * 2 ^ (10 : BitVec 6).toNat = 2 ^ 56 ∧ cqOn base.regs = false :=
  ⟨by decide, nofun, by decide⟩

theorem witness_FqInitResults :
    base.settled = true ∧ base.polls ∧ base.cfg.fqLog2nMax ≤ 32 ∧ base.blk.fqState = .disabled ∧
      1 ≤ (10 : BitVec 6).toNat ∧ (10 : BitVec 6).toNat ≤ base.cfg.fqLog2nMax ∧
      (0xFFFFFFFFFF8000 : Word).toNat % max 4096 (32 * 2 ^ (10 : BitVec 6).toNat) = 0 ∧
      (0xFFFFFFFFFF8000 : Word).toNat + 32 * 2 ^ (10 : BitVec 6).toNat = 2 ^ 56 ∧ fqOn base.regs = false :=
  ⟨by decide, nofun, by decide⟩

/-- Each clause of the queue checks, at boundary values. -/
theorem witness_QueueChecks :
    (cqS.settled = true ∧ cqS.blk.cqState = .ready) ∧ (fqS.settled = true ∧ fqS.blk.fqState = .ready) ∧
      base.settled = true ∧ (0 : BitVec 6).toNat < 1 ∧ base.cfg.cqLog2nMax < (11 : BitVec 6).toNat ∧
      (0x80501000 : Word).toNat % max 4096 (16 * 2 ^ 9) ≠ 0 ∧ (0x80511000 : Word).toNat % max 4096 (32 * 2 ^ 8) ≠ 0 ∧
      (0x100000000000000 : Word).toNat % max 4096 (16 * 2 ^ 6) = 0 ∧
      2 ^ 56 < (0x100000000000000 : Word).toNat + 16 * 2 ^ 6 ∧
      (let s : State := { base with regs := { base.regs with cqcsr := 0x10001, fqcsr := 0x10001 } }
       s.settled = true ∧ s.blk.cqState = .disabled ∧ s.blk.fqState = .disabled ∧ cqEn s.regs = true ∧
         fqEn s.regs = true) ∧
      (0x80600004 : Word).toNat % 8 ≠ 0 ∧ 2 ^ 56 < (0x100000000000000 : Word).toNat + 8 ∧
      2 ^ 32 ≤ (0x100000000 : Word).toNat ∧ meetsAny (0x80501008 : Word).toNat 8 (blockRegions cqS) = true ∧
      base.blk.cqState = .disabled := by decide

theorem cqS_geometry : cqS.CqGeometry := ⟨rfl, by decide, by decide, by decide⟩
theorem fqS_geometry : fqS.FqGeometry := ⟨rfl, by decide, by decide, by decide⟩

/-- At the last slot, so that the tail wraps. -/
theorem witness_CqSubmitStores :
    cqS.settled = true ∧ cqS.polls ∧ cqS.CqGeometry ∧ cqS.cfg.cqFullCheck = true ∧ cqErr cqS.regs.cqcsr = false ∧
      (cqTail cqS.regs + 1) % 2 ^ cqS.blk.cqLog2n.toNat ≠ cqHead cqS.regs :=
  ⟨by decide, nofun, cqS_geometry, by decide⟩

/-- Drained; stopped; not drained and not consuming, without a bound and with one; full. -/
theorem witness_CqWaitsEnd :
    let stopped : State := { cqS with regs := { cqS.regs with cqcsr := 0x10401, cqt := 0 } }
    let off : State := { cqS with regs := { cqS.regs with cqcsr := 0, cqt := 62 } }
    let bounded : State := { off with cfg := { off.cfg with pollBound := some 1 } }
    (cqS.settled = true ∧ cqS.blk.cqState = .ready ∧ cqErr cqS.regs.cqcsr = false ∧
      cqHead cqS.regs = cqTail cqS.regs) ∧
    (stopped.settled = true ∧ stopped.blk.cqState = .ready ∧ cqErr stopped.regs.cqcsr = true) ∧
    (off.settled = true ∧ off.blk.cqState = .ready ∧ cqErr off.regs.cqcsr = false ∧
      cqHead off.regs ≠ cqTail off.regs ∧ (cqTail off.regs + 1) % 2 ^ off.blk.cqLog2n.toNat = cqHead off.regs ∧
      off.cfg.cqFullCheck = true ∧ off.cfg.pollBound = none) ∧
    (bounded.settled = true ∧ bounded.cfg.pollBound = some 1) := by decide

theorem witness_polls : cqS.polls ∧ ({ cqS with cfg := { cqS.cfg with pollBound := some 1 } } : State).polls :=
  ⟨nofun, by simp [State.polls]⟩

theorem witness_QueueStatusAndClear :
    let s : State := { cqS with regs := { cqS.regs with cqcsr := 0x10F03, fqcsr := 0x10303 } }
    s.settled = true := by decide

theorem witness_QueueDisable :
    cqS.settled = true ∧ cqS.polls ∧ cqOn cqS.regs = true ∧ base.settled = true ∧ cqOn base.regs = false :=
  ⟨by decide, nofun, by decide⟩

/-- A completion doubleword right behind the queue (2.5.2). -/
theorem witness_CqSyncCompletes :
    cqS.settled = true ∧ cqS.polls ∧ wellPlaced cqS = true ∧ cqS.CqGeometry ∧ cqOn cqS.regs = true ∧
      cqErr cqS.regs.cqcsr = false ∧ cqS.engine.cmdBuf = none ∧ (0x80501400 : Word).toNat % 8 = 0 ∧
      (0x80501400 : Word).toNat + 8 ≤ 2 ^ 56 ∧ (0xFFFFFFFF : Word) ≠ 0 ∧ (0xFFFFFFFF : Word).toNat < 2 ^ 32 ∧
      meetsAny (0x80501400 : Word).toNat 8 (registerWindow cqS.cfg :: blockRegions cqS) = false :=
  ⟨by decide, nofun, by decide, cqS_geometry, by decide⟩

theorem witness_FqTryReadResults :
    (base.settled = true ∧ base.blk.fqState = .disabled) ∧
    (let s : State := { fqS with regs := { fqS.regs with fqh := 1 } }
     s.settled = true ∧ s.blk.fqState = .ready ∧ fqHead s.regs = fqTail s.regs) ∧
    fqS.settled = true ∧ fqS.FqGeometry ∧ fqHead fqS.regs ≠ fqTail fqS.regs :=
  ⟨by decide, by decide, by decide, fqS_geometry, by decide⟩

theorem witness_OffModeReportsEveryTransfer :
    let s0 : State := { fqS with regs := { fqS.regs with fqt := 15, fqh := 15 } }
    let s := stateOf (exec (.ddtSetMode 0) s0)
    isNext (exec (.ddtSetMode 0) s0) = true ∧ s.phase = .idle ∧ s.res.status = Status.ok.code ∧ s.settled = true ∧
      wellPlaced s = true ∧ s.blk.fqState = .ready ∧ (fieldPa s.regs.fqb).toNat = s.blk.fqBase.toNat ∧
      (s.regs.fqb.extractLsb' 0 5).toNat + 1 = s.blk.fqLog2n.toNat ∧
      s.blk.fqBase.toNat % (32 * 2 ^ s.blk.fqLog2n.toNat) = 0 ∧ fqOn s.regs = true ∧
      fqErr s.regs.fqcsr = false ∧ fqHead s.regs = fqTail s.regs ∧ s.pend = [] := by decide +kernel

/-- Completion writes that can be made and one that cannot, and transactions of which PW alone waits for the second. -/
theorem witness_IofenceEffect :
    let x (ttyp : BitVec 6) : Access := ⟨⟨0, 0x80200000, ttyp, false, 8, 1⟩, false, .access 0x80200000⟩
    let s := setInFlight [x 2, x 3] base
    accessible base.cfg (4 * (0x20140000 : BitVec 62).toNat) 4 = true ∧
      accessible base.cfg (4 * (0x4000000 : BitVec 62).toNat) 4 = false ∧
      s.engine.inFlight.filter (fun y => !awaited false true y) = [x 2] ∧
      (awaitTransactions false true s).memIo.load64 0x80200000 = 1 := by decide +kernel

/-- A wait of each kind that has come to its end, one that a stop bit ends, and one that goes on. -/
theorem witness_WaitsEndLater :
    let at_ (s : State) (w : WaitPoint) : State := { s with phase := .busy, wait := some w }
    let stopped : State := { cqS with regs := { cqS.regs with cqcsr := 0x10401 } }
    let ok (s : State) : Bool := wellPlaced s && s.settled && s.phase == .busy && s.inputs.isEmpty
    ok (at_ cqS (.cqWait 63)) = true ∧ ok (at_ stopped (.cqWait 63)) = true ∧ ok (at_ cqS (.cqWait 5)) = true ∧
      ok (at_ cqS (.cqInit 0x80501000 6 0)) = true ∧ cqOn cqS.regs = true ∧
      ok (at_ base (.cqInit 0x80501000 6 0)) = true ∧ cqOn base.regs = false ∧
      ok (at_ fqS (.fqInit 0x80510000 4 0)) = true ∧ fqOn fqS.regs = true ∧ ok (at_ base .cqDisable) = true ∧
      ok (at_ base .fqDisable) = true ∧
      ok (at_ { cqS with memBlk := memOf [(0x80600000, 1)] } (.syncDone 0x80600000 1 62)) = true ∧
      ok (at_ cqS (.submit 3 0 63 .submit)) = true ∧ (63 + 1) % 2 ^ 6 ≠ cqHead cqS.regs ∧
      ok (at_ { cqS with regs := { cqS.regs with cqh := 0, cqcsr := 0 } } (.submit 3 0 63 .submit)) = true ∧
      ok (at_ ddtS (.setModeReady 2)) = true ∧ ddtS.blk.ddtLvls.toNat = (2 : BitVec 4).toNat - 1 ∧
      ok (at_ ddtS (.setModeDone 0)) = true ∧ ok (at_ ddtS (.setModeDone 1)) = true := by decide +kernel

theorem witness_WaitsEndLater_polls : cqS.polls ∧ base.polls ∧ fqS.polls ∧ ddtS.polls ∧ cqS.CqGeometry :=
  ⟨nofun, nofun, nofun, nofun, cqS_geometry⟩

end Sys2Proof.Tests
end

section
/-! SUPPORT. The IOMMU coming to rest does not look at what the block waits for: each part of the schedule
`quiesce` commutes with a change of the wait. -/

namespace Sys2Proof.Machine

/-- The state with another wait and other moves of the environment to come. -/
def State.aside (s : State) (w : Option WaitPoint) (l : List (List EnvAct)) : State := { s with wait := w, weave := l }

section
variable (s : State) (w : Option WaitPoint) (l : List (List EnvAct))

theorem aside_ite (c : Prop) [Decidable c] (s t : State) :
    (if c then s else t).aside w l = if c then s.aside w l else t.aside w l := apply_ite (State.aside · w l) c s t

theorem aside_ite_pair {α : Type} (c : Prop) [Decidable c] (p q : α × State) :
    ((if c then p else q).1, (if c then p else q).2.aside w l) =
      if c then (p.1, p.2.aside w l) else (q.1, q.2.aside w l) :=
  apply_ite (fun r : α × State => (r.1, r.2.aside w l)) c p q

/-! The record producer and device transactions. -/

theorem advanceFqt_aside : advanceFqt (s.aside w l) = (advanceFqt s).aside w l := by
  simp only [advanceFqt, aside_ite]
  rfl

theorem fqFollow_aside : fqFollow (s.aside w l) = (fqFollow s).aside w l := by
  simp only [fqFollow, advanceFqt_aside, aside_ite]
  rfl

theorem reportRecord_aside (w0 w1 w2 w3 : Word) (hold : Bool) :
    reportRecord w0 w1 w2 w3 hold (s.aside w l) = (reportRecord w0 w1 w2 w3 hold s).aside w l := by
  simp only [reportRecord, advanceFqt_aside]
  generalize advanceFqt s = u
  simp only [aside_ite, ← advanceFqt_aside]
  rfl

theorem faultTransaction_aside (x : Transaction) (f : XFault) (dtf hold : Bool) :
    faultTransaction x f dtf hold (s.aside w l) = (faultTransaction x f dtf hold s).aside w l := by
  simp only [faultTransaction, aside_ite, ← reportRecord_aside]
  rfl

theorem accessMemory_aside (x : Transaction) (pa : Word) :
    accessMemory x pa (s.aside w l) = (accessMemory x pa s).aside w l := by
  simp only [accessMemory, aside_ite]
  rfl

theorem accessNext_aside (hold : Bool) (x : Access) :
    accessNext hold x (s.aside w l) = ((accessNext hold x s).1, (accessNext hold x s).2.aside w l) := by
  obtain ⟨trans, dtf, step⟩ := x
  cases step <;>
    simp only [accessNext, aside_ite_pair, ← accessMemory_aside, ← faultTransaction_aside] <;> rfl

theorem accessRun_aside (hold : Bool) (n : Nat) (x : Access) :
    accessRun hold n x (s.aside w l) = (accessRun hold n x s).aside w l := by
  induction n generalizing x s with
  | zero => rfl
  | succ n ih =>
    simp only [accessRun, accessNext_aside]
    rcases accessNext hold x s with ⟨_ | y, t⟩
    · rfl
    · exact ih t y

theorem accessFinish_aside (hold : Bool) (x : Access) :
    accessFinish hold x (s.aside w l) = (accessFinish hold x s).aside w l := accessRun_aside s w l hold 5 x

theorem awaitTransactions_aside (pr pw : Bool) :
    awaitTransactions pr pw (s.aside w l) = (awaitTransactions pr pw s).aside w l := by
  have run (xs : List Access) (t : State) : xs.foldl (fun s x => accessFinish false x s) (t.aside w l) =
      (xs.foldl (fun s x => accessFinish false x s) t).aside w l := by
    induction xs generalizing t with
    | nil => rfl
    | cons x xs ih => rw [List.foldl_cons, List.foldl_cons, accessFinish_aside, ih]
  exact run _ (setInFlight _ s)

/-! The command consumer. -/

theorem fenceWait_aside (pr pw : Bool) : fenceWait pr pw (s.aside w l) = (fenceWait pr pw s).aside w l :=
  awaitTransactions_aside { s with caches := completeAll s.caches } w l pr pw

theorem fenceWrite_aside (av : Bool) (data : BitVec 32) (addr : BitVec 62) :
    fenceWrite av data addr (s.aside w l) = (fenceWrite av data addr s).aside w l := by
  simp only [fenceWrite, aside_ite]
  rfl

theorem fenceFlag_aside (wsi : Bool) : fenceFlag wsi (s.aside w l) = (fenceFlag wsi s).aside w l := by
  simp only [fenceFlag, aside_ite]
  rfl

theorem fenceCommand_aside (av wsi pr pw : Bool) (data : BitVec 32) (addr : BitVec 62) :
    fenceCommand av wsi pr pw data addr (s.aside w l) = (fenceCommand av wsi pr pw data addr s).aside w l := by
  simp only [fenceCommand, fenceWait_aside, fenceWrite_aside, fenceFlag_aside, aside_ite]
  rfl

theorem invalidateNow_aside (later : Bool) (i : Instr) :
    invalidateNow later i (s.aside w l) = (invalidateNow later i s).aside w l := by
  simp only [invalidateNow, aside_ite]
  rfl

theorem commandRest_aside (later : Bool) (k : CmdStage) (i : Instr) :
    commandRest later k i (s.aside w l) = (commandRest later k i s).aside w l := by
  unfold commandRest commandEffect
  split
  · split
    · exact fenceCommand_aside ..
    · exact invalidateNow_aside ..
  · exact fenceFlag_aside ..
  · rfl

theorem settle_aside : settle (s.aside w l) = (settle s).aside w l := by
  simp only [settle, aside_ite]
  rfl

theorem consumeCommand_aside (later : Bool) :
    consumeCommand later (s.aside w l) = (consumeCommand later s).aside w l := by
  have regs : (s.aside w l).regs = s.regs := rfl
  have next : nextCommand (s.aside w l) = nextCommand s := rfl
  unfold consumeCommand
  rw [regs, next]
  split
  · split
    · rfl
    · split
      · rfl
      · rw [commandRest_aside, settle_aside]
  · rfl

theorem cqFollow_aside : cqFollow (s.aside w l) = (cqFollow s).aside w l := by
  have begun : (if midCommand (s.aside w l).engine then consumeCommand false (s.aside w l) else s.aside w l) =
      (if midCommand s.engine then consumeCommand false s else s).aside w l := by
    rw [consumeCommand_aside, aside_ite]
    rfl
  simp only [cqFollow, begun]
  generalize (if midCommand s.engine then consumeCommand false s else s) = u
  simp only [aside_ite]
  rfl

theorem consumeMany_aside (n : Nat) : consumeMany n (s.aside w l) = (consumeMany n s).aside w l := by
  induction n generalizing s with
  | zero => rfl
  | succ n ih => simp only [consumeMany, consumeCommand_aside, ih]

/-- The schedule of quiescence looks neither at what the block waits for nor at `weave`, and changes neither. -/
theorem quiesce_aside : quiesce (s.aside w l) = (quiesce s).aside w l := by
  have busy : setFqcsr 17 false (setCqcsr 17 false (setDdtpBusy false (s.aside w l))) =
      (setFqcsr 17 false (setCqcsr 17 false (setDdtpBusy false s))).aside w l := rfl
  simp only [quiesce, busy, cqFollow_aside, fqFollow_aside, advanceFqt_aside, awaitTransactions_aside,
    consumeMany_aside]
  rfl

theorem quiesce_weave : (quiesce s).weave = s.weave := by
  have same : quiesce s = (quiesce s).aside s.wait s.weave := quiesce_aside s s.wait s.weave
  rw [same]
  rfl

end

end Sys2Proof.Machine
end

section
/-! SUPPORT. CQ.SYNC's wait does not depend on the wait the block was in before it. -/

namespace Sys2Proof.Machine

/-! The polls of a wait. -/

theorem mmioRead_calm {s : State} (h : s.weave = []) (r : MmioReg) :
    mmioRead r s = ((quiesce s).regs.get r, quiesce s) := by
  unfold mmioRead pauseRead
  rw [h]

/-- The register's value as the block reads it is zero-extended; its low word is the register. -/
theorem setWidth_cqcsr (g : IommuRegs) : (g.get .cqcsr).setWidth 32 = g.cqcsr := by
  simp [IommuRegs.get]

theorem fence_weave {s : State} (h : s.weave = []) : (fence s).weave = [] := by
  rw [fence_calm h]
  exact h

/-- CQ.SYNC's poll, when no other agent moves inside it: the IOMMU comes to rest; a stop bit, or a FENCE and the
completion word. -/
theorem pollSync_calm {s : State} (h : s.weave = []) (a0 a1 : Word) :
    pollSync a0 a1 s = if cqErr (quiesce s).regs.cqcsr then (some ((quiesce s).regs.get .cqcsr), quiesce s)
      else (if (fence (quiesce s)).wordBlk a0.toNat &&& 0xFFFFFFFF = a1 then some ((quiesce s).regs.get .cqcsr)
        else none, fence (quiesce s)) := by
  have hq : (quiesce s).weave = [] := (quiesce_weave s).trans h
  simp only [pollSync, mmioRead_calm h, memRead_calm (fence_weave hq), setWidth_cqcsr]

/-! States that differ in the wait alone. -/

/-- No other agent moves inside the operation, and the states differ at most in what the block waits for. -/
def SameButWait (s t : State) : Prop := s.weave = [] ∧ ∃ w, t = s.aside w []

theorem SameButWait.quiesce_alike {s t : State} (h : SameButWait s t) : SameButWait (quiesce s) (quiesce t) := by
  obtain ⟨hs, w, rfl⟩ := h
  exact ⟨(quiesce_weave s).trans hs, w, quiesce_aside s w []⟩

theorem SameButWait.fence_alike {s t : State} (h : SameButWait s t) : SameButWait (fence s) (fence t) := by
  obtain ⟨hs, w, rfl⟩ := h
  rw [fence_calm hs, fence_calm (s := s.aside w []) rfl]
  exact ⟨hs, w, rfl⟩

theorem SameButWait.pollSync_alike {s t : State} (h : SameButWait s t) (a0 a1 : Word) :
    (pollSync a0 a1 t).1 = (pollSync a0 a1 s).1 ∧ SameButWait (pollSync a0 a1 s).2 (pollSync a0 a1 t).2 := by
  have hq := h.quiesce_alike
  have hf := hq.fence_alike
  have ht : t.weave = [] := by obtain ⟨_, _, rfl⟩ := h; rfl
  rw [pollSync_calm h.1, pollSync_calm ht]
  obtain ⟨_, w, eq⟩ := hq
  obtain ⟨_, v, ef⟩ := hf
  have regs : (quiesce t).regs = (quiesce s).regs := by rw [eq]; rfl
  have word (a : Nat) : (fence (quiesce t)).wordBlk a = (fence (quiesce s)).wordBlk a := by
    rw [ef]; rfl
  rw [regs, word]
  split
  · exact ⟨rfl, h.quiesce_alike⟩
  · exact ⟨rfl, h.quiesce_alike.fence_alike⟩

theorem SameButWait.pollLoop_alike {α : Type} {poll : State → Option α × State}
    (hp : ∀ {s t}, SameButWait s t → (poll t).1 = (poll s).1 ∧ SameButWait (poll s).2 (poll t).2) (n : Nat)
    {s t : State} (h : SameButWait s t) :
    (pollLoop poll n t).1 = (pollLoop poll n s).1 ∧ SameButWait (pollLoop poll n s).2 (pollLoop poll n t).2 := by
  induction n generalizing s t with
  | zero => exact ⟨rfl, h⟩
  | succ n ih =>
    obtain ⟨value, next⟩ := hp h
    simp only [pollLoop]
    rcases hs : poll s with ⟨o, s'⟩
    rcases ht : poll t with ⟨o', t'⟩
    rw [hs, ht] at value next
    cases value
    cases o with
    | none => exact ih next
    | some v => exact ⟨rfl, next⟩

/-- CQ.SYNC's wait does not depend on the wait the block was in before. -/
theorem SameButWait.syncWait_alike {s t : State} (h : SameButWait s t) (a0 a1 i : Word) :
    syncWait a0 a1 i t = syncWait a0 a1 i s := by
  have count : pollCount t = pollCount s := by
    obtain ⟨hs, w, rfl⟩ := h
    simp [pollCount, State.aside, hs]
  obtain ⟨value, next⟩ := SameButWait.pollLoop_alike (fun h => h.pollSync_alike a0 a1) (pollCount s) h
  simp only [syncWait, await, count]
  rcases hs : pollLoop (pollSync a0 a1) (pollCount s) s with ⟨o, s'⟩
  rcases ht : pollLoop (pollSync a0 a1) (pollCount s) t with ⟨o', t'⟩
  rw [hs, ht] at value next
  cases value
  obtain ⟨calm, w, same⟩ := next
  cases same
  obtain ⟨_, _, _, _, _, _, _, _, _, _, _, _, _, _, weave, _, _⟩ := s'
  cases calm
  cases o with
  | none => rfl
  | some c => rfl

end Sys2Proof.Machine
end

section
/-! SUPPORT. The submission of a command, and the waits of a BUSY block with the IOMMU at rest. -/

namespace Sys2Proof.Machine

/-! The slot stores and the tail write of CQ.SUBMIT (R345, R348). -/

section
variable {s : State}

theorem State.CqGeometry.cap (h : s.CqGeometry) : queueCap s.regs.cqb = 2 ^ s.blk.cqLog2n.toNat := by
  rw [queueCap, h.size]

theorem State.CqGeometry.log2n_le (h : s.CqGeometry) : s.blk.cqLog2n.toNat ≤ 32 := by
  have := (s.regs.cqb.extractLsb' 0 5).isLt
  have := h.size
  omega

theorem State.CqGeometry.tail_lt (h : s.CqGeometry) : cqTail s.regs < 2 ^ s.blk.cqLog2n.toNat := by
  rw [cqTail, indexBits, h.cap, BitVec.toNat_ofNat]
  exact (Nat.mod_le _ _).trans_lt (Nat.mod_lt _ (by positivity))

/-- The tail index as a word is the tail index. -/
theorem toNat_cqTail (g : IommuRegs) : (BitVec.ofNat 64 (cqTail g)).toNat = cqTail g := by
  have : cqTail g < 2 ^ 32 := (indexBits g.cqb g.cqt).isLt
  simp only [BitVec.toNat_ofNat]
  omega

/-- The slot at the tail: base and index do not overlap, so `|` adds. -/
theorem State.CqGeometry.slot (h : s.CqGeometry) :
    (cqSlot s.blk (BitVec.ofNat 64 (cqTail s.regs))).toNat = s.blk.cqBase.toNat + 16 * cqTail s.regs := by
  have tail : 16 * cqTail s.regs < 2 ^ (s.blk.cqLog2n.toNat + 4) := by
    have := h.tail_lt
    rw [pow_add]
    omega
  have small : 2 ^ (s.blk.cqLog2n.toNat + 4) ≤ 2 ^ 36 :=
    Nat.pow_le_pow_right (by omega) (Nat.add_le_add_right h.log2n_le 4)
  have base : (s.blk.cqBase.setWidth 64).toNat = s.blk.cqBase.toNat := by
    rw [BitVec.toNat_setWidth, Nat.mod_eq_of_lt (s.blk.cqBase.isLt.trans (by norm_num))]
  have index : (BitVec.ofNat 64 (cqTail s.regs) <<< 4).toNat = 16 * cqTail s.regs := by
    rw [BitVec.toNat_shiftLeft, toNat_cqTail, Nat.shiftLeft_eq, Nat.mod_eq_of_lt] <;> omega
  obtain ⟨k, hk⟩ : 2 ^ (s.blk.cqLog2n.toNat + 4) ∣ s.blk.cqBase.toNat := by
    rw [pow_add, mul_comm]
    exact Nat.dvd_of_mod_eq_zero h.aligned
  rw [cqSlot, slotAddr, BitVec.toNat_or, base, index, hk, Nat.two_pow_add_eq_or_of_lt tail]

/-- After the two words stand in the slot at the tail and the tail has moved on. -/
def State.submitted (s : State) (d0 d1 : Word) : State :=
  let a := s.blk.cqBase.toNat + 16 * cqTail s.regs
  let io := drainAll s.memIo (s.pend ++ [⟨a, d0⟩, ⟨a + 8, d1⟩])
  { s with
    memIo := io, pend := [], unseen := [],
    memBlk := revealAll ((s.memBlk.store64 a d0).store64 (a + 8) d1) io s.unseen,
    regs := { s.regs with cqt := BitVec.ofNat 32 ((cqTail s.regs + 1) % 2 ^ s.blk.cqLog2n.toNat) } }

/-- The tail write of CQ.SUBMIT, one further modulo the capacity. -/
theorem State.CqGeometry.next_tail (h : s.CqGeometry) :
    s.regs.set s.cfg s.warlMode .cqt (BitVec.ofNat 64 (cqTail s.regs) + 1) =
      { s.regs with cqt := BitVec.ofNat 32 ((cqTail s.regs + 1) % 2 ^ s.blk.cqLog2n.toNat) } := by
  have low : ((BitVec.ofNat 64 (cqTail s.regs) + 1).setWidth 32).toNat % 2 ^ s.blk.cqLog2n.toNat =
      (cqTail s.regs + 1) % 2 ^ s.blk.cqLog2n.toNat := by
    have lt : cqTail s.regs < 2 ^ 32 := (indexBits s.regs.cqb s.regs.cqt).isLt
    rw [BitVec.toNat_setWidth, BitVec.toNat_add, toNat_cqTail, Nat.mod_mod_of_dvd _ (Nat.pow_dvd_pow 2 h.log2n_le)]
    have one : (1 : Word).toNat = 1 := rfl
    rw [one, Nat.mod_eq_of_lt (show cqTail s.regs + 1 < 2 ^ 64 by omega)]
  simp only [IommuRegs.set, indexBits, h.cap, low]

theorem submitStore_calm (hs : s.weave = []) (h : s.CqGeometry) (d0 d1 : Word) (by_ : SubmitFor) :
    submitStore d0 d1 (BitVec.ofNat 64 (cqTail s.regs)) by_ s = submitThen by_ (BitVec.ofNat 64 (cqTail s.regs))
      (BitVec.ofNat 64 (s.blk.cqBase.toNat + 16 * cqTail s.regs)) (s.submitted d0 d1) := by
  have slot : cqSlot s.blk (BitVec.ofNat 64 (cqTail s.regs)) =
      BitVec.ofNat 64 (s.blk.cqBase.toNat + 16 * cqTail s.regs) := by
    rw [← h.slot, BitVec.ofNat_toNat, BitVec.setWidth_eq]
  simp only [submitStore, slot, State.submitted, ← h.next_tail]
  rw [← slot, h.slot, memWrite_calm hs, memWrite_calm (by exact hs), fence_calm (by exact hs),
    mmioWrite_calm (by exact hs)]
  simp only [List.append_assoc, List.cons_append, List.nil_append]

/-- Both words of the slot are in the IOMMU's view. -/
theorem submitted_wordIo (s : State) (d0 d1 : Word) :
    let a := s.blk.cqBase.toNat + 16 * cqTail s.regs
    (s.submitted d0 d1).wordIo a = d0 ∧ (s.submitted d0 d1).wordIo (a + 8) = d1 := by
  simp only [State.wordIo, State.submitted, drainAll_append]
  constructor
  · exact (Memory.load64_store64_other _ _ _ _ (Or.inl le_rfl)).trans (Memory.load64_store64_same ..)
  · exact Memory.load64_store64_same ..

theorem submitted_sameOutside (s : State) (d0 d1 : Word) (r : Result) :
    s.SameOutside { (s.submitted d0 d1).finish r with regs := s.regs } := by constructor <;> rfl

theorem submitted_asFenceOutside (hs : s.weave = []) (d0 d1 : Word) (r : Result) :
    s.AsFenceOutside ((s.submitted d0 d1).finish r) (within (s.blk.cqBase.toNat + 16 * cqTail s.regs) 16) := by
  intro b hb
  simp only [within] at hb
  have two (m : Memory) : ((m.store64 (s.blk.cqBase.toNat + 16 * cqTail s.regs) d0).store64
      (s.blk.cqBase.toNat + 16 * cqTail s.regs + 8) d1).read b = m.read b := by
    rw [Memory.read_store64 _ _ _ _ (by omega), Memory.read_store64 _ _ _ _ (by omega)]
  have io : (s.submitted d0 d1).memIo.read b = (drainAll s.memIo s.pend).read b := by
    simp only [State.submitted, drainAll_append]
    exact two _
  rw [fence_calm hs]
  refine ⟨?_, io⟩
  simp only [State.readBlk, finish_memBlk, revealAll_read]
  rw [← io, ← two s.memBlk, ← revealAll_read]
  rfl
end

/-! A wait with the IOMMU at rest. -/

/-- A wait that no poll ends: ERR_TIMEOUT at POLL_BOUND, else the block stays as it is. -/
theorem await_stays {α : Type} {poll : State → Option α × State} {w : WaitPoint}
    {go : α → State → Host.Outcome State Fault Refusal} {s t : State} (hb : s.cfg.pollBound ≠ some 0)
    (first : poll s = (none, t)) (again : poll t = (none, t)) (cfg : t.cfg = s.cfg) (busy : t.phase = .busy)
    (wait : t.wait = some w) :
    await poll w go s = .next (if s.cfg.pollBound.isSome then t.finish (result .errTimeout) else t) := by
  have stuck (n : Nat) : pollLoop poll n t = (none, t) := by
    induction n with
    | zero => rfl
    | succ n ih => simp only [pollLoop, again, ih]
  have same : hang w t = .next t := by rw [hang, ← busy, ← wait]
  obtain ⟨n, hn⟩ := pollCount_pos s hb
  simp only [await, hn, pollLoop, first, stuck, cfg, same]
  split <;> rfl

theorem step_resumes_wait {s : State} {w : WaitPoint} (placed : wellPlaced s = true) (busy : s.phase = .busy)
    (alone : s.inputs = []) (hw : s.wait = some w) : step s = resume w s := by
  simp only [step, placed, turn, alone, blockTurn, busy, hw, if_true]

/-- A BUSY block whose step is not refused (R8), no input next, the IOMMU at rest. -/
structure BusyAtRest (s : State) : Prop where
  placed : wellPlaced s = true
  settled : s.settled = true
  polls : s.polls
  busy : s.phase = .busy
  alone : s.inputs = []

section
variable {s : State} (h : BusyAtRest s)
include h

theorem BusyAtRest.calm : s.weave = [] := ((settled_iff s).1 h.settled).1

theorem BusyAtRest.step_resumes {w : WaitPoint} (hw : s.wait = some w) : step s = resume w s :=
  step_resumes_wait h.placed h.busy h.alone hw

/-- A wait whose poll reads registers alone ends at once or not at all. -/
theorem BusyAtRest.await_registers {α : Type} {poll : State → Option α × State} {w : WaitPoint}
    {go : α → State → Host.Outcome State Fault Refusal} {c : Prop} [Decidable c] {v : α} (hw : s.wait = some w)
    (hp : poll s = (if c then some v else none, s)) :
    await poll w go s =
      if c then go v s else .next (if s.cfg.pollBound.isSome then s.finish (result .errTimeout) else s) := by
  split
  · next hc => exact await_now h.polls (by rw [hp, if_pos hc])
  · next hc =>
    rw [if_neg hc] at hp
    exact await_stays h.polls hp hp rfl h.busy hw

theorem BusyAtRest.pollOn_cqcsr (b : Bool) :
    pollOn .cqcsr b s = (if cqOn s.regs = b then some () else none, s) := by
  simp [pollOn, mmioRead_settled h.settled, IommuRegs.get, cqOn]

theorem BusyAtRest.pollOn_fqcsr (b : Bool) :
    pollOn .fqcsr b s = (if fqOn s.regs = b then some () else none, s) := by
  simp [pollOn, mmioRead_settled h.settled, IommuRegs.get, fqOn]

theorem BusyAtRest.inWait (w : WaitPoint) : BusyAtRest { s with wait := some w } :=
  ⟨h.placed, h.settled, h.polls, h.busy, h.alone⟩
end

end Sys2Proof.Machine
end

section
/-! PROOFS. Each wait, resumed with the IOMMU at rest, and O60. -/

namespace Sys2Proof.Machine

/-! What a read of a register gives, as a number. -/

theorem get_cqcsr (g : IommuRegs) : g.get .cqcsr = BitVec.ofNat 64 g.cqcsr.toNat := (BitVec.ofNat_toNat _ _).symm

theorem get_fqcsr (g : IommuRegs) : g.get .fqcsr = BitVec.ofNat 64 g.fqcsr.toNat := (BitVec.ofNat_toNat _ _).symm

theorem get_cqh (g : IommuRegs) : g.get .cqh = BitVec.ofNat 64 (cqHead g) := (BitVec.ofNat_toNat _ _).symm

theorem and_low32_eq (v x : Word) : v &&& 0xFFFFFFFF = x ↔ v.toNat % 2 ^ 32 = x.toNat := by
  rw [← BitVec.toNat_inj, BitVec.toNat_and, ← Nat.and_two_pow_sub_one_eq_mod]
  rfl

/-- CQ.SYNC's poll with the IOMMU at rest. -/
theorem pollSync_settled {u : State} (hu : u.settled = true) (a0 a1 : Word) :
    pollSync a0 a1 u = if cqErr u.regs.cqcsr then (some (u.regs.get .cqcsr), u)
      else (if ((fence u).wordBlk a0.toNat).toNat % 2 ^ 32 = a1.toNat then some (u.regs.get .cqcsr) else none,
        fence u) := by
  simp only [pollSync_calm ((settled_iff u).1 hu).1, quiesce_settled hu, and_low32_eq]

/-! The waits, each resumed with the IOMMU at rest. -/

section
variable {s : State} (h : BusyAtRest s)
include h

/-- CQ.WAIT (R350). -/
theorem BusyAtRest.step_cqWait {t : Word} (hw : s.wait = some (.cqWait t)) :
    step s = .next (
      if cqErr s.regs.cqcsr then s.finish (result .errQueue (s.regs.get .cqh) (s.regs.get .cqcsr))
      else if s.regs.get .cqh = t then (fence s).finish (result .ok t (s.regs.get .cqcsr))
      else if s.cfg.pollBound.isSome then s.finish (result .errTimeout) else s) := by
  have poll : pollDrained t s = (if cqErr s.regs.cqcsr = true ∨ s.regs.get .cqh = t then
      some (s.regs.get .cqh, s.regs.get .cqcsr) else none, s) := by
    simp [pollDrained, mmioRead_settled h.settled, setWidth_cqcsr]
  rw [h.step_resumes hw, resume, cqWaitWait, h.await_registers hw poll]
  simp only [cqWaitFinish, setWidth_cqcsr, done]
  by_cases err : cqErr s.regs.cqcsr = true
  · simp [err]
  · by_cases drained : s.regs.get .cqh = t
    · simp [err, drained]
    · simp [err, drained]

/-- CQ.INIT (R346). -/
theorem BusyAtRest.step_cqInit {a0 t0 : Word} {n : BitVec 6} (hw : s.wait = some (.cqInit a0 n t0)) :
    step s = .next (
      if cqOn s.regs then
        { s with phase := .idle, wait := none, res := result .ok t0,
                 blk := { s.blk with cqState := .ready, cqBase := BitVec.ofNat 56 a0.toNat, cqLog2n := n } }
      else if s.cfg.pollBound.isSome then s.finish (result .errTimeout) else s) := by
  rw [h.step_resumes hw, resume, cqInitWait, h.await_registers hw (h.pollOn_cqcsr true), BitVec.ofNat_toNat]
  split <;> rfl

/-- FQ.INIT (R382). -/
theorem BusyAtRest.step_fqInit {a0 h0 : Word} {n : BitVec 6} (hw : s.wait = some (.fqInit a0 n h0)) :
    step s = .next (
      if fqOn s.regs then
        { s with phase := .idle, wait := none, res := result .ok h0,
                 blk := { s.blk with fqState := .ready, fqBase := BitVec.ofNat 56 a0.toNat, fqLog2n := n } }
      else if s.cfg.pollBound.isSome then s.finish (result .errTimeout) else s) := by
  rw [h.step_resumes hw, resume, fqInitWait, h.await_registers hw (h.pollOn_fqcsr true), BitVec.ofNat_toNat]
  split <;> rfl

/-- CQ.DISABLE (R354). -/
theorem BusyAtRest.step_cqDisable (hw : s.wait = some .cqDisable) :
    step s = .next (
      if cqOn s.regs then if s.cfg.pollBound.isSome then s.finish (result .errTimeout) else s
      else { s with phase := .idle, wait := none, blk := { s.blk with cqState := .disabled },
                    res := result .ok (s.regs.get .cqcsr) }) := by
  have off : cqDisableDone s = .next { s with
      phase := .idle, wait := none, blk := { s.blk with cqState := .disabled },
      res := result .ok (s.regs.get .cqcsr) } := by
    rw [cqDisableDone, mmioRead_settled (by exact h.settled)]
    rfl
  rw [h.step_resumes hw, resume, cqDisableWait, h.await_registers hw (h.pollOn_cqcsr false), off]
  cases cqOn s.regs <;> rfl

/-- FQ.DISABLE (R389). -/
theorem BusyAtRest.step_fqDisable (hw : s.wait = some .fqDisable) :
    step s = .next (
      if fqOn s.regs then if s.cfg.pollBound.isSome then s.finish (result .errTimeout) else s
      else { s with phase := .idle, wait := none, blk := { s.blk with fqState := .disabled },
                    res := result .ok (s.regs.get .fqcsr) }) := by
  have off : fqDisableDone s = .next { s with
      phase := .idle, wait := none, blk := { s.blk with fqState := .disabled },
      res := result .ok (s.regs.get .fqcsr) } := by
    rw [fqDisableDone, mmioRead_settled (by exact h.settled)]
    rfl
  rw [h.step_resumes hw, resume, fqDisableWait, h.await_registers hw (h.pollOn_fqcsr false), off]
  cases fqOn s.regs <;> rfl

/-- A FENCE right after a FENCE changes nothing. -/
theorem BusyAtRest.fence_fence : fence (fence s) = fence s := by
  rw [fence_calm (fence_weave h.calm), fence_calm h.calm]
  rfl

theorem BusyAtRest.fence_keeps : (fence s).settled = true ∧ (fence s).regs = s.regs ∧ (fence s).cfg = s.cfg ∧
    (fence s).phase = .busy ∧ (fence s).wait = s.wait := by
  rw [fence_calm h.calm]
  exact ⟨h.settled, rfl, rfl, h.busy, rfl⟩

/-- CQ.SYNC (R355). -/
theorem BusyAtRest.step_syncDone {a0 a1 t : Word} (hw : s.wait = some (.syncDone a0 a1 t)) :
    step s = .next (
      if cqErr s.regs.cqcsr then s.finish (result .errQueue t (s.regs.get .cqcsr))
      else if ((fence s).wordBlk a0.toNat).toNat % 2 ^ 32 = a1.toNat then
        (fence s).finish (result .ok t (s.regs.get .cqcsr))
      else if s.cfg.pollBound.isSome then (fence s).finish (result .errTimeout) else fence s) := by
  have first := pollSync_settled h.settled a0 a1
  obtain ⟨settled, regs, cfg, busy, wait⟩ := h.fence_keeps
  rw [h.step_resumes hw, resume, syncWait]
  by_cases err : cqErr s.regs.cqcsr = true
  · rw [if_pos err] at first
    simp [await_now h.polls first, syncFinish, setWidth_cqcsr, done, err]
  · rw [if_neg err] at first
    by_cases word : ((fence s).wordBlk a0.toNat).toNat % 2 ^ 32 = a1.toNat
    · rw [if_pos word] at first
      rw [await_now h.polls first]
      simp only [syncFinish, setWidth_cqcsr, done, if_neg err, if_pos word]
    · have again := pollSync_settled settled a0 a1
      rw [regs, h.fence_fence, if_neg err, if_neg word] at again
      rw [if_neg word] at first
      rw [await_stays h.polls first again cfg busy (wait.trans hw), if_neg err, if_neg word]

/-- CQ.SUBMIT's steps after the full-queue wait, and CQ.SYNC's (R347, R348, R355). -/
theorem BusyAtRest.step_submit {d0 d1 : Word} {for_ : SubmitFor} (geo : s.CqGeometry)
    (hw : s.wait = some (.submit d0 d1 (BitVec.ofNat 64 (cqTail s.regs)) for_)) :
    step s =
      if cqErr s.regs.cqcsr then
        .next (s.finish (result .errQueue (BitVec.ofNat 64 (cqTail s.regs)) (s.regs.get .cqcsr)))
      else if (cqTail s.regs + 1) % 2 ^ s.blk.cqLog2n.toNat = cqHead s.regs then
        .next (if s.cfg.pollBound.isSome then s.finish (result .errTimeout) else s)
      else submitThen for_ (BitVec.ofNat 64 (cqTail s.regs))
        (BitVec.ofNat 64 (s.blk.cqBase.toNat + 16 * cqTail s.regs)) (s.submitted d0 d1) := by
  have head : (s.regs.get .cqh).toNat = cqHead s.regs :=
    BitVec.toNat_setWidth_of_le (by norm_num)
  have poll : pollNotFull (BitVec.ofNat 64 (cqTail s.regs)) s =
      (if cqErr s.regs.cqcsr = true ∨ (cqTail s.regs + 1) % 2 ^ s.blk.cqLog2n.toNat ≠ cqHead s.regs then
        some (s.regs.get .cqcsr) else none, s) := by
    simp only [pollNotFull, mmioRead_settled h.settled, setWidth_cqcsr, toNat_cqTail, cqCapacity, head]
    by_cases err : cqErr s.regs.cqcsr = true
    · simp only [err, if_true, true_or]
    · simp only [err, Bool.false_eq_true, false_or, if_false]
  rw [h.step_resumes hw, resume, submitWait, h.await_registers hw poll]
  simp only [submitChecked, setWidth_cqcsr, done, submitStore_calm h.calm geo]
  by_cases err : cqErr s.regs.cqcsr = true
  · simp only [err, if_true, true_or]
  · by_cases full : (cqTail s.regs + 1) % 2 ^ s.blk.cqLog2n.toNat = cqHead s.regs
    · simp [err, full]
    · simp [err, full]

/-- The wait of CQ.SYNC that follows a submission is that of a block resumed in it. -/
theorem BusyAtRest.submitted_sync (geo : s.CqGeometry) (d0 d1 a0 a1 t : Word) (r : Result) :
    step { (s.submitted d0 d1).finish r with phase := .busy, wait := some (.syncDone a0 a1 t), res := s.res } =
      syncWait a0 a1 t (s.submitted d0 d1) := by
  have alike : SameButWait (s.submitted d0 d1)
      { (s.submitted d0 d1).finish r with phase := .busy, wait := some (.syncDone a0 a1 t), res := s.res } :=
    ⟨h.calm, some (.syncDone a0 a1 t), by simp only [State.aside, State.submitted, State.finish, h.busy, h.calm]⟩
  have placed : wellPlaced
      { (s.submitted d0 d1).finish r with phase := .busy, wait := some (.syncDone a0 a1 t), res := s.res } = true := by
    rw [← h.placed]
    simp only [wellPlaced, blockRegions, cqRegion, geo.ready, finish_blk, State.submitted]
    rfl
  rw [step_resumes_wait placed rfl h.alone rfl]
  exact alike.syncWait_alike a0 a1 t

/-- DDT.SET_MODE in its first wait goes on as from its start (R308). -/
theorem BusyAtRest.step_setModeReady {m : BitVec 4} (hw : s.wait = some (.setModeReady m))
    (legal : m.toNat < 2 ∨ (m.toNat ≤ 4 ∧ s.blk.ddtReady = true ∧ s.blk.ddtLvls.toNat = m.toNat - 1)) :
    step s = exec (.ddtSetMode m) s := by
  have known : ¬ 4 < m.toNat := by omega
  have built : ¬ (2 ≤ m.toNat && !(s.blk.ddtReady && s.blk.ddtLvls.toNat == m.toNat - 1)) = true := by
    rcases legal with small | ⟨-, ready, levels⟩
    · simp [Nat.not_le.2 small]
    · simp [ready, levels]
  have dispatch : exec (.ddtSetMode m) s = execDdtSetMode m s := rfl
  rw [h.step_resumes hw, dispatch, execDdtSetMode, if_neg known, if_neg built]
  rfl

/-- DDT.SET_MODE in its second wait (R308). -/
theorem BusyAtRest.step_setModeDone {m : BitVec 4} (hw : s.wait = some (.setModeDone m)) :
    step s = .next (s.finish (if s.regs.ddtp.toNat % 16 = m.toNat then result .ok s.regs.ddtp
      else result .errMode s.regs.ddtp)) := by
  have idle : ddtpBusy s.regs.ddtp = false := by
    obtain ⟨-, -, -, -, -, idle, -⟩ := (settled_iff s).1 h.settled
    exact idle
  have poll : pollDdtpIdle s = (some (), s) := by
    simp [pollDdtpIdle, mmioRead_settled h.settled, IommuRegs.get, idle]
  have mode : ddtpMode s.regs.ddtp = m ↔ s.regs.ddtp.toNat % 16 = m.toNat := by
    simp [← BitVec.toNat_inj, ddtpMode]
  rw [h.step_resumes hw, resume, setModeDone, await_now h.polls poll, setModeCheck, mmioRead_settled h.settled]
  by_cases same : s.regs.ddtp.toNat % 16 = m.toNat
  · simp [mode, same, done, IommuRegs.get]
  · simp [mode, same, done, IommuRegs.get]

end

/-- Settles O60: each wait by the lemma about its resumption; a submission by the one lemma about both its uses. -/
theorem waitsEndLater : Obligations.WaitsEndLater := by
  intro s placed settled polls busy alone csr fcsr head still ended
  have h : BusyAtRest s := ⟨placed, settled, polls, busy, alone⟩
  have hcsr : s.regs.get .cqcsr = csr := get_cqcsr s.regs
  have hfcsr : s.regs.get .fqcsr = fcsr := get_fqcsr s.regs
  have hhead : s.regs.get .cqh = head := get_cqh s.regs
  refine ⟨fun t hw => ?_, fun _ _ _ hw => h.step_cqInit hw, fun _ _ _ hw => h.step_fqInit hw, fun hw => ?_,
    fun hw => ?_, fun a0 a1 t hw => ?_, fun d0 d1 t for_ hw geo ht => ?_,
    fun m hw legal => h.step_setModeReady hw legal, fun m hw => h.step_setModeDone hw⟩
  · rw [h.step_cqWait hw, hcsr, hhead]
  · rw [h.step_cqDisable hw, hcsr]
  · rw [h.step_fqDisable hw, hfcsr]
  · rw [h.step_syncDone hw, hcsr]
  · subst ht
    have own := h.step_submit geo hw
    have plain := (h.inWait (.submit d0 d1 (BitVec.ofNat 64 (cqTail s.regs)) .submit)).step_submit
      ⟨geo.ready, geo.base, geo.size, geo.aligned⟩ rfl
    rw [hcsr] at own
    intro a next
    by_cases err : cqErr s.regs.cqcsr = true
    · rw [if_pos err] at own ⊢
      exact own
    · by_cases full : next = cqHead s.regs
      · rw [if_neg err, if_pos full] at own ⊢
        exact own
      · rw [if_neg err, if_neg full] at own plain ⊢
        obtain ⟨first, second⟩ := submitted_wordIo s d0 d1
        refine ⟨(s.submitted d0 d1).finish (result .ok (BitVec.ofNat 64 (cqTail s.regs)) (BitVec.ofNat 64 a)), plain,
          rfl, rfl, rfl, rfl, rfl, first, second, submitted_sameOutside .., submitted_asFenceOutside h.calm _ _ _, ?_⟩
        cases for_ with
        | submit => exact own
        | sync a0 a1 => exact own.trans (h.submitted_sync geo ..).symm

end Sys2Proof.Machine
end

section
/-! SUPPORT. What a write of the block and a move of the IOMMU leave of a register's reserved bits, said of any word
and any mask of bits that read 0. -/

namespace Sys2Proof.Machine

section
variable {w : Nat} {v m x : BitVec w}

theorem or_and_eq_zero (hv : v &&& m = 0) (hx : x &&& m = 0) : (v ||| x) &&& m = 0 := by
  rw [BitVec.and_or_distrib_right, hv, hx, BitVec.or_self]

theorem and_and_eq_zero (x : BitVec w) (hv : v &&& m = 0) : v &&& x &&& m = 0 := by
  rw [BitVec.and_assoc, BitVec.and_comm x, ← BitVec.and_assoc, hv]
  exact BitVec.zero_and

end

/-- A bit outside the mask may take either value. -/
theorem setBit_and_eq_zero {v m : BitVec 32} {i : Nat} (b : Bool) (hi : m.getLsbD i = false) (hv : v &&& m = 0) :
    setBit v i b &&& m = 0 := by
  cases b with
  | true => exact or_and_eq_zero hv (by rw [BitVec.twoPow_and, hi]; rfl)
  | false => exact and_and_eq_zero _ hv

/-- Bits 1:0 are written; the others are kept or cleared (R42, R43). -/
theorem csrWrite_and_eq_zero {old m : BitVec 32} (sticky v : BitVec 32) (hm : 0x3 &&& m = 0) (hv : old &&& m = 0) :
    csrWrite sticky old v &&& m = 0 :=
  or_and_eq_zero (and_and_eq_zero _ hv) (by rw [BitVec.and_assoc, hm]; exact BitVec.and_zero)

/-- The busy bit and the custom bits take any value (R42, R43). -/
theorem csrOther_and_eq_zero {v m : BitVec 32} (busy : Bool) (custom : BitVec 4) (hb : m.getLsbD 17 = false)
    (hc : ∀ c : BitVec 4, (c.setWidth 32 <<< 28) &&& m = 0) (hv : v &&& m = 0) :
    csrOther busy custom v &&& m = 0 :=
  setBit_and_eq_zero busy hb (or_and_eq_zero (and_and_eq_zero _ hv) (hc custom))

/-- The reserved bits of ddtp lie outside PPN, iommu_mode and busy (R39). -/
theorem ddtpWrite_reserved (c : Config) (warl : BitVec 4) {old : BitVec 64} (v : BitVec 64)
    (h : old &&& 0xFFC00000000003E0 = 0) : ddtpWrite c warl old v &&& 0xFFC00000000003E0 = 0 := by
  have mode : ∀ m : BitVec 4, m.setWidth 64 &&& (0xFFC00000000003E0 : BitVec 64) = 0 := by decide
  unfold ddtpWrite
  split
  · exact h
  · exact or_and_eq_zero (by rw [BitVec.and_assoc]; exact BitVec.and_zero) (mode _)

/-- The reserved bits of cqb and fqb lie outside PPN and LOG2SZ-1 (R40). -/
theorem queueBaseWrite_reserved (v : BitVec 64) : queueBaseWrite v &&& 0xFFC00000000003E0 = 0 := by
  rw [queueBaseWrite, BitVec.and_assoc]
  exact BitVec.and_zero

/-- A write of the block to any register keeps the reserved bits at 0. -/
theorem set_reservedZero {g : IommuRegs} (c : Config) (warl : BitVec 4) (r : MmioReg) (v : Word)
    (h : g.ReservedZero) : (g.set c warl r v).ReservedZero := by
  obtain ⟨ddtp, cqb, fqb, cqcsr, fqcsr⟩ := h
  cases r with
  | ddtp => exact ⟨ddtpWrite_reserved c warl v ddtp, cqb, fqb, cqcsr, fqcsr⟩
  | cqb => exact ⟨ddtp, queueBaseWrite_reserved v, fqb, cqcsr, fqcsr⟩
  | fqb => exact ⟨ddtp, cqb, queueBaseWrite_reserved v, cqcsr, fqcsr⟩
  | cqcsr => exact ⟨ddtp, cqb, fqb, csrWrite_and_eq_zero _ _ (by decide) cqcsr, fqcsr⟩
  | fqcsr => exact ⟨ddtp, cqb, fqb, cqcsr, csrWrite_and_eq_zero _ _ (by decide) fqcsr⟩
  | cqh | cqt | fqh | fqt => exact ⟨ddtp, cqb, fqb, cqcsr, fqcsr⟩

/-- So does each of the IOMMU's own changes of its registers. -/
theorem RegsMove.reservedZero {g g' : IommuRegs} (move : RegsMove g g') (h : g.ReservedZero) : g'.ReservedZero := by
  obtain ⟨ddtp, cqb, fqb, cqcsr, fqcsr⟩ := h
  cases move with
  | cqBit i b hi =>
    have outside : ∀ i ∈ [8, 9, 10, 11, 16, 17], (0x0FFCF0FC : BitVec 32).getLsbD i = false := by decide
    exact ⟨ddtp, cqb, fqb, setBit_and_eq_zero b (outside i hi) cqcsr, fqcsr⟩
  | fqBit i b hi =>
    have outside : ∀ i ∈ [8, 9, 16, 17], (0x0FFCFCFC : BitVec 32).getLsbD i = false := by decide
    exact ⟨ddtp, cqb, fqb, cqcsr, setBit_and_eq_zero b (outside i hi) fqcsr⟩
  | ddtpBusy b =>
    refine ⟨?_, cqb, fqb, cqcsr, fqcsr⟩
    cases b with
    | true => exact or_and_eq_zero ddtp (by decide)
    | false => exact and_and_eq_zero _ ddtp
  | cqOther b v => exact ⟨ddtp, cqb, fqb, csrOther_and_eq_zero b v (by decide) (by decide) cqcsr, fqcsr⟩
  | fqOther b v => exact ⟨ddtp, cqb, fqb, cqcsr, csrOther_and_eq_zero b v (by decide) (by decide) fqcsr⟩
  | cqh v | fqt v => exact ⟨ddtp, cqb, fqb, cqcsr, fqcsr⟩

@[simp] theorem drain_regs (k : Nat) (s : State) : (drain k s).regs = s.regs := by
  unfold drain
  repeat' split
  all_goals rfl

@[simp] theorem reveal_regs (k : Nat) (s : State) : (reveal k s).regs = s.regs := by
  unfold reveal
  repeat' split
  all_goals rfl

/-- Of the environment's moves, `regs` alone touches the IOMMU's registers. -/
theorem EnvMove.reservedZero {s t : State} (move : EnvMove s t) (h : s.regs.ReservedZero) : t.regs.ReservedZero := by
  cases move with
  | drain k => rwa [drain_regs]
  | reveal k => rwa [reveal_regs]
  | regs g move => exact move.reservedZero h
  | _ => exact h

theorem Move.reservedZero {s t : State} (move : Move s t) (h : s.regs.ReservedZero) : t.regs.ReservedZero := by
  cases move with
  | env move => exact move.reservedZero h
  | mmio r v => exact set_reservedZero _ _ r v h
  | _ => exact h

/-- The reset values of the IOMMU's registers have no reserved bit set (R563). -/
theorem resetIommu_reservedZero (s : State) : (resetIommu s).regs.ReservedZero := by
  rw [resetIommu_regs]
  refine ⟨?_, BitVec.zero_and, BitVec.zero_and, BitVec.zero_and, BitVec.zero_and⟩
  simp only [IommuRegs.reset]
  cases s.cfg.ddtpResetMode <;> rfl

theorem StepMove.reservedZero {s t : State} (move : StepMove s t) (h : s.regs.ReservedZero) : t.regs.ReservedZero := by
  cases move with
  | move move => exact move.reservedZero h
  | resetIommu => exact resetIommu_reservedZero s
  | take | begin | resetBlock => exact h

end Sys2Proof.Machine
end

section
/-! SUPPORT. RES and the wait: what each elementary move leaves of them, and what no operation changes. -/

namespace Sys2Proof.Machine

/-- Only `finish` writes RES, with a status code; only `hang` puts a block in a wait, and it makes it BUSY. -/
theorem Move.sequenced {s t : State} (move : Move s t) (h : s.Sequenced) : t.Sequenced := by
  cases move with
  | env move =>
    have same := move.sameBlock
    rwa [State.Sequenced, same.res, same.wait, same.phase]
  | finish r code => exact ⟨code, nofun⟩
  | hang w => exact ⟨h.1, fun _ => rfl⟩
  | write | fence | mmio | blk => exact h

theorem StepMove.sequenced {s t : State} (move : StepMove s t) (h : s.Sequenced) : t.Sequenced := by
  cases move with
  | move move => exact move.sequenced h
  | begin r => exact ⟨h.1, nofun⟩
  | resetBlock => exact ⟨⟨.ok, rfl⟩, nofun⟩
  | take | resetIommu => exact h

/-- The parameters, REQ and the inputs. -/
structure SamePort (s t : State) : Prop where
  cfg : t.cfg = s.cfg
  req : t.req = s.req
  inputs : t.inputs = s.inputs

theorem SamePort.trans {s t u : State} (h : SamePort s t) (k : SamePort t u) : SamePort s u :=
  ⟨k.cfg.trans h.cfg, k.req.trans h.req, k.inputs.trans h.inputs⟩

theorem Move.samePort {s t : State} (move : Move s t) : SamePort s t := by
  cases move with
  | env move => exact ⟨move.sameBlock.cfg, move.sameBlock.req, move.sameBlock.inputs⟩
  | _ => exact ⟨rfl, rfl, rfl⟩

/-- No operation and no wait changes the parameters, REQ or the inputs. -/
theorem Moves.samePort {s t : State} (h : Moves s t) : SamePort s t :=
  h.keep (P := SamePort s) (fun _ _ move same => same.trans move.samePort) ⟨rfl, rfl, rfl⟩

end Sys2Proof.Machine
end

section
/-! SUPPORT. Said once: how a request operation ends. What the block does before the end leaves RES and the registers
it does not write; then it finishes, or it hangs in a wait. -/

namespace Sys2Proof.Machine

/-- RES, and the block's registers as `k` looks at them. -/
def State.held (k : BlockRegs → BlockRegs) (s : State) : BlockRegs × Result := (k s.blk, s.res)

/-- The block's registers with those cleared that the instruction may write (R34 to R38). -/
def kept : Instr → BlockRegs → BlockRegs
  | .ptInit, b => { b with ptReady := false, s2Root := 0, s1Root := 0, poolNext := 0 }
  | .ptMap .., b => { b with poolNext := 0 }
  | .ddtRebuild .., b =>
    { b with ddtReady := false, ddtLvls := 0, ddtNext := 0, devValid := false, devLo := 0, devHi := 0 }
  | .ddtSetS1Mode _, b => { b with cfgS1Mode := 0 }
  | .ddtSetS2Mode _, b => { b with cfgS2Mode := 0 }
  | .ddtSetMsiMode _, b => { b with cfgMsiMode := 0 }
  | .ddtConfig .., b =>
    { b with cfgGscid := 0, cfgPscid := 0, cfgMsiMask := 0, cfgMsiPattern := 0, cfgDtf := false }
  | .msiInit, b => { b with msiReady := false }
  | .cqInit .., b => { b with cqState := .disabled, cqBase := 0, cqLog2n := 0 }
  | .cqDisable, b => { b with cqState := .disabled }
  | .fqInit .., b => { b with fqState := .disabled, fqBase := 0, fqLog2n := 0 }
  | .fqDisable, b => { b with fqState := .disabled }
  | _, b => b

/-- A next state differs in the block's registers only where `k` does not look, and the block is IDLE, or BUSY in a
wait with RES as it was. -/
structure Ends (k : BlockRegs → BlockRegs) (s : State) (o : Host.Outcome State Fault Refusal) : Prop where
  blk : ∀ t, o = .next t → k t.blk = k s.blk
  phase : ∀ t, o = .next t →
    (t.phase = .idle ∧ t.wait = none) ∨ (t.phase = .busy ∧ t.wait.isSome = true ∧ t.res = s.res)

section
variable {k : BlockRegs → BlockRegs} {s u : State}

/-! The primitives of `Ops` hold RES and every register. -/

theorem EnvMoves.held (h : EnvMoves s u) : u.held k = s.held k := by
  rw [State.held, h.sameBlock.blk, h.sameBlock.res, State.held]

@[simp] theorem held_pause : (pause s).held k = s.held k := (pause_moves s).held

@[simp] theorem held_pauseRead : (pauseRead s).held k = s.held k := (pauseRead_moves s).held

@[simp] theorem held_memWrite (a : Nat) (v : Word) : (memWrite a v s).held k = s.held k := held_pause

@[simp] theorem held_fence : (fence s).held k = s.held k := held_pause

@[simp] theorem held_mmioWrite (r : MmioReg) (v : Word) : (mmioWrite r v s).held k = s.held k := held_pause

@[simp] theorem held_zeroFill (n a : Nat) : (zeroFill n a s).held k = s.held k := by
  induction n generalizing a s with
  | zero => rfl
  | succ n ih => rw [zeroFill, ih, held_memWrite]

/-- A register that `k` does not look at may be written. -/
theorem held_setBlk {f : BlockRegs → BlockRegs} (hf : ∀ b, k (f b) = k b := by exact fun _ => rfl) :
    (s.setBlk f).held k = s.held k :=
  congrArg (·, s.res) (hf s.blk)

/-! The ends of an operation. -/

theorem ends_done (h : u.held k = s.held k) (r : Result) : Ends k s (done u r) := by
  obtain ⟨hb, -⟩ := Prod.ext_iff.1 h
  constructor <;> rintro _ ⟨⟩
  · exact hb
  · exact .inl ⟨rfl, rfl⟩

theorem ends_raise (h : u.held k = s.held k) (c : Status) : Ends k s (raise c u) := ends_done h _

theorem ends_hang (h : u.held k = s.held k) (w : WaitPoint) : Ends k s (hang w u) := by
  obtain ⟨hb, hr⟩ := Prod.ext_iff.1 h
  constructor <;> rintro _ ⟨⟩
  · exact hb
  · exact .inr ⟨rfl, rfl, hr⟩

theorem ends_fault (f : Fault) : Ends k s (.fault f) :=
  ⟨fun _ e => (nomatch e), fun _ e => (nomatch e)⟩

theorem Ends.after {o : Host.Outcome State Fault Refusal} (e : Ends k u o) (h : u.held k = s.held k) : Ends k s o := by
  obtain ⟨hb, hr⟩ := Prod.ext_iff.1 h
  exact ⟨fun t ht => (e.blk t ht).trans hb,
    fun t ht => (e.phase t ht).imp_right fun ⟨busy, wait, res⟩ => ⟨busy, wait, res.trans hr⟩⟩

theorem held_pollLoop {α : Type} {poll : State → Option α × State} (hp : ∀ u, (poll u).2.held k = u.held k)
    (n : Nat) (s : State) : (pollLoop poll n s).2.held k = s.held k := by
  induction n generalizing s with
  | zero => rfl
  | succ n ih =>
    have first := hp s
    rw [pollLoop]
    split <;> rename_i heq <;> rw [heq] at first
    · exact first
    · exact (ih _).trans first

theorem ends_await {α : Type} {poll : State → Option α × State} {w : WaitPoint}
    {go : α → State → Host.Outcome State Fault Refusal} (hp : ∀ u, (poll u).2.held k = u.held k)
    (hg : ∀ v u, Ends k u (go v u)) : Ends k s (await poll w go s) := by
  have polled := held_pollLoop hp (pollCount s) s
  rw [await]
  split <;> rename_i heq <;> rw [heq] at polled
  · exact (hg _ _).after polled
  · split
    · exact ends_raise polled _
    · exact ends_hang polled _

/-! The codec and the command encoders. -/

theorem execPteLeaf_ends (fl : BitVec 7) (a0 : Word) : Ends k s (execPteLeaf fl a0 s) := by
  unfold execPteLeaf
  split_ifs <;> exact ends_done rfl _

theorem execPteNonleaf_ends (a0 : Word) : Ends k s (execPteNonleaf a0 s) := by
  unfold execPteNonleaf
  split_ifs <;> exact ends_done rfl _

theorem execCmdIodirDdt_ends (dv : Bool) (a0 : Word) : Ends k s (execCmdIodirDdt dv a0 s) := by
  unfold execCmdIodirDdt
  split_ifs <;> exact ends_done rfl _

theorem execCmdIotinvalVma_ends (av gv pscv : Bool) (a0 a1 a2 : Word) :
    Ends k s (execCmdIotinvalVma av gv pscv a0 a1 a2 s) := by
  unfold execCmdIotinvalVma
  split_ifs <;> exact ends_done rfl _

theorem execCmdIotinvalGvma_ends (av gv : Bool) (a0 a1 : Word) : Ends k s (execCmdIotinvalGvma av gv a0 a1 s) := by
  unfold execCmdIotinvalGvma
  split_ifs <;> exact ends_done rfl _

theorem execCmdIofenceC_ends (av wsi : Bool) (a0 a1 : Word) : Ends k s (execCmdIofenceC av wsi a0 a1 s) := by
  unfold execCmdIofenceC
  split_ifs <;> exact ends_done rfl _

/-! The builder. -/

theorem execPtInit_ends : Ends (kept .ptInit) s (execPtInit s) := by
  unfold execPtInit
  exact ends_done (Eq.trans held_setBlk (by simp)) _

theorem held_dryWalk (st : Stage) (x : Word) (n l a : Nat) (news : List (Nat × Nat)) :
    (dryWalk st x n l a news s).2.held k = s.held k := by
  induction n generalizing l a s with
  | zero =>
    simp only [dryWalk, memRead]
    split <;> exact held_pause
  | succ n ih =>
    simp only [dryWalk, memRead]
    split
    case h_2 => exact (ih _ _).trans held_pause
    all_goals exact held_pause

theorem held_dryRun (st : Stage) (g : BitVec 2) (n : Nat) (x : Word) (news : List (Nat × Nat)) :
    (dryRun st g n x news s).2.held k = s.held k := by
  induction n generalizing x news s with
  | zero => rfl
  | succ n ih =>
    have walk := held_dryWalk (k := k) (s := s) st x (leafLevel g) 0 (rootOf s.blk st) news
    rw [dryRun]
    split <;> rename_i heq <;> rw [heq] at walk
    · exact walk
    · exact (ih _ _).trans walk

section
variable (hk : ∀ (b : BlockRegs) n, k { b with poolNext := n } = k b)
include hk

theorem held_allocTable (ea : Nat) : (allocTable ea s).2.held k = s.held k := by
  simp only [allocTable, held_memWrite, held_fence, held_zeroFill]
  exact held_setBlk fun b => hk b _

theorem held_descend (st : Stage) (x : Word) (n l a : Nat) : (descend st x n l a s).2.held k = s.held k := by
  induction n generalizing l a s with
  | zero => rfl
  | succ n ih =>
    simp only [descend, memRead]
    split
    · rw [ih, held_allocTable hk, held_pause]
    all_goals rw [ih, held_pause]

theorem held_mapGranules (st : Stage) (g : BitVec 2) (fl : BitVec 7) (n : Nat) (x p : Word) (last : Nat) :
    (mapGranules st g fl n x p last s).2.held k = s.held k := by
  induction n generalizing x p last s with
  | zero => rfl
  | succ n ih => simp only [mapGranules, ih, held_memWrite, held_descend hk]

theorem execPtMap_ends (st : Stage) (g : BitVec 2) (fl : BitVec 7) (a0 a1 a2 : Word) :
    Ends k s (execPtMap st g fl a0 a1 a2 s) := by
  have dry := held_dryRun (k := k) (s := s) st g a2.toNat a0 []
  unfold execPtMap
  split_ifs
  iterate 5 exact ends_raise rfl _
  split <;> rename_i heq <;> rw [heq] at dry
  · exact ends_raise dry _
  · split_ifs
    · exact ends_raise dry _
    · exact ends_done ((held_mapGranules hk ..).trans dry) _

end

theorem held_lookupWalk (st : Stage) (x : Word) (n a : Nat) : (lookupWalk st x n a s).2.held k = s.held k := by
  induction n generalizing a s with
  | zero => rfl
  | succ n ih =>
    simp only [lookupWalk, memRead]
    split
    case h_3 =>
      split_ifs
      · exact held_pause
      · exact (ih _).trans held_pause
    all_goals exact held_pause

theorem execPtLookup_ends (st : Stage) (a0 : Word) : Ends k s (execPtLookup st a0 s) := by
  have walk := held_lookupWalk (k := k) (s := s) st a0 3 (rootOf s.blk st)
  unfold execPtLookup
  split_ifs
  · exact ends_raise rfl _
  · exact ends_raise rfl _
  · exact ends_done walk _

/-! The MSI table. -/

theorem held_writeMsiEntry (ea : Nat) (d0 d1 : Word) : (writeMsiEntry ea d0 d1 s).held k = s.held k := by
  simp only [writeMsiEntry, held_memWrite, held_fence]

theorem execMsiInit_ends : Ends (kept .msiInit) s (execMsiInit s) := by
  unfold execMsiInit
  split_ifs
  · exact ends_raise rfl _
  · exact ends_done (Eq.trans held_setBlk (by simp)) _

theorem execMsiSetBasic_ends (c : Bool) (a0 a1 : Word) : Ends k s (execMsiSetBasic c a0 a1 s) := by
  unfold execMsiSetBasic
  split_ifs
  iterate 5 exact ends_raise rfl _
  exact ends_done (held_writeMsiEntry ..) _

theorem execMsiSetMrif_ends (c : Bool) (a0 a1 a2 a3 : Word) : Ends k s (execMsiSetMrif c a0 a1 a2 a3 s) := by
  unfold execMsiSetMrif
  split_ifs
  iterate 6 exact ends_raise rfl _
  exact ends_done (held_writeMsiEntry ..) _

theorem execMsiIndex_ends (a0 : Word) : Ends k s (execMsiIndex a0 s) := by
  unfold execMsiIndex
  split_ifs <;> exact ends_done rfl _

theorem execMsiMrifLoc_ends (a0 a1 : Word) : Ends k s (execMsiMrifLoc a0 a1 s) := by
  unfold execMsiMrifLoc
  split_ifs <;> exact ends_done rfl _

/-! The directory. -/

theorem execDdtConfig_ends (dtf : Bool) (a0 a1 a2 a3 : Word) :
    Ends (kept (.ddtConfig dtf a0 a1 a2 a3)) s (execDdtConfig dtf a0 a1 a2 a3 s) := by
  unfold execDdtConfig
  split_ifs
  · exact ends_raise rfl _
  · exact ends_done held_setBlk _

theorem held_dcWalk (f : DcFmt) (d j a : Nat) : (dcWalk f d j a s).2.held k = s.held k := by
  induction j generalizing a s with
  | zero => rfl
  | succ j ih =>
    unfold dcWalk memRead
    dsimp only
    split_ifs
    · exact held_pause
    · exact (ih _).trans held_pause

theorem held_dcAddr (d : Nat) : (dcAddr d s).2.held k = s.held k := held_dcWalk ..

theorem held_overContexts {f : Nat → State → State} (hf : ∀ a s, (f a s).held k = s.held k) {n d : Nat}
    (e : overContexts f n d s = some u) : u.held k = s.held k := by
  induction n generalizing d s with
  | zero =>
    cases e
    rfl
  | succ n ih =>
    have walk := held_dcAddr (k := k) (s := s) d
    rw [overContexts] at e
    split at e <;> rename_i heq
    · cases e
    · rw [heq] at walk
      exact ((ih e).trans (hf _ _)).trans walk

theorem held_writeWords (ws : List Word) (a : Nat) : (writeWords ws a s).held k = s.held k := by
  induction ws generalizing a s with
  | nil => rfl
  | cons w ws ih => rw [writeWords, ih, held_memWrite]

section
variable (hk : ∀ (b : BlockRegs) n, k { b with ddtNext := n } = k b)
include hk

theorem held_linkPath (d j a : Nat) : (linkPath d j a s).2.held k = s.held k := by
  induction j generalizing a s with
  | zero => rfl
  | succ j ih =>
    unfold linkPath linkPage memRead
    dsimp only
    split_ifs
    · rw [ih, held_memWrite, held_setBlk fun b => hk b _, held_pause]
    · rw [ih, held_pause]

theorem held_buildContexts (l n d : Nat) : (buildContexts l n d s).held k = s.held k := by
  induction n generalizing d s with
  | zero => rfl
  | succ n ih => simp only [buildContexts, ih, held_writeWords, held_linkPath hk]

end

theorem execDdtRebuild_ends (lv : BitVec 2) (a0 a1 : Word) :
    Ends (kept (.ddtRebuild lv a0 a1)) s (execDdtRebuild lv a0 a1 s) := by
  unfold execDdtRebuild mmioRead
  dsimp only
  split_ifs
  iterate 3 exact ends_raise rfl _
  · exact ends_raise held_pauseRead _
  · split
    · exact ends_fault _
    · rename_i heq
      have published := held_overContexts (k := kept (.ddtRebuild lv a0 a1)) (fun _ _ => held_memWrite ..) heq
      rw [held_fence, held_buildContexts fun _ _ => rfl, held_setBlk, held_fence, held_zeroFill, held_pauseRead]
        at published
      exact ends_done (Eq.trans held_setBlk published) _

theorem held_updatePtr (m : BitVec 4) (ppn : Word) (a : Nat) : (updatePtr m ppn a s).held k = s.held k :=
  (held_memWrite ..).trans held_pause

theorem updateContexts_ends (off : Nat) (m : BitVec 4) (ppn : Word) : Ends k s (updateContexts off m ppn s) := by
  rw [updateContexts]
  split
  · exact ends_fault _
  · rename_i heq
    exact ends_done (held_overContexts (fun _ _ => held_updatePtr ..) heq) _

theorem execDdtSetS1Mode_ends (m : BitVec 4) : Ends (kept (.ddtSetS1Mode m)) s (execDdtSetS1Mode m s) := by
  unfold execDdtSetS1Mode
  split_ifs
  · exact ends_raise rfl _
  · exact ends_raise rfl _
  · exact (updateContexts_ends ..).after held_setBlk

theorem execDdtSetS2Mode_ends (m : BitVec 4) : Ends (kept (.ddtSetS2Mode m)) s (execDdtSetS2Mode m s) := by
  unfold execDdtSetS2Mode
  split_ifs
  · exact ends_raise rfl _
  · exact ends_raise rfl _
  · exact (updateContexts_ends ..).after held_setBlk

theorem execDdtSetMsiMode_ends (m : BitVec 4) : Ends (kept (.ddtSetMsiMode m)) s (execDdtSetMsiMode m s) := by
  unfold execDdtSetMsiMode
  split_ifs
  iterate 3 exact ends_raise rfl _
  exact (updateContexts_ends ..).after held_setBlk

theorem setModeCheck_ends (m : BitVec 4) : Ends k s (setModeCheck m s) := by
  unfold setModeCheck mmioRead
  dsimp only
  split_ifs <;> exact ends_done held_pauseRead _

theorem setModeDone_ends (m : BitVec 4) : Ends k s (setModeDone m s) :=
  ends_await (fun _ => held_pauseRead) fun _ _ => setModeCheck_ends m

theorem setModeProgram_ends (m : BitVec 4) : Ends k s (setModeProgram m s) := by
  unfold setModeProgram mmioRead
  dsimp only
  split_ifs
  · exact ends_raise held_pauseRead _
  · exact (setModeDone_ends m).after (by simp)

theorem setModeReady_ends (m : BitVec 4) : Ends k s (setModeReady m s) :=
  ends_await (fun _ => held_pauseRead) fun _ _ => setModeProgram_ends m

theorem execDdtSetMode_ends (m : BitVec 4) : Ends k s (execDdtSetMode m s) := by
  unfold execDdtSetMode
  split_ifs
  · exact ends_raise rfl _
  · exact ends_raise rfl _
  · exact setModeReady_ends m

theorem execDdtLocate_ends (a0 : Word) : Ends k s (execDdtLocate a0 s) := by
  have walk := held_dcAddr (k := k) (s := s) a0.toNat
  unfold execDdtLocate
  split_ifs
  · exact ends_raise rfl _
  · exact ends_raise rfl _
  · split <;> rename_i heq <;> rw [heq] at walk
    · exact ends_done walk _
    · exact ends_done (held_pause.trans walk) _

/-! The command queue. -/

theorem held_pollOn (r : MmioReg) (b : Bool) : (pollOn r b s).2.held k = s.held k := held_pauseRead

theorem cqInitWait_ends (n : BitVec 6) (cie : Bool) (a0 a t0 : Word) :
    Ends (kept (.cqInit n cie a0)) s (cqInitWait a n t0 s) :=
  ends_await (fun _ => held_pollOn ..) fun _ _ => ends_done held_setBlk _

theorem execCqInit_ends (n : BitVec 6) (cie : Bool) (a0 : Word) :
    Ends (kept (.cqInit n cie a0)) s (execCqInit n cie a0 s) := by
  unfold execCqInit mmioRead
  dsimp only
  split_ifs
  iterate 4 exact ends_raise rfl _
  · exact ends_raise held_pauseRead _
  all_goals exact (cqInitWait_ends ..).after (by simp)

theorem held_pollSync (a0 a1 : Word) : (pollSync a0 a1 s).2.held k = s.held k := by
  unfold pollSync mmioRead memRead
  dsimp only
  split <;> simp

theorem syncWait_ends (a0 a1 x : Word) : Ends k s (syncWait a0 a1 x s) := by
  refine ends_await (fun _ => held_pollSync ..) fun v u => ?_
  unfold syncFinish
  split_ifs <;> exact ends_done rfl _

theorem submitThen_ends (b : SubmitFor) (x a : Word) : Ends k s (submitThen b x a s) := by
  cases b with
  | submit => exact ends_done rfl _
  | sync a0 a1 => exact syncWait_ends ..

theorem submitStore_ends (d0 d1 x : Word) (b : SubmitFor) : Ends k s (submitStore d0 d1 x b s) :=
  (submitThen_ends ..).after (by simp)

theorem held_pollNotFull (x : Word) : (pollNotFull x s).2.held k = s.held k := by
  unfold pollNotFull mmioRead
  dsimp only
  split <;> simp

theorem submitWait_ends (d0 d1 x : Word) (b : SubmitFor) : Ends k s (submitWait d0 d1 x b s) := by
  refine ends_await (fun _ => held_pollNotFull ..) fun v u => ?_
  unfold submitChecked
  split_ifs
  · exact ends_done rfl _
  · exact submitStore_ends ..

theorem submitSteps_ends (d0 d1 : Word) (b : SubmitFor) : Ends k s (submitSteps d0 d1 b s) := by
  unfold submitSteps mmioRead
  dsimp only
  split_ifs
  · exact (submitWait_ends ..).after (by simp)
  · exact (submitStore_ends ..).after (by simp)

theorem execCqSubmit_ends (a0 a1 : Word) : Ends k s (execCqSubmit a0 a1 s) := by
  unfold execCqSubmit
  split_ifs
  · exact ends_raise rfl _
  · exact submitSteps_ends ..

theorem cqWaitWait_ends (x : Word) : Ends k s (cqWaitWait x s) := by
  refine ends_await (fun _ => held_pauseRead.trans held_pauseRead) fun v u => ?_
  unfold cqWaitFinish
  split_ifs
  · exact ends_done rfl _
  · exact ends_done held_fence _

theorem execCqWait_ends : Ends k s (execCqWait s) := by
  unfold execCqWait
  split_ifs
  · exact ends_raise rfl _
  · exact (cqWaitWait_ends _).after held_pauseRead

theorem execCqStatus_ends : Ends k s (execCqStatus s) :=
  ends_done ((held_pauseRead.trans held_pauseRead).trans held_pauseRead) _

theorem execCqClear_ends : Ends k s (execCqClear s) := ends_done ((held_mmioWrite ..).trans held_pauseRead) _

theorem cqDisableWait_ends : Ends (kept .cqDisable) s (cqDisableWait s) :=
  ends_await (fun _ => held_pollOn ..) fun _ _ => ends_done (held_pauseRead.trans held_setBlk) _

theorem execCqDisable_ends : Ends (kept .cqDisable) s (execCqDisable s) :=
  cqDisableWait_ends.after ((held_mmioWrite ..).trans held_pauseRead)

theorem execCqSync_ends (a0 a1 : Word) : Ends k s (execCqSync a0 a1 s) := by
  unfold execCqSync
  split_ifs
  iterate 4 exact ends_raise rfl _
  · exact ends_fault _
  · exact (submitSteps_ends ..).after (held_memWrite ..)

/-! The fault queue. -/

theorem fqInitWait_ends (n : BitVec 6) (fie : Bool) (a0 a h0 : Word) :
    Ends (kept (.fqInit n fie a0)) s (fqInitWait a n h0 s) :=
  ends_await (fun _ => held_pollOn ..) fun _ _ => ends_done held_setBlk _

theorem execFqInit_ends (n : BitVec 6) (fie : Bool) (a0 : Word) :
    Ends (kept (.fqInit n fie a0)) s (execFqInit n fie a0 s) := by
  unfold execFqInit mmioRead
  dsimp only
  split_ifs
  iterate 4 exact ends_raise rfl _
  · exact ends_raise held_pauseRead _
  all_goals exact (fqInitWait_ends ..).after (by simp)

theorem takeRecord_ends (h : Word) : Ends k s (takeRecord h s) := ends_done (by simp) _

theorem execFqTryRead_ends : Ends k s (execFqTryRead s) := by
  unfold execFqTryRead mmioRead
  dsimp only
  split_ifs
  · exact ends_raise rfl _
  · exact ends_done (by simp) _
  · exact (takeRecord_ends _).after (by simp)

theorem execFqStatus_ends : Ends k s (execFqStatus s) :=
  ends_done ((held_pauseRead.trans held_pauseRead).trans held_pauseRead) _

theorem execFqClear_ends : Ends k s (execFqClear s) := ends_done ((held_mmioWrite ..).trans held_pauseRead) _

theorem fqDisableWait_ends : Ends (kept .fqDisable) s (fqDisableWait s) :=
  ends_await (fun _ => held_pollOn ..) fun _ _ => ends_done (held_pauseRead.trans held_setBlk) _

theorem execFqDisable_ends : Ends (kept .fqDisable) s (execFqDisable s) :=
  fqDisableWait_ends.after ((held_mmioWrite ..).trans held_pauseRead)

end

/-- Every request operation ends, with the registers it does not write as they were. -/
theorem exec_ends (i : Instr) (s : State) (request : isRequest i = true) : Ends (kept i) s (exec i s) := by
  cases i with
  | pteLeaf fl a0 => exact execPteLeaf_ends fl a0
  | pteNonleaf a0 => exact execPteNonleaf_ends a0
  | pteDecode a0 => exact ends_done rfl _
  | ptInit => exact execPtInit_ends
  | ptMap st g fl a0 a1 a2 => exact execPtMap_ends (fun _ _ => rfl) st g fl a0 a1 a2
  | ptLookup st a0 => exact execPtLookup_ends st a0
  | msiInit => exact execMsiInit_ends
  | msiSetBasic c a0 a1 => exact execMsiSetBasic_ends c a0 a1
  | msiSetMrif c a0 a1 a2 a3 => exact execMsiSetMrif_ends c a0 a1 a2 a3
  | msiIndex a0 => exact execMsiIndex_ends a0
  | msiMrifLoc a0 a1 => exact execMsiMrifLoc_ends a0 a1
  | ddtConfig dtf a0 a1 a2 a3 => exact execDdtConfig_ends dtf a0 a1 a2 a3
  | ddtRebuild lv a0 a1 => exact execDdtRebuild_ends lv a0 a1
  | ddtSetS1Mode m => exact execDdtSetS1Mode_ends m
  | ddtSetS2Mode m => exact execDdtSetS2Mode_ends m
  | ddtSetMsiMode m => exact execDdtSetMsiMode_ends m
  | ddtSetMode m => exact execDdtSetMode_ends m
  | ddtLocate a0 => exact execDdtLocate_ends a0
  | cmdIodirDdt dv a0 => exact execCmdIodirDdt_ends dv a0
  | cmdIotinvalVma av gv pscv a0 a1 a2 => exact execCmdIotinvalVma_ends av gv pscv a0 a1 a2
  | cmdIotinvalGvma av gv a0 a1 => exact execCmdIotinvalGvma_ends av gv a0 a1
  | cmdIofenceC av wsi a0 a1 => exact execCmdIofenceC_ends av wsi a0 a1
  | cqInit n cie a0 => exact execCqInit_ends n cie a0
  | cqSubmit a0 a1 => exact execCqSubmit_ends a0 a1
  | cqWait => exact execCqWait_ends
  | cqStatus => exact execCqStatus_ends
  | cqClear => exact execCqClear_ends
  | cqDisable => exact execCqDisable_ends
  | cqSync a0 a1 => exact execCqSync_ends a0 a1
  | fqInit n fie a0 => exact execFqInit_ends n fie a0
  | fqTryRead => exact execFqTryRead_ends
  | fqStatus => exact execFqStatus_ends
  | fqClear => exact execFqClear_ends
  | fqDisable => exact execFqDisable_ends
  | fqrDecode a0 a1 a2 a3 => exact ends_done rfl _
  | fence => exact ends_done held_fence _
  | iotinvalVma | iotinvalGvma | iofenceC | iodirInvalDdt => cases request

/-- A command of the IOMMU leaves every register of the block. -/
theorem exec_command_blk {i : Instr} {s t : State} (command : isRequest i = false) (e : exec i s = .next t) :
    t.blk = s.blk := by
  cases i with
  | iofenceC av wsi pr pw data addr =>
    cases e
    exact (fenceCommand_moves av wsi pr pw data addr s).sameBlock.blk
  | iotinvalVma | iotinvalGvma | iodirInvalDdt =>
    cases e
    rfl
  | _ => cases command

/-- An instruction, request or command, keeps every register but those it may write. -/
theorem exec_kept {i : Instr} {s t : State} (e : exec i s = .next t) : kept i t.blk = kept i s.blk := by
  cases request : isRequest i with
  | true => exact (exec_ends i s request).blk t e
  | false => rw [exec_command_blk request e]

/-! What `kept` keeps of each group of registers. -/

section
variable {i : Instr} {b c : BlockRegs} (same : kept i b = kept i c)
include same

/-- The roots are PT.INIT's (R34). -/
theorem kept_roots (h : i ≠ .ptInit) : b.ptReady = c.ptReady ∧ b.s1Root = c.s1Root ∧ b.s2Root = c.s2Root := by
  cases i with
  | ptInit => exact (h rfl).elim
  | _ => exact ⟨congrArg (·.ptReady) same, congrArg (·.s1Root) same, congrArg (·.s2Root) same⟩

/-- `pool_next` is PT.INIT's and PT.MAP's (R34). -/
theorem kept_poolNext (init : i ≠ .ptInit) (map : ∀ st g fl a0 a1 a2, i ≠ .ptMap st g fl a0 a1 a2) :
    b.poolNext = c.poolNext := by
  cases i with
  | ptInit => exact (init rfl).elim
  | ptMap => exact (map _ _ _ _ _ _ rfl).elim
  | _ => exact congrArg (·.poolNext) same

/-- The directory and the device range are DDT.REBUILD's (R35). -/
theorem kept_directory (h : ∀ lv a0 a1, i ≠ .ddtRebuild lv a0 a1) :
    b.ddtReady = c.ddtReady ∧ b.ddtLvls = c.ddtLvls ∧ b.ddtNext = c.ddtNext ∧ b.devValid = c.devValid ∧
      b.devLo = c.devLo ∧ b.devHi = c.devHi := by
  cases i with
  | ddtRebuild => exact (h _ _ _ rfl).elim
  | _ => exact ⟨congrArg (·.ddtReady) same, congrArg (·.ddtLvls) same, congrArg (·.ddtNext) same,
      congrArg (·.devValid) same, congrArg (·.devLo) same, congrArg (·.devHi) same⟩

/-- The stage-1 mode is DDT.SET_S1_MODE's (R35). -/
theorem kept_s1Mode (h : ∀ m, i ≠ .ddtSetS1Mode m) : b.cfgS1Mode = c.cfgS1Mode := by
  cases i with
  | ddtSetS1Mode => exact (h _ rfl).elim
  | _ => exact congrArg (·.cfgS1Mode) same

/-- The stage-2 mode is DDT.SET_S2_MODE's (R35). -/
theorem kept_s2Mode (h : ∀ m, i ≠ .ddtSetS2Mode m) : b.cfgS2Mode = c.cfgS2Mode := by
  cases i with
  | ddtSetS2Mode => exact (h _ rfl).elim
  | _ => exact congrArg (·.cfgS2Mode) same

/-- The MSI mode is DDT.SET_MSI_MODE's (R35). -/
theorem kept_msiMode (h : ∀ m, i ≠ .ddtSetMsiMode m) : b.cfgMsiMode = c.cfgMsiMode := by
  cases i with
  | ddtSetMsiMode => exact (h _ rfl).elim
  | _ => exact congrArg (·.cfgMsiMode) same

/-- The rest of the context is DDT.CONFIG's (R35). -/
theorem kept_context (h : ∀ f a0 a1 a2 a3, i ≠ .ddtConfig f a0 a1 a2 a3) :
    b.cfgGscid = c.cfgGscid ∧ b.cfgPscid = c.cfgPscid ∧ b.cfgMsiMask = c.cfgMsiMask ∧
      b.cfgMsiPattern = c.cfgMsiPattern ∧ b.cfgDtf = c.cfgDtf := by
  cases i with
  | ddtConfig => exact (h _ _ _ _ _ rfl).elim
  | _ => exact ⟨congrArg (·.cfgGscid) same, congrArg (·.cfgPscid) same, congrArg (·.cfgMsiMask) same,
      congrArg (·.cfgMsiPattern) same, congrArg (·.cfgDtf) same⟩

/-- `msi_ready` is MSI.INIT's (R36). -/
theorem kept_msiReady (h : i ≠ .msiInit) : b.msiReady = c.msiReady := by
  cases i with
  | msiInit => exact (h rfl).elim
  | _ => exact congrArg (·.msiReady) same

/-- The command queue is CQ.INIT's, its state CQ.DISABLE's too (R37). -/
theorem kept_cq (h : ∀ n f a0, i ≠ .cqInit n f a0) :
    b.cqBase = c.cqBase ∧ b.cqLog2n = c.cqLog2n ∧ (i ≠ .cqDisable → b.cqState = c.cqState) := by
  cases i with
  | cqInit => exact (h _ _ _ rfl).elim
  | cqDisable => exact ⟨congrArg (·.cqBase) same, congrArg (·.cqLog2n) same, fun other => (other rfl).elim⟩
  | _ => exact ⟨congrArg (·.cqBase) same, congrArg (·.cqLog2n) same, fun _ => congrArg (·.cqState) same⟩

/-- The fault queue is FQ.INIT's, its state FQ.DISABLE's too (R38). -/
theorem kept_fq (h : ∀ n f a0, i ≠ .fqInit n f a0) :
    b.fqBase = c.fqBase ∧ b.fqLog2n = c.fqLog2n ∧ (i ≠ .fqDisable → b.fqState = c.fqState) := by
  cases i with
  | fqInit => exact (h _ _ _ rfl).elim
  | fqDisable => exact ⟨congrArg (·.fqBase) same, congrArg (·.fqLog2n) same, fun other => (other rfl).elim⟩
  | _ => exact ⟨congrArg (·.fqBase) same, congrArg (·.fqLog2n) same, fun _ => congrArg (·.fqState) same⟩

end

end Sys2Proof.Machine
end

section
/-! PROOFS. O4, O8, O12, O13, O16 and O17. -/

namespace Sys2Proof.Machine

/-- Settles O4: an idle block accepts the request. -/
theorem stepRunsRequest : Obligations.StepRunsRequest := by
  intro s r rest i placed idle next decodes
  simp only [step, placed, if_true, turn, next, idle, accept, decodes]

/-- Settles O8: with a request or no input next, the turn is the block's, and no wait takes an input. -/
theorem busyBlockWaits : Obligations.BusyBlockWaits := by
  intro s w placed busy waits next
  have resumed : step s = resume w s := by
    rcases next with alone | ⟨r, rest, next⟩
    · exact step_resumes_wait placed busy alone waits
    · simp only [step, placed, if_true, turn, next, busy, blockTurn, waits]
  exact ⟨resumed, fun t e => (resume_moves w (resumed.symm.trans e)).samePort.inputs⟩

/-- Settles O12: each elementary move of a step keeps the reserved bits, so a step does. -/
theorem stepKeepsReserved : Obligations.StepKeepsReserved := fun _ _ h e =>
  (step_moves e).keep (P := fun s => s.regs.ReservedZero) (fun _ _ => StepMove.reservedZero) h

/-- Settles O13: each elementary move of a step keeps both parts, so a step does. -/
theorem stepKeepsSequencing : Obligations.StepKeepsSequencing := fun _ _ h e =>
  (step_moves e).keep (fun _ _ => StepMove.sequenced) h

/-- Settles O16: the moves of an operation keep its port, and it ends as every request operation does. -/
theorem operationsFinish : Obligations.OperationsFinish := by
  intro i s t request e
  obtain ⟨cfg, req, inputs⟩ := (exec_moves i e).samePort
  exact ⟨req, cfg, inputs, (exec_ends i s request).phase t e⟩

/-- Settles O17: an instruction keeps what `kept` keeps, and for each group of registers that is the group unless the
instruction is one of its writers. -/
theorem registersHaveTheirWriters : Obligations.RegistersHaveTheirWriters := by
  intro i s t e
  have same := exec_kept e
  exact ⟨kept_roots same, kept_poolNext same, kept_directory same, kept_s1Mode same, kept_s2Mode same,
    kept_msiMode same, kept_context same, kept_msiReady same, kept_cq same, kept_fq same⟩

end Sys2Proof.Machine
end

section
/-! SUPPORT. The two views of memory: the canonical form of both, and, byte by byte, their agreement, through each
elementary move of a step. -/

namespace Sys2Proof.Machine

/-! The ranges of bytes. -/

theorem ByteRange.covers_eq_false {r : ByteRange} {a : Nat} :
    r.covers a = false ↔ a < r.addr ∨ r.addr + r.size ≤ a := by
  rw [ByteRange.covers, Bool.and_eq_false_iff, decide_eq_false_iff_not, decide_eq_false_iff_not]
  omega

/-- A pending write that does not meet a range has none of its bytes there. -/
theorem PendingWrite.outside_of_not_meets {p : PendingWrite} {r : ByteRange} {a : Nat} (apart : p.meets r = false)
    (h : r.covers a = true) : a < p.addr ∨ p.addr + 8 ≤ a := by
  simp only [ByteRange.covers, Bool.and_eq_true, decide_eq_true_eq] at h
  simp only [PendingWrite.meets, overlaps, Bool.and_eq_false_iff, decide_eq_false_iff_not] at apart
  omega

/-! What a drain and a reveal do, when they do anything. -/

theorem eq_append_of_getElem?_eq_some {α : Type} {l : List α} {k : Nat} {x : α} (h : l[k]? = some x) :
    l = l.take k ++ x :: l.drop (k + 1) := by
  obtain ⟨hk, rfl⟩ := List.getElem?_eq_some_iff.1 h
  rw [List.getElem_cons_drop, List.take_append_drop]

/-- The element drained shares no byte with the older ones (R96). -/
theorem drain_cases (k : Nat) (s : State) : drain k s = s ∨ ∃ older p newer,
    s.pend = older ++ p :: newer ∧ (∀ q ∈ older, q.meets ⟨p.addr, 8⟩ = false) ∧
      drain k s = { s with memIo := s.memIo.store64 p.addr p.val, pend := older ++ newer } := by
  unfold drain
  split
  · exact .inl rfl
  · next p hp =>
    split
    · next may =>
      refine .inr ⟨_, p, _, eq_append_of_getElem?_eq_some hp, ?_, by rw [List.eraseIdx_eq_take_drop_succ]⟩
      simpa [mayDrain] using may
    · exact .inl rfl

/-- The range revealed shares no byte with a pending write (R92, R97). -/
theorem reveal_cases (k : Nat) (s : State) : reveal k s = s ∨ ∃ older r newer,
    s.unseen = older ++ r :: newer ∧ (∀ p ∈ s.pend, p.meets r = false) ∧
      reveal k s = { s with memBlk := s.memBlk.copyFrom s.memIo r, unseen := older ++ newer } := by
  unfold reveal
  split
  · exact .inl rfl
  · next r hr =>
    split
    · exact .inl rfl
    · next apart =>
      refine .inr ⟨_, r, _, eq_append_of_getElem?_eq_some hr, ?_, by rw [List.eraseIdx_eq_take_drop_succ]⟩
      simpa using apart

/-! The canonical form. -/

theorem EnvMove.memoryOk {s t : State} (move : EnvMove s t) (h : s.MemoryOk) : t.MemoryOk := by
  obtain ⟨blk, io⟩ := h
  cases move with
  | drain k =>
    rcases drain_cases k s with same | ⟨_, p, _, _, _, drained⟩
    · rw [same]
      exact ⟨blk, io⟩
    · rw [drained]
      exact ⟨blk, Memory.wf_store64 _ _ _ io⟩
  | reveal k =>
    rcases reveal_cases k s with same | ⟨_, r, _, _, _, revealed⟩
    · rw [same]
      exact ⟨blk, io⟩
    · rw [revealed]
      exact ⟨Memory.wf_copyFrom _ _ _ blk, io⟩
  | store a n v => exact ⟨blk, Memory.wf_storeN _ _ _ _ io⟩
  | _ => exact ⟨blk, io⟩

theorem Move.memoryOk {s t : State} (move : Move s t) (h : s.MemoryOk) : t.MemoryOk := by
  obtain ⟨blk, io⟩ := h
  cases move with
  | env move => exact move.memoryOk ⟨blk, io⟩
  | write a v => exact ⟨Memory.wf_store64 _ _ _ blk, io⟩
  | fence => exact ⟨revealAll_wf _ _ _ blk, drainAll_wf _ _ io⟩
  | mmio | blk | finish | hang => exact ⟨blk, io⟩

/-- A reset gives the block the IOMMU's view. -/
theorem StepMove.memoryOk {s t : State} (move : StepMove s t) (h : s.MemoryOk) : t.MemoryOk := by
  cases move with
  | move move => exact move.memoryOk h
  | resetBlock => exact ⟨h.2, h.2⟩
  | take | begin | resetIommu => exact h

/-! The agreement of the two views. -/

/-- A write drained ahead of older ones that share no byte with it leaves what it leaves in its turn. -/
theorem drainAll_store64_read (m : Memory) (older : List PendingWrite) (p : PendingWrite) (a : Nat)
    (apart : ∀ q ∈ older, q.meets ⟨p.addr, 8⟩ = false) :
    (drainAll (m.store64 p.addr p.val) older).read a = ((drainAll m older).store64 p.addr p.val).read a := by
  cases covered : ByteRange.covers ⟨p.addr, 8⟩ a with
  | true =>
    have spared : ∀ q ∈ older, a < q.addr ∨ q.addr + 8 ≤ a := fun q hq =>
      PendingWrite.outside_of_not_meets (apart q hq) covered
    calc (drainAll (m.store64 p.addr p.val) older).read a
      _ = (m.store64 p.addr p.val).read a := drainAll_read_other _ _ _ spared
      _ = ((drainAll m older).store64 p.addr p.val).read a :=
        drainAll_read_congr m _ [p] a (drainAll_read_other _ _ _ spared).symm
  | false =>
    have outside : a < p.addr ∨ p.addr + 8 ≤ a := ByteRange.covers_eq_false.1 covered
    calc (drainAll (m.store64 p.addr p.val) older).read a
      _ = (drainAll m older).read a := drainAll_read_congr _ _ _ _ (Memory.read_store64 _ _ _ _ outside)
      _ = ((drainAll m older).store64 p.addr p.val).read a := (Memory.read_store64 _ _ _ _ outside).symm

/-- What the IOMMU will read once P has drained is the same before and after an early drain. -/
theorem drainAll_early_read (m : Memory) (older newer : List PendingWrite) (p : PendingWrite) (a : Nat)
    (apart : ∀ q ∈ older, q.meets ⟨p.addr, 8⟩ = false) :
    (drainAll (m.store64 p.addr p.val) (older ++ newer)).read a = (drainAll m (older ++ p :: newer)).read a := by
  rw [drainAll_append, drainAll_append]
  exact drainAll_read_congr _ _ newer a (drainAll_store64_read m older p a apart)

theorem drain_coherent (k : Nat) {s : State} (h : s.Coherent) : (drain k s).Coherent := by
  rcases drain_cases k s with same | ⟨older, p, newer, pending, apart, drained⟩
  · rwa [same]
  · rw [drained]
    intro a seen
    calc s.memBlk.read a
      _ = (drainAll s.memIo s.pend).read a := h a seen
      _ = (drainAll s.memIo (older ++ p :: newer)).read a := by rw [pending]
      _ = _ := (drainAll_early_read s.memIo older newer p a apart).symm

/-- A byte of the range revealed has no pending write: it is copied from what the IOMMU reads already. -/
theorem reveal_coherent (k : Nat) {s : State} (h : s.Coherent) : (reveal k s).Coherent := by
  rcases reveal_cases k s with same | ⟨older, r, newer, hidden, apart, revealed⟩
  · rwa [same]
  · rw [revealed]
    intro a seen
    change (s.memBlk.copyFrom s.memIo r).read a = (drainAll s.memIo s.pend).read a
    rw [Memory.read_copyFrom]
    cases covered : r.covers a with
    | true =>
      rw [if_pos (by simpa [ByteRange.covers] using covered)]
      exact (drainAll_read_other _ _ _ fun p hp => PendingWrite.outside_of_not_meets (apart p hp) covered).symm
    | false =>
      rw [if_neg (by have := ByteRange.covers_eq_false.1 covered; omega)]
      refine h a fun q hq => ?_
      rw [hidden, List.mem_append, List.mem_cons] at hq
      rcases hq with hq | rfl | hq
      · exact seen q (List.mem_append_left _ hq)
      · exact covered
      · exact seen q (List.mem_append_right _ hq)

/-- A store of another agent changes only bytes of the range it leaves unseen. -/
theorem ioStore_coherent (a n : Nat) (v : Word) {s : State} (h : s.Coherent) : (ioStore a n v s).Coherent := by
  intro b seen
  have outside : b < a ∨ a + n ≤ b := ByteRange.covers_eq_false.1 (seen ⟨a, n⟩ (by simp [ioStore]))
  calc s.memBlk.read b
    _ = (drainAll s.memIo s.pend).read b := h b fun r hr => seen r (List.mem_append_left _ hr)
    _ = _ := drainAll_read_congr _ _ _ _ (Memory.read_storeN _ _ _ _ _ outside).symm

theorem EnvMove.coherent {s t : State} (move : EnvMove s t) (h : s.Coherent) : t.Coherent := by
  cases move with
  | drain k => exact drain_coherent k h
  | reveal k => exact reveal_coherent k h
  | store a n v => exact ioStore_coherent a n v h
  | _ => exact h

/-- A write of the block is in its own view what it will be, the last of P, in the IOMMU's (R92, R96). -/
theorem write_coherent (a : Nat) (v : Word) {s : State} (h : s.Coherent) :
    State.Coherent { s with memBlk := s.memBlk.store64 a v, pend := s.pend ++ [⟨a, v⟩] } := by
  intro b seen
  change (s.memBlk.store64 a v).read b = (drainAll s.memIo (s.pend ++ [⟨a, v⟩])).read b
  rw [drainAll_append]
  exact drainAll_read_congr _ _ [⟨a, v⟩] b (h b seen)

/-- A fence takes the bytes others wrote from the drained memory; the rest agreed with it before (R410). -/
theorem fence_coherent {s : State} (h : s.Coherent) :
    State.Coherent { s with memIo := drainAll s.memIo s.pend, pend := [],
                            memBlk := revealAll s.memBlk (drainAll s.memIo s.pend) s.unseen, unseen := [] } := by
  intro a _
  change (revealAll s.memBlk (drainAll s.memIo s.pend) s.unseen).read a = (drainAll s.memIo s.pend).read a
  rw [revealAll_read]
  split
  · rfl
  · next unwritten => exact h a (by simpa using unwritten)

theorem Move.coherent {s t : State} (move : Move s t) (h : s.Coherent) : t.Coherent := by
  cases move with
  | env move => exact move.coherent h
  | write a v => exact write_coherent a v h
  | fence => exact fence_coherent h
  | mmio | blk | finish | hang => exact h

/-- A reset of the block leaves one memory: nothing pending, nothing unseen. -/
theorem StepMove.coherent {s t : State} (move : StepMove s t) (h : s.Coherent) : t.Coherent := by
  cases move with
  | move move => exact move.coherent h
  | resetBlock => exact fun _ _ => rfl
  | take | begin | resetIommu => exact h

end Sys2Proof.Machine
end

section
/-! PROOFS. O10 and O11. -/

namespace Sys2Proof.Machine

/-- Settles O10: each elementary move of a step keeps both canonical forms, so a step does. -/
theorem stepKeepsMemory : Obligations.StepKeepsMemory := fun _ _ h e =>
  (step_moves e).keep (fun _ _ => StepMove.memoryOk) h

/-- Settles O11: each elementary move of a step keeps the agreement, byte by byte, so a step does. The canonical form
is not needed for it: no memory is compared but by what its bytes read as. -/
theorem stepKeepsCoherence : Obligations.StepKeepsCoherence := fun _ _ _ h e =>
  (step_moves e).keep (fun _ _ => StepMove.coherent) h

end Sys2Proof.Machine
end

section
/-! SUPPORT. The words of instructions: the fields of an operation word (R121), what an operand's bits become in a
word, and what is left of them under a mask. -/

namespace Sys2Proof.Machine

/-! The fields of an operation word. -/

theorem getLsbD_opWord (opc fn fl : BitVec 8) (j : Nat) :
    (opWord opc fn fl).getLsbD j =
      if j < 8 then opc.getLsbD j else if j < 16 then fn.getLsbD (j - 8) else fl.getLsbD (j - 16) := by
  have bits : (opWord opc fn fl).getLsbD j = BitVec.getLsbD ((0#40 ++ fl) ++ (fn ++ opc)) j := rfl
  rw [bits]
  simp only [BitVec.getLsbD_append, BitVec.getLsbD_zero]
  grind

@[simp] theorem opcOf_opWord (opc fn fl : BitVec 8) : opcOf (opWord opc fn fl) = opc := by
  ext j hj
  simp [opcOf, getLsbD_opWord, hj]

@[simp] theorem fnOf_opWord (opc fn fl : BitVec 8) : fnOf (opWord opc fn fl) = fn := by
  ext j hj
  simp [fnOf, getLsbD_opWord, hj, show 8 + j < 16 by omega]

@[simp] theorem flOf_opWord (opc fn fl : BitVec 8) : flOf (opWord opc fn fl) = fl := by
  ext j hj
  simp [flOf, getLsbD_opWord, hj, show ¬ 16 + j < 8 by omega]

@[simp] theorem reserved_opWord (opc fn fl : BitVec 8) : (opWord opc fn fl).extractLsb' 24 40 = 0 := by
  ext j hj
  simp [getLsbD_opWord, show ¬ 24 + j < 8 by omega, show ¬ 24 + j < 16 by omega, show 8 ≤ 24 + j - 16 by omega]

/-- The four fields are the whole word. -/
theorem opWord_ext {a b : Word} (reserved : a.extractLsb' 24 40 = b.extractLsb' 24 40) (opc : opcOf a = opcOf b)
    (fn : fnOf a = fnOf b) (fl : flOf a = flOf b) : a = b := by
  refine BitVec.eq_of_getLsbD_eq fun j hj => ?_
  have bit {n s : Nat} (h : a.extractLsb' s n = b.extractLsb' s n) (low : s ≤ j) (high : j < s + n) :
      a.getLsbD j = b.getLsbD j := by
    have := congrArg (·.getLsbD (j - s)) h
    simpa [show j - s < n by omega, show s + (j - s) = j by omega] using this
  rcases Nat.lt_or_ge j 8 with h | h
  · exact bit opc (by omega) (by omega)
  rcases Nat.lt_or_ge j 16 with h | h
  · exact bit fn (by omega) (by omega)
  rcases Nat.lt_or_ge j 24 with h | h
  · exact bit fl (by omega) (by omega)
  · exact bit reserved h (by omega)

theorem opWord_fields {op : Word} (reserved : op.extractLsb' 24 40 = 0) :
    opWord (opcOf op) (fnOf op) (flOf op) = op :=
  opWord_ext (by simp [reserved]) (by simp) (by simp) (by simp)

/-! A flag of FL: its bits, and what a mask without its bit leaves of it. -/

theorem getLsbD_flag (b : Bool) {i : Nat} (j : Nat) (hi : i < 8) : (flag b i).getLsbD j = (b && decide (i = j)) := by
  cases b
  · simp [flag]
  · simp [flag, BitVec.getLsbD_twoPow, hi]

theorem flag_and (b : Bool) {i : Nat} {m : BitVec 8} (h : m.getLsbD i = false) : flag b i &&& m = 0 := by
  cases b
  · simp [flag]
  · simp [flag, BitVec.twoPow_and, h]

/-! A flag and a field of a command's doubleword: their bits, the fields they lie in, and what a mask leaves. -/

theorem getLsbD_wordBit (b : Bool) {i : Nat} (j : Nat) (hi : i < 64) :
    (wordBit b i).getLsbD j = (b && decide (i = j)) := by
  cases b
  · simp [wordBit]
  · simp [wordBit, BitVec.getLsbD_twoPow, hi]

theorem wordBit_extract (b : Bool) {i s n : Nat} (h : i < s ∨ s + n ≤ i) : (wordBit b i).extractLsb' s n = 0 := by
  ext j hj
  cases b
  · simp [wordBit]
  · simp [wordBit, BitVec.getLsbD_twoPow, show i ≠ s + j by omega]

theorem wordBit_and (b : Bool) {i : Nat} {m : Word} (h : m.getLsbD i = false) : wordBit b i &&& m = 0 := by
  cases b
  · simp [wordBit]
  · simp [wordBit, BitVec.twoPow_and, h]

theorem getLsbD_wordField {n : Nat} (v : BitVec n) (i j : Nat) :
    (wordField v i).getLsbD j = (decide (j < 64) && decide (i ≤ j) && v.getLsbD (j - i)) := by
  simp only [wordField, BitVec.getLsbD_shiftLeft, BitVec.getLsbD_setWidth]
  grind

theorem getLsbD_wordField_outside {n : Nat} (v : BitVec n) {i j : Nat} (h : j < i ∨ i + n ≤ j) :
    (wordField v i).getLsbD j = false := by
  rw [getLsbD_wordField]
  rcases h with h | h
  · simp [h]
  · simp [BitVec.getLsbD_of_ge v (j - i) (by omega)]

theorem wordField_extract_same {n : Nat} (v : BitVec n) {i : Nat} (h : i + n ≤ 64) :
    (wordField v i).extractLsb' i n = v := by
  refine BitVec.eq_of_getLsbD_eq fun j hj => ?_
  rw [BitVec.getLsbD_extractLsb', getLsbD_wordField]
  simp [hj, show i + j < 64 by omega]

theorem wordField_extract_outside {n : Nat} (v : BitVec n) {i s k : Nat} (h : i + n ≤ s ∨ s + k ≤ i) :
    (wordField v i).extractLsb' s k = 0 := by
  ext j hj
  simp [getLsbD_wordField_outside v (i := i) (j := s + j) (by omega)]

theorem wordField_and {n : Nat} (v : BitVec n) {i : Nat} {m : Word} (h : m.extractLsb' i n = 0) :
    wordField v i &&& m = 0 := by
  refine BitVec.eq_of_getLsbD_eq fun j _ => ?_
  by_cases inside : i ≤ j ∧ j < i + n
  · have clear := congrArg (·.getLsbD (j - i)) h
    simp only [BitVec.getLsbD_extractLsb', show i + (j - i) = j by omega] at clear
    simp_all [show j - i < n by omega]
  · simp [getLsbD_wordField_outside v (i := i) (j := j) (by omega)]

/-! The checks that let an instruction through. -/

theorem ifUnusedZero_eq_ok {fnUsed flUsed fn fl : BitVec 8} {i i' : Instr} :
    ifUnusedZero fnUsed flUsed fn fl i = .ok i' ↔ fn &&& ~~~fnUsed = 0 ∧ fl &&& ~~~flUsed = 0 ∧ i = i' := by
  simp only [ifUnusedZero]
  grind

theorem ifReservedZero_eq_ok {m0 m1 d0 d1 : Word} {i i' : Instr} :
    ifReservedZero m0 m1 d0 d1 i = .ok i' ↔ d0 &&& m0 = 0 ∧ d1 &&& m1 = 0 ∧ i = i' := by
  simp only [ifReservedZero]
  grind

/-! The fields an operation uses of FN and FL: what the mask of the unused bits leaves of them, and that they are the
whole of FN or FL when that mask leaves nothing. -/

theorem setWidth_and {n : Nat} (v : BitVec n) {m : BitVec 8} (h : m.setWidth n = 0) : v.setWidth 8 &&& m = 0 := by
  refine BitVec.eq_of_getLsbD_eq fun j hj => ?_
  have bit := congrArg (·.getLsbD j) h
  by_cases inside : j < n
  · simp only [BitVec.getLsbD_setWidth, inside] at bit
    simp_all
  · simp [BitVec.getLsbD_of_ge v j (by omega)]

theorem stageBit_fields (st : Stage) : stageBit st &&& 0xFE#8 = 0#8 ∧ stageOf (stageBit st) = st := by
  cases st with
  | s1 | s2 => decide

theorem mapFn_fields (st : Stage) (g : BitVec 2) :
    let fn := stageBit st ||| (g.setWidth 8 <<< 1)
    fn &&& 0xF8#8 = 0#8 ∧ stageOf fn = st ∧ fn.extractLsb' 1 2 = g := by
  cases st with
  | s1 | s2 => decide +revert

theorem and_0xFF (v : BitVec 8) : v &&& 0xFF#8 = v := BitVec.and_allOnes

theorem setWidth_of_and : ∀ v : BitVec 8,
    (v &&& 0x80#8 = 0#8 → (v.setWidth 7).setWidth 8 = v) ∧ (v &&& 0xC0#8 = 0#8 → (v.setWidth 6).setWidth 8 = v) ∧
    (v &&& 0xF0#8 = 0#8 → (v.setWidth 4).setWidth 8 = v) ∧ (v &&& 0xFC#8 = 0#8 → (v.setWidth 2).setWidth 8 = v) := by
  decide +kernel

theorem flags_of_and : ∀ v : BitVec 8,
    (v &&& 0xFE#8 = 0#8 → flag (v.getLsbD 0) 0 = v) ∧
    (v &&& 0xFC#8 = 0#8 → flag (v.getLsbD 0) 0 ||| flag (v.getLsbD 1) 1 = v) ∧
    (v &&& 0xF8#8 = 0#8 → flag (v.getLsbD 0) 0 ||| flag (v.getLsbD 1) 1 ||| flag (v.getLsbD 2) 2 = v) := by
  decide +kernel

theorem stage_of_and : ∀ v : BitVec 8,
    (v &&& 0xFE#8 = 0#8 → stageBit (stageOf v) = v) ∧
    (v &&& 0xF8#8 = 0#8 → stageBit (stageOf v) ||| ((v.extractLsb' 1 2).setWidth 8 <<< 1) = v) := by
  decide +kernel

end Sys2Proof.Machine
end

section
/-! SUPPORT. The operation map (R124): which words match a row, and what the decoder makes of them. -/

namespace Sys2Proof.Machine

/-- Every row's match word is its operation code alone, and its mask covers the operation code and the reserved bits. -/
theorem row_words : ∀ row ∈ requestRows, row.1 = opWord (opcOf row.1) 0 0 ∧
    row.2.extractLsb' 24 40 = BitVec.allOnes 40 ∧ opcOf row.2 = BitVec.allOnes 8 :=
  List.all_iff_forall_prop.1 (by decide)

theorem rowMatches_iff {row : Word × Word} (h : row ∈ requestRows) (op : Word) :
    rowMatches op row = true ↔ op.extractLsb' 24 40 = 0 ∧ opcOf op = opcOf row.1 ∧ fnOf op &&& fnOf row.2 = 0 ∧
      flOf op &&& flOf row.2 = 0 := by
  obtain ⟨word, reserved, opc⟩ := row_words row h
  have opcAnd : opcOf (op &&& row.2) = opcOf op := by
    rw [opcOf, BitVec.extractLsb'_and, ← opcOf, ← opcOf, opc, BitVec.and_allOnes]
  have fnAnd : fnOf (op &&& row.2) = fnOf op &&& fnOf row.2 := BitVec.extractLsb'_and
  have flAnd : flOf (op &&& row.2) = flOf op &&& flOf row.2 := BitVec.extractLsb'_and
  have reservedAnd : (op &&& row.2).extractLsb' 24 40 = op.extractLsb' 24 40 := by
    rw [BitVec.extractLsb'_and, reserved, BitVec.and_allOnes]
  rw [rowMatches, beq_iff_eq, word, opcOf_opWord, ← opcAnd, ← fnAnd, ← flAnd, ← reservedAnd]
  constructor
  · intro e
    simp [e]
  · rintro ⟨hr, ho, hn, hl⟩
    exact opWord_ext (by simp [hr]) (by simp [ho]) (by simp [hn]) (by simp [hl])

theorem rows_opc_nodup : (requestRows.map fun row => opcOf row.1).Nodup := by decide

/-- An operation word matches one row at most. -/
theorem countP_rowMatches_le (op : Word) : requestRows.countP (rowMatches op) ≤ 1 := calc
  _ ≤ requestRows.countP (fun row => opcOf row.1 == opcOf op) := by
    refine List.countP_mono_left fun row h matched => ?_
    obtain ⟨-, opc, -, -⟩ := (rowMatches_iff h op).1 matched
    simp [opc]
  _ = (requestRows.map fun row => opcOf row.1).count (opcOf op) := by rw [List.count, List.countP_map]; rfl
  _ ≤ 1 := List.nodup_iff_count_le_one.1 rows_opc_nodup _

/-- With the operation code of a row, the decoder makes the row's checks of FN and FL; what passes them is encoded with
the FN and FL it was read from. -/
theorem decodeRequest_of_opc {row : Word × Word} (h : row ∈ requestRows) (fn fl : BitVec 8) (a0 a1 a2 a3 : Word) :
    ∃ i, decodeRequest ⟨opWord (opcOf row.1) fn fl, a0, a1, a2, a3⟩ =
        ifUnusedZero (~~~fnOf row.2) (~~~flOf row.2) fn fl i ∧
      (fn &&& fnOf row.2 = 0 → fl &&& flOf row.2 = 0 →
        (encode i).head? = some (opWord (opcOf row.1) fn fl)) := by
  simp only [decodeRequest, reserved_opWord, opcOf_opWord, fnOf_opWord, flOf_opWord, ne_eq,
    not_true_eq_false, if_false]
  fin_cases h
  all_goals
    apply Exists.intro
    constructor
    · exact rfl
    · intro hn hl
      simp only [fnOf, flOf, BitVec.reduceExtractLsb', and_0xFF] at hn hl
      simp [encode, opcOf, setWidth_of_and, flags_of_and, stage_of_and, hn, hl, -BitVec.getLsbD_eq_getElem]

theorem decodeRequest_of_reserved {r : Request} (h : r.op.extractLsb' 24 40 ≠ 0) :
    decodeRequest r = .error .reservedOp := by
  simp only [decodeRequest, if_pos h]

theorem decodeRequest_of_no_opc {r : Request} (reserved : r.op.extractLsb' 24 40 = 0)
    (h : opcOf r.op ∉ requestRows.map fun row => opcOf row.1) : decodeRequest r = .error .unassignedOpc := by
  have read : opcOf r.op = BitVec.ofNat 8 (opcOf r.op).toNat := by simp
  simp only [decodeRequest, reserved, ne_eq, not_true_eq_false, if_false]
  split
  case h_37 => rfl
  all_goals
    next code =>
      rw [read, code] at h
      exact absurd (by decide) h

/-- What a decoded request says of its words: they match a row, and no bit of the operation word is dropped. -/
theorem decodeRequest_eq_ok {r : Request} {i : Instr} (h : decodeRequest r = .ok i) :
    (∃ row ∈ requestRows, rowMatches r.op row = true) ∧ (encode i).head? = some r.op := by
  by_cases reserved : r.op.extractLsb' 24 40 = 0
  case neg => exact nomatch (decodeRequest_of_reserved reserved).symm.trans h
  by_cases assigned : opcOf r.op ∈ requestRows.map fun row => opcOf row.1
  case neg => exact nomatch (decodeRequest_of_no_opc reserved assigned).symm.trans h
  obtain ⟨row, hrow, opc⟩ := List.mem_map.1 assigned
  obtain ⟨j, reads, writes⟩ := decodeRequest_of_opc hrow (fnOf r.op) (flOf r.op) r.a0 r.a1 r.a2 r.a3
  rw [opc, opWord_fields reserved] at reads writes
  obtain ⟨fn, fl, rfl⟩ := ifUnusedZero_eq_ok.1 (reads.symm.trans h)
  rw [BitVec.not_not] at fn fl
  exact ⟨⟨row, hrow, (rowMatches_iff hrow _).2 ⟨reserved, opc.symm, fn, fl⟩⟩, writes fn fl⟩

theorem decodeRequest_of_rowMatches {r : Request} {row : Word × Word} (hrow : row ∈ requestRows)
    (h : rowMatches r.op row = true) : ∃ i, decodeRequest r = .ok i := by
  obtain ⟨reserved, opc, fn, fl⟩ := (rowMatches_iff hrow _).1 h
  obtain ⟨i, reads, -⟩ := decodeRequest_of_opc hrow (fnOf r.op) (flOf r.op) r.a0 r.a1 r.a2 r.a3
  rw [← opc, opWord_fields reserved] at reads
  exact ⟨i, reads.trans (ifUnusedZero_eq_ok.2 ⟨by simpa using fn, by simpa using fl, rfl⟩)⟩

end Sys2Proof.Machine
end

section
/-! PROOFS. O1, O2, O3 and O6. -/

namespace Sys2Proof.Machine

/-- Each field of a command stands alone in its place under the OR of the others, and outside the reserved bits. -/
theorem decode_encode_command (i : Instr) (command : isRequest i = false) : decode (encode i) = .ok i := by
  cases i with
  | iotinvalVma | iotinvalGvma | iofenceC | iodirInvalDdt =>
    simp (disch := decide) [encode, decode, decodeCommand, ifReservedZero_eq_ok, BitVec.extractLsb'_or,
      BitVec.and_or_distrib_right, getLsbD_wordBit, wordBit_extract, wordBit_and, getLsbD_wordField_outside,
      wordField_extract_same, wordField_extract_outside, wordField_and, -BitVec.getLsbD_eq_getElem]
  | _ => cases command

/-- FN and FL hold the operands of a request and nothing else, so they pass the checks of its row. The cases are the
shapes of FN and FL in R124: stage and granule, stage, a field, flags, a field and a flag, and nothing. -/
theorem decode_encode_request (i : Instr) (request : isRequest i = true) : decode (encode i) = .ok i := by
  cases i with
  | iotinvalVma | iotinvalGvma | iofenceC | iodirInvalDdt => cases request
  | ptMap st g fl a0 a1 a2 =>
    obtain ⟨clear, stage, granule⟩ := mapFn_fields st g
    simp (disch := decide) [encode, decode, decodeRequest, ifUnusedZero_eq_ok, setWidth_and, clear, stage, granule]
  | ptLookup => simp [encode, decode, decodeRequest, ifUnusedZero_eq_ok, stageBit_fields]
  | pteLeaf | ddtRebuild | ddtSetS1Mode | ddtSetS2Mode | ddtSetMsiMode | ddtSetMode =>
    simp (disch := decide) [encode, decode, decodeRequest, ifUnusedZero_eq_ok, setWidth_and]
  | msiSetBasic | msiSetMrif | ddtConfig | cmdIodirDdt | cmdIotinvalVma | cmdIotinvalGvma | cmdIofenceC =>
    simp (disch := decide) [encode, decode, decodeRequest, ifUnusedZero_eq_ok, BitVec.and_or_distrib_right,
      getLsbD_flag, flag_and, -BitVec.getLsbD_eq_getElem]
  | cqInit | fqInit =>
    simp (disch := decide) [encode, decode, decodeRequest, ifUnusedZero_eq_ok, setWidth_and, getLsbD_flag, flag_and,
      -BitVec.getLsbD_eq_getElem]
  | _ => simp [encode, decode, decodeRequest, ifUnusedZero_eq_ok]

/-- Settles O1: a request's words and a command's words each give their fields back. -/
theorem decodeEncode : Obligations.DecodeEncode := by
  intro i
  cases kind : isRequest i with
  | true => exact decode_encode_request i kind
  | false => exact decode_encode_command i kind

/-- Settles O2: an operation word matches one row at most, and one when the decoder accepts it. -/
theorem requestWordsDecode : Obligations.RequestWordsDecode := by
  refine ⟨fun r => ?_, fun r i h => (decodeRequest_eq_ok (r := r) h).2⟩
  rw [← List.countP_eq_length_filter]
  cases h : decode [r.op, r.a0, r.a1, r.a2, r.a3] with
  | ok i =>
    have matched := List.countP_pos_iff.2 (decodeRequest_eq_ok (r := r) h).1
    exact le_antisymm (countP_rowMatches_le r.op) matched
  | error e =>
    refine List.countP_eq_zero.2 fun row hrow matched => ?_
    obtain ⟨i, ok⟩ := decodeRequest_of_rowMatches hrow matched
    exact nomatch ok.symm.trans h

/-- Settles O3: each word evaluated by the decoder. -/
theorem wordsOfTheSpec : Obligations.WordsOfTheSpec := by
  unfold Obligations.WordsOfTheSpec
  decide

/-- Settles O6: the decoder answers with a rejection, whichever it is. -/
theorem illegalRequestRefused : Obligations.IllegalRequestRefused := by
  intro s r rest placed idle next illegal
  cases h : decode [r.op, r.a0, r.a1, r.a2, r.a3] with
  | ok i => exact absurd h (illegal i)
  | error e =>
    simp only [step, placed, if_true, turn, next, idle, accept, h]
    rfl

end Sys2Proof.Machine
end

section
/-! SUPPORT. Operands and page-table entries as numbers (R165, R166, R200, R201, R204): the checks of an operand, and an
entry as its page number times 1024 with the flags and RSW below and the high bits above. -/

namespace Sys2Proof.Machine

/-! The checks of an operand. -/

theorem aligned_eq_true {n : Nat} {a : Word} : aligned n a = true ↔ a.toNat % 2 ^ n = 0 := by
  rw [aligned, beq_iff_eq]

theorem fits_eq_true {n : Nat} {a : Word} : fits n a = true ↔ a.toNat < 2 ^ n := by
  rw [fits, decide_eq_true_iff]

theorem legalLeaf_eq_true {fl : BitVec 7} : legalLeaf fl = true ↔ ¬ (fl.toNat % 8 = 0 ∨ fl.toNat % 4 = 2) := by
  revert fl
  decide

/-! The fields of an entry. -/

theorem extractLsb'_eq_zero {w : Nat} (v : BitVec w) (i n : Nat) :
    v.extractLsb' i n = 0 ↔ v.toNat / 2 ^ i % 2 ^ n = 0 := by
  rw [← BitVec.toNat_inj, BitVec.extractLsb'_toNat, Nat.shiftRight_eq_div_pow]
  rfl

theorem getLsbD_eq_true {w : Nat} (v : BitVec w) (i : Nat) : v.getLsbD i = true ↔ v.toNat / 2 ^ i % 2 = 1 := by
  rw [← BitVec.testBit_toNat, Nat.testBit_eq_decide_div_mod_eq, decide_eq_true_iff]

theorem toNat_and_ppnFieldMask (v : Word) : (v &&& ppnFieldMask).toNat = v.toNat / 1024 % 2 ^ 44 * 1024 := by
  have mask : ppnFieldMask = (BitVec.allOnes 44).setWidth 64 <<< 10 := by decide
  have field : v &&& ppnFieldMask = (v.extractLsb' 10 44).setWidth 64 <<< 10 := by
    refine BitVec.eq_of_getLsbD_eq fun i _ => ?_
    simp only [mask, BitVec.getLsbD_and, BitVec.getLsbD_shiftLeft, BitVec.getLsbD_setWidth, BitVec.getLsbD_allOnes,
      BitVec.getLsbD_extractLsb']
    grind
  rw [field, BitVec.toNat_shiftLeft, BitVec.toNat_setWidth, BitVec.extractLsb'_toNat]
  omega

theorem toNat_ppnField (a : Word) : (ppnField a).toNat = a.toNat / 4096 % 2 ^ 44 * 1024 := by
  rw [ppnField, toNat_and_ppnFieldMask, BitVec.toNat_ushiftRight, Nat.shiftRight_eq_div_pow]
  omega

theorem toNat_fieldPa (e : Word) : (fieldPa e).toNat = e.toNat / 1024 % 2 ^ 44 * 4096 := by
  rw [fieldPa, BitVec.toNat_shiftLeft, toNat_and_ppnFieldMask, Nat.shiftLeft_eq]
  omega

theorem toNat_and_lowByte (e : Word) : (e &&& 0xFF).toNat = e.toNat % 256 :=
  Nat.and_two_pow_sub_one_eq_mod e.toNat 8

theorem toNat_flags8 (fl : BitVec 7) : (flags8 fl).toNat = 2 * fl.toNat + 1 := by
  revert fl
  decide

/-! An entry put together: the frame field leaves the low ten bits free. -/

theorem toNat_ppnField_or (a : Word) {v : Word} (low : v.toNat < 1024) :
    (ppnField a ||| v).toNat = a.toNat / 4096 % 2 ^ 44 * 1024 + v.toNat := by
  rw [BitVec.toNat_or, toNat_ppnField, Nat.mul_comm _ 1024]
  exact (Nat.two_pow_add_eq_or_of_lt (i := 10) low _).symm

theorem toNat_leafPte {a : Word} (fl : BitVec 7) (range : a.toNat < 2 ^ 56) :
    (leafPte a fl).toNat = a.toNat / 4096 * 1024 + 2 * fl.toNat + 1 := by
  have flags := toNat_flags8 fl
  rw [leafPte, toNat_ppnField_or a (by omega), flags]
  omega

theorem toNat_nonleafPte {a : Word} (range : a.toNat < 2 ^ 56) :
    (nonleafPte a).toNat = a.toNat / 4096 * 1024 + 1 := by
  have flags : (1 : Word).toNat = 1 := rfl
  rw [nonleafPte, toNat_ppnField_or a (by omega), flags]
  omega

/-! An entry's kind. -/

/-- `kind` (R204), test by test on the entry's number. -/
theorem kind_eq (e : Word) : kind e =
    if e.toNat % 2 = 0 then .invalid
    else if e.toNat / 2 ^ 54 ≠ 0 then .reserved
    else if e.toNat / 2 % 8 = 0 then (if e.toNat / 64 % 4 ≠ 0 ∨ e.toNat / 16 % 2 = 1 then .reserved else .nonleaf)
    else if e.toNat / 2 % 4 = 2 then .reserved
    else .leaf := by
  have bound := e.isLt
  simp only [kind, Bool.not_eq_true', bne_iff_ne, beq_iff_eq, Bool.and_eq_true, Bool.or_eq_true, ← Bool.not_eq_true,
    ne_eq, extractLsb'_eq_zero, getLsbD_eq_true]
  grind

theorem kind_leafPte {a : Word} {fl : BitVec 7} (range : a.toNat < 2 ^ 56) (legal : legalLeaf fl = true) :
    kind (leafPte a fl) = .leaf := by
  have flags := legalLeaf_eq_true.1 legal
  rw [kind_eq, toNat_leafPte fl range, if_neg, if_neg, if_neg, if_neg] <;> omega

theorem kind_nonleafPte {a : Word} (range : a.toNat < 2 ^ 56) : kind (nonleafPte a) = .nonleaf := by
  rw [kind_eq, toNat_nonleafPte range, if_neg, if_neg, if_pos, if_neg] <;> omega

/-! The outcomes of the codec's operations. -/

theorem exec_pteLeaf (fl : BitVec 7) (a : Word) (s : State) : exec (.pteLeaf fl a) s = .next (s.finish
    (if a.toNat % 4096 ≠ 0 then result .errAlign
     else if 2 ^ 56 ≤ a.toNat then result .errRange
     else if fl.toNat % 8 = 0 ∨ fl.toNat % 4 = 2 then result .errFlags
     else result .ok (BitVec.ofNat 64 (a.toNat / 4096 * 1024 + 2 * fl.toNat + 1)))) := by
  change execPteLeaf fl a s = _
  simp only [execPteLeaf, Bool.not_eq_true', ← Bool.not_eq_true, aligned_eq_true, fits_eq_true, legalLeaf_eq_true,
    Decidable.not_not, Nat.not_lt, Nat.reducePow, ne_eq]
  split_ifs
  case neg => rw [← toNat_leafPte fl (by omega), BitVec.ofNat_toNat, BitVec.setWidth_eq]; rfl
  all_goals rfl

theorem exec_pteNonleaf (a : Word) (s : State) : exec (.pteNonleaf a) s = .next (s.finish
    (if a.toNat % 4096 ≠ 0 then result .errAlign
     else if 2 ^ 56 ≤ a.toNat then result .errRange
     else result .ok (BitVec.ofNat 64 (a.toNat / 4096 * 1024 + 1)))) := by
  change execPteNonleaf a s = _
  simp only [execPteNonleaf, Bool.not_eq_true', ← Bool.not_eq_true, aligned_eq_true, fits_eq_true, Nat.not_lt,
    Nat.reducePow, ne_eq]
  split_ifs
  case neg => rw [← toNat_nonleafPte (by omega), BitVec.ofNat_toNat, BitVec.setWidth_eq]; rfl
  all_goals rfl

theorem exec_pteDecode (e : Word) (s : State) : exec (.pteDecode e) s = .next (s.finish
    (result .ok (BitVec.ofNat 64 (e.toNat / 1024 % 2 ^ 44 * 4096)) (BitVec.ofNat 64 (e.toNat % 256)) (kind e).code
      (BitVec.ofNat 64 (e.toNat / 256 % 4)) (BitVec.ofNat 64 (e.toNat / 2 ^ 54)))) := by
  have rsw : ((e >>> 8) &&& 3).toNat = e.toNat / 256 % 4 := by
    rw [BitVec.toNat_and, BitVec.toNat_ushiftRight, Nat.shiftRight_eq_div_pow]
    exact Nat.and_two_pow_sub_one_eq_mod _ 2
  have high : (e >>> 54).toNat = e.toNat / 2 ^ 54 := by
    rw [BitVec.toNat_ushiftRight, Nat.shiftRight_eq_div_pow]
  simp only [← toNat_fieldPa, ← toNat_and_lowByte, ← rsw, ← high, BitVec.ofNat_toNat, BitVec.setWidth_eq]
  rfl

/-- PTE.DECODE of an entry that holds nothing but a page's number and a flag byte gives both back. -/
theorem exec_pteDecode_of_packed {e a flags : Word} (page : a.toNat % 4096 = 0) (range : a.toNat < 2 ^ 56)
    (low : flags.toNat < 256) (packed : e.toNat = a.toNat / 4096 * 1024 + flags.toNat) (s : State) :
    exec (.pteDecode e) s = .next (s.finish (result .ok a flags (kind e).code 0 0)) := by
  have frame : e.toNat / 1024 % 2 ^ 44 * 4096 = a.toNat := by omega
  have byte : e.toNat % 256 = flags.toNat := by omega
  have rsw : e.toNat / 256 % 4 = 0 := by omega
  have high : e.toNat / 2 ^ 54 = 0 := by omega
  rw [exec_pteDecode, frame, byte, rsw, high, BitVec.ofNat_toNat, BitVec.ofNat_toNat, BitVec.setWidth_eq,
    BitVec.setWidth_eq]
  rfl

end Sys2Proof.Machine
end

section
/-! PROOFS. O19 and O20. -/

namespace Sys2Proof.Machine

/-- Settles O19: each operation's checks and its words, read as numbers. -/
theorem codecResults : Obligations.CodecResults := by
  refine ⟨exec_pteLeaf, exec_pteNonleaf, fun e s => ?_⟩
  rw [exec_pteDecode, kind_eq]
  simp only [apply_ite EntryKind.code]
  rfl

/-- Settles O20: a packed entry is a page's number and a flag byte, which PTE.DECODE takes apart; its kind is the one it
was packed for. Without RSW and high bits, an entry's number is the sum of the two fields. -/
theorem codecRoundTrip : Obligations.CodecRoundTrip := by
  refine ⟨fun pa fl s page range legal => ?leaf, fun pa s page range => ?nonleaf, fun e rsw high => ?fields⟩
  case leaf =>
    have flags := toNat_flags8 fl
    have packed : (leafPte pa fl).toNat = pa.toNat / 4096 * 1024 + (flags8 fl).toNat := by
      rw [toNat_leafPte fl range, flags, Nat.add_assoc]
    rw [exec_pteDecode_of_packed page range (by omega) packed, kind_leafPte range legal]
    rfl
  case nonleaf =>
    have packed : (nonleafPte pa).toNat = pa.toNat / 4096 * 1024 + (1 : Word).toNat := toNat_nonleafPte range
    rw [exec_pteDecode_of_packed page range (by decide) packed, kind_nonleafPte range]
    rfl
  case fields =>
    have byte := toNat_and_lowByte e
    apply BitVec.eq_of_toNat_eq
    rw [toNat_ppnField_or _ (by omega), toNat_fieldPa, byte]
    omega

end Sys2Proof.Machine
end

section
/-! SUPPORT. The block's stores as a list of writes, when no other agent moves: what a run of stores leaves in each view
of memory, before a FENCE and after it. -/

namespace Sys2Proof.Machine

/-- After the block's stores `ws`, oldest first, with no FENCE since. -/
def State.stored (s : State) (ws : List PendingWrite) : State :=
  { s with memBlk := drainAll s.memBlk ws, pend := s.pend ++ ws }

/-- The stores of 0 to `n` doublewords from `a`. -/
def zeros : Nat → Nat → List PendingWrite
  | 0, _ => []
  | n + 1, a => ⟨a, 0⟩ :: zeros n (a + 8)

section
variable {s : State} (calm : s.weave = [])
include calm

theorem memWrite_stored (a : Nat) (v : Word) : memWrite a v s = s.stored [⟨a, v⟩] := memWrite_calm calm a v

theorem zeroFill_stored (n a : Nat) : zeroFill n a s = s.stored (zeros n a) := by
  induction n generalizing a s with
  | zero => simp [zeroFill, zeros, State.stored, drainAll]
  | succ n ih =>
    rw [zeroFill, memWrite_stored calm, ih (by exact calm)]
    simp [State.stored, zeros, drainAll]

/-- A FENCE after the stores: both views hold what a FENCE alone gives, with the stores on top of it. -/
theorem fence_stored (ws : List PendingWrite) : fence (s.stored ws) = { s with
    memIo := drainAll (drainAll s.memIo s.pend) ws, pend := [], unseen := [],
    memBlk := revealAll (drainAll s.memBlk ws) (drainAll (drainAll s.memIo s.pend) ws) s.unseen } := by
  rw [fence_calm (by exact calm)]
  simp only [State.stored, drainAll_append]

theorem readBlk_fence_stored (ws : List PendingWrite) (a : Nat) : (fence (s.stored ws)).readBlk a =
    if s.unseen.any (fun r => r.covers a) then (drainAll (drainAll s.memIo s.pend) ws).read a
    else (drainAll s.memBlk ws).read a := by
  simp only [fence_stored calm, State.readBlk, revealAll_read]

/-- A byte that every run of the stores leaves at `v` is `v` in both views after the FENCE. -/
theorem fence_stored_written {ws : List PendingWrite} {a : Nat} {v : Byte} (h : ∀ m, (drainAll m ws).read a = v) :
    (fence (s.stored ws)).readBlk a = v ∧ (fence (s.stored ws)).readIo a = v := by
  rw [readBlk_fence_stored calm, h, h, ite_self, fence_stored calm]
  exact ⟨rfl, h _⟩

/-- A byte that no store covers is as after a FENCE alone. -/
theorem fence_stored_other {ws : List PendingWrite} {a : Nat} (h : ∀ w ∈ ws, a < w.addr ∨ w.addr + 8 ≤ a) :
    (fence (s.stored ws)).readBlk a = (fence s).readBlk a ∧ (fence (s.stored ws)).readIo a = (fence s).readIo a := by
  have alone : (fence s).readBlk a =
      if s.unseen.any (fun r => r.covers a) then (drainAll s.memIo s.pend).read a else s.memBlk.read a := by
    simp only [fence_calm calm, State.readBlk, revealAll_read]
  rw [readBlk_fence_stored calm, alone, drainAll_read_other _ _ _ h, drainAll_read_other _ _ _ h, fence_stored calm,
    fence_calm calm]
  exact ⟨rfl, drainAll_read_other _ _ _ h⟩

end

theorem mem_zeros {n a : Nat} {w : PendingWrite} (h : w ∈ zeros n a) : a ≤ w.addr ∧ w.addr + 8 ≤ a + 8 * n := by
  induction n generalizing a with
  | zero => cases h
  | succ n ih =>
    rcases List.mem_cons.1 h with rfl | h
    · dsimp only
      omega
    · have := ih h
      omega

theorem read_store64_zero (m : Memory) {a b : Nat} (h : within a 8 b) : (m.store64 a 0).read b = 0 := by
  obtain ⟨low, high⟩ := h
  obtain ⟨k, rfl⟩ := Nat.exists_eq_add_of_le low
  have bytes : leBytes 8 0 = List.replicate 8 0 := by decide
  rw [Memory.store64, Memory.storeN, Memory.read_store, leBytes_length, if_pos ⟨low, high⟩, bytes,
    Nat.add_sub_cancel_left]
  exact List.getD_replicate _ (by omega)

theorem drainAll_zeros_read (m : Memory) {n a b : Nat} (h : within a (8 * n) b) :
    (drainAll m (zeros n a)).read b = 0 := by
  induction n generalizing a m with
  | zero => exact absurd h (by simp only [within]; omega)
  | succ n ih =>
    by_cases later : a + 8 ≤ b
    · exact ih _ ⟨later, by have := h.2; omega⟩
    · refine (drainAll_read_other (m.store64 a 0) (zeros n (a + 8)) b fun w hw => ?_).trans
        (read_store64_zero m ⟨h.1, by omega⟩)
      have := mem_zeros hw
      omega

theorem drainAll_zeros_other (m : Memory) {n a b : Nat} (h : ¬ within a (8 * n) b) :
    (drainAll m (zeros n a)).read b = m.read b :=
  drainAll_read_other m _ b fun w hw => by
    have := mem_zeros hw
    simp only [within] at h
    omega

/-- Eight bytes of 0 are the doubleword 0. -/
theorem load64_eq_zero {m : Memory} {a : Nat} (h : ∀ b, within a 8 b → m.read b = 0) : m.load64 a = 0 := by
  rw [Memory.load64_congr m [] a fun b low high => h b ⟨low, high⟩]
  simp only [Memory.load64, Memory.load, Memory.bytes, Memory.read]
  decide

end Sys2Proof.Machine
end

section
/-! PROOFS. O21. -/

namespace Sys2Proof.Machine

/-- The state PT.INIT ends in (R222). -/
theorem exec_ptInit {s : State} (calm : s.weave = []) :
    exec .ptInit s = .next (((fence (s.stored (zeros (5 * 512) s.cfg.poolBase.toNat))).setBlk fun b =>
      { b with s2Root := s.cfg.poolBase.setWidth 56, s1Root := (s.cfg.poolBase + 0x4000).setWidth 56, poolNext := 5,
               ptReady := true }).finish (result .ok s.cfg.poolBase (s.cfg.poolBase + 0x4000))) := by
  rw [← zeroFill_stored calm]
  rfl

/-- Settles O21: PT.INIT is a run of stores of 0 to the five root pages, a FENCE, and the registers. -/
theorem ptInitEmptiesRoots : Obligations.PtInitEmptiesRoots := by
  intro s calm
  have other {a : Nat} (h : ¬ within s.cfg.poolBase.toNat (5 * 4096) a) :
      ∀ w ∈ zeros (5 * 512) s.cfg.poolBase.toNat, a < w.addr ∨ w.addr + 8 ≤ a := by
    intro w hw
    have := mem_zeros hw
    simp only [within] at h
    omega
  refine ⟨_, exec_ptInit calm, rfl, ?_, ?_, ?_, fun a ha => fence_stored_other calm (other ha),
    fun a ha => fence_stored_written calm fun m => drainAll_zeros_read m ha⟩
  all_goals rw [fence_stored calm]
  · rfl
  · rfl
  · constructor <;> rfl

end Sys2Proof.Machine
end

section
/-! SUPPORT. The walk of the builder's trees as numbers (R223, R224, R225, R232): an address's indices, the checks of
PT.MAP and PT.LOOKUP, the frame a leaf gives. -/

namespace Sys2Proof.Machine

/-! Addresses. -/

theorem levelSize_eq (l : Nat) : levelSize l = 2 ^ (12 + 9 * (2 - l)) := (Nat.pow_add 2 12 _).symm

theorem granule_eq (g : BitVec 2) : granule g = 4096 * 512 ^ g.toNat := by
  rw [granule, Nat.pow_mul]

theorem granule_pos (g : BitVec 2) : 0 < granule g := by
  rw [granule]
  positivity

theorem granule_eq_levelSize {g : BitVec 2} (h : g ≠ 3) : granule g = levelSize (2 - g.toNat) := by
  revert h
  revert g
  decide

/-- `idx` (R224) as a quotient and a remainder. -/
theorem idx_eq (st : Stage) {l : Nat} (x : Word) (h : l ≤ 2) :
    idx st l x = x.toNat / 2 ^ (12 + 9 * (2 - l)) % (if st = .s2 ∧ l = 0 then 2048 else 512) := by
  interval_cases l <;> cases st <;> simp [idx, Nat.shiftRight_eq_div_pow]

theorem canonical39_eq_true {x : Word} : canonical39 x = true ↔ x.toNat < 2 ^ 38 ∨ 2 ^ 64 - 2 ^ 38 ≤ x.toNat := by
  have bound := x.isLt
  rw [canonical39, beq_iff_eq, ← BitVec.toNat_inj, BitVec.toNat_signExtend, BitVec.msb_eq_decide]
  simp only [BitVec.toNat_setWidth, decide_eq_true_eq]
  split_ifs <;> omega

/-- The addresses PT.LOOKUP accepts, and of which PT.MAP's range lies in one part (R223, R232). -/
theorem lookupInRange_eq_true {st : Stage} {x : Word} : lookupInRange st x = true ↔
    st = .s1 ∧ (x.toNat < 2 ^ 38 ∨ 2 ^ 64 - 2 ^ 38 ≤ x.toNat) ∨ st = .s2 ∧ x.toNat < 2 ^ 41 := by
  cases st <;> simp [lookupInRange, canonical39_eq_true, fits_eq_true]

/-- A frame without its low `k` bits, and the low `k` bits of an address. -/
theorem toNat_and_not_or_and (a x : Word) {k : Nat} (h : k ≤ 64) :
    ((a &&& ~~~BitVec.ofNat 64 (2 ^ k - 1)) ||| (x &&& BitVec.ofNat 64 (2 ^ k - 1))).toNat =
      a.toNat / 2 ^ k * 2 ^ k + x.toNat % 2 ^ k := by
  have low : (x &&& BitVec.ofNat 64 (2 ^ k - 1)).toNat = x.toNat % 2 ^ k := by
    have small : 2 ^ k ≤ 2 ^ 64 := Nat.pow_le_pow_right (by omega) h
    rw [BitVec.toNat_and, BitVec.toNat_ofNat, Nat.mod_eq_of_lt (by have := Nat.two_pow_pos k; omega),
      Nat.and_two_pow_sub_one_eq_mod]
  have high : a &&& ~~~BitVec.ofNat 64 (2 ^ k - 1) = (a >>> k) <<< k := by
    refine BitVec.eq_of_getLsbD_eq fun i _ => ?_
    simp only [BitVec.getLsbD_and, BitVec.getLsbD_not, BitVec.getLsbD_ofNat, Nat.testBit_two_pow_sub_one,
      BitVec.getLsbD_shiftLeft, BitVec.getLsbD_ushiftRight]
    grind
  have top : ((a >>> k) <<< k).toNat = 2 ^ k * (a.toNat / 2 ^ k) := by
    have := Nat.div_mul_le_self a.toNat (2 ^ k)
    rw [BitVec.toNat_shiftLeft, BitVec.toNat_ushiftRight, Nat.shiftRight_eq_div_pow, Nat.shiftLeft_eq,
      Nat.mod_eq_of_lt (by have := a.isLt; omega), Nat.mul_comm]
  rw [BitVec.toNat_or, low, high, top, ← Nat.two_pow_add_eq_or_of_lt (Nat.mod_lt _ (Nat.two_pow_pos k)), Nat.mul_comm]

theorem toNat_leafTarget (e x : Word) {l : Nat} (h : l ≤ 2) : (leafTarget e x l).toNat =
    (fieldPa e).toNat / levelSize l * levelSize l + x.toNat % levelSize l := by
  rw [levelSize_eq]
  simp only [leafTarget, levelSize_eq]
  exact toNat_and_not_or_and _ _ (by omega)

/-! PT.MAP's checks (R225). -/

theorem mapAligned_eq_true {g : BitVec 2} {v p : Word} :
    mapAligned g v p = true ↔ v.toNat % granule g = 0 ∧ p.toNat % granule g = 0 := by
  simp [mapAligned]

theorem mapInRange_eq_true {st : Stage} {g : BitVec 2} {v p n : Word} : mapInRange st g v p n = true ↔
    1 ≤ n.toNat ∧ p.toNat + n.toNat * granule g ≤ 2 ^ 56 ∧
      (st = .s1 → v.toNat + n.toNat * granule g ≤ 2 ^ 38 ∨
        2 ^ 64 - 2 ^ 38 ≤ v.toNat ∧ v.toNat + n.toNat * granule g ≤ 2 ^ 64) ∧
      (st = .s2 → v.toNat + n.toNat * granule g ≤ 2 ^ 41) := by
  cases st <;> simp [mapInRange] <;> tauto

theorem wellFormed_ptMap {st : Stage} {g : BitVec 2} {fl : BitVec 7} {v p n : Word} :
    (Instr.ptMap st g fl v p n).wellFormed = true ↔
      g ≠ 3 ∧ mapAligned g v p = true ∧ mapInRange st g v p n = true ∧ legalLeaf fl = true := by
  cases st <;> simp [Instr.wellFormed, mapOperands, mapAligned, mapInRange] <;> tauto

/-- PT.MAP with its checks in order (R225). -/
theorem exec_ptMap (st : Stage) (g : BitVec 2) (fl : BitVec 7) (v p n : Word) (s : State) :
    exec (.ptMap st g fl v p n) s =
      if s.blk.ptReady = false then raise .errState s
      else if g = 3 then raise .errIllegalReq s
      else if ¬ mapAligned g v p = true then raise .errAlign s
      else if ¬ mapInRange st g v p n = true then raise .errRange s
      else if ¬ legalLeaf fl = true then raise .errFlags s
      else
        match dryRun st g n.toNat v [] s with
        | (none, s) => raise .errConflict s
        | (some news, s) =>
          if s.cfg.poolPages < s.blk.poolNext.toNat + news.length then raise .errPool s
          else
            done (mapGranules st g fl n.toNat v p 0 s).2 (result .ok (BitVec.ofNat 64 news.length)
              (BitVec.ofNat 64 (mapGranules st g fl n.toNat v p 0 s).1)) := by
  change execPtMap st g fl v p n s = _
  simp only [execPtMap, Bool.not_eq_true', Bool.not_eq_true] <;> rfl

end Sys2Proof.Machine
end

section
/-! PROOFS. O22. -/

namespace Sys2Proof.Machine

/-- Settles O22: the checks stand in this order, each the same condition on numbers. -/
theorem ptMapChecks : Obligations.PtMapChecks := by
  intro st g fl v p n s size len inRange refused
  have aligned : mapAligned g v p = true ↔ ¬ (v.toNat % size ≠ 0 ∨ p.toNat % size ≠ 0) := by
    rw [mapAligned_eq_true, granule_eq]
    tauto
  have range : mapInRange st g v p n = true ↔ inRange := by
    rw [mapInRange_eq_true, granule_eq]
  simp only [refused, exec_ptMap, aligned, range, legalLeaf_eq_true, Decidable.not_not]
  split_ifs with ready code misaligned outside flags
  · rfl
  · rfl
  · rfl
  · exact fun _ => rfl
  · exact fun illegal => absurd illegal flags
  · rfl

end Sys2Proof.Machine
end

section
/-! SUPPORT. The tables on an address's path (R224): how `tableAt` goes on, and what the block's walks read along it
when no other agent moves. -/

namespace Sys2Proof.Machine

/-- The entry that `x` meets in the table `t` of level `l`, as the block sees it. -/
def State.entryAt (s : State) (st : Stage) (x : Word) (l t : Nat) : Word := s.wordBlk (slot t st l x)

section
variable {s : State} {st : Stage} {x : Word}

theorem tableAt_zero {t : Nat} : s.tableAt st x 0 = some t ↔ t = rootOf s.blk st := by
  rw [State.tableAt, Option.some_inj, eq_comm]

theorem tableAt_succ {l t' : Nat} : s.tableAt st x (l + 1) = some t' ↔
    ∃ t, s.tableAt st x l = some t ∧ kind (s.entryAt st x l t) = .nonleaf ∧
      t' = (fieldPa (s.entryAt st x l t)).toNat := by
  rw [State.tableAt]
  cases s.tableAt st x l with
  | none => simp
  | some t => simp [State.entryAt, eq_comm]

theorem tableAt_succ_of_nonleaf {l t : Nat} (h : s.tableAt st x l = some t)
    (link : kind (s.entryAt st x l t) = .nonleaf) :
    s.tableAt st x (l + 1) = some (fieldPa (s.entryAt st x l t)).toNat := tableAt_succ.2 ⟨t, h, link, rfl⟩

theorem tableAt_succ_of_not_nonleaf {l t : Nat} (h : s.tableAt st x l = some t)
    (stop : kind (s.entryAt st x l t) ≠ .nonleaf) : s.tableAt st x (l + 1) = none := by
  rw [State.tableAt, h]
  exact if_neg stop

/-- Below a missing table every table is missing. -/
theorem tableAt_none_mono {l m : Nat} (h : s.tableAt st x l = none) (le : l ≤ m) : s.tableAt st x m = none := by
  induction m, le using Nat.le_induction with
  | base => exact h
  | succ m _ ih => rw [State.tableAt, ih]

/-- Above a table there is a table, and it links on. -/
theorem tableAt_above {l m t : Nat} (h : s.tableAt st x m = some t) (lt : l < m) :
    ∃ u, s.tableAt st x l = some u ∧ kind (s.entryAt st x l u) = .nonleaf := by
  cases e : s.tableAt st x (l + 1) with
  | none => rw [tableAt_none_mono e lt] at h; cases h
  | some w =>
    obtain ⟨u, hu, link, -⟩ := tableAt_succ.1 e
    exact ⟨u, hu, link⟩

/-! The walks. -/

section
variable (calm : s.weave = [])
include calm

/-- PT.LOOKUP's walk passes through the tables of the path. -/
theorem lookupWalk_from {l n t : Nat} (ln : l + n = 3) (pos : n ≠ 0) (h : s.tableAt st x l = some t) :
    lookupWalk st x 3 (rootOf s.blk st) s = lookupWalk st x n t s := by
  induction l generalizing n t with
  | zero =>
    obtain rfl := tableAt_zero.1 h
    obtain rfl : n = 3 := by omega
    rfl
  | succ l ih =>
    obtain ⟨u, hu, link, rfl⟩ := tableAt_succ.1 h
    rw [ih (n := n + 1) (by omega) (by omega) hu]
    have level : 2 - n = l := by omega
    simp only [lookupWalk, level, memRead_calm calm]
    rw [State.entryAt] at link ⊢
    simp only [link, if_neg pos]

/-- The last step of PT.LOOKUP's walk. -/
theorem lookupWalk_end {l t : Nat} (le : l ≤ 2) (h : s.tableAt st x l = some t)
    (stop : kind (s.entryAt st x l t) ≠ .nonleaf ∨ l = 2) : lookupWalk st x 3 (rootOf s.blk st) s =
      (if kind (s.entryAt st x l t) = .leaf then
        result .ok (leafTarget (s.entryAt st x l t) x l) (s.entryAt st x l t) (BitVec.ofNat 64 l)
          (BitVec.ofNat 64 (slot t st l x))
      else result .none 0 (s.entryAt st x l t) (BitVec.ofNat 64 l) (BitVec.ofNat 64 (slot t st l x)), s) := by
  rw [lookupWalk_from calm (n := 2 - l + 1) (by omega) (by omega) h]
  have level : 2 - (2 - l) = l := by omega
  simp only [lookupWalk, level, memRead_calm calm]
  rw [State.entryAt] at *
  cases hk : kind (s.wordBlk (slot t st l x)) with
  | nonleaf =>
    have last : l = 2 := stop.resolve_left fun ne => ne hk
    simp [last]
  | _ => simp

omit calm in
/-- Every walk of PT.LOOKUP ends at some entry. -/
theorem exists_walk_end (s : State) (st : Stage) (x : Word) : ∃ l t, l ≤ 2 ∧ s.tableAt st x l = some t ∧
    (kind (s.entryAt st x l t) ≠ .nonleaf ∨ l = 2) := by
  by_contra none
  push Not at none
  have go (l : Nat) (le : l ≤ 2) : ∃ t, s.tableAt st x l = some t := by
    induction l with
    | zero => exact ⟨_, rfl⟩
    | succ l ih =>
      obtain ⟨t, ht⟩ := ih (by omega)
      exact ⟨_, tableAt_succ_of_nonleaf ht (none l t (by omega) ht).1⟩
  obtain ⟨t, ht⟩ := go 2 le_rfl
  exact (none 2 t le_rfl ht).2 rfl

/-- The commit phase's walk passes through tables that exist. -/
theorem descend_of_tableAt {l n t t' : Nat} (h : s.tableAt st x l = some t) (h' : s.tableAt st x (l + n) = some t') :
    descend st x n l t s = (t', s) := by
  induction n generalizing l t with
  | zero =>
    obtain rfl := Option.some_inj.1 (h.symm.trans h')
    rfl
  | succ n ih =>
    obtain ⟨u, hu, link⟩ := tableAt_above h' (show l < l + (n + 1) by omega)
    obtain rfl := Option.some_inj.1 (h.symm.trans hu)
    have next := ih (tableAt_succ_of_nonleaf h link) (by rw [← h']; congr 1; omega)
    simp only [descend, memRead_calm calm]
    rw [State.entryAt] at link next
    simpa only [link] using next

end
end

/-- PT.LOOKUP in range is its walk. -/
theorem exec_ptLookup {st : Stage} {x : Word} {s : State} (ready : s.blk.ptReady = true)
    (range : lookupInRange st x = true) : exec (.ptLookup st x) s =
      done (lookupWalk st x 3 (rootOf s.blk st) s).2 (lookupWalk st x 3 (rootOf s.blk st) s).1 := by
  change execPtLookup st x s = _
  simp only [execPtLookup, ready, range, Bool.not_true, Bool.false_eq_true, if_false]

end Sys2Proof.Machine
end

section
/-! PROOFS. O28. -/

namespace Sys2Proof.Machine

/-- Settles O28: the checks, and the end of the walk with its index and its target as numbers. -/
theorem ptLookupResults : Obligations.PtLookupResults := by
  refine ⟨fun st x s unready => ?state, fun st x s ready outside => ?range,
    fun st x s l t calm ready range le table => ?walk⟩
  case state =>
    change execPtLookup st x s = _
    rw [execPtLookup, unready]
    rfl
  case range =>
    rw [← lookupInRange_eq_true, Bool.not_eq_true] at outside
    change execPtLookup st x s = _
    rw [execPtLookup, ready, outside]
    rfl
  case walk =>
    intro ea e size
    have power : size = levelSize l := by rw [levelSize, Nat.pow_mul]
    have address : ea = slot t st l x := by
      rw [slot, idx_eq st x le, ← levelSize_eq, levelSize, Nat.pow_mul]
    have entry : e = s.entryAt st x l t := by rw [State.entryAt, ← address]
    have target : leafTarget e x l =
        BitVec.ofNat 64 (e.toNat / 1024 % 2 ^ 44 * 4096 / size * size + x.toNat % size) := by
      rw [power, ← toNat_fieldPa, ← toNat_leafTarget e x le, BitVec.ofNat_toNat, BitVec.setWidth_eq]
    have ended (stop : kind e ≠ .nonleaf ∨ l = 2) := lookupWalk_end calm le table (entry ▸ stop)
    rw [exec_ptLookup ready (lookupInRange_eq_true.2 range), ← target, address]
    refine ⟨fun leaf => ?_, fun nothing => ?_⟩
    · rw [ended (.inl (by rw [leaf]; decide)), ← entry, if_pos leaf]
      rfl
    · rw [ended (by rcases nothing with h | h | ⟨-, h⟩ <;> simp [h]), ← entry,
        if_neg (by rcases nothing with h | h | ⟨h, -⟩ <;> simp [h])]
      rfl

end Sys2Proof.Machine
end

section
/-! SUPPORT. The dry run of PT.MAP (R227, R228), when no other agent moves: it only reads, it stops at a conflict, and
otherwise it names each missing table once. -/

namespace Sys2Proof.Machine

/-- The address of the `k`-th granule of a request (R225). -/
def granuleAt (g : BitVec 2) (v : Word) (k : Nat) : Word := v + BitVec.ofNat 64 (k * granule g)

/-- The entry found at level `l` of a walk to the leaf level `m` is a conflict (R227). -/
def EntryKind.conflicts (m l : Nat) (k : EntryKind) : Prop :=
  k = .reserved ∨ (l < m ∧ k = .leaf) ∨ (l = m ∧ k = .nonleaf)

/-- No entry on the path of `x` down to level `m` is a conflict (R227). -/
def State.Clear (s : State) (st : Stage) (x : Word) (m : Nat) : Prop :=
  ∀ l ≤ m, ∀ t, s.tableAt st x l = some t → ¬ (kind (s.entryAt st x l t)).conflicts m l

/-- The tables missing on the path of `x` from level `l` to level `m`, by level and by what names them (R228). -/
def State.missing (s : State) (st : Stage) (x : Word) (l m : Nat) : Finset (Nat × Nat) :=
  ((Finset.Icc l m).filter (fun i => s.tableAt st x i = none)).image (fun i => (i, tablePrefix i x))

theorem granuleAt_zero (g : BitVec 2) (v : Word) : granuleAt g v 0 = v := by
  rw [granuleAt, Nat.zero_mul]
  exact BitVec.add_zero v

theorem granuleAt_succ (g : BitVec 2) (v : Word) (k : Nat) :
    granuleAt g v (k + 1) = granuleAt g v k + BitVec.ofNat 64 (granule g) := by
  rw [granuleAt, granuleAt, Nat.succ_mul, BitVec.ofNat_add, BitVec.add_assoc]

section
variable {s : State} {st : Stage} {x : Word} {m : Nat}

theorem mem_missing {l : Nat} {p : Nat × Nat} : p ∈ s.missing st x l m ↔
    (l ≤ p.1 ∧ p.1 ≤ m) ∧ s.tableAt st x p.1 = none ∧ p.2 = tablePrefix p.1 x := by
  obtain ⟨i, q⟩ := p
  simp only [State.missing, Finset.mem_image, Finset.mem_filter, Finset.mem_Icc, Prod.mk.injEq]
  constructor
  · rintro ⟨i, ⟨range, none⟩, rfl, rfl⟩
    exact ⟨range, none, rfl⟩
  · rintro ⟨range, none, rfl⟩
    exact ⟨i, ⟨range, none⟩, rfl, rfl⟩

/-- What is missing of a request is what is missing of its granules. -/
theorem mem_tablesMissing {g : BitVec 2} {v : Word} {n : Nat} {p : Nat × Nat} : p ∈ s.tablesMissing st g v n ↔
    ∃ k < n, p ∈ s.missing st (granuleAt g v k) 1 (2 - g.toNat) := by
  obtain ⟨i, q⟩ := p
  simp only [State.tablesMissing, mem_missing, Finset.mem_image, Finset.mem_filter, Finset.mem_product,
    Finset.mem_range, Finset.mem_Icc, Prod.exists, Prod.mk.injEq]
  constructor
  · rintro ⟨k, i, ⟨⟨hk, range⟩, none⟩, rfl, rfl⟩
    exact ⟨k, hk, range, none, rfl⟩
  · rintro ⟨k, hk, range, none, rfl⟩
    exact ⟨k, i, ⟨⟨hk, range⟩, none⟩, rfl, rfl⟩

/-- A path of tables down to the leaf level misses none. -/
theorem missing_of_tableAt {l t : Nat} (h : s.tableAt st x m = some t) : s.missing st x l m = ∅ := by
  refine Finset.eq_empty_of_forall_notMem fun p hp => ?_
  obtain ⟨range, none, -⟩ := mem_missing.1 hp
  rw [tableAt_none_mono none range.2] at h
  cases h

/-- A table that exists is not missing. -/
theorem missing_succ {l t : Nat} (h : s.tableAt st x l = some t) : s.missing st x l m = s.missing st x (l + 1) m := by
  ext p
  rw [mem_missing, mem_missing]
  constructor
  · rintro ⟨⟨low, high⟩, none, q⟩
    rcases Nat.eq_or_lt_of_le low with rfl | lt
    · rw [h] at none
      cases none
    · exact ⟨⟨lt, high⟩, none, q⟩
  · rintro ⟨⟨low, high⟩, none, q⟩
    exact ⟨⟨by omega, high⟩, none, q⟩

/-- Below an entry that is no link every table is missing. -/
theorem mem_missing_of_not_nonleaf {l t : Nat} {p : Nat × Nat} (h : s.tableAt st x l = some t)
    (stop : kind (s.entryAt st x l t) ≠ .nonleaf) :
    p ∈ s.missing st x (l + 1) m ↔ (l + 1 ≤ p.1 ∧ p.1 ≤ m) ∧ p.2 = tablePrefix p.1 x := by
  rw [mem_missing]
  exact ⟨fun ⟨range, _, q⟩ => ⟨range, q⟩,
    fun ⟨range, q⟩ => ⟨range, tableAt_none_mono (tableAt_succ_of_not_nonleaf h stop) range.1, q⟩⟩

/-! A path is clear, or not, at the entry where its walk ends. -/

/-- Above a table on the path every entry links on, which is no conflict. -/
theorem not_conflicts_above {l j t u : Nat} (h : s.tableAt st x l = some t) (lm : l ≤ m) (jl : j < l)
    (hu : s.tableAt st x j = some u) : ¬ (kind (s.entryAt st x j u)).conflicts m j := by
  obtain ⟨w, hw, link⟩ := tableAt_above h jl
  obtain rfl := Option.some_inj.1 (hu.symm.trans hw)
  rw [link]
  rintro (h | ⟨-, h⟩ | ⟨h, -⟩)
  · cases h
  · cases h
  · omega

theorem clear_iff_of_end {l t : Nat} (h : s.tableAt st x l = some t) (lm : l ≤ m)
    (stop : kind (s.entryAt st x l t) ≠ .nonleaf ∨ l = m) :
    s.Clear st x m ↔ ¬ (kind (s.entryAt st x l t)).conflicts m l := by
  refine ⟨fun clear => clear l lm t h, fun last j jm u hu => ?_⟩
  rcases Nat.lt_trichotomy j l with jl | rfl | lj
  · exact not_conflicts_above h lm jl hu
  · obtain rfl := Option.some_inj.1 (h.symm.trans hu)
    exact last
  · rw [tableAt_none_mono (tableAt_succ_of_not_nonleaf h (stop.resolve_right (by omega))) lj] at hu
    cases hu

/-! The dry run of one granule. -/

/-- Each of the `n` tables from level `l` is added once. -/
theorem mem_noteTables {n l : Nat} {news : List (Nat × Nat)} {p : Nat × Nat} : p ∈ noteTables x n l news ↔
    p ∈ news ∨ (l ≤ p.1 ∧ p.1 < l + n) ∧ p.2 = tablePrefix p.1 x := by
  induction n generalizing l news with
  | zero =>
    simp [noteTables]
  | succ n ih =>
    have first : p ∈ (if news.contains (l, tablePrefix l x) then news else (l, tablePrefix l x) :: news) ↔
        p ∈ news ∨ p = (l, tablePrefix l x) := by
      split
      · next old => exact ⟨.inl, fun h => h.elim id fun e => e ▸ List.contains_iff_mem.1 old⟩
      · rw [List.mem_cons, or_comm]
    have level : p = (l, tablePrefix l x) ↔ p.1 = l ∧ p.2 = tablePrefix p.1 x := by
      rw [Prod.ext_iff]
      exact and_congr_right fun e => by rw [e]
    rw [noteTables, ih, first, level]
    grind

theorem noteTables_nodup {n l : Nat} {news : List (Nat × Nat)} (h : news.Nodup) : (noteTables x n l news).Nodup := by
  induction n generalizing l news with
  | zero => exact h
  | succ n ih =>
    refine ih ?_
    split
    · exact h
    · next new => exact List.nodup_cons.2 ⟨fun old => new (List.contains_iff_mem.2 old), h⟩

section
variable (calm : s.weave = [])
include calm

theorem dryWalk_clear {n l t : Nat} (news : List (Nat × Nat)) (clear : s.Clear st x m)
    (h : s.tableAt st x l = some t) (ln : l + n = m) : ∃ news', dryWalk st x n l t news s = (some news', s) ∧
      (news.Nodup → news'.Nodup) ∧ ∀ p, p ∈ news' ↔ p ∈ news ∨ p ∈ s.missing st x (l + 1) m := by
  induction n generalizing l t with
  | zero =>
    have last := clear l (by omega) t h
    have none (p) : p ∉ s.missing st x (l + 1) m := fun hp => by
      obtain ⟨range, -⟩ := mem_missing.1 hp
      omega
    refine ⟨news, ?_, id, fun p => by simp [none]⟩
    simp only [dryWalk, memRead_calm calm]
    rw [State.entryAt] at last
    cases hk : kind (s.wordBlk (slot t st l x)) with
    | invalid | leaf => rfl
    | nonleaf => exact absurd (.inr (.inr ⟨by omega, hk⟩)) last
    | reserved => exact absurd (.inl hk) last
  | succ n ih =>
    have last := clear l (by omega) t h
    have walk : dryWalk st x (n + 1) l t news s = match kind (s.entryAt st x l t) with
      | .invalid => (some (noteTables x (n + 1) (l + 1) news), s)
      | .nonleaf => dryWalk st x n (l + 1) (fieldPa (s.entryAt st x l t)).toNat news s
      | .leaf | .reserved => (none, s) := by
      simp only [dryWalk, memRead_calm calm] <;> rfl
    rw [walk]
    cases hk : kind (s.entryAt st x l t) with
    | invalid =>
      refine ⟨_, rfl, noteTables_nodup, fun p => ?_⟩
      rw [mem_noteTables, mem_missing_of_not_nonleaf h (by simp [hk])]
      exact or_congr_right (and_congr_left fun _ => by omega)
    | nonleaf =>
      obtain ⟨news', run, nodup, mem⟩ := ih (tableAt_succ_of_nonleaf h hk) (by omega)
      exact ⟨news', run, nodup, by rwa [missing_succ (tableAt_succ_of_nonleaf h hk)]⟩
    | leaf => exact absurd (.inr (.inl ⟨by omega, hk⟩)) last
    | reserved => exact absurd (.inl hk) last

theorem dryWalk_conflict {n l t : Nat} (news : List (Nat × Nat)) (conflict : ¬ s.Clear st x m)
    (h : s.tableAt st x l = some t) (ln : l + n = m) : dryWalk st x n l t news s = (none, s) := by
  have ends := clear_iff_of_end (m := m) h (by omega)
  induction n generalizing l t with
  | zero =>
    have last := (not_congr (ends (.inr (by omega)))).1 conflict
    simp only [dryWalk, memRead_calm calm]
    rw [State.entryAt] at last
    cases hk : kind (s.wordBlk (slot t st l x)) with
    | invalid => simp [hk, EntryKind.conflicts] at last
    | leaf =>
      simp only [hk, EntryKind.conflicts, reduceCtorEq, and_true, and_false, or_false, false_or] at last
      omega
    | nonleaf | reserved => rfl
  | succ n ih =>
    simp only [dryWalk, memRead_calm calm]
    cases hk : kind (s.wordBlk (slot t st l x)) with
    | invalid =>
      have last := (not_congr (ends (.inl (by simp [State.entryAt, hk])))).1 conflict
      simp [State.entryAt, hk, EntryKind.conflicts] at last
    | nonleaf =>
      have next := tableAt_succ_of_nonleaf h hk
      exact ih next (by omega) (clear_iff_of_end next (by omega))
    | leaf | reserved => rfl

/-! The dry run of a request. -/

omit calm in
theorem granuleAt_shift (g : BitVec 2) (v : Word) (k : Nat) :
    granuleAt g (v + BitVec.ofNat 64 (granule g)) k = granuleAt g v (k + 1) := by
  rw [granuleAt_succ, granuleAt, granuleAt, BitVec.add_assoc, BitVec.add_assoc, BitVec.add_comm (BitVec.ofNat 64 _)]

theorem dryRun_clear {g : BitVec 2} {n : Nat} {v : Word} (news : List (Nat × Nat))
    (clear : ∀ k < n, s.Clear st (granuleAt g v k) (2 - g.toNat)) : ∃ news', dryRun st g n v news s = (some news', s) ∧
      (news.Nodup → news'.Nodup) ∧ ∀ p, p ∈ news' ↔ p ∈ news ∨ p ∈ s.tablesMissing st g v n := by
  induction n generalizing v news with
  | zero => exact ⟨news, rfl, id, fun p => by simp [mem_tablesMissing]⟩
  | succ n ih =>
    have first : s.Clear st v (2 - g.toNat) := granuleAt_zero g v ▸ clear 0 (by omega)
    obtain ⟨one, walk, nodup, mem⟩ := dryWalk_clear calm news first (l := 0) rfl (Nat.zero_add _)
    obtain ⟨all, run, nodup', mem'⟩ := ih one fun k hk => by
      rw [granuleAt_shift]
      exact clear (k + 1) (by omega)
    refine ⟨all, ?_, nodup' ∘ nodup, fun p => ?_⟩
    · rw [dryRun, leafLevel, walk]
      exact run
    · rw [mem', mem, or_assoc, mem_tablesMissing, mem_tablesMissing, Nat.exists_lt_succ_left, granuleAt_zero]
      simp only [granuleAt_shift]

theorem dryRun_conflict {g : BitVec 2} {n k : Nat} {v : Word} (news : List (Nat × Nat)) (hk : k < n)
    (conflict : ¬ s.Clear st (granuleAt g v k) (2 - g.toNat)) : dryRun st g n v news s = (none, s) := by
  induction n generalizing v news k with
  | zero => omega
  | succ n ih =>
    rw [dryRun, leafLevel]
    by_cases first : s.Clear st v (2 - g.toNat)
    · obtain ⟨one, walk, -⟩ := dryWalk_clear calm news first (l := 0) rfl (Nat.zero_add _)
      cases k with
      | zero => exact absurd ((granuleAt_zero g v).symm ▸ first) conflict
      | succ k =>
        rw [walk]
        exact ih one (Nat.lt_of_succ_lt_succ hk) (by rwa [granuleAt_shift])
    · rw [dryWalk_conflict calm news first (l := 0) rfl (Nat.zero_add _)]

end
end

/-! What PT.MAP comes to (R225, R228). -/

section
variable {st : Stage} {g : BitVec 2} {fl : BitVec 7} {v p n : Word} {s : State} (calm : s.weave = [])
include calm

/-- Past the checks, a conflict ends PT.MAP. -/
theorem exec_ptMap_conflict (ready : s.blk.ptReady = true) (wf : (Instr.ptMap st g fl v p n).wellFormed = true)
    {k : Nat}    (hk : k < n.toNat) (conflict : ¬ s.Clear st (granuleAt g v k) (2 - g.toNat)) :
    exec (.ptMap st g fl v p n) s = .next (s.finish (result .errConflict)) := by
  obtain ⟨code, aligned, range, legal⟩ := wellFormed_ptMap.1 wf
  rw [exec_ptMap, dryRun_conflict calm [] hk conflict]
  simp only [ready, code, aligned, range, legal]
  rfl

/-- Past the checks and with no conflict, PT.MAP is refused for want of pool pages or is its commit phase. -/
theorem exec_ptMap_clear (ready : s.blk.ptReady = true) (wf : (Instr.ptMap st g fl v p n).wellFormed = true)
    (clear : ∀ k < n.toNat, s.Clear st (granuleAt g v k) (2 - g.toNat)) :
    exec (.ptMap st g fl v p n) s =
      if s.cfg.poolPages < s.blk.poolNext.toNat + (s.tablesMissing st g v n.toNat).card then
        .next (s.finish (result .errPool))
      else .next ((mapGranules st g fl n.toNat v p 0 s).2.finish
        (result .ok (BitVec.ofNat 64 (s.tablesMissing st g v n.toNat).card)
          (BitVec.ofNat 64 (mapGranules st g fl n.toNat v p 0 s).1))) := by
  obtain ⟨code, aligned, range, legal⟩ := wellFormed_ptMap.1 wf
  obtain ⟨news, run, nodup, mem⟩ := dryRun_clear calm [] clear
  have need : news.length = (s.tablesMissing st g v n.toNat).card := by
    rw [← List.toFinset_card_of_nodup (nodup .nil)]
    congr 1
    ext p
    simp [mem]
  rw [exec_ptMap, run]
  simp only [ready, code, aligned, range, legal, need, Bool.true_eq_false, not_true_eq_false, if_false]
  rfl

/-- PT.MAP is refused and leaves the state as it was, or all its checks have passed. -/
theorem exec_ptMap_cases {t : State} (e : exec (.ptMap st g fl v p n) s = .next t) :
    (∃ c, c ≠ .ok ∧ t = s.finish (result c)) ∨ (Instr.ptMap st g fl v p n).wellFormed = true ∧
      (∀ k < n.toNat, s.Clear st (granuleAt g v k) (2 - g.toNat)) ∧
      s.blk.poolNext.toNat + (s.tablesMissing st g v n.toNat).card ≤ s.cfg.poolPages := by
  have refused {c : Status} (h : c ≠ .ok) (e : raise c s = .next t) : ∃ c, c ≠ .ok ∧ t = s.finish (result c) :=
    ⟨c, h, by cases e; rfl⟩
  by_cases ready : s.blk.ptReady = true
  · by_cases wf : (Instr.ptMap st g fl v p n).wellFormed = true
    · by_cases clear : ∀ k < n.toNat, s.Clear st (granuleAt g v k) (2 - g.toNat)
      · rw [exec_ptMap_clear calm ready wf clear] at e
        split at e
        · exact .inl (refused (by decide) e)
        · next room => exact .inr ⟨wf, clear, by omega⟩
      · push Not at clear
        obtain ⟨k, hk, conflict⟩ := clear
        rw [exec_ptMap_conflict calm ready wf hk conflict] at e
        exact .inl (refused (by decide) e)
    · rw [wellFormed_ptMap] at wf
      rw [exec_ptMap] at e
      split_ifs at e
      · exact .inl (refused (by decide) e)
      · exact .inl (refused (by decide) e)
      · tauto
      iterate 3 exact .inl (refused (by decide) e)
  · rw [exec_ptMap, if_pos (Bool.not_eq_true _ ▸ ready)] at e
    exact .inl (refused (by decide) e)

end

end Sys2Proof.Machine
end

section
/-! PROOFS. O23 and O24. -/

namespace Sys2Proof.Machine

/-- Settles O23: the dry run stops at the conflict. -/
theorem ptMapConflict : Obligations.PtMapConflict := by
  intro st g fl v p n x s k l t calm ready wf hk le hx table conflict
  subst hx
  exact exec_ptMap_conflict calm ready wf hk fun clear => clear l le t table conflict

/-- Settles O24: no table is missing, so the commit phase is the one store of the leaf. -/
theorem ptMapOneStore : Obligations.PtMapOneStore := by
  intro st g fl v p s t calm ready room wf table entry ea leaf
  obtain ⟨-, -, range, -⟩ := wellFormed_ptMap.1 wf
  obtain ⟨-, below, -⟩ := mapInRange_eq_true.1 range
  have one : (1 : Word).toNat = 1 := rfl
  have first {k : Nat} (hk : k < (1 : Word).toNat) : granuleAt g v k = v := by
    obtain rfl : k = 0 := by omega
    exact granuleAt_zero g v
  have clear : ∀ k < (1 : Word).toNat, s.Clear st (granuleAt g v k) (2 - g.toNat) := fun k hk => by
    rw [first hk, clear_iff_of_end table le_rfl (.inr rfl)]
    simp only [State.entryAt, EntryKind.conflicts]
    rcases entry with h | h <;> simp [h]
  have need : (s.tablesMissing st g v (1 : Word).toNat).card = 0 := by
    refine Finset.card_eq_zero.2 (Finset.eq_empty_of_forall_notMem fun q hq => ?_)
    obtain ⟨k, hk, hq⟩ := mem_tablesMissing.1 hq
    rw [first hk, missing_of_tableAt table] at hq
    exact Finset.notMem_empty q hq
  have word : leaf = leafPte p fl := by
    have small : p.toNat < 2 ^ 56 := by
      have := granule_pos g
      rw [one] at below
      omega
    simp only [leaf, ← toNat_leafPte fl small, BitVec.ofNat_toNat, BitVec.setWidth_eq]
  have commit : mapGranules st g fl (1 : Word).toNat v p 0 s = (ea, s.stored [⟨ea, leaf⟩]) := by
    have walk := descend_of_tableAt calm (l := 0) (n := leafLevel g) rfl ((Nat.zero_add (2 - g.toNat)).symm ▸ table)
    rw [one]
    simp only [mapGranules, walk]
    rw [memWrite_stored calm, ← word]
    rfl
  refine ⟨_, (exec_ptMap_clear calm ready wf clear).trans (if_neg (by omega)), ?_⟩
  rw [need, commit]
  refine ⟨rfl, Memory.load64_store64_same _ _ _, rfl, rfl, rfl, by constructor <;> rfl, fun a ha => ?_⟩
  refine Memory.read_store64 _ _ _ _ ?_
  simp only [within] at ha ⊢
  omega

end Sys2Proof.Machine
end

section
/-! SUPPORT. The words of the MSI remap table (R140 to R142, R261) as numbers: an entry's fields, put together and taken
apart. -/

namespace Sys2Proof.Machine

/-- A field of a word, as a mask with `n` bits from bit `i` leaves it. -/
theorem toNat_and_field (v : Word) {i n : Nat} (h : i + n ≤ 64) :
    (v &&& (BitVec.allOnes n).setWidth 64 <<< i).toNat = v.toNat / 2 ^ i % 2 ^ n * 2 ^ i := by
  have field : v &&& (BitVec.allOnes n).setWidth 64 <<< i = (v.extractLsb' i n).setWidth 64 <<< i := by
    refine BitVec.eq_of_getLsbD_eq fun j _ => ?_
    simp only [BitVec.getLsbD_and, BitVec.getLsbD_shiftLeft, BitVec.getLsbD_setWidth, BitVec.getLsbD_allOnes,
      BitVec.getLsbD_extractLsb']
    grind
  have low : (v.extractLsb' i n).toNat < 2 ^ n := (v.extractLsb' i n).isLt
  have narrow : (v.extractLsb' i n).toNat < 2 ^ 64 := low.trans_le (Nat.pow_le_pow_right (by omega) (by omega))
  have fits : (v.extractLsb' i n).toNat * 2 ^ i < 2 ^ 64 := calc
    _ < 2 ^ n * 2 ^ i := Nat.mul_lt_mul_of_pos_right low (Nat.two_pow_pos i)
    _ = 2 ^ (i + n) := by rw [Nat.pow_add, Nat.mul_comm]
    _ ≤ 2 ^ 64 := Nat.pow_le_pow_right (by omega) h
  rw [field, BitVec.toNat_shiftLeft, BitVec.toNat_setWidth, Nat.mod_eq_of_lt narrow, Nat.shiftLeft_eq,
    Nat.mod_eq_of_lt fits, BitVec.extractLsb'_toNat, Nat.shiftRight_eq_div_pow]

/-- The page an entry of MSI.SET_BASIC holds, and its MRIF entry's MRIF, in 512-byte units (R142). -/
theorem toNat_and_mrifMask (v : Word) :
    (v &&& 0x003FFFFFFFFFFF80).toNat = v.toNat / 128 % 2 ^ 47 * 128 := by
  have mask : (0x003FFFFFFFFFFF80 : Word) = (BitVec.allOnes 47).setWidth 64 <<< 7 := by decide
  rw [mask]
  exact toNat_and_field v (by omega)

theorem toNat_mrifField (m : Word) : (mrifField m).toNat = m.toNat / 512 % 2 ^ 47 * 128 := by
  rw [mrifField, toNat_and_mrifMask, BitVec.toNat_ushiftRight, Nat.shiftRight_eq_div_pow]
  omega

theorem toNat_mrifPa (d : Word) : (mrifPa d).toNat = d.toNat / 128 % 2 ^ 47 * 512 := by
  rw [mrifPa, BitVec.toNat_shiftLeft, toNat_and_mrifMask, Nat.shiftLeft_eq]
  omega

theorem toNat_and_low10 (v : Word) : (v &&& 0x3FF).toNat = v.toNat % 1024 := Nat.and_two_pow_sub_one_eq_mod v.toNat 10

/-- Words whose bits do not meet add up. -/
theorem toNat_or_of_lt {a b : Word} {i : Nat} (low : b.toNat < 2 ^ i) (high : a.toNat % 2 ^ i = 0) :
    (a ||| b).toNat = a.toNat + b.toNat := by
  obtain ⟨k, hk⟩ := Nat.dvd_of_mod_eq_zero high
  rw [BitVec.toNat_or, hk, Nat.two_pow_add_eq_or_of_lt low]

/-- The C bit of an entry (R141). -/
theorem toNat_bit_shift63 (c : Bool) : (bit c <<< 63).toNat = c.toNat * 2 ^ 63 := by
  revert c
  decide

theorem toNat_basicDw0 {a : Word} (range : a.toNat < 2 ^ 56) (c : Bool) :
    (basicDw0 a c).toNat = 7 + a.toNat / 4096 * 1024 + c.toNat * 2 ^ 63 := by
  have flags : (1 ||| (3 <<< 1) : Word).toNat = 7 := rfl
  have page : ((1 ||| (3 <<< 1) : Word) ||| ppnField a).toNat = 7 + a.toNat / 4096 * 1024 := by
    rw [BitVec.or_comm, toNat_ppnField_or a (by rw [flags]; omega), flags]
    omega
  rw [basicDw0, BitVec.or_comm, toNat_or_of_lt (i := 63) (by omega) (by rw [toNat_bit_shift63]; omega), page,
    toNat_bit_shift63, Nat.add_comm]

theorem toNat_mrifDw0 {m : Word} (range : m.toNat < 2 ^ 56) (c : Bool) :
    (mrifDw0 m c).toNat = 3 + m.toNat / 512 * 128 + c.toNat * 2 ^ 63 := by
  have flags : (1 ||| (1 <<< 1) : Word).toNat = 3 := rfl
  have place : ((1 ||| (1 <<< 1) : Word) ||| mrifField m).toNat = 3 + m.toNat / 512 * 128 := by
    rw [BitVec.or_comm, toNat_or_of_lt (i := 7) (by omega) (by rw [toNat_mrifField]; omega), toNat_mrifField, flags]
    omega
  rw [mrifDw0, BitVec.or_comm, toNat_or_of_lt (i := 63) (by omega) (by rw [toNat_bit_shift63]; omega), place,
    toNat_bit_shift63, Nat.add_comm]

theorem toNat_mrifDw1 {a nid : Word} (range : a.toNat < 2 ^ 56) (id : nid.toNat < 2 ^ 11) :
    (mrifDw1 a nid).toNat = nid.toNat % 1024 + a.toNat / 4096 * 1024 + nid.toNat / 1024 * 2 ^ 60 := by
  have page : ((nid &&& 0x3FF) ||| ppnField a).toNat = nid.toNat % 1024 + a.toNat / 4096 * 1024 := by
    rw [BitVec.or_comm, toNat_ppnField_or a (by rw [toNat_and_low10]; omega), toNat_and_low10]
    omega
  have top : (((nid >>> 10) &&& 1) <<< 60).toNat = nid.toNat / 1024 * 2 ^ 60 := by
    have one : ((nid >>> 10) &&& 1).toNat = nid.toNat / 1024 % 2 := by
      rw [BitVec.toNat_and, BitVec.toNat_ushiftRight, Nat.shiftRight_eq_div_pow]
      exact Nat.and_two_pow_sub_one_eq_mod _ 1
    rw [BitVec.toNat_shiftLeft, one, Nat.shiftLeft_eq]
    omega
  have fields : mrifDw1 a nid = ((nid &&& (0x3FF : Word)) ||| ppnField a) ||| ((nid >>> 10) &&& 1) <<< 60 := rfl
  rw [fields, BitVec.or_comm, toNat_or_of_lt (i := 60) (by omega) (by rw [top]; omega), page, top, Nat.add_comm]

/-! The reserved bits of the entries are 0 (R140 to R142). -/

theorem basicDw0_reserved (a : Word) : basicDw0 a false &&& 0x7FC00000000003F8 = 0 := by
  have field : ppnField a &&& 0x7FC00000000003F8 = 0 := by
    rw [ppnField, BitVec.and_assoc]
    exact BitVec.and_zero
  exact or_and_eq_zero (or_and_eq_zero (by decide) field) (by decide)

theorem mrifDw0_reserved (m : Word) : mrifDw0 m false &&& 0x7FC0000000000078 = 0 := by
  have field : mrifField m &&& 0x7FC0000000000078 = 0 := by
    rw [mrifField, BitVec.and_assoc]
    exact BitVec.and_zero
  exact or_and_eq_zero (or_and_eq_zero (by decide) field) (by decide)

theorem mrifDw1_reserved (a nid : Word) : mrifDw1 a nid &&& 0xEFC0000000000000 = 0 := by
  have low : nid &&& 0x3FF &&& 0xEFC0000000000000 = 0 := by
    rw [BitVec.and_assoc]
    exact BitVec.and_zero
  have field : ppnField a &&& 0xEFC0000000000000 = 0 := by
    rw [ppnField, BitVec.and_assoc]
    exact BitVec.and_zero
  have top : ((nid >>> 10) &&& 1) <<< 60 &&& 0xEFC0000000000000 = 0 := by
    rw [BitVec.shiftLeft_and_distrib, BitVec.and_assoc]
    exact BitVec.and_zero
  exact or_and_eq_zero (or_and_eq_zero low field) top

/-! What the IOMMU makes of an entry (R237). -/

/-- An entry with V = 1 and C = 1 is misconfigured (R267). -/
theorem msiTarget_custom {gpa d0 d1 : Word} (valid : d0.toNat % 2 = 1) (custom : d0.toNat / 2 ^ 63 % 2 = 1) :
    msiTarget gpa d0 d1 = .error ⟨263, 0⟩ := by
  rw [msiTarget, (getLsbD_eq_true d0 0).2 (by omega), (getLsbD_eq_true d0 63).2 custom]
  rfl

/-- The M field of an entry (R140). -/
theorem extractM_eq {d : Word} {m : BitVec 2} (h : d.toNat / 2 % 4 = m.toNat) : d.extractLsb' 1 2 = m := by
  rw [← BitVec.toNat_inj, BitVec.extractLsb'_toNat, Nat.shiftRight_eq_div_pow, ← h]

theorem msiTarget_basic {a : Word} (page : a.toNat % 4096 = 0) (range : a.toNat < 2 ^ 56) (gpa : Word) :
    msiTarget gpa (basicDw0 a false) 0 = .ok (.mem (BitVec.ofNat 64 (a.toNat + gpa.toNat % 4096))) := by
  have number := toNat_basicDw0 range false
  rw [Bool.toNat_false] at number
  have valid : (basicDw0 a false).getLsbD 0 = true := (getLsbD_eq_true _ 0).2 (by omega)
  have plain : (basicDw0 a false).getLsbD 63 = false := by
    rw [← Bool.not_eq_true, getLsbD_eq_true]
    omega
  have mode : (basicDw0 a false).extractLsb' 1 2 = 3 := extractM_eq (m := 3) (by rw [number]; simp; omega)
  have target : (fieldPa (basicDw0 a false) ||| (gpa &&& 0xFFF)).toNat = a.toNat + gpa.toNat % 4096 := by
    have offset : (gpa &&& 0xFFF).toNat = gpa.toNat % 4096 := Nat.and_two_pow_sub_one_eq_mod gpa.toNat 12
    have frame : (fieldPa (basicDw0 a false)).toNat = a.toNat := by
      rw [toNat_fieldPa, number]
      omega
    rw [toNat_or_of_lt (i := 12) (by omega) (by omega), frame, offset]
  rw [msiTarget, valid, plain, mode, basicDw0_reserved, ← target, BitVec.ofNat_toNat, BitVec.setWidth_eq]
  rfl

theorem msiTarget_mrif {m a nid : Word} (place : m.toNat % 512 = 0) (hm : m.toNat < 2 ^ 56) (page : a.toNat % 4096 = 0)
    (ha : a.toNat < 2 ^ 56) (id : nid.toNat < 2 ^ 11) (gpa : Word) :
    msiTarget gpa (mrifDw0 m false) (mrifDw1 a nid) = .ok (.mrif m a nid) := by
  have n0 := toNat_mrifDw0 hm false
  have n1 := toNat_mrifDw1 ha id
  rw [Bool.toNat_false] at n0
  have valid : (mrifDw0 m false).getLsbD 0 = true := (getLsbD_eq_true _ 0).2 (by omega)
  have plain : (mrifDw0 m false).getLsbD 63 = false := by
    rw [← Bool.not_eq_true, getLsbD_eq_true]
    omega
  have mode : (mrifDw0 m false).extractLsb' 1 2 = 1 := extractM_eq (m := 1) (by rw [n0]; simp; omega)
  have mrif : mrifPa (mrifDw0 m false) = m := by
    rw [← BitVec.toNat_inj, toNat_mrifPa, n0]
    omega
  have notice : fieldPa (mrifDw1 a nid) = a := by
    rw [← BitVec.toNat_inj, toNat_fieldPa, n1]
    omega
  have data : (mrifDw1 a nid &&& 0x3FF) ||| (if (mrifDw1 a nid).getLsbD 60 then 0x400 else 0) = nid := by
    have low : (mrifDw1 a nid &&& 0x3FF).toNat = nid.toNat % 1024 := by
      rw [toNat_and_low10, n1]
      omega
    have high : (if (mrifDw1 a nid).getLsbD 60 = true then 0x400 else 0 : Word).toNat = nid.toNat / 1024 * 1024 := by
      simp only [getLsbD_eq_true, n1]
      split_ifs <;> simp <;> omega
    rw [← BitVec.toNat_inj, BitVec.or_comm, toNat_or_of_lt (i := 10) (by omega) (by omega), low, high]
    omega
  rw [msiTarget, valid, plain, mode, mrifDw0_reserved, mrifDw1_reserved, mrif, notice, data]
  rfl

/-! The requests that finish OK. -/

/-- A request that raises a status does not finish OK. -/
theorem raise_not_ok {c : Status} {s t : State} (h : c.code ≠ Status.ok.code) (e : raise c s = .next t) :
    t.res.status ≠ Status.ok.code := by
  cases e
  exact h

theorem exec_msiSetBasic_ok {c : Bool} {a0 a1 : Word} {s t : State} (e : exec (.msiSetBasic c a0 a1) s = .next t)
    (ok : t.res.status = Status.ok.code) : a1.toNat % 4096 = 0 ∧ a1.toNat < 2 ^ 56 ∧
      t.res = result .ok (basicDw0 a1 c) 0 (BitVec.ofNat 64 (msiEntry s.cfg a0.toNat)) := by
  change execMsiSetBasic c a0 a1 s = _ at e
  rw [execMsiSetBasic] at e
  split_ifs at e with _ _ _ page range
  case neg =>
    cases e
    exact ⟨aligned_eq_true.1 (by simpa using page), fits_eq_true.1 (by simpa using range), rfl⟩
  all_goals exact absurd ok (raise_not_ok (by decide) e)

theorem exec_msiSetMrif_ok {c : Bool} {a0 a1 a2 a3 : Word} {s t : State}
    (e : exec (.msiSetMrif c a0 a1 a2 a3) s = .next t) (ok : t.res.status = Status.ok.code) :
    (a1.toNat % 512 = 0 ∧ a1.toNat < 2 ^ 56) ∧ (a2.toNat % 4096 = 0 ∧ a2.toNat < 2 ^ 56) ∧ a3.toNat < 2 ^ 11 ∧
      t.res = result .ok (mrifDw0 a1 c) (mrifDw1 a2 a3) (BitVec.ofNat 64 (msiEntry s.cfg a0.toNat)) := by
  change execMsiSetMrif c a0 a1 a2 a3 s = _ at e
  rw [execMsiSetMrif] at e
  split_ifs at e with _ _ _ places ranges nid
  case neg =>
    cases e
    simp only [Bool.or_eq_true, Bool.not_eq_true', not_or, Bool.not_eq_false, aligned_eq_true,
      fits_eq_true] at places ranges nid
    exact ⟨⟨places.1, ranges.1⟩, ⟨places.2, ranges.2⟩, nid, rfl⟩
  all_goals exact absurd ok (raise_not_ok (by decide) e)

end Sys2Proof.Machine
end

section
/-! PROOFS. O35. -/

namespace Sys2Proof.Machine

/-- Settles O35: the fields of the words the block writes, as the IOMMU takes them apart. -/
theorem msiEntriesMean : Obligations.MsiEntriesMean := by
  refine ⟨fun c a0 a1 gpa s t e ok => ?basic, fun c a0 a1 a2 a3 gpa s t e ok => ?mrif⟩
  case basic =>
    obtain ⟨page, range, res⟩ := exec_msiSetBasic_ok e ok
    have number := toNat_basicDw0 range c
    rw [res]
    cases c with
    | true =>
      rw [Bool.toNat_true] at number
      exact msiTarget_custom (d0 := basicDw0 a1 true) (by omega) (by omega)
    | false => exact msiTarget_basic page range gpa
  case mrif =>
    obtain ⟨⟨place, hm⟩, ⟨page, ha⟩, id, res⟩ := exec_msiSetMrif_ok e ok
    have number := toNat_mrifDw0 hm c
    rw [res]
    cases c with
    | true =>
      rw [Bool.toNat_true] at number
      exact msiTarget_custom (d0 := mrifDw0 a1 true) (by omega) (by omega)
    | false => exact msiTarget_mrif place hm page ha id gpa

end Sys2Proof.Machine
end

section
/-! SUPPORT. Where the builder's tables lie (R8, R220, R231): the pool inside memory and off the register window, every
table of a sound tree inside the pool. -/

namespace Sys2Proof.Machine

theorem overlaps_eq_false {a n b m : Nat} : overlaps a n b m = false ↔ b + m ≤ a ∨ a + n ≤ b ∨ n = 0 ∨ m = 0 := by
  simp only [overlaps, Bool.and_eq_false_iff, decide_eq_false_iff_not]
  omega

/-- R8 for the pool, as numbers. -/
structure PoolPlaced (c : Config) : Prop where
  base : c.poolBase.toNat % 16384 = 0
  pages : 5 ≤ c.poolPages
  fits : c.poolBase.toNat + 4096 * c.poolPages ≤ 2 ^ 56
  window : overlaps c.iommuBase.toNat 4096 c.poolBase.toNat (4096 * c.poolPages) = false

theorem wellPlaced_pool {s : State} (h : wellPlaced s = true) : PoolPlaced s.cfg := by
  obtain ⟨params, fits, apart⟩ := of_decide_eq_true h
  obtain ⟨-, -, -, base, pages, -⟩ := of_decide_eq_true params
  have window : overlaps (registerWindow s.cfg).addr (registerWindow s.cfg).size s.cfg.poolBase.toNat
      (4096 * s.cfg.poolPages) = false := by
    simp only [disjointAll, Bool.and_eq_true, Bool.not_eq_true', meetsAny, blockRegions, List.any_cons,
      Bool.or_eq_false_iff] at apart
    exact apart.1.1
  exact ⟨aligned_eq_true.1 base, pages,
    fits ⟨s.cfg.poolBase.toNat, 4096 * s.cfg.poolPages⟩ (by simp [blockRegions]), window⟩

/-- The bytes of a table of level `l` (R220): the root of stage 2 takes four pages. -/
def tableBytes (st : Stage) (l : Nat) : Nat := if st = .s2 ∧ l = 0 then 16384 else 4096

theorem tableBytes_eq (st : Stage) (l : Nat) : tableBytes st l = 8 * (if st = .s2 ∧ l = 0 then 2048 else 512) := by
  rw [tableBytes]
  split <;> rfl

/-- The entry an address meets lies in its table. -/
theorem slot_in_table (t : Nat) (st : Stage) {l : Nat} (x : Word) (h : l ≤ 2) :
    t ≤ slot t st l x ∧ slot t st l x + 8 ≤ t + tableBytes st l := by
  have small : idx st l x < if st = .s2 ∧ l = 0 then 2048 else 512 := by
    rw [idx_eq st x h]
    exact Nat.mod_lt _ (by split <;> omega)
  rw [tableBytes_eq, slot]
  omega

section
variable {s : State} {st : Stage} {x : Word} {l t : Nat}

/-- Every table of a sound tree lies in the pool pages handed out. -/
theorem State.TreesOk.table_in_pool (trees : s.TreesOk) (hl : l ≤ 2) (h : s.tableAt st x l = some t) :
    s.cfg.poolBase.toNat ≤ t ∧ t + tableBytes st l ≤ s.cfg.poolBase.toNat + 4096 * s.blk.poolNext.toNat := by
  obtain ⟨handed, -⟩ := trees.pages
  rcases Nat.eq_zero_or_pos l with rfl | pos
  · rw [tableAt_zero.1 h]
    cases st with
    | s1 =>
      rw [rootOf, trees.root1, tableBytes, if_neg (by simp)]
      omega
    | s2 =>
      rw [rootOf, trees.root2, tableBytes, if_pos (by simp)]
      omega
  · obtain ⟨i, low, high, rfl⟩ := trees.handedOut st x l t pos hl h
    rw [tableBytes, if_neg (by omega)]
    omega

/-- So does every entry. -/
theorem State.TreesOk.slot_in_pool (trees : s.TreesOk) (hl : l ≤ 2) (h : s.tableAt st x l = some t) :
    s.cfg.poolBase.toNat ≤ slot t st l x ∧
      slot t st l x + 8 ≤ s.cfg.poolBase.toNat + 4096 * s.cfg.poolPages := by
  have := trees.table_in_pool hl h
  have := slot_in_table t st x hl
  have := trees.pages.2
  omega

/-- The IOMMU can read an entry of the builder's trees. -/
theorem State.TreesOk.slot_accessible (trees : s.TreesOk) (placed : PoolPlaced s.cfg) (hl : l ≤ 2)
    (h : s.tableAt st x l = some t) : accessible s.cfg (slot t st l x) 8 = true := by
  have inside := trees.slot_in_pool hl h
  have fits := placed.fits
  have window := placed.window
  have pages := placed.pages
  rw [overlaps_eq_false] at window
  rw [accessible, Bool.and_eq_true, decide_eq_true_eq, Bool.not_eq_true', overlaps_eq_false, paLimit]
  omega

end

end Sys2Proof.Machine
end

section
/-! SUPPORT. The IOMMU's stage-1 walk with no copy used and stage 2 Bare (R236), entry by entry. -/

namespace Sys2Proof.Machine

theorem Walk.next_of_empty {w : Walk} (h : w.picks = []) : w.next = w := by
  obtain ⟨caches, picks⟩ := w
  cases h
  rfl

theorem readPte_memory {c : Config} {m : Memory} {a : Nat} {w : Walk} (key : PteCopy) (fresh : w.picks = [])
    (readable : accessible c a 8 = true) : readPte c m key a w = (some { key with val := m.load64 a }, w) := by
  have pick : w.pick = .memory := by rw [Walk.pick, fresh]; rfl
  simp only [readPte, pick, pickValue, readable, if_true, Option.map_some, Bool.false_eq_true, if_false,
    Walk.next_of_empty fresh]

section
variable {c : Config} {m : Memory} {x : Context} {of : AccessKind} {priv : Bool} {iova : Word} {w : Walk} {n l t : Nat}
  (fresh : w.picks = []) (bare : x.s2 = false) (ln : l + n = 2) (readable : accessible c (slot t .s1 l iova) 8 = true)
include fresh bare ln readable

theorem stage1Walk_nonleaf (link : kind (m.load64 (slot t .s1 l iova)) = .nonleaf) :
    stage1Walk c m x of priv iova (n + 1) t [] w =
      stage1Walk c m x of priv iova n (fieldPa (m.load64 (slot t .s1 l iova))).toNat [] w := by
  obtain rfl : l = 2 - n := by omega
  simp only [stage1Walk, bare, Bool.false_and, Bool.false_eq_true, if_false, readPte_memory _ fresh readable, link]

theorem stage1Walk_leaf (leaf : kind (m.load64 (slot t .s1 l iova)) = .leaf) :
    stage1Walk c m x of priv iova (n + 1) t [] w =
      (if leafAllows of (!priv) l (m.load64 (slot t .s1 l iova)) then
        .ok (leafTarget (m.load64 (slot t .s1 l iova)) iova l) else .error ⟨pageFault of, 0⟩, w) := by
  obtain rfl : l = 2 - n := by omega
  simp only [stage1Walk, bare, Bool.false_and, Bool.false_eq_true, if_false, readPte_memory _ fresh readable, leaf,
    apply_ite (Prod.mk · w)]

theorem stage1Walk_stop (link : kind (m.load64 (slot t .s1 l iova)) ≠ .nonleaf)
    (leaf : kind (m.load64 (slot t .s1 l iova)) ≠ .leaf) :
    stage1Walk c m x of priv iova (n + 1) t [] w = (.error ⟨pageFault of, 0⟩, w) := by
  obtain rfl : l = 2 - n := by omega
  simp only [stage1Walk, bare, Bool.false_and, Bool.false_eq_true, if_false, readPte_memory _ fresh readable]

end

/-! The walk of a sound tree. -/

section
variable {s : State} {x : Context} {of : AccessKind} {priv : Bool} {iova : Word} {w : Walk} (placed : PoolPlaced s.cfg)
  (trees : s.TreesOk) (fresh : w.picks = []) (bare : x.s2 = false)
include placed trees fresh bare

theorem stage1Walk_from {l n t : Nat} (ln : l + n = 3) (pos : n ≠ 0) (h : s.tableAt .s1 iova l = some t) :
    stage1Walk s.cfg s.memBlk x of priv iova 3 s.blk.s1Root.toNat [] w =
      stage1Walk s.cfg s.memBlk x of priv iova n t [] w := by
  induction l generalizing n t with
  | zero =>
    obtain rfl := tableAt_zero.1 h
    obtain rfl : n = 3 := by omega
    rfl
  | succ l ih =>
    obtain ⟨u, hu, link, rfl⟩ := tableAt_succ.1 h
    rw [ih (n := n + 1) (by omega) (by omega) hu,
      stage1Walk_nonleaf fresh bare (by omega) (trees.slot_accessible placed (by omega) hu) link]
    rfl

/-- The IOMMU's walk ends at the entry PT.LOOKUP's walk ends at (R232, R236). -/
theorem stage1Walk_end {l t : Nat} (le : l ≤ 2) (h : s.tableAt .s1 iova l = some t)
    (stop : kind (s.entryAt .s1 iova l t) ≠ .nonleaf ∨ l = 2) :
    stage1Walk s.cfg s.memBlk x of priv iova 3 s.blk.s1Root.toNat [] w =
      (if kind (s.entryAt .s1 iova l t) = .leaf ∧ leafAllows of (!priv) l (s.entryAt .s1 iova l t) = true then
        .ok (leafTarget (s.entryAt .s1 iova l t) iova l) else .error ⟨pageFault of, 0⟩, w) := by
  have readable := trees.slot_accessible placed le h
  have sound := (trees.kinds .s1 iova l t le h).2
  rw [stage1Walk_from placed trees fresh bare (n := 2 - l + 1) (by omega) (by omega) h]
  by_cases leaf : kind (s.entryAt .s1 iova l t) = .leaf
  · rw [stage1Walk_leaf fresh bare (by omega) readable leaf]
    simp only [leaf, true_and]
    rfl
  · rw [stage1Walk_stop fresh bare (by omega) readable (fun link => stop.elim (· link) (sound · link)) leaf,
      if_neg fun both => leaf both.1]

end

/-! The permissions as a mask. -/

theorem and_eq_right_iff {e m : Word} : e &&& m = m ↔ ∀ i, m.getLsbD i = true → e.getLsbD i = true := by
  constructor
  · intro h i hi
    rw [← h, BitVec.getLsbD_and, Bool.and_eq_true] at hi
    exact hi.1
  · intro h
    refine BitVec.eq_of_getLsbD_eq fun i _ => ?_
    rw [BitVec.getLsbD_and]
    cases hm : m.getLsbD i with
    | false => simp
    | true => simp [h i hm]

theorem and_or_eq_iff {e a b : Word} : e &&& (a ||| b) = a ||| b ↔ e &&& a = a ∧ e &&& b = b := by
  simp only [and_eq_right_iff, BitVec.getLsbD_or, Bool.or_eq_true, or_imp, forall_and]

theorem and_twoPow_eq_iff {e : Word} {i : Nat} (h : i < 64) :
    e &&& BitVec.twoPow 64 i = BitVec.twoPow 64 i ↔ e.getLsbD i = true := by
  simp [and_eq_right_iff, BitVec.getLsbD_twoPow, h]

/-- The bits a leaf must have for an access of each kind (R236). -/
def neededBits (of : AccessKind) (priv : Bool) : Word :=
  (match of with | .exec => 0x48 | .read => 0x42 | .write => 0xC4) ||| (if priv then 0 else 0x10)

/-- A leaf aligned to its granule allows an access when it has the bits the access needs. -/
theorem leafAllows_iff {e : Word} {l : Nat} (of : AccessKind) (priv : Bool)
    (page : (fieldPa e).toNat % levelSize l = 0) :
    leafAllows of (!priv) l e = true ↔ e &&& neededBits of priv = neededBits of priv := by
  have exec : (0x48 : Word) = BitVec.twoPow 64 3 ||| BitVec.twoPow 64 6 := by decide
  have read : (0x42 : Word) = BitVec.twoPow 64 1 ||| BitVec.twoPow 64 6 := by decide
  have write : (0xC4 : Word) = BitVec.twoPow 64 2 ||| BitVec.twoPow 64 7 ||| BitVec.twoPow 64 6 := by decide
  have user : (0x10 : Word) = BitVec.twoPow 64 4 := by decide
  have none : e &&& 0 = 0 := BitVec.and_zero
  cases of <;> cases priv <;>
    simp only [neededBits, leafAllows, page, exec, read, write, user, none, and_or_eq_iff, and_twoPow_eq_iff,
      Nat.reduceLT,      Bool.not_true, Bool.not_false, Bool.false_or, Bool.true_or, Bool.and_true, Bool.and_eq_true, beq_self_eq_true,
      true_and, and_true, if_true, if_false, Bool.false_eq_true] <;> tauto

end Sys2Proof.Machine
end

section
/-! PROOFS. O29. -/

namespace Sys2Proof.Machine

/-- Settles O29: both walks end at the same entry, of a sound tree; the IOMMU asks of a leaf the bits the access
needs. -/
theorem iommuAgreesWithLookup : Obligations.IommuAgreesWithLookup := by
  intro s t x w of priv iova calm placed trees same fresh on bare root e needed cause
  have bits : needed = neededBits of priv := rfl
  have fault : pageFault of = cause := by cases of <;> rfl
  have walk : stage1 s.cfg s.memIo x of priv iova w = if canonical39 iova = true then
      stage1Walk s.cfg s.memBlk x of priv iova 3 s.blk.s1Root.toNat [] w else (.error ⟨pageFault of, 0⟩, w) := by
    rw [stage1, on, same, root]
    cases canonical39 iova <;> rfl
  rw [walk, bits, ← fault]
  by_cases range : canonical39 iova = true
  · obtain ⟨l, u, le, table, stop⟩ := exists_walk_end s .s1 iova
    rw [exec_ptLookup (st := .s1) trees.ready range, lookupWalk_end calm le table stop] at e
    rw [if_pos range, stage1Walk_end (wellPlaced_pool placed) trees fresh bare le table stop]
    by_cases leaf : kind (s.entryAt .s1 iova l u) = .leaf
    · rw [if_pos leaf] at e
      cases e
      have allows : leafAllows of (!priv) l (s.entryAt .s1 iova l u) = true ↔ _ :=
        leafAllows_iff of priv (trees.leaves .s1 iova l u le table leaf)
      simp only [leaf, allows, finish_res, result, true_and]
    · rw [if_neg leaf] at e
      cases e
      rw [if_neg (fun both => leaf both.1),
        if_neg (fun both => absurd both.1 (show Status.none.code ≠ Status.ok.code by decide))]
  · have refused : exec (.ptLookup .s1 iova) s = raise .errRange s := by
      change execPtLookup .s1 iova s = _
      rw [execPtLookup, trees.ready, lookupInRange, eq_false_of_ne_true range]
      rfl
    rw [if_neg range, if_neg fun both => raise_not_ok (by decide) (refused ▸ e) both.1]

end Sys2Proof.Machine
end

section
/-! SUPPORT. Paths through the trees (R224, R228, R231): the same path has the same name, and the entries of different
paths through a sound tree lie apart. -/

namespace Sys2Proof.Machine

/-! Paths. -/

theorem SamePath.mono {st : Stage} {l m : Nat} {x y : Word} (h : SamePath st m x y) (le : l ≤ m) : SamePath st l x y :=
  fun k hk => h k (by omega)

theorem SamePath.symm {st : Stage} {l : Nat} {x y : Word} (h : SamePath st l x y) : SamePath st l y x :=
  fun k hk => (h k hk).symm

theorem SamePath.trans {st : Stage} {l : Nat} {x y z : Word} (h : SamePath st l x y) (h' : SamePath st l y z) :
    SamePath st l x z := fun k hk => (h k hk).trans (h' k hk)

theorem SamePath.succ {st : Stage} {l : Nat} {x y : Word} (h : SamePath st l x y) (e : idx st l x = idx st l y) :
    SamePath st (l + 1) x y := fun k hk => by
  rcases Nat.lt_succ_iff_lt_or_eq.1 hk with lt | rfl
  · exact h k lt
  · exact e

/-- Two addresses of one request: in one half of Sv39, or both below 2^41 (R223). -/
def SamePart (st : Stage) (x y : Word) : Prop :=
  (st = .s1 → (x.toNat < 2 ^ 38 ∧ y.toNat < 2 ^ 38) ∨ (2 ^ 64 - 2 ^ 38 ≤ x.toNat ∧ 2 ^ 64 - 2 ^ 38 ≤ y.toNat)) ∧
    (st = .s2 → x.toNat < 2 ^ 41 ∧ y.toNat < 2 ^ 41)

/-- Within one part, the path is known by its name (R228). -/
theorem samePath_iff_prefix {st : Stage} {l : Nat} {x y : Word} (part : SamePart st x y) (pos : 1 ≤ l) (le : l ≤ 3) :
    SamePath st l x y ↔ tablePrefix l x = tablePrefix l y := by
  have hx := x.isLt
  have hy := y.isLt
  obtain ⟨part1, part2⟩ := part
  cases st with
  | s1 =>
    have part := part1 rfl
    interval_cases l <;>
      simp only [SamePath, tablePrefix, Nat.forall_lt_succ_right, Nat.not_lt_zero, IsEmpty.forall_iff, implies_true,
        true_and, idx_eq _ _ (Nat.zero_le 2), idx_eq _ _ (one_le_two), idx_eq _ _ (Nat.le_refl 2), reduceCtorEq,
        false_and, if_false] <;> omega
  | s2 =>
    have part := part2 rfl
    interval_cases l <;>
      simp only [SamePath, tablePrefix, Nat.forall_lt_succ_right, Nat.not_lt_zero, IsEmpty.forall_iff, implies_true,
        true_and, idx_eq _ _ (Nat.zero_le 2), idx_eq _ _ (one_le_two), idx_eq _ _ (Nat.le_refl 2), if_true,
        OfNat.ofNat_ne_zero, one_ne_zero, and_false, if_false] <;> omega

section
variable {s : State} {st st' : Stage} {x y : Word} {l l' t t' : Nat}

theorem slot_congr (h : idx st l x = idx st l y) : slot t st l x = slot t st l y := by rw [slot, slot, h]

theorem entryAt_congr (h : idx st l x = idx st l y) : s.entryAt st x l t = s.entryAt st y l t := by
  rw [State.entryAt, State.entryAt, slot_congr h]

/-- Addresses with the same path have the same tables. -/
theorem tableAt_congr (h : SamePath st l x y) : s.tableAt st x l = s.tableAt st y l := by
  induction l with
  | zero => rfl
  | succ l ih => simp only [State.tableAt, ih (h.mono (by omega)), slot_congr (h l (by omega))]

/-! Tables and entries of a sound tree. -/

/-- A table is a root, or a pool page that was handed out. -/
theorem State.TreesOk.table_cases (trees : s.TreesOk) (hl : l ≤ 2) (h : s.tableAt st x l = some t) :
    (l = 0 ∧ st = .s2 ∧ t = s.cfg.poolBase.toNat) ∨ (l = 0 ∧ st = .s1 ∧ t = s.cfg.poolBase.toNat + 4096 * 4) ∨
      (1 ≤ l ∧ ∃ i, 5 ≤ i ∧ i < s.blk.poolNext.toNat ∧ t = s.cfg.poolBase.toNat + 4096 * i) := by
  rcases Nat.eq_zero_or_pos l with rfl | pos
  · have root := tableAt_zero.1 h
    cases st with
    | s1 => exact .inr (.inl ⟨rfl, rfl, root.trans trees.root1⟩)
    | s2 => exact .inl ⟨rfl, rfl, root.trans trees.root2⟩
  · exact .inr (.inr ⟨pos, trees.handedOut st x l t pos hl h⟩)

theorem State.TreesOk.tables_apart (trees : s.TreesOk) (hl : l ≤ 2) (hl' : l' ≤ 2) (h : s.tableAt st x l = some t)
    (h' : s.tableAt st' y l' = some t') : (st = st' ∧ l = l' ∧ SamePath st l x y) ∨
      t + tableBytes st l ≤ t' ∨ t' + tableBytes st' l' ≤ t := by
  have small {st l} (pos : 1 ≤ l) : tableBytes st l = 4096 := if_neg (by omega)
  have root1 : tableBytes .s1 0 = 4096 := rfl
  have root2 : tableBytes .s2 0 = 16384 := rfl
  rcases trees.table_cases hl h with ⟨rfl, rfl, ht⟩ | ⟨rfl, rfl, ht⟩ | ⟨pos, i, low, high, ht⟩ <;>
    rcases trees.table_cases hl' h' with ⟨rfl, rfl, ht'⟩ | ⟨rfl, rfl, ht'⟩ | ⟨pos', i', low', high', ht'⟩
  · exact .inl ⟨rfl, rfl, nofun⟩
  · omega
  · omega
  · omega
  · exact .inl ⟨rfl, rfl, nofun⟩
  · omega
  · have := small (st := st) pos
    omega
  · have := small (st := st) pos
    omega
  · rcases eq_or_ne i i' with rfl | ne
    · subst ht ht'
      exact .inl (trees.onePath st x l st' y l' _ pos hl pos' hl' h h')
    · have := small (st := st) pos
      have := small (st := st') pos'
      omega

/-- Entries on different paths are different doublewords. -/
theorem State.TreesOk.entries_apart (trees : s.TreesOk) (hl : l ≤ 2) (hl' : l' ≤ 2) (h : s.tableAt st x l = some t)
    (h' : s.tableAt st' y l' = some t') : (st = st' ∧ l = l' ∧ SamePath st (l + 1) x y) ∨
      slot t st l x + 8 ≤ slot t' st' l' y ∨ slot t' st' l' y + 8 ≤ slot t st l x := by
  rcases trees.tables_apart hl hl' h h' with ⟨rfl, rfl, same⟩ | apart
  · obtain rfl : t = t' := Option.some_inj.1 (h.symm.trans ((tableAt_congr same).trans h'))
    rcases eq_or_ne (idx st l x) (idx st l y) with e | ne
    · exact .inl ⟨rfl, rfl, same.succ e⟩
    · simp only [slot]
      omega
  · have := slot_in_table t st x hl
    have := slot_in_table t' st' y hl'
    omega

end

end Sys2Proof.Machine
end

section
/-! SUPPORT. A sound tree in which one entry changes (R225, R226): a leaf in place of an invalid entry or a leaf, or a
link to an empty table in place of an invalid entry. -/

namespace Sys2Proof.Machine

/-- From `s` to `u` the entry that `x` meets in its table of level `l` becomes `e`; every other entry of the trees, the
roots and the parameters are as they were. -/
structure EntrySet (s u : State) (st : Stage) (x : Word) (l t : Nat) (e : Word) : Prop where
  cfg : u.cfg = s.cfg
  blk : u.blk = { s.blk with poolNext := u.blk.poolNext }
  table : s.tableAt st x l = some t
  level : l ≤ 2
  written : u.entryAt st x l t = e
  others : ∀ st' y l' t', l' ≤ 2 → s.tableAt st' y l' = some t' → ¬ (st' = st ∧ l' = l ∧ SamePath st (l + 1) x y) →
    u.entryAt st' y l' t' = s.entryAt st' y l' t'

section
variable {s u : State} {st : Stage} {x : Word} {l t : Nat} {e : Word} (set : EntrySet s u st x l t e)
include set

theorem EntrySet.root (st' : Stage) : rootOf u.blk st' = rootOf s.blk st' := by
  rw [set.blk]
  cases st' <;> rfl

/-- The entry of an address that meets the changed one. -/
theorem EntrySet.same_entry {y : Word} (same : SamePath st (l + 1) x y) :
    s.tableAt st y l = some t ∧ s.entryAt st y l t = s.entryAt st x l t ∧ u.entryAt st y l t = e := by
  have last := same l (by omega)
  exact ⟨(tableAt_congr (same.mono (by omega))).symm.trans set.table, (entryAt_congr last).symm,
    (entryAt_congr last).symm.trans set.written⟩

/-- The trees stay sound when the tables are pool pages on one path each, and every entry is empty, the changed one, or
as it was. -/
theorem EntrySet.treesOk (trees : s.TreesOk)
    (pages : 5 ≤ u.blk.poolNext.toNat ∧ u.blk.poolNext.toNat ≤ u.cfg.poolPages)
    (handedOut : ∀ st' y l' t', 1 ≤ l' → l' ≤ 2 → u.tableAt st' y l' = some t' →
      ∃ i, 5 ≤ i ∧ i < u.blk.poolNext.toNat ∧ t' = u.cfg.poolBase.toNat + 4096 * i)
    (onePath : ∀ st1 y1 l1 st2 y2 l2 t', 1 ≤ l1 → l1 ≤ 2 → 1 ≤ l2 → l2 ≤ 2 → u.tableAt st1 y1 l1 = some t' →
      u.tableAt st2 y2 l2 = some t' → st1 = st2 ∧ l1 = l2 ∧ SamePath st1 l1 y1 y2)
    (entries : ∀ st' y l' t', l' ≤ 2 → u.tableAt st' y l' = some t' → u.entryAt st' y l' t' = 0 ∨
      (u.entryAt st' y l' t' = e ∧ l' = l) ∨
        (u.entryAt st' y l' t' = s.entryAt st' y l' t' ∧ s.tableAt st' y l' = some t'))
    (kinds : kind e ≠ .reserved ∧ (l = 2 → kind e ≠ .nonleaf))
    (page : kind e = .leaf → (fieldPa e).toNat % levelSize l = 0) : u.TreesOk where
  ready := by rw [set.blk]; exact trees.ready
  root2 := by rw [set.cfg]; exact (set.root .s2).trans trees.root2
  root1 := by rw [set.cfg]; exact (set.root .s1).trans trees.root1
  pages := pages
  handedOut := handedOut
  onePath := onePath
  kinds st' y l' t' hl' ht := by
    rcases entries st' y l' t' hl' ht with zero | ⟨new, rfl⟩ | ⟨kept, ht⟩
    · rw [State.entryAt] at zero
      rw [zero]
      exact ⟨by decide, fun _ => by decide⟩
    · rw [State.entryAt] at new
      rwa [new]
    · rw [State.entryAt] at kept
      rw [kept]
      exact trees.kinds st' y l' t' hl' ht
  leaves st' y l' t' hl' ht isLeaf := by
    rcases entries st' y l' t' hl' ht with zero | ⟨new, rfl⟩ | ⟨kept, ht⟩
    · rw [State.entryAt] at zero
      rw [zero] at isLeaf
      exact absurd isLeaf (by decide)
    · rw [State.entryAt] at new
      rw [new] at isLeaf ⊢
      exact page isLeaf
    · rw [State.entryAt] at kept
      rw [kept] at isLeaf ⊢
      exact trees.leaves st' y l' t' hl' ht isLeaf

/-! A leaf. -/

section
variable (old : kind (s.entryAt st x l t) ≠ .nonleaf) (leaf : kind e = .leaf)
include old leaf

/-- A leaf changes no table. -/
theorem EntrySet.tableAt_of_leaf (st' : Stage) (y : Word) {l' : Nat} (hl' : l' ≤ 2) :
    u.tableAt st' y l' = s.tableAt st' y l' := by
  induction l' with
  | zero => exact congrArg some (set.root st')
  | succ l' ih =>
    have ih := ih (by omega)
    cases ht : s.tableAt st' y l' with
    | none => rw [tableAt_none_mono ht (by omega), tableAt_none_mono (ih.trans ht) (by omega)]
    | some t' =>
      rw [ht] at ih
      by_cases same : st' = st ∧ l' = l ∧ SamePath st (l + 1) x y
      · obtain ⟨rfl, rfl, same⟩ := same
        obtain ⟨table, before, after⟩ := set.same_entry same
        obtain rfl := Option.some_inj.1 (table.symm.trans ht)
        rw [tableAt_succ_of_not_nonleaf ht (before ▸ old),
          tableAt_succ_of_not_nonleaf ih (by rw [after, leaf]; decide)]
      · have entry := set.others st' y l' t' (by omega) ht same
        simp only [State.entryAt] at entry
        simp only [State.tableAt, ih, ht, entry]

/-- An entry of the trees with the leaf is the leaf, or as it was. -/
theorem EntrySet.entries_of_leaf {st' : Stage} {y : Word} {l' t' : Nat} (hl' : l' ≤ 2)
    (ht : u.tableAt st' y l' = some t') : u.entryAt st' y l' t' = 0 ∨ (u.entryAt st' y l' t' = e ∧ l' = l) ∨
      (u.entryAt st' y l' t' = s.entryAt st' y l' t' ∧ s.tableAt st' y l' = some t') := by
  rw [set.tableAt_of_leaf old leaf st' y hl'] at ht
  by_cases same : st' = st ∧ l' = l ∧ SamePath st (l + 1) x y
  · obtain ⟨rfl, rfl, same⟩ := same
    obtain ⟨table, -, after⟩ := set.same_entry same
    obtain rfl := Option.some_inj.1 (table.symm.trans ht)
    exact .inr (.inl ⟨after, rfl⟩)
  · exact .inr (.inr ⟨set.others st' y l' t' hl' ht same, ht⟩)

/-- A leaf aligned to its granule keeps the trees sound. -/
theorem EntrySet.treesOk_of_leaf (trees : s.TreesOk) (next : u.blk.poolNext = s.blk.poolNext)
    (page : (fieldPa e).toNat % levelSize l = 0) : u.TreesOk := by
  have tables (st' y) {l'} (hl' : l' ≤ 2) := set.tableAt_of_leaf old leaf st' y hl'
  refine set.treesOk trees ?pages ?handedOut ?onePath (fun _ _ _ _ => set.entries_of_leaf old leaf) (by simp [leaf])
    fun _ => page
  case pages => rw [set.cfg, next]; exact trees.pages
  case handedOut =>
    intro st' y l' t' pos hl' ht
    rw [set.cfg, next]
    exact trees.handedOut st' y l' t' pos hl' (tables st' y hl' ▸ ht)
  case onePath =>
    intro st1 y1 l1 st2 y2 l2 t' pos1 hl1 pos2 hl2 h1 h2
    exact trees.onePath st1 y1 l1 st2 y2 l2 t' pos1 hl1 pos2 hl2 (tables st1 y1 hl1 ▸ h1) (tables st2 y2 hl2 ▸ h2)

end

/-! A link. -/

section
variable {t' : Nat} (old : kind (s.entryAt st x l t) = .invalid) (above : l < 2) (link : kind e = .nonleaf)
  (target : (fieldPa e).toNat = t') (empty : ∀ y, u.entryAt st y (l + 1) t' = 0)
include old above link target empty

/-- A link to an empty table adds this table to the paths through it, and changes no other. -/
theorem EntrySet.tableAt_of_link (st' : Stage) (y : Word) {l' : Nat} (hl' : l' ≤ 2) :
    (st' = st ∧ l' = l + 1 ∧ SamePath st (l + 1) x y → u.tableAt st' y l' = some t') ∧
      (¬ (st' = st ∧ l' = l + 1 ∧ SamePath st (l + 1) x y) → u.tableAt st' y l' = s.tableAt st' y l') := by
  induction l' with
  | zero => exact ⟨fun same => absurd same.2.1 (by omega), fun _ => congrArg some (set.root st')⟩
  | succ l' ih =>
    obtain ⟨new, kept⟩ := ih (by omega)
    by_cases here : st' = st ∧ l' = l ∧ SamePath st (l + 1) x y
    · obtain ⟨rfl, rfl, same⟩ := here
      obtain ⟨table, -, after⟩ := set.same_entry same
      refine ⟨fun _ => ?_, fun no => absurd ⟨rfl, rfl, same⟩ no⟩
      have still := (kept fun h => absurd h.2.1 (by omega)).trans table
      rw [tableAt_succ_of_nonleaf still (by rw [after, link]), after, target]
    · refine ⟨fun same => absurd ⟨same.1, by omega, same.2.2⟩ here, fun _ => ?_⟩
      by_cases below : st' = st ∧ l' = l + 1 ∧ SamePath st (l + 1) x y
      · have now := new below
        obtain ⟨rfl, rfl, same⟩ := below
        obtain ⟨table, before, -⟩ := set.same_entry same
        have missing := tableAt_succ_of_not_nonleaf table (by rw [before, old]; decide)
        rw [tableAt_none_mono missing (by omega),
          tableAt_succ_of_not_nonleaf now (by rw [empty y]; decide)]
      · have kept := kept below
        cases ht : s.tableAt st' y l' with
        | none => rw [tableAt_none_mono ht (by omega), tableAt_none_mono (kept.trans ht) (by omega)]
        | some w =>
          rw [ht] at kept
          have entry := set.others st' y l' w (by omega) ht here
          simp only [State.entryAt] at entry
          simp only [State.tableAt, kept, ht, entry]

/-- A table of the trees with the link is the new one, or one of before. -/
theorem EntrySet.table_of_link {st' : Stage} {y : Word} {l' w : Nat} (hl' : l' ≤ 2) (hw : u.tableAt st' y l' = some w) :
    (st' = st ∧ l' = l + 1 ∧ SamePath st (l + 1) x y ∧ w = t') ∨ s.tableAt st' y l' = some w := by
  obtain ⟨new, kept⟩ := set.tableAt_of_link old above link target empty st' y hl'
  by_cases here : st' = st ∧ l' = l + 1 ∧ SamePath st (l + 1) x y
  · exact .inl ⟨here.1, here.2.1, here.2.2, Option.some_inj.1 (hw.symm.trans (new here))⟩
  · exact .inr (kept here ▸ hw)

/-- Every table of before is still there. -/
theorem EntrySet.kept_of_link {st' : Stage} {y : Word} {l' w : Nat} (hl' : l' ≤ 2) (hw : s.tableAt st' y l' = some w) :
    u.tableAt st' y l' = some w := by
  obtain ⟨-, kept⟩ := set.tableAt_of_link old above link target empty st' y hl'
  refine (kept ?_).trans hw
  rintro ⟨rfl, rfl, same⟩
  obtain ⟨table, before, -⟩ := set.same_entry same
  rw [tableAt_succ_of_not_nonleaf table (by rw [before, old]; decide)] at hw
  cases hw

/-- An entry of the trees with the link is empty, the link, or as it was. -/
theorem EntrySet.entries_of_link {st' : Stage} {y : Word} {l' w : Nat} (hl' : l' ≤ 2)
    (hw : u.tableAt st' y l' = some w) : u.entryAt st' y l' w = 0 ∨ (u.entryAt st' y l' w = e ∧ l' = l) ∨
      (u.entryAt st' y l' w = s.entryAt st' y l' w ∧ s.tableAt st' y l' = some w) := by
  rcases set.table_of_link old above link target empty hl' hw with ⟨rfl, rfl, -, rfl⟩ | hw
  · exact .inl (empty y)
  · by_cases same : st' = st ∧ l' = l ∧ SamePath st (l + 1) x y
    · obtain ⟨rfl, rfl, same⟩ := same
      obtain ⟨table, -, after⟩ := set.same_entry same
      obtain rfl := Option.some_inj.1 (table.symm.trans hw)
      exact .inr (.inl ⟨after, rfl⟩)
    · exact .inr (.inr ⟨set.others st' y l' w hl' hw same, hw⟩)

/-- A link to the next pool page, empty, keeps the trees sound. -/
theorem EntrySet.treesOk_of_link (trees : s.TreesOk) (page : t' = s.cfg.poolBase.toNat + 4096 * s.blk.poolNext.toNat)
    (next : u.blk.poolNext.toNat = s.blk.poolNext.toNat + 1) (room : s.blk.poolNext.toNat < s.cfg.poolPages) :
    u.TreesOk := by
  have cases {st1 y l1 w} (hl1 : l1 ≤ 2) (h1 : u.tableAt st1 y l1 = some w) :=
    set.table_of_link old above link target empty hl1 h1
  have before {st1 y l1 t1} (pos : 1 ≤ l1) (hl1 : l1 ≤ 2) (h1 : s.tableAt st1 y l1 = some t1) : t1 ≠ t' := by
    obtain ⟨i, -, high, rfl⟩ := trees.handedOut st1 y l1 t1 pos hl1 h1
    omega
  refine set.treesOk trees ?pages ?handedOut ?onePath
    (fun _ _ _ _ => set.entries_of_link old above link target empty) ⟨by simp [link], fun last => by omega⟩
    fun leaf => absurd (link.symm.trans leaf) (by decide)
  case pages =>
    have := trees.pages
    rw [set.cfg, next]
    omega
  case handedOut =>
    intro st1 y l1 t1 pos hl1 h1
    rw [set.cfg, next]
    rcases cases hl1 h1 with ⟨-, -, -, rfl⟩ | h1
    · exact ⟨s.blk.poolNext.toNat, trees.pages.1, by omega, page⟩
    · obtain ⟨i, low, high, place⟩ := trees.handedOut st1 y l1 t1 pos hl1 h1
      exact ⟨i, low, by omega, place⟩
  case onePath =>
    intro st1 y1 l1 st2 y2 l2 t1 pos1 hl1 pos2 hl2 h1 h2
    rcases cases hl1 h1 with ⟨rfl, rfl, same1, new1⟩ | h1 <;> rcases cases hl2 h2 with ⟨rfl, rfl, same2, new2⟩ | h2
    · exact ⟨rfl, rfl, same1.symm.trans same2⟩
    · exact absurd new1 (before pos2 hl2 h2)
    · exact absurd new2 (before pos1 hl1 h1)
    · exact trees.onePath st1 y1 l1 st2 y2 l2 t1 pos1 hl1 pos2 hl2 h1 h2

end
end

end Sys2Proof.Machine
end

section
/-! SUPPORT. The granules of a PT.MAP request as numbers (R223, R225, R228). -/

namespace Sys2Proof.Machine

/-- A granule ends where the request ends, or before. -/
theorem granule_le (g : BitVec 2) {k n : Nat} (hk : k < n) : k * granule g + granule g ≤ n * granule g := by
  rw [← Nat.succ_mul]
  exact Nat.mul_le_mul_right _ hk

theorem toNat_granuleAt {g : BitVec 2} {v : Word} {n k : Nat} (range : v.toNat + n * granule g ≤ 2 ^ 64) (hk : k < n) :
    (granuleAt g v k).toNat = v.toNat + k * granule g := by
  have step := granule_le g hk
  have pos := granule_pos g
  rw [granuleAt, BitVec.toNat_add, BitVec.toNat_ofNat]
  omega

/-- The name of a leaf entry leaves out the offset in the granule. -/
theorem granule_eq_prefix {g : BitVec 2} (h : g ≠ 3) : granule g = 2 ^ (39 - 9 * (2 - g.toNat + 1)) := by
  revert h
  revert g
  decide

section
variable {st : Stage} {g : BitVec 2} {fl : BitVec 7} {v p n : Word} {k k' : Nat}
  (wf : (Instr.ptMap st g fl v p n).wellFormed = true)
include wf

theorem map_range : 1 ≤ n.toNat ∧ p.toNat + n.toNat * granule g ≤ 2 ^ 56 ∧ v.toNat + n.toNat * granule g ≤ 2 ^ 64 ∧
    (st = .s1 → v.toNat + n.toNat * granule g ≤ 2 ^ 38 ∨ 2 ^ 64 - 2 ^ 38 ≤ v.toNat) ∧
    (st = .s2 → v.toNat + n.toNat * granule g ≤ 2 ^ 41) := by
  obtain ⟨-, -, range, -⟩ := wellFormed_ptMap.1 wf
  obtain ⟨some, target, half, low⟩ := mapInRange_eq_true.1 range
  refine ⟨some, target, ?_, fun h => (half h).imp id And.left, low⟩
  cases st with
  | s1 => have := half rfl; omega
  | s2 => have := low rfl; omega

theorem toNat_source (hk : k < n.toNat) : (granuleAt g v k).toNat = v.toNat + k * granule g := by
  obtain ⟨-, -, range, -⟩ := map_range wf
  exact toNat_granuleAt range hk

theorem toNat_target (hk : k < n.toNat) : (granuleAt g p k).toNat = p.toNat + k * granule g := by
  obtain ⟨-, range, -⟩ := map_range wf
  exact toNat_granuleAt (by omega) hk

theorem samePart_granules (hk : k < n.toNat) (hk' : k' < n.toNat) :
    SamePart st (granuleAt g v k) (granuleAt g v k') := by
  obtain ⟨-, -, -, half, low⟩ := map_range wf
  have size := granule_pos g
  have := granule_le g hk
  have := granule_le g hk'
  rw [SamePart, toNat_source wf hk, toNat_source wf hk']
  refine ⟨fun h => ?_, fun h => ?_⟩
  · have := half h
    omega
  · have := low h
    omega

/-- The name below the leaf level counts granules. -/
theorem tablePrefix_granule (hk : k < n.toNat) :
    tablePrefix (2 - g.toNat + 1) (granuleAt g v k) = v.toNat / granule g + k := by
  obtain ⟨code, -⟩ := wellFormed_ptMap.1 wf
  rw [tablePrefix, ← granule_eq_prefix code, toNat_source wf hk, Nat.add_mul_div_right _ _ (granule_pos g)]

/-- Different granules have different leaf entries. -/
theorem granules_differ (hk : k < n.toNat) (hk' : k' < n.toNat) (ne : k ≠ k') :
    ¬ SamePath st (2 - g.toNat + 1) (granuleAt g v k) (granuleAt g v k') := by
  rw [samePath_iff_prefix (samePart_granules wf hk hk') (by omega) (by omega), tablePrefix_granule wf hk,
    tablePrefix_granule wf hk']
  omega

/-! The leaf of a granule. -/

theorem target_lt (hk : k < n.toNat) : (granuleAt g p k).toNat < 2 ^ 56 := by
  obtain ⟨-, range, -⟩ := map_range wf
  have := granule_le g hk
  have := granule_pos g
  rw [toNat_target wf hk]
  omega

theorem target_aligned (hk : k < n.toNat) : (granuleAt g p k).toNat % granule g = 0 := by
  obtain ⟨-, aligned, -⟩ := wellFormed_ptMap.1 wf
  rw [toNat_target wf hk, Nat.add_mul_mod_self_right, (mapAligned_eq_true.1 aligned).2]

theorem kind_leaf (hk : k < n.toNat) : kind (leafPte (granuleAt g p k) fl) = .leaf := by
  obtain ⟨-, -, -, legal⟩ := wellFormed_ptMap.1 wf
  exact kind_leafPte (target_lt wf hk) legal

omit wf in
/-- The frame of an entry put together from a page. -/
theorem fieldPa_leafPte {a : Word} (fl : BitVec 7) (page : a.toNat % 4096 = 0) (range : a.toNat < 2 ^ 56) :
    fieldPa (leafPte a fl) = a := by
  rw [← BitVec.toNat_inj, toNat_fieldPa, toNat_leafPte fl range]
  omega

omit wf in
theorem fieldPa_nonleafPte {a : Word} (page : a.toNat % 4096 = 0) (range : a.toNat < 2 ^ 56) :
    fieldPa (nonleafPte a) = a := by
  rw [← BitVec.toNat_inj, toNat_fieldPa, toNat_nonleafPte range]
  omega

theorem fieldPa_leaf (hk : k < n.toNat) : fieldPa (leafPte (granuleAt g p k) fl) = granuleAt g p k := by
  have page : (granuleAt g p k).toNat % 4096 = 0 :=
    Nat.mod_eq_zero_of_dvd ((Dvd.intro _ rfl).trans (Nat.dvd_of_mod_eq_zero (target_aligned wf hk)))
  exact fieldPa_leafPte fl page (target_lt wf hk)

theorem leaf_aligned (hk : k < n.toNat) :
    (fieldPa (leafPte (granuleAt g p k) fl)).toNat % levelSize (2 - g.toNat) = 0 := by
  obtain ⟨code, -⟩ := wellFormed_ptMap.1 wf
  rw [fieldPa_leaf wf hk, ← granule_eq_levelSize code, target_aligned wf hk]

end

end Sys2Proof.Machine
end

section
/-! SUPPORT. The two moves of PT.MAP's commit phase (R221, R225, R226), when no other agent moves: a new table, zeroed,
fenced and linked; and the store of a leaf. -/

namespace Sys2Proof.Machine

/-- The pool page handed out next (R221). -/
def State.freshPage (s : State) : Nat := s.cfg.poolBase.toNat + 4096 * s.blk.poolNext.toNat

/-- After the next pool page has been taken, zeroed, fenced and linked by the entry at `ea` (R226). -/
def State.linked (s : State) (ea : Nat) : State :=
  (fence ((s.setBlk fun b => { b with poolNext := b.poolNext + 1 }).stored (zeros 512 s.freshPage))).stored
    [⟨ea, nonleafPte (BitVec.ofNat 64 s.freshPage)⟩]

/-- A byte of the pool is no unseen write of another agent. -/
theorem State.PoolQuiet.not_covered {s : State} (quiet : s.PoolQuiet) {a : Nat} (low : s.cfg.poolBase.toNat ≤ a)
    (high : a < s.cfg.poolBase.toNat + 4096 * s.cfg.poolPages) : ∀ r ∈ s.unseen, r.covers a = false := by
  intro r hr
  have apart := overlaps_eq_false.1 (quiet r hr)
  rw [ByteRange.covers_eq_false]
  omega

theorem wordBlk_congr {s u : State} {a : Nat} (h : ∀ b, within a 8 b → u.readBlk b = s.readBlk b) :
    u.wordBlk a = s.wordBlk a := Memory.load64_congr _ _ _ fun b low high => h b ⟨low, high⟩

section
variable {s : State}

theorem stored_readBlk_other {a b : Nat} {e : Word} (h : ¬ within a 8 b) :
    (s.stored [⟨a, e⟩]).readBlk b = s.readBlk b := by
  refine Memory.read_store64 _ _ _ _ ?_
  simp only [within] at h ⊢
  omega

theorem stored_wordBlk_same (a : Nat) (e : Word) : (s.stored [⟨a, e⟩]).wordBlk a = e := Memory.load64_store64_same _ _ _

variable (calm : s.weave = [])
include calm

theorem allocTable_calm (ea : Nat) : allocTable ea s = (s.freshPage, s.linked ea) := by
  have weave : (s.setBlk fun b => { b with poolNext := b.poolNext + 1 }).weave = [] := calm
  simp only [allocTable]
  rw [zeroFill_stored weave, memWrite_stored (fence_weave (by exact calm))]
  rfl

theorem linked_outside (ea : Nat) : s.SameOutside (s.linked ea) := by
  rw [State.linked, fence_stored (by exact calm)]
  constructor <;> rfl

theorem linked_blk (ea : Nat) : (s.linked ea).blk = { s.blk with poolNext := s.blk.poolNext + 1 } := by
  rw [State.linked, fence_stored (by exact calm)]
  rfl

theorem linked_unseen (ea : Nat) : (s.linked ea).unseen = [] := by
  rw [State.linked, fence_stored (by exact calm)]
  rfl

/-- The new page is empty. -/
theorem linked_readBlk_page {ea a : Nat} (page : within s.freshPage 4096 a) (off : ¬ within ea 8 a) :
    (s.linked ea).readBlk a = 0 := by
  rw [State.linked, stored_readBlk_other off]
  exact (fence_stored_written (by exact calm) fun m => drainAll_zeros_read m page).1

/-- Nothing else changes, unless another agent wrote it. -/
theorem linked_readBlk_other {ea a : Nat} (page : ¬ within s.freshPage 4096 a) (off : ¬ within ea 8 a)
    (quiet : ∀ r ∈ s.unseen, r.covers a = false) : (s.linked ea).readBlk a = s.readBlk a := by
  have unseen : s.unseen.any (fun r => r.covers a) = false := List.any_eq_false.2 fun r hr => by simp [quiet r hr]
  rw [State.linked, stored_readBlk_other off, readBlk_fence_stored (by exact calm)]
  simp only [setBlk_unseen, unseen, Bool.false_eq_true, if_false]
  exact drainAll_zeros_other _ page

end

/-! The two moves as a change of one entry of a sound tree. -/

section
variable {s : State} {st : Stage} {x : Word} {l t : Nat} (trees : s.TreesOk) (hl : l ≤ 2)
  (table : s.tableAt st x l = some t)
include trees hl table

theorem stored_entrySet (e : Word) : EntrySet s (s.stored [⟨slot t st l x, e⟩]) st x l t e where
  cfg := rfl
  blk := rfl
  table := table
  level := hl
  written := stored_wordBlk_same _ _
  others st' y l' t' hl' ht' off := wordBlk_congr fun b hb => stored_readBlk_other fun hb' => by
    have apart := trees.entries_apart hl hl' table ht'
    simp only [within] at hb hb'
    rcases apart with ⟨rfl, rfl, same⟩ | apart
    · exact off ⟨rfl, rfl, same⟩
    · omega

/-- An entry of a sound tree lies below the page handed out next. -/
theorem slot_below_freshPage : slot t st l x + 8 ≤ s.freshPage := by
  have := trees.table_in_pool hl table
  have := slot_in_table t st x hl
  rw [State.freshPage]
  omega

theorem linked_entrySet (calm : s.weave = []) (quiet : s.PoolQuiet) : EntrySet s (s.linked (slot t st l x)) st x l t
    (nonleafPte (BitVec.ofNat 64 s.freshPage)) where
  cfg := (linked_outside calm _).cfg
  blk := by rw [linked_blk calm]
  table := table
  level := hl
  written := stored_wordBlk_same _ _
  others st' y l' t' hl' ht' off := wordBlk_congr fun b hb => by
    have apart := trees.entries_apart hl hl' table ht'
    have below := slot_below_freshPage trees hl' ht'
    have inside := trees.slot_in_pool hl' ht'
    simp only [within] at hb
    refine linked_readBlk_other calm (fun page => ?_) (fun here => ?_) (quiet.not_covered (by omega) (by omega))
    · simp only [within] at page
      omega
    · simp only [within] at here
      rcases apart with ⟨rfl, rfl, same⟩ | apart
      · exact off ⟨rfl, rfl, same⟩
      · omega

/-- The new table is empty. -/
theorem linked_empty (calm : s.weave = []) {st' : Stage} {y : Word} {l' : Nat} (pos : 1 ≤ l') (hl' : l' ≤ 2) :
    (s.linked (slot t st l x)).entryAt st' y l' s.freshPage = 0 := by
  have below := slot_below_freshPage trees hl table
  have inside := slot_in_table s.freshPage st' y hl'
  rw [tableBytes, if_neg (by omega)] at inside
  refine load64_eq_zero fun b hb => linked_readBlk_page calm ?_ ?_ <;> simp only [within] at hb ⊢ <;> omega

end

end Sys2Proof.Machine
end

section
/-! SUPPORT. Said once: what a move of the commit phase does to sound trees, and what every run of such moves keeps
(R225 to R228, R231). -/

namespace Sys2Proof.Machine

theorem State.SameOutside.refl (s : State) : s.SameOutside s := by constructor <;> rfl

theorem State.SameOutside.trans {s t u : State} (h : s.SameOutside t) (k : t.SameOutside u) : s.SameOutside u where
  cfg := k.cfg.trans h.cfg
  req := k.req.trans h.req
  regs := k.regs.trans h.regs
  caches := k.caches.trans h.caches
  engine := k.engine.trans h.engine
  dev := k.dev.trans h.dev
  inputs := k.inputs.trans h.inputs
  weave := k.weave.trans h.weave
  warlMode := k.warlMode.trans h.warlMode

/-- A move of the commit phase from sound trees `s` to `u`: the entry that `x` meets at level `l` becomes `e`; tables
are only added, in pages from the next one on; other bytes change only where another agent wrote them. -/
structure TreeMove (s u : State) (st : Stage) (x : Word) (l t : Nat) (e : Word) : Prop extends
    EntrySet s u st x l t e where
  trees : u.TreesOk
  outside : s.SameOutside u
  unseen : ∀ r ∈ u.unseen, r ∈ s.unseen
  taken : s.blk.poolNext.toNat ≤ u.blk.poolNext.toNat
  kept : ∀ st' y l' t', l' ≤ 2 → s.tableAt st' y l' = some t' → u.tableAt st' y l' = some t'
  fresh : ∀ st' y l' t', l' ≤ 2 → u.tableAt st' y l' = some t' →
    s.tableAt st' y l' = some t' ∨ (1 ≤ l' ∧ s.freshPage ≤ t')
  entries : ∀ st' y l' t', l' ≤ 2 → u.tableAt st' y l' = some t' → u.entryAt st' y l' t' = 0 ∨
    (u.entryAt st' y l' t' = e ∧ l' = l) ∨
      (u.entryAt st' y l' t' = s.entryAt st' y l' t' ∧ s.tableAt st' y l' = some t')
  bytes : ∀ a, (∀ r ∈ s.unseen, r.covers a = false) →
    ¬ within s.freshPage (4096 * (u.blk.poolNext.toNat - s.blk.poolNext.toNat)) a → ¬ within (slot t st l x) 8 a →
    u.readBlk a = s.readBlk a

section
variable {s : State} {st : Stage} {x : Word} {l t : Nat} (trees : s.TreesOk) (table : s.tableAt st x l = some t)
include trees table

/-- The store of a leaf over an entry that is no link. -/
theorem leaf_treeMove {e : Word} (hl : l ≤ 2) (old : kind (s.entryAt st x l t) ≠ .nonleaf) (leaf : kind e = .leaf)
    (page : (fieldPa e).toNat % levelSize l = 0) : TreeMove s (s.stored [⟨slot t st l x, e⟩]) st x l t e where
  toEntrySet := stored_entrySet trees hl table e
  trees := (stored_entrySet trees hl table e).treesOk_of_leaf old leaf trees rfl page
  outside := by constructor <;> rfl
  unseen _ hr := hr
  taken := le_rfl
  kept st' y l' t' hl' ht := ((stored_entrySet trees hl table e).tableAt_of_leaf old leaf st' y hl').trans ht
  fresh st' y l' t' hl' ht := .inl ((stored_entrySet trees hl table e).tableAt_of_leaf old leaf st' y hl' ▸ ht)
  entries _ _ _ _ := (stored_entrySet trees hl table e).entries_of_leaf old leaf
  bytes _ _ _ off := stored_readBlk_other off

section
variable (calm : s.weave = []) (placed : PoolPlaced s.cfg) (quiet : s.PoolQuiet) (hl : l < 2)
  (old : kind (s.entryAt st x l t) = .invalid) (room : s.blk.poolNext.toNat < s.cfg.poolPages)
include placed room

omit trees table in
/-- The page handed out next is a page of physical memory. -/
theorem freshPage_place : s.freshPage % 4096 = 0 ∧ s.freshPage < 2 ^ 56 := by
  have base := placed.base
  have fits := placed.fits
  rw [State.freshPage]
  omega

omit trees table in
theorem toNat_freshPage : (BitVec.ofNat 64 s.freshPage).toNat = s.freshPage := by
  have := freshPage_place placed room
  rw [BitVec.toNat_ofNat, Nat.mod_eq_of_lt (by omega)]

omit trees table in
theorem link_freshPage : kind (nonleafPte (BitVec.ofNat 64 s.freshPage)) = .nonleaf ∧
    (fieldPa (nonleafPte (BitVec.ofNat 64 s.freshPage))).toNat = s.freshPage := by
  have place := freshPage_place placed room
  have number := toNat_freshPage placed room
  exact ⟨kind_nonleafPte (by omega), by rw [fieldPa_nonleafPte (by omega) (by omega), number]⟩

include calm quiet hl old

/-- The tables after a new table is linked in place of an invalid entry. -/
theorem linked_tableAt (st' : Stage) (y : Word) {l' : Nat} (hl' : l' ≤ 2) :
    (st' = st ∧ l' = l + 1 ∧ SamePath st (l + 1) x y →
      (s.linked (slot t st l x)).tableAt st' y l' = some s.freshPage) ∧
    (¬ (st' = st ∧ l' = l + 1 ∧ SamePath st (l + 1) x y) →
      (s.linked (slot t st l x)).tableAt st' y l' = s.tableAt st' y l') := by
  obtain ⟨link, target⟩ := link_freshPage placed room
  exact (linked_entrySet trees hl.le table calm quiet).tableAt_of_link old hl link target
    (fun _ => linked_empty trees hl.le table calm (by omega) (by omega)) st' y hl'

/-- The link of a new table in place of an invalid entry. -/
theorem link_treeMove (wide : s.blk.poolNext.toNat + 1 < 2 ^ 32) :
    TreeMove s (s.linked (slot t st l x)) st x l t (nonleafPte (BitVec.ofNat 64 s.freshPage)) ∧
      (s.linked (slot t st l x)).blk.poolNext.toNat = s.blk.poolNext.toNat + 1 := by
  obtain ⟨link, target⟩ := link_freshPage placed room
  have set := linked_entrySet trees hl.le table calm quiet
  have empty (y : Word) : (s.linked (slot t st l x)).entryAt st y (l + 1) s.freshPage = 0 :=
    linked_empty trees hl.le table calm (by omega) (by omega)
  have next : (s.linked (slot t st l x)).blk.poolNext.toNat = s.blk.poolNext.toNat + 1 := by
    rw [linked_blk calm]
    simp only [BitVec.toNat_add]
    exact Nat.mod_eq_of_lt wide
  refine ⟨{
    toEntrySet := set
    trees := set.treesOk_of_link old hl link target empty trees rfl next room
    outside := linked_outside calm _
    unseen := fun r hr => by rw [linked_unseen calm] at hr; cases hr
    taken := by omega
    kept := fun _ _ _ _ => set.kept_of_link old hl link target empty
    fresh := fun st' y l' t' hl' ht => ?_
    entries := fun _ _ _ _ => set.entries_of_link old hl link target empty
    bytes := fun a unseen page off => linked_readBlk_other calm ?_ off unseen }, next⟩
  · rcases set.table_of_link old hl link target empty hl' ht with ⟨-, rfl, -, rfl⟩ | ht
    · exact .inr ⟨by omega, le_rfl⟩
    · exact .inl ht
  · rwa [next, Nat.add_sub_cancel_left] at page

end
end

/-- The leaf entry on the path of `x` at level `m` holds `e`. -/
def State.Mapped (s : State) (st : Stage) (x : Word) (m : Nat) (e : Word) : Prop :=
  ∃ t, s.tableAt st x m = some t ∧ s.entryAt st x m t = e

/-- A move changes no other leaf entry. -/
theorem TreeMove.mapped {s u : State} {st : Stage} {x y : Word} {l t m : Nat} {e e' : Word}
    (move : TreeMove s u st x l t e) (hm : m ≤ 2) (h : s.Mapped st y m e')
    (off : ¬ (m = l ∧ SamePath st (l + 1) x y)) : u.Mapped st y m e' := by
  obtain ⟨w, hw, entry⟩ := h
  exact ⟨w, move.kept st y m w hm hw, (move.others st y m w hm hw fun h => off h.2).trans entry⟩

/-- A path with no conflict has none after a move, when the new entry is none. -/
theorem TreeMove.clear {s u : State} {st : Stage} {x y : Word} {l t m : Nat} {e : Word}
    (move : TreeMove s u st x l t e) (hm : m ≤ 2) (fine : ¬ (kind e).conflicts m l) (h : s.Clear st y m) :
    u.Clear st y m := by
  intro l' hl' w hw
  rcases move.entries st y l' w (by omega) hw with zero | ⟨new, rfl⟩ | ⟨kept, hw⟩
  · have invalid : kind (0 : Word) = .invalid := by decide
    rw [zero, invalid]
    rintro (h | ⟨-, h⟩ | ⟨-, h⟩) <;> cases h
  · rwa [new]
  · rw [kept]
    exact h l' hl' w hw

/-! The commit phase. -/

/-- A request that PT.MAP carries out: sound trees, no other agent in the pool, no conflict, pages enough, and
pool_next does not wrap (R225, R228; log 8, log 11). -/
structure Mappable (st : Stage) (g : BitVec 2) (fl : BitVec 7) (v p n : Word) (s : State) : Prop where
  calm : s.weave = []
  placed : PoolPlaced s.cfg
  trees : s.TreesOk
  quiet : s.PoolQuiet
  wf : (Instr.ptMap st g fl v p n).wellFormed = true
  clear : ∀ k < n.toNat, s.Clear st (granuleAt g v k) (2 - g.toNat)
  room : s.blk.poolNext.toNat + (s.tablesMissing st g v n.toNat).card ≤ s.cfg.poolPages
  wide : s.blk.poolNext.toNat + (s.tablesMissing st g v n.toNat).card < 2 ^ 32

/-- Where the commit phase stands at `u` after it started at `s`, with the first `j` granules mapped. -/
structure Commit (st : Stage) (g : BitVec 2) (fl : BitVec 7) (v p n : Word) (s : State) (j : Nat) (u : State) :
    Prop where
  trees : u.TreesOk
  outside : s.SameOutside u
  unseen : ∀ r ∈ u.unseen, r ∈ s.unseen
  blk : u.blk = { s.blk with poolNext := u.blk.poolNext }
  taken : s.blk.poolNext.toNat ≤ u.blk.poolNext.toNat
  need : u.blk.poolNext.toNat + (u.tablesMissing st g v n.toNat).card =
    s.blk.poolNext.toNat + (s.tablesMissing st g v n.toNat).card
  fresh : ∀ st' y l t, l ≤ 2 → u.tableAt st' y l = some t → s.tableAt st' y l = some t ∨ (1 ≤ l ∧ s.freshPage ≤ t)
  clear : ∀ k < n.toNat, u.Clear st (granuleAt g v k) (2 - g.toNat)
  mapped : ∀ k < j, u.Mapped st (granuleAt g v k) (2 - g.toNat) (leafPte (granuleAt g p k) fl)
  frame : ∀ a, (∀ r ∈ s.unseen, r.covers a = false) →
    ¬ within s.freshPage (4096 * (u.blk.poolNext.toNat - s.blk.poolNext.toNat)) a →
    (∀ k < n.toNat, ∀ l ≤ 2 - g.toNat, ∀ t, s.tableAt st (granuleAt g v k) l = some t →
      ¬ within (slot t st l (granuleAt g v k)) 8 a) → u.readBlk a = s.readBlk a

section
variable {st : Stage} {g : BitVec 2} {fl : BitVec 7} {v p n : Word} {s u w : State} {j k l t : Nat}

theorem Mappable.start (m : Mappable st g fl v p n s) : Commit st g fl v p n s 0 s where
  trees := m.trees
  outside := .refl s
  unseen _ hr := hr
  blk := rfl
  taken := le_rfl
  need := rfl
  fresh _ _ _ _ _ ht := .inl ht
  clear := m.clear
  mapped _ hk := absurd hk (Nat.not_lt_zero _)
  frame _ _ _ _ := rfl

theorem Commit.calm (c : Commit st g fl v p n s j u) (m : Mappable st g fl v p n s) : u.weave = [] :=
  c.outside.weave.trans m.calm

theorem Commit.placed (c : Commit st g fl v p n s j u) (m : Mappable st g fl v p n s) : PoolPlaced u.cfg := by
  rw [c.outside.cfg]
  exact m.placed

theorem Commit.quiet (c : Commit st g fl v p n s j u) (m : Mappable st g fl v p n s) : u.PoolQuiet := fun r hr => by
  rw [c.outside.cfg]
  exact m.quiet r (c.unseen r hr)

/-- A move on the path of a granule keeps what the commit phase keeps. -/
theorem Commit.move {e : Word} {j' : Nat} (c : Commit st g fl v p n s j u) (hk : k < n.toNat) (hl : l ≤ 2 - g.toNat)
    (move : TreeMove u w st (granuleAt g v k) l t e) (fine : ¬ (kind e).conflicts (2 - g.toNat) l)
    (need : w.blk.poolNext.toNat + (w.tablesMissing st g v n.toNat).card =
      u.blk.poolNext.toNat + (u.tablesMissing st g v n.toNat).card)
    (mapped : ∀ i < j', w.Mapped st (granuleAt g v i) (2 - g.toNat) (leafPte (granuleAt g p i) fl)) :
    Commit st g fl v p n s j' w where
  trees := move.trees
  outside := c.outside.trans move.outside
  unseen r hr := c.unseen r (move.unseen r hr)
  blk := by rw [move.blk, c.blk]
  taken := c.taken.trans move.taken
  need := need.trans c.need
  fresh st' y l' t' hl' ht := by
    rcases move.fresh st' y l' t' hl' ht with old | ⟨pos, new⟩
    · exact c.fresh st' y l' t' hl' old
    · refine .inr ⟨pos, le_trans ?_ new⟩
      have := c.taken
      rw [State.freshPage, State.freshPage, c.outside.cfg]
      omega
  clear i hi := move.clear (by omega) fine (c.clear i hi)
  mapped := mapped
  frame a unseen pages slots := by
    have taken := c.taken
    have more := move.taken
    have start : u.freshPage = s.freshPage + 4096 * (u.blk.poolNext.toNat - s.blk.poolNext.toNat) := by
      rw [State.freshPage, State.freshPage, c.outside.cfg]
      omega
    have later : w.readBlk a = u.readBlk a := by
      refine move.bytes a (fun r hr => unseen r (c.unseen r hr)) (fun new => pages ?_) fun here => ?_
      · simp only [within] at new ⊢
        omega
      · have below := slot_below_freshPage c.trees move.level move.table
        rcases c.fresh st _ l t move.level move.table with old | ⟨-, new⟩
        · exact slots k hk l hl t old here
        · have inside := slot_in_table t st (granuleAt g v k) move.level
          refine pages ?_
          simp only [within] at here ⊢
          omega
    refine later.trans (c.frame a unseen (fun new => pages ?_) slots)
    simp only [within] at new ⊢
    omega

/-- The store of the next granule's leaf. -/
theorem Commit.leaf (c : Commit st g fl v p n s j u) (m : Mappable st g fl v p n s) (hj : j < n.toNat)
    (table : u.tableAt st (granuleAt g v j) (2 - g.toNat) = some t) :
    Commit st g fl v p n s (j + 1)
        (u.stored [⟨slot t st (2 - g.toNat) (granuleAt g v j), leafPte (granuleAt g p j) fl⟩]) ∧
      (u.stored [⟨slot t st (2 - g.toNat) (granuleAt g v j), leafPte (granuleAt g p j) fl⟩]).tableAt st
        (granuleAt g v j) (2 - g.toNat) = some t := by
  have kind := kind_leaf m.wf hj
  have old : Machine.kind (u.entryAt st (granuleAt g v j) (2 - g.toNat) t) ≠ .nonleaf := fun link =>
    c.clear j hj _ le_rfl t table (.inr (.inr ⟨rfl, link⟩))
  have move := leaf_treeMove c.trees table (by omega) old kind (leaf_aligned m.wf hj)
  refine ⟨c.move hj le_rfl move (by simp [kind, EntryKind.conflicts]) ?_ fun i hi => ?_,
    move.kept _ _ _ _ (by omega) table⟩
  · have same : (u.stored [⟨slot t st (2 - g.toNat) (granuleAt g v j), leafPte (granuleAt g p j) fl⟩]).tablesMissing st
        g v n.toNat = u.tablesMissing st g v n.toNat := by
      ext q
      simp only [mem_tablesMissing, mem_missing]
      refine exists_congr fun i => and_congr_right fun _ => and_congr_right fun range => ?_
      rw [move.toEntrySet.tableAt_of_leaf old kind st _ (by omega)]
    rw [same]
    rfl
  · rcases Nat.lt_succ_iff_lt_or_eq.1 hi with lt | rfl
    · exact move.mapped (by omega) (c.mapped i lt) fun same =>
        granules_differ m.wf hj (by omega) (by omega) same.2
    · exact ⟨t, move.kept _ _ _ _ (by omega) table, move.written⟩

/-- A link on the path of a granule takes one table off those missing. -/
theorem Commit.link (c : Commit st g fl v p n s j u) (m : Mappable st g fl v p n s) (hk : k < n.toNat)
    (hl : l < 2 - g.toNat) (table : u.tableAt st (granuleAt g v k) l = some t)
    (old : kind (u.entryAt st (granuleAt g v k) l t) = .invalid) :
    Commit st g fl v p n s j (u.linked (slot t st l (granuleAt g v k))) ∧
      (u.linked (slot t st l (granuleAt g v k))).tableAt st (granuleAt g v k) (l + 1) = some u.freshPage := by
  have calm := c.calm m
  have placed := c.placed m
  have quiet := c.quiet m
  have missing : (l + 1, tablePrefix (l + 1) (granuleAt g v k)) ∈ u.tablesMissing st g v n.toNat :=
    mem_tablesMissing.2 ⟨k, hk, mem_missing.2
      ⟨⟨by omega, by omega⟩, tableAt_succ_of_not_nonleaf table (by simp [old]), rfl⟩⟩
  have some := Finset.card_pos.2 ⟨_, missing⟩
  have need := c.need
  have bound := m.room
  have wide := m.wide
  have room : u.blk.poolNext.toNat < u.cfg.poolPages := by
    rw [c.outside.cfg]
    omega
  obtain ⟨move, next⟩ := link_treeMove c.trees table calm placed quiet (by omega) old room (by omega)
  have tables (y : Word) {l' : Nat} (hl' : l' ≤ 2) :=
    linked_tableAt c.trees table calm placed quiet (show l < 2 by omega) old room st y hl'
  have erased : (u.linked (slot t st l (granuleAt g v k))).tablesMissing st g v n.toNat =
      (u.tablesMissing st g v n.toNat).erase (l + 1, tablePrefix (l + 1) (granuleAt g v k)) := by
    ext q
    simp only [Finset.mem_erase, mem_tablesMissing, mem_missing]
    constructor
    · rintro ⟨i, hi, range, none, name⟩
      have off : ¬ (st = st ∧ q.1 = l + 1 ∧ SamePath st (l + 1) (granuleAt g v k) (granuleAt g v i)) := fun same => by
        rw [(tables _ (by omega)).1 same] at none
        cases none
      rw [(tables _ (by omega)).2 off] at none
      refine ⟨?_, i, hi, range, none, name⟩
      rintro rfl
      exact off ⟨rfl, rfl, (samePath_iff_prefix (samePart_granules m.wf hk hi) (by omega) (by omega)).2 name⟩
    · rintro ⟨ne, i, hi, range, none, name⟩
      have off : ¬ (st = st ∧ q.1 = l + 1 ∧ SamePath st (l + 1) (granuleAt g v k) (granuleAt g v i)) :=
        fun ⟨_, level, same⟩ => ne (Prod.ext level (by
          rw [name, level, (samePath_iff_prefix (samePart_granules m.wf hk hi) (by omega) (by omega)).1 same]))
      exact ⟨i, hi, range, ((tables _ (by omega)).2 off).trans none, name⟩
  refine ⟨c.move hk hl.le move ?_ ?_ fun i hi => move.mapped (by omega) (c.mapped i hi) fun same => by omega,
    (tables _ (by omega)).1 ⟨rfl, rfl, fun _ _ => rfl⟩⟩
  · rw [(link_freshPage placed room).1]
    rintro (h | ⟨-, h⟩ | ⟨h, -⟩)
    · cases h
    · cases h
    · omega
  · rw [erased, Finset.card_erase_of_mem missing]
    omega

end

end Sys2Proof.Machine
end

section
/-! SUPPORT. The commit phase of PT.MAP in full (R225, R226), when no other agent moves. -/

namespace Sys2Proof.Machine

section
variable {st : Stage} {g : BitVec 2} {fl : BitVec 7} {v p n : Word} {s u : State} {j k l t : Nat}

/-- The walk to a granule's last table links the tables it misses. -/
theorem Commit.descend {d : Nat} (c : Commit st g fl v p n s j u) (m : Mappable st g fl v p n s) (hk : k < n.toNat)
    (levels : l + d = 2 - g.toNat) (table : u.tableAt st (granuleAt g v k) l = some t) :
    Commit st g fl v p n s j (descend st (granuleAt g v k) d l t u).2 ∧
      (Machine.descend st (granuleAt g v k) d l t u).2.tableAt st (granuleAt g v k) (2 - g.toNat) =
        some (Machine.descend st (granuleAt g v k) d l t u).1 := by
  induction d generalizing l t u with
  | zero =>
    obtain rfl : l = 2 - g.toNat := levels
    exact ⟨c, table⟩
  | succ d ih =>
    have fine := c.clear k hk l (by omega) t table
    simp only [Machine.descend, memRead_calm (c.calm m)]
    cases found : kind (u.wordBlk (slot t st l (granuleAt g v k))) with
    | invalid =>
      rw [allocTable_calm (c.calm m)]
      obtain ⟨c', table'⟩ := c.link m hk (by omega) table found
      exact ih c' (by omega) table'
    | nonleaf => exact ih c (by omega) (tableAt_succ_of_nonleaf table found)
    | leaf => exact absurd (.inr (.inl ⟨by omega, found⟩)) fine
    | reserved => exact absurd (.inl found) fine

/-- The commit phase maps the granules one after another, and ends with the address of the last leaf. -/
theorem Commit.mapGranules {r last : Nat} (c : Commit st g fl v p n s j u) (m : Mappable st g fl v p n s)
    (todo : j + (r + 1) = n.toNat) :
    Commit st g fl v p n s n.toNat (mapGranules st g fl (r + 1) (granuleAt g v j) (granuleAt g p j) last u).2 ∧
      ∃ table, (Machine.mapGranules st g fl (r + 1) (granuleAt g v j) (granuleAt g p j) last u).2.tableAt st
          (granuleAt g v (n.toNat - 1)) (2 - g.toNat) = some table ∧
        (Machine.mapGranules st g fl (r + 1) (granuleAt g v j) (granuleAt g p j) last u).1 =
          slot table st (2 - g.toNat) (granuleAt g v (n.toNat - 1)) := by
  induction r generalizing j last u with
  | zero =>
    obtain rfl : j = n.toNat - 1 := by omega
    obtain ⟨c', table⟩ := c.descend m (d := leafLevel g) (k := n.toNat - 1) (by omega) (by rw [leafLevel]; omega)
      (tableAt_zero.2 rfl)
    obtain ⟨final, found⟩ := c'.leaf m (by omega) table
    rw [show n.toNat - 1 + 1 = n.toNat by omega] at final
    simp only [Machine.mapGranules, memWrite_stored (c'.calm m)]
    exact ⟨final, _, found, rfl⟩
  | succ r ih =>
    obtain ⟨c', table⟩ := c.descend m (d := leafLevel g) (k := j) (by omega) (by rw [leafLevel]; omega)
      (tableAt_zero.2 rfl)
    have next := ih (c'.leaf m (by omega) table).1 (by omega)
      (last := slot (Machine.descend st (granuleAt g v j) (leafLevel g) 0 (rootOf u.blk st) u).1 st (leafLevel g)
        (granuleAt g v j))
    rw [granuleAt_succ, granuleAt_succ] at next
    rw [Machine.mapGranules]
    simp only [memWrite_stored (c'.calm m)]
    exact next

theorem not_conflicts_iff {m : Nat} {e : EntryKind} (hl : l ≤ m) :
    ¬ e.conflicts m l ↔ e = .invalid ∨ (l < m ∧ e = .nonleaf) ∨ (l = m ∧ e = .leaf) := by
  rw [EntryKind.conflicts]
  cases e <;> simp <;> omega

/-- A PT.MAP that is carried out: where its commit phase ends, with the address of the last leaf and the tables
allocated. -/
theorem Mappable.mapGranules (m : Mappable st g fl v p n s) :
    Commit st g fl v p n s n.toNat (mapGranules st g fl n.toNat v p 0 s).2 ∧
      (∃ table, (Machine.mapGranules st g fl n.toNat v p 0 s).2.tableAt st (granuleAt g v (n.toNat - 1))
          (2 - g.toNat) = some table ∧ (Machine.mapGranules st g fl n.toNat v p 0 s).1 =
          slot table st (2 - g.toNat) (granuleAt g v (n.toNat - 1))) ∧
      (Machine.mapGranules st g fl n.toNat v p 0 s).2.blk.poolNext.toNat =
        s.blk.poolNext.toNat + (s.tablesMissing st g v n.toNat).card := by
  obtain ⟨some, -⟩ := map_range m.wf
  have run := m.start.mapGranules m (r := n.toNat - 1) (last := 0) (by omega)
  rw [granuleAt_zero, granuleAt_zero, show n.toNat - 1 + 1 = n.toNat by omega] at run
  obtain ⟨c, last⟩ := run
  have none : (Machine.mapGranules st g fl n.toNat v p 0 s).2.tablesMissing st g v n.toNat = ∅ := by
    refine Finset.eq_empty_of_forall_notMem fun q hq => ?_
    obtain ⟨i, hi, missing⟩ := mem_tablesMissing.1 hq
    obtain ⟨t, table, -⟩ := c.mapped i hi
    rw [missing_of_tableAt table] at missing
    exact absurd missing (Finset.notMem_empty q)
  have need := c.need
  rw [none, Finset.card_empty] at need
  exact ⟨c, last, need⟩

theorem exec_ptMap_mappable (m : Mappable st g fl v p n s) : exec (.ptMap st g fl v p n) s =
    .next ((mapGranules st g fl n.toNat v p 0 s).2.finish
      (result .ok (BitVec.ofNat 64 (s.tablesMissing st g v n.toNat).card)
        (BitVec.ofNat 64 (mapGranules st g fl n.toNat v p 0 s).1))) :=
  (exec_ptMap_clear m.calm m.trees.ready m.wf m.clear).trans (if_neg (by have := m.room; omega))

end

/-! Ending a request leaves the trees as they are. -/

section
variable {s : State} {st : Stage} {x : Word} {l t : Nat} (r : Result)

theorem entryAt_finish : (s.finish r).entryAt st x l t = s.entryAt st x l t := rfl

theorem tableAt_finish : (s.finish r).tableAt st x l = s.tableAt st x l := by
  induction l with
  | zero => rfl
  | succ l ih => simp only [State.tableAt, ih]; rfl

theorem State.TreesOk.finish (trees : s.TreesOk) : (s.finish r).TreesOk where
  ready := trees.ready
  root2 := trees.root2
  root1 := trees.root1
  pages := trees.pages
  handedOut st x l t := by rw [tableAt_finish]; exact trees.handedOut st x l t
  onePath st x l st' x' l' t := by rw [tableAt_finish, tableAt_finish]; exact trees.onePath st x l st' x' l' t
  kinds st x l t := by rw [tableAt_finish]; exact trees.kinds st x l t
  leaves st x l t := by rw [tableAt_finish]; exact trees.leaves st x l t

end

end Sys2Proof.Machine
end

section
/-! PROOFS. O25. -/

namespace Sys2Proof.Machine

/-- Settles O25: the dry run counts what is missing, and the commit phase keeps its invariant. -/
theorem ptMapCompletes : Obligations.PtMapCompletes := by
  intro st g fl v p n s calm placed trees quiet wf kinds need lastX
  have clear : ∀ k < n.toNat, s.Clear st (granuleAt g v k) (2 - g.toNat) := fun k hk l hl t table =>
    (not_conflicts_iff hl).2 (kinds k hk l hl t table)
  refine ⟨fun full => (exec_ptMap_clear calm trees.ready wf clear).trans (if_pos full), fun room wide => ?_⟩
  have m : Mappable st g fl v p n s := ⟨calm, wellPlaced_pool placed, trees, quiet, wf, clear, room, wide⟩
  obtain ⟨c, ⟨table, found, last⟩, taken⟩ := m.mapGranules
  refine ⟨_, table, exec_ptMap_mappable m, (tableAt_finish _).trans found, by rw [last]; rfl, ?_, ?_, fun a => ?_⟩
  · rw [← taken, BitVec.ofNat_toNat, BitVec.setWidth_eq]
    exact c.blk
  · exact c.outside.trans (by constructor <;> rfl)
  · have frame := c.frame a
    rw [taken, Nat.add_sub_cancel_left] at frame
    exact frame

end Sys2Proof.Machine
end

section
/-! PROOFS. O26. -/

namespace Sys2Proof.Machine

section
variable {s : State} {st : Stage} {x : Word}

/-- An empty root has an invalid entry on every path, and no table below it. -/
theorem tableAt_of_empty_root (empty : ∀ x, s.entryAt st x 0 (rootOf s.blk st) = 0) {l t : Nat}
    (h : s.tableAt st x l = some t) : l = 0 ∧ s.entryAt st x l t = 0 := by
  have root : s.tableAt st x 0 = some (rootOf s.blk st) := tableAt_zero.2 rfl
  cases l with
  | zero =>
    obtain rfl := tableAt_zero.1 h
    exact ⟨rfl, empty x⟩
  | succ l =>
    have stop : kind (s.entryAt st x 0 (rootOf s.blk st)) ≠ .nonleaf := by
      rw [empty]
      decide
    rw [tableAt_none_mono (tableAt_succ_of_not_nonleaf root stop) (by omega)] at h
    cases h

/-- Empty roots are sound trees. -/
theorem treesOk_of_empty_roots (ready : s.blk.ptReady = true) (root2 : s.blk.s2Root.toNat = s.cfg.poolBase.toNat)
    (root1 : s.blk.s1Root.toNat = s.cfg.poolBase.toNat + 0x4000)
    (pages : 5 ≤ s.blk.poolNext.toNat ∧ s.blk.poolNext.toNat ≤ s.cfg.poolPages)
    (empty : ∀ st x, s.entryAt st x 0 (rootOf s.blk st) = 0) : s.TreesOk where
  ready := ready
  root2 := root2
  root1 := root1
  pages := pages
  handedOut st x l t pos _ h := by have := (tableAt_of_empty_root (empty st) h).1; omega
  onePath st x l _ _ _ t pos _ _ _ h := by have := (tableAt_of_empty_root (empty st) h).1; omega
  kinds st x l t _ h := by
    have zero := (tableAt_of_empty_root (empty st) h).2
    rw [State.entryAt] at zero
    rw [zero, show kind (0 : Word) = .invalid by decide]
    simp
  leaves st x l t _ h leaf := by
    have zero := (tableAt_of_empty_root (empty st) h).2
    rw [State.entryAt] at zero
    rw [zero] at leaf
    cases leaf

end

/-- PT.INIT leaves sound trees. -/
theorem ptInit_treesOk {s t : State} (calm : s.weave = []) (placed : PoolPlaced s.cfg)
    (e : exec .ptInit s = .next t) : t.TreesOk := by
  obtain ⟨u, run, -, blk, -, outside, -, empty⟩ := ptInitEmptiesRoots s calm
  obtain rfl : t = u := by
    rw [run] at e
    cases e
    rfl
  have base := placed.base
  have pages := placed.pages
  have fits := placed.fits
  have root2 : t.blk.s2Root.toNat = s.cfg.poolBase.toNat := by
    rw [blk]
    simp only [BitVec.toNat_setWidth]
    omega
  have root1 : t.blk.s1Root.toNat = s.cfg.poolBase.toNat + 0x4000 := by
    rw [blk]
    simp only [BitVec.toNat_setWidth, BitVec.toNat_add, show (0x4000 : Word).toNat = 0x4000 from rfl]
    omega
  have next : t.blk.poolNext = 5 := by rw [blk]
  refine treesOk_of_empty_roots (by rw [blk]) ?_ ?_ ?_ fun st x => load64_eq_zero fun b hb => (empty b ?_).1
  · rw [outside.cfg, root2]
  · rw [outside.cfg, root1]
  · rw [outside.cfg, next]
    exact ⟨le_rfl, pages⟩
  · have inside := slot_in_table (rootOf t.blk st) st x (Nat.zero_le 2)
    cases st <;> simp only [rootOf, root1, root2, tableBytes, within, reduceCtorEq, false_and, and_self, if_true,
      if_false] at hb inside ⊢ <;> omega

/-- PT.MAP keeps sound trees. -/
theorem ptMap_treesOk {s t : State} {st : Stage} {g : BitVec 2} {fl : BitVec 7} {v p n : Word} (calm : s.weave = [])
    (placed : PoolPlaced s.cfg) (trees : s.TreesOk) (quiet : s.PoolQuiet)
    (wide : min s.cfg.poolPages (s.blk.poolNext.toNat + (s.tablesMissing st g v n.toNat).card) < 2 ^ 32)
    (e : exec (.ptMap st g fl v p n) s = .next t) : t.TreesOk := by
  rcases exec_ptMap_cases calm e with ⟨c, -, rfl⟩ | ⟨wf, clear, room⟩
  · exact trees.finish _
  · have m : Mappable st g fl v p n s := ⟨calm, placed, trees, quiet, wf, clear, room, by omega⟩
    rw [exec_ptMap_mappable m] at e
    cases e
    exact m.mapGranules.1.trees.finish _

/-- Settles O26: PT.INIT leaves empty roots, and PT.MAP is refused or runs its commit phase. -/
theorem treesStayOk : Obligations.TreesStayOk :=
  ⟨fun _ _ calm placed => ptInit_treesOk calm (wellPlaced_pool placed),
    fun _ _ _ _ _ _ _ _ calm placed => ptMap_treesOk calm (wellPlaced_pool placed)⟩

end Sys2Proof.Machine
end

section
/-! PROOFS. O27. -/

namespace Sys2Proof.Machine

section
variable {s : State} {st : Stage} {x y : Word} {m : Nat}

/-- A leaf found on one path is found on every path that meets its entry. -/
theorem State.Mapped.congr {e : Word} (h : s.Mapped st x m e) (same : SamePath st (m + 1) x y) : s.Mapped st y m e := by
  obtain ⟨t, table, entry⟩ := h
  exact ⟨t, (tableAt_congr (same.mono (Nat.le_succ m))).symm.trans table,
    (entryAt_congr (same m (Nat.lt_succ_self m))).symm.trans entry⟩

/-- PT.LOOKUP of an address whose path ends in a leaf. -/
theorem exec_ptLookup_of_mapped {e : Word} (calm : s.weave = []) (ready : s.blk.ptReady = true)
    (range : lookupInRange st x = true) (hm : m ≤ 2) (h : s.Mapped st x m e) (leaf : kind e = .leaf) :
    ∃ ea, exec (.ptLookup st x) s =
      .next (s.finish (result .ok (leafTarget e x m) e (BitVec.ofNat 64 m) ea)) := by
  obtain ⟨t, table, rfl⟩ := h
  rw [exec_ptLookup ready range, lookupWalk_end calm hm table (.inl (by simp [leaf])), if_pos leaf]
  exact ⟨_, rfl⟩

end

section
variable {st : Stage} {g : BitVec 2} {fl : BitVec 7} {v p n : Word} {k o : Nat}
  (wf : (Instr.ptMap st g fl v p n).wellFormed = true) (hk : k < n.toNat) (ho : o < granule g)
include wf hk ho

theorem toNat_mapped : (v + BitVec.ofNat 64 (k * granule g + o)).toNat = v.toNat + k * granule g + o := by
  obtain ⟨-, -, range, -⟩ := map_range wf
  have := granule_le g hk
  rw [BitVec.toNat_add, BitVec.toNat_ofNat]
  omega

/-- Every address of a granule meets the granule's leaf. -/
theorem samePath_mapped : SamePath st (2 - g.toNat + 1) (granuleAt g v k)
    (v + BitVec.ofNat 64 (k * granule g + o)) := by
  obtain ⟨code, aligned, -⟩ := wellFormed_ptMap.1 wf
  obtain ⟨page, -⟩ := mapAligned_eq_true.1 aligned
  obtain ⟨-, -, -, half, low⟩ := map_range wf
  have size := granule_pos g
  have inside := granule_le g hk
  have part : SamePart st (granuleAt g v k) (v + BitVec.ofNat 64 (k * granule g + o)) := by
    rw [SamePart, toNat_source wf hk, toNat_mapped wf hk ho]
    refine ⟨fun h => ?_, fun h => ?_⟩
    · have := half h
      omega
    · have := low h
      omega
  rw [samePath_iff_prefix part (by omega) (by omega), tablePrefix_granule wf hk, tablePrefix, ← granule_eq_prefix code,
    toNat_mapped wf hk ho, Nat.add_right_comm, Nat.add_mul_div_right _ _ size, Nat.add_div_of_dvd_right
      (Nat.dvd_of_mod_eq_zero page), Nat.div_eq_of_lt ho, Nat.add_zero]

theorem lookupInRange_mapped : lookupInRange st (v + BitVec.ofNat 64 (k * granule g + o)) = true := by
  obtain ⟨-, -, range, half, low⟩ := map_range wf
  have := granule_le g hk
  rw [lookupInRange_eq_true, toNat_mapped wf hk ho]
  cases st with
  | s1 => have := half rfl; exact .inl ⟨rfl, by omega⟩
  | s2 => have := low rfl; exact .inr ⟨rfl, by omega⟩

/-- The lookup's answer is the mapped frame with the offset in the granule. -/
theorem leafTarget_mapped : leafTarget (leafPte (granuleAt g p k) fl) (v + BitVec.ofNat 64 (k * granule g + o))
    (2 - g.toNat) = BitVec.ofNat 64 (p.toNat + k * granule g + o) := by
  obtain ⟨code, aligned, -⟩ := wellFormed_ptMap.1 wf
  obtain ⟨page, -⟩ := mapAligned_eq_true.1 aligned
  obtain ⟨-, range, -⟩ := map_range wf
  have inside := granule_le g hk
  have target := target_aligned wf hk
  have offset : (v.toNat + k * granule g + o) % granule g = o := by
    rw [Nat.add_right_comm, Nat.add_mul_mod_self_right, Nat.add_mod, page, Nat.zero_add, Nat.mod_mod,
      Nat.mod_eq_of_lt ho]
  rw [← BitVec.toNat_inj, toNat_leafTarget _ _ (by omega), fieldPa_leaf wf hk, ← granule_eq_levelSize code,
    Nat.div_mul_cancel (Nat.dvd_of_mod_eq_zero target), toNat_mapped wf hk ho, offset, toNat_target wf hk,
    BitVec.toNat_ofNat, Nat.mod_eq_of_lt (by omega)]

omit ho in
theorem leafPte_mapped : leafPte (granuleAt g p k) fl =
    BitVec.ofNat 64 ((p.toNat + k * granule g) / 4096 * 1024 + 2 * fl.toNat + 1) := by
  have flags := fl.isLt
  have range := target_lt wf hk
  have number := toNat_target wf hk
  rw [← BitVec.toNat_inj, toNat_leafPte fl range, number, BitVec.toNat_ofNat, Nat.mod_eq_of_lt (by omega)]

end

theorem status_eq_ok {c : Status} (h : c.code = Status.ok.code) : c = .ok := by
  cases c <;> simp [Status.code] at h ⊢

/-- Settles O27: the commit phase mapped every granule, and the lookup walks to its leaf. -/
theorem mapThenLookup : Obligations.MapThenLookup := by
  intro st g fl v p n s t k o calm placed trees quiet wide e ok hk ho
  rcases exec_ptMap_cases calm e with ⟨c, refused, rfl⟩ | ⟨wf, clear, room⟩
  · exact absurd (status_eq_ok ok) refused
  · have m : Mappable st g fl v p n s := ⟨calm, wellPlaced_pool placed, trees, quiet, wf, clear, room, by omega⟩
    rw [exec_ptMap_mappable m] at e
    cases e
    obtain ⟨c, -⟩ := m.mapGranules
    obtain ⟨table, found, entry⟩ := (c.mapped k hk).congr (samePath_mapped wf hk ho)
    rw [← leafTarget_mapped wf hk ho, ← leafPte_mapped wf hk]
    exact exec_ptLookup_of_mapped (c.calm m) (c.trees.finish _).ready (lookupInRange_mapped wf hk ho) (by omega)
      ⟨table, (tableAt_finish _).trans found, entry⟩ (kind_leaf wf hk)

end Sys2Proof.Machine
end

section
/-! SUPPORT. The IOMMU's walk of a device directory with no copy used (R235): where it stands after some links, and how
it ends there. -/

namespace Sys2Proof.Machine

/-! The checks of a directory entry as numbers. -/

theorem valid_iff (e : Word) : e.getLsbD 0 = true ↔ e.toNat % 2 = 1 := by
  rw [← BitVec.testBit_toNat, Nat.testBit_zero, decide_eq_true_eq]

theorem linkReserved_iff (e : Word) : (e.extractLsb' 1 9 != 0 || e.extractLsb' 54 10 != 0) = true ↔
    e.toNat / 2 % 2 ^ 9 ≠ 0 ∨ e.toNat / 2 ^ 54 ≠ 0 := by
  have := e.isLt
  rw [Bool.or_eq_true, bne_iff_ne, bne_iff_ne, Ne, Ne, ← BitVec.toNat_inj, ← BitVec.toNat_inj, BitVec.extractLsb'_toNat,
    BitVec.extractLsb'_toNat, Nat.shiftRight_eq_div_pow, Nat.shiftRight_eq_div_pow,
    show (0 : BitVec 9).toNat = 0 from rfl, show (0 : BitVec 10).toNat = 0 from rfl]
  omega

theorem toNat_ptrMode (e : Word) : (ptrMode e).toNat = e.toNat / 2 ^ 60 := by
  have := e.isLt
  rw [ptrMode, BitVec.extractLsb'_toNat, Nat.shiftRight_eq_div_pow]
  omega

theorem ptrMode_eq_iff (e : Word) {k : Nat} (h : k < 16) : ptrMode e = BitVec.ofNat 4 k ↔ e.toNat / 2 ^ 60 = k := by
  rw [← BitVec.toNat_inj, toNat_ptrMode, BitVec.toNat_ofNat, Nat.mod_eq_of_lt h]

/-- A context whose tc has a reserved bit in its upper half, or one of whose stages has an unsupported mode. -/
theorem misconfigured_of_bits {f : DcFmt} {w : List Word} (h : (w.getD 0 0).toNat / 2 ^ 32 ≠ 0 ∨
    ((w.getD 1 0).toNat / 2 ^ 60 ≠ 0 ∧ (w.getD 1 0).toNat / 2 ^ 60 ≠ 8) ∨
      ((w.getD 3 0).toNat / 2 ^ 60 ≠ 0 ∧ (w.getD 3 0).toNat / 2 ^ 60 ≠ 8)) : misconfigured f w = true := by
  have mode (e : Word) (bad : e.toNat / 2 ^ 60 ≠ 0 ∧ e.toNat / 2 ^ 60 ≠ 8) :
      (ptrMode e == 0 || ptrMode e == 8) = false := by
    rw [Bool.or_eq_false_iff, beq_eq_false_iff_ne, beq_eq_false_iff_ne]
    exact ⟨fun h => bad.1 ((ptrMode_eq_iff e (k := 0) (by omega)).1 h),
      fun h => bad.2 ((ptrMode_eq_iff e (k := 8) (by omega)).1 h)⟩
  rcases h with top | bad | bad
  · have reserved : w.getD 0 0 &&& 0xFFFFFFFF00FFFFEE ≠ 0 := fun zero => top (by
      have part : w.getD 0 0 &&& 0xFFFFFFFF00000000 = 0 := by
        rw [show (0xFFFFFFFF00000000 : Word) = 0xFFFFFFFF00FFFFEE &&& 0xFFFFFFFF00000000 by decide, ← BitVec.and_assoc,
          zero]
        exact BitVec.zero_and
      have number := toNat_and_field (w.getD 0 0) (i := 32) (n := 32) (by omega)
      rw [show ((BitVec.allOnes 32).setWidth 64 <<< 32 : Word) = 0xFFFFFFFF00000000 by decide, part] at number
      have := (w.getD 0 0).isLt
      rw [show (0 : Word).toNat = 0 from rfl] at number
      omega)
    simp only [misconfigured, bne_iff_ne.2 reserved, Bool.true_or]
  · simp only [misconfigured, mode _ bad, Bool.not_false, Bool.true_or, Bool.or_true]
  · simp only [misconfigured, mode _ bad, Bool.not_false, Bool.true_or, Bool.or_true]

/-! The walk. -/

section
variable {c : Config} {m : Memory} {did : BitVec 24} {w : Walk} (fresh : w.picks = [])
include fresh

theorem readDdt_memory (a n : Nat) : readDdt c m did a n w =
    (if accessible c a (8 * n) then some (loadWords m a n) else none, w) := by
  have pick : w.pick = .memory := by rw [Walk.pick, fresh]; rfl
  cases h : accessible c a (8 * n) <;>
    simp only [readDdt, pick, pickValue, h, if_true, Option.map_some, Option.map_none, Bool.false_eq_true, if_false,
      Walk.next_of_empty fresh]

/-- One level of the walk. -/
theorem directoryWalk_succ (j t : Nat) : directoryWalk c m did (j + 1) t w =
    let a := t + 8 * ddi c.dcFmt did.toNat (j + 1)
    let e := m.load64 a
    if accessible c a 8 = false then (.error ⟨257, 0⟩, w)
    else if e.toNat % 2 = 0 then (.error ⟨258, 0⟩, w)
    else if e.toNat / 2 % 2 ^ 9 ≠ 0 ∨ e.toNat / 2 ^ 54 ≠ 0 then (.error ⟨259, 0⟩, w)
    else directoryWalk c m did j (e.toNat / 1024 % 2 ^ 44 * 4096) w := by
  simp only [directoryWalk, readDdt_memory fresh]
  cases accessible c (t + 8 * ddi c.dcFmt did.toNat (j + 1)) (8 * 1) with
  | false => rfl
  | true =>
    simp only [if_true, loadWords, List.getD_cons_zero, linkReserved_iff, toNat_fieldPa, Bool.not_eq_true',
      ← Bool.not_eq_true, valid_iff, Nat.mod_two_not_eq_one, if_false, not_true_eq_false]

theorem directoryWalk_of_page {root l k t : Nat} (page : directoryPage c m root l did.toNat k = some t) (hk : k < l) :
    directoryWalk c m did (l - 1) root w = directoryWalk c m did (l - 1 - k) t w := by
  induction k generalizing t with
  | zero =>
    cases page
    rfl
  | succ k ih =>
    rw [directoryPage] at page
    cases above : directoryPage c m root l did.toNat k with
    | none =>
      rw [above] at page
      cases page
    | some t' =>
      rw [above] at page
      simp only at page
      split at page
      · next good =>
        obtain ⟨readable, valid, low, high⟩ := good
        cases page
        have level : l - 1 - k = l - 1 - (k + 1) + 1 := by omega
        rw [level] at readable valid low high ⊢
        rw [ih above (by omega), level, directoryWalk_succ fresh]
        simp only [readable, valid, low, high, Bool.true_eq_false, if_false, one_ne_zero, ne_eq, not_true_eq_false,
          or_self]
      · cases page

/-! The end of the walk. -/

omit fresh in
theorem dcBytes_eq (f : DcFmt) : 8 * (dcBytes f / 8) = dcBytes f := by cases f <;> rfl

omit fresh in
theorem loadWords_getD (a n k : Nat) (h : k < n) : (loadWords m a n).getD k 0 = m.load64 (a + 8 * k) := by
  induction n generalizing a k with
  | zero => omega
  | succ n ih =>
    cases k with
    | zero => rfl
    | succ k =>
      rw [loadWords, List.getD_cons_succ, ih (a + 8) k (by omega)]
      congr 1
      omega

section
variable {ddtp : Word} {l : Nat} (narrow : did.toNat < 2 ^ idBits c.dcFmt l)
include narrow

omit fresh in
theorem locateContext_error {f : XFault}
    (walk : directoryWalk c m did (l - 1) (ddtp.toNat / 1024 % 2 ^ 44 * 4096) w = (.error f, w)) :
    locateContext c m ddtp l did w = (.error f, w) := by
  simp only [locateContext, if_neg (by omega : ¬ 2 ^ idBits c.dcFmt l ≤ did.toNat), toNat_fieldPa, walk]

theorem locateContext_of_page {t : Nat}
    (walk : directoryWalk c m did (l - 1) (ddtp.toNat / 1024 % 2 ^ 44 * 4096) w = (.ok t, w)) :
    locateContext c m ddtp l did w =
      let a := t + dcBytes c.dcFmt * ddi c.dcFmt did.toNat 0
      let dc := loadWords m a (dcBytes c.dcFmt / 8)
      if accessible c a (dcBytes c.dcFmt) = false then (.error ⟨257, 0⟩, w)
      else if (m.load64 a).toNat % 2 = 0 then (.error ⟨258, 0⟩, w)
      else if misconfigured c.dcFmt dc = true then (.error ⟨259, 0⟩, w)
      else (.ok (contextOf c.dcFmt dc), w) := by
  simp only [locateContext, if_neg (by omega : ¬ 2 ^ idBits c.dcFmt l ≤ did.toNat), toNat_fieldPa, walk,
    readDdt_memory fresh, dcBytes_eq]
  cases accessible c (t + dcBytes c.dcFmt * ddi c.dcFmt did.toNat 0) (dcBytes c.dcFmt) with
  | false => rfl
  | true =>
    have some : 0 < dcBytes c.dcFmt / 8 := by cases c.dcFmt <;> decide
    have tc := loadWords_getD (m := m) (t + dcBytes c.dcFmt * ddi c.dcFmt did.toNat 0) _ 0 some
    simp only [if_true, tc, Nat.mul_zero, Nat.add_zero, Bool.not_eq_true', ← Bool.not_eq_true, valid_iff,
      Nat.mod_two_not_eq_one, not_true_eq_false, if_false]

end

end

end Sys2Proof.Machine
end

section
/-! PROOFS. O44, the causes of the walk. -/

namespace Sys2Proof.Machine

/-- What ends the walk of an entry that is read: a check on the way to the context, or at it (R235). -/
theorem locateContext_causes {c : Config} {m : Memory} {ddtp : Word} {l : Nat} {d : BitVec 24} {w : Walk}
    (fresh : w.picks = []) {k t : Nat} (narrow : d.toNat < 2 ^ idBits c.dcFmt l) (hk : k < l)
    (page : directoryPage c m (ddtp.toNat / 1024 % 2 ^ 44 * 4096) l d.toNat k = some t) :
    let isLink := k + 1 < l
    let a := if isLink then t + 8 * ddi c.dcFmt d.toNat (l - 1 - k) else t + dcBytes c.dcFmt * ddi c.dcFmt d.toNat 0
    let size := if isLink then 8 else dcBytes c.dcFmt
    let e := (m.load64 a).toNat
    let mode (a : Nat) := (m.load64 a).toNat / 2 ^ 60
    (accessible c a size = false → locateContext c m ddtp l d w = (.error ⟨257, 0⟩, w)) ∧
    (accessible c a size = true → e % 2 = 0 → locateContext c m ddtp l d w = (.error ⟨258, 0⟩, w)) ∧
    (accessible c a size = true → e % 2 = 1 →
      (if isLink then e / 2 % 2 ^ 9 ≠ 0 ∨ e / 2 ^ 54 ≠ 0
       else e / 2 ^ 32 ≠ 0 ∨ (mode (a + 8) ≠ 0 ∧ mode (a + 8) ≠ 8) ∨ (mode (a + 24) ≠ 0 ∧ mode (a + 24) ≠ 8)) →
      locateContext c m ddtp l d w = (.error ⟨259, 0⟩, w)) := by
  have walk := directoryWalk_of_page fresh page hk
  by_cases link : k + 1 < l
  · have level : l - 1 - k = l - 1 - (k + 1) + 1 := by omega
    rw [level, directoryWalk_succ fresh] at walk
    simp only [link, if_true, level]
    refine ⟨fun unreadable => ?_, fun readable invalid => ?_, fun readable valid reserved => ?_⟩
    · refine locateContext_error narrow (walk.trans ?_)
      simp only [unreadable, if_true]
    · refine locateContext_error narrow (walk.trans ?_)
      simp only [readable, invalid, if_true, Bool.true_eq_false, if_false]
    · refine locateContext_error narrow (walk.trans ?_)
      simp only [readable, valid, if_pos reserved, Bool.true_eq_false, if_false, one_ne_zero]
  · have last : l - 1 - k = 0 := by omega
    rw [last] at walk
    have found := locateContext_of_page fresh narrow walk
    simp only [link, if_false]
    refine ⟨fun unreadable => ?_, fun readable invalid => ?_, fun readable valid bits => ?_⟩
    · rw [found]
      simp only [unreadable, if_true]
    · rw [found]
      simp only [readable, invalid, if_true, Bool.true_eq_false, if_false]
    · have size : 3 < dcBytes c.dcFmt / 8 := by cases c.dcFmt <;> decide
      have bad : misconfigured c.dcFmt (loadWords m (t + dcBytes c.dcFmt * ddi c.dcFmt d.toNat 0)
          (dcBytes c.dcFmt / 8)) = true := by
        refine misconfigured_of_bits ?_
        rw [loadWords_getD _ _ 0 (by omega), loadWords_getD _ _ 1 (by omega), loadWords_getD _ _ 3 (by omega)]
        exact bits
      rw [found]
      simp only [readable, valid, bad, if_true, Bool.true_eq_false, if_false, one_ne_zero]

end Sys2Proof.Machine
end

section
/-! SUPPORT. The place of every page, link and context of the directory that DDT.REBUILD builds (R290, R291, R294,
R296): its pages are handed out in the order of the devices, each link's page before what it links to. -/

namespace Sys2Proof.Machine

/-- The ids that share the directory page with `j` levels of links below it are those with this quotient (R291). -/
def pageKey (f : DcFmt) (j d : Nat) : Nat := d / 2 ^ (ddi0Bits f + 9 * j)

/-- The number, counted from the root's, of the directory page of device `d` with `j` levels of links below it, in a
directory of `l` levels built from device `lo` on (R296). -/
def directoryNum (f : DcFmt) (l lo j d : Nat) : Nat :=
  if l ≤ j + 1 then 0
  else if j = 0 then
    1 + (if l = 3 then pageKey f 1 d - pageKey f 1 lo + 1 else 0) + (pageKey f 0 d - pageKey f 0 lo)
  else 1 + (pageKey f 1 d - pageKey f 1 lo) + (max (pageKey f 0 lo) (512 * pageKey f 1 d) - pageKey f 0 lo)

/-- The page with `j` levels of links below it is the root, or some device from `lo` to `hi` shares it with `d`. -/
def Shared (f : DcFmt) (l lo hi j d : Nat) : Prop :=
  l ≤ j + 1 ∨ (pageKey f j lo ≤ pageKey f j d ∧ pageKey f j d ≤ pageKey f j hi)

/-- Two ids have the same page with `j` levels of links below it. -/
def SameKey (f : DcFmt) (l j d d' : Nat) : Prop := l ≤ j + 1 ∨ pageKey f j d = pageKey f j d'

section
variable {f : DcFmt} {l lo hi j j' d d' : Nat}

theorem directoryNum_congr (h : SameKey f l j d d') (hj : j < 2) :
    directoryNum f l lo j d = directoryNum f l lo j d' := by
  rcases h with root | key
  · simp only [directoryNum, if_pos root]
  · have up : j = 0 → pageKey f 1 d = pageKey f 1 d' := by
      rintro rfl
      cases f <;> simp only [pageKey, ddi0Bits] at key ⊢ <;> omega
    interval_cases j <;> simp_all only [directoryNum]

section
variable (levels : 1 ≤ l ∧ l ≤ 3)
include levels

theorem directoryNum_lt (range : lo ≤ hi) (hj : j < l) (h : Shared f l lo hi j d) :
    directoryNum f l lo j d < 1 + needPages f l lo hi := by
  obtain ⟨one, three⟩ := levels
  interval_cases l <;> interval_cases j <;> cases f <;>
    simp [directoryNum, needPages, pageKey, ddi0Bits, Shared] at h ⊢ <;> omega

theorem directoryNum_inj (hj : j < l) (hj' : j' < l) (h : Shared f l lo hi j d) (h' : Shared f l lo hi j' d')
    (e : directoryNum f l lo j d = directoryNum f l lo j' d') : j = j' ∧ SameKey f l j d d' := by
  obtain ⟨one, three⟩ := levels
  interval_cases l <;> interval_cases j <;> interval_cases j' <;> cases f <;>
    simp [directoryNum, pageKey, ddi0Bits, Shared, SameKey] at h h' e ⊢ <;> omega

end

theorem ddi_succ_lt : ddi f d (j + 1) < 512 := by
  rcases j with _ | j <;> cases f <;> simp only [ddi, ddi0Bits] <;> omega

theorem dcBytes_ddi : dcBytes f * ddi f d 0 + dcBytes f ≤ 4096 := by
  cases f <;> simp only [ddi, ddi0Bits, dcBytes] <;> omega

/-- The index in a page tells the links of the page apart. -/
theorem sameKey_of_ddi (hl : l ≤ 3) (hj : j + 1 < l) (narrow : d < 2 ^ idBits f l) (narrow' : d' < 2 ^ idBits f l)
    (page : SameKey f l (j + 1) d d') (e : ddi f d (j + 1) = ddi f d' (j + 1)) : pageKey f j d = pageKey f j d' := by
  obtain ⟨rfl, rfl⟩ | ⟨rfl, rfl⟩ | ⟨rfl, rfl⟩ : j = 0 ∧ l = 2 ∨ j = 0 ∧ l = 3 ∨ j = 1 ∧ l = 3 := by omega
  all_goals cases f <;> simp [pageKey, ddi0Bits, SameKey, ddi, idBits] at narrow narrow' page e ⊢ <;> omega

/-- The index in a page tells the contexts of the page apart. -/
theorem eq_of_ddi (levels : 1 ≤ l ∧ l ≤ 3) (narrow : d < 2 ^ idBits f l) (narrow' : d' < 2 ^ idBits f l)
    (page : SameKey f l 0 d d') (e : ddi f d 0 = ddi f d' 0) : d = d' := by
  obtain ⟨one, three⟩ := levels
  interval_cases l <;> cases f <;> simp [pageKey, ddi0Bits, SameKey, ddi, idBits] at narrow narrow' page e ⊢ <;> omega

/-- The page below a link has the link's place. -/
theorem ddi_congr (hj : j < 2) (key : pageKey f j d = pageKey f j d') : ddi f d (j + 1) = ddi f d' (j + 1) := by
  interval_cases j <;> cases f <;> simp only [pageKey, ddi0Bits, ddi] at key ⊢ <;> omega

theorem SameKey.succ (hj : j < 2) (h : SameKey f l j d d') : SameKey f l (j + 1) d d' := by
  refine h.imp (by omega) fun key => ?_
  interval_cases j <;> cases f <;> simp only [pageKey, ddi0Bits] at key ⊢ <;> omega

theorem Shared.succ (hj : j < 2) (h : Shared f l lo hi j d) : Shared f l lo hi (j + 1) d := by
  refine h.imp (by omega) fun key => ?_
  interval_cases j <;> cases f <;> simp only [pageKey, ddi0Bits] at key ⊢ <;> omega

theorem pageKey_mono (le : d ≤ d') : pageKey f j d ≤ pageKey f j d' := Nat.div_le_div_right le

theorem shared_of_range (low : lo ≤ d) (high : d ≤ hi) : Shared f l lo hi j d :=
  .inr ⟨pageKey_mono low, pageKey_mono high⟩

/-- A shared page is some device's. -/
theorem Shared.exists (range : lo ≤ hi) (h : Shared f l lo hi j d) : ∃ e, lo ≤ e ∧ e ≤ hi ∧ SameKey f l j d e := by
  rcases h with root | ⟨low, high⟩
  · exact ⟨lo, le_rfl, range, .inl root⟩
  · by_cases below : d < lo
    · exact ⟨lo, le_rfl, range, .inr (le_antisymm (pageKey_mono below.le) low)⟩
    · by_cases above : hi < d
      · exact ⟨hi, range, le_rfl, .inr (le_antisymm high (pageKey_mono above.le))⟩
      · exact ⟨d, by omega, by omega, .inr rfl⟩

theorem needPages_lt (levels : 1 ≤ l ∧ l ≤ 3) (narrow : hi < 2 ^ idBits f l) : needPages f l lo hi < 2 ^ 20 := by
  obtain ⟨one, three⟩ := levels
  interval_cases l <;> cases f <;> simp [needPages, ddi0Bits, idBits] at narrow ⊢ <;> omega

/-! The pages in use while the directory is built. -/

/-- The pages with `j` levels of links below them that the devices from `lo` up to and without `n` have. -/
def pagesBefore (f : DcFmt) (lo j n : Nat) : Nat := if n = lo then 0 else pageKey f j (n - 1) - pageKey f j lo + 1

/-- The pages in use when the devices before `n` are done and device `n` has its pages with `i` or more levels of links
below them. -/
def pagesUsed (f : DcFmt) (l lo n i : Nat) : Nat :=
  1 + ∑ j ∈ Finset.range (l - 1), pagesBefore f lo j (if i ≤ j then n + 1 else n)

theorem pagesUsed_start : pagesUsed f l lo lo (l - 1) = 1 := by
  have none : ∀ j ∈ Finset.range (l - 1), pagesBefore f lo j (if l - 1 ≤ j then lo + 1 else lo) = 0 := fun j hj => by
    rw [if_neg (by have := Finset.mem_range.1 hj; omega), pagesBefore, if_pos rfl]
  rw [pagesUsed, Finset.sum_eq_zero none, Nat.add_zero]

theorem pagesUsed_next (n : Nat) : pagesUsed f l lo n 0 = pagesUsed f l lo (n + 1) (l - 1) := by
  have same : ∀ j ∈ Finset.range (l - 1), pagesBefore f lo j (if 0 ≤ j then n + 1 else n) =
      pagesBefore f lo j (if l - 1 ≤ j then n + 1 + 1 else n + 1) := fun j hj => by
    rw [if_pos (Nat.zero_le j), if_neg (by have := Finset.mem_range.1 hj; omega)]
  rw [pagesUsed, pagesUsed, Finset.sum_congr rfl same]

/-- A device that shares its page with the one before takes none. -/
theorem pagesUsed_old {n : Nat} (hj : j + 1 < l) (hl : l ≤ 3) (more : lo < n)
    (key : pageKey f j (n - 1) = pageKey f j n) : pagesUsed f l lo n j = pagesUsed f l lo n (j + 1) := by
  obtain ⟨rfl, rfl⟩ | ⟨rfl, rfl⟩ | ⟨rfl, rfl⟩ : j = 0 ∧ l = 2 ∨ j = 0 ∧ l = 3 ∨ j = 1 ∧ l = 3 := by omega
  all_goals
    simp [pagesUsed, Finset.sum_range_succ, pagesBefore, key, (show n ≠ lo by omega), (show n + 1 ≠ lo by omega)]

/-- Another device takes the next page. -/
theorem pagesUsed_new {n : Nat} (hj : j + 1 < l) (hl : l ≤ 3) (low : lo ≤ n)
    (key : lo < n → pageKey f j (n - 1) ≠ pageKey f j n) : directoryNum f l lo j n = pagesUsed f l lo n (j + 1) ∧
      pagesUsed f l lo n j = pagesUsed f l lo n (j + 1) + 1 := by
  obtain ⟨rfl, rfl⟩ | ⟨rfl, rfl⟩ | ⟨rfl, rfl⟩ : j = 0 ∧ l = 2 ∨ j = 0 ∧ l = 3 ∨ j = 1 ∧ l = 3 := by omega
  all_goals
    rcases Nat.eq_or_lt_of_le low with rfl | more
    · cases f <;> simp [pagesUsed, Finset.sum_range_succ, pagesBefore, directoryNum, pageKey, ddi0Bits] <;> omega
    · have key := key more
      cases f <;> simp [pagesUsed, Finset.sum_range_succ, pagesBefore, directoryNum, pageKey, ddi0Bits,
        (show n ≠ lo by omega), (show n + 1 ≠ lo by omega)] at key ⊢ <;> omega

end

/-! The addresses. -/

/-- A directory of `l` levels for the devices from `lo` to `hi` that fits its region (R8, R290, R294). -/
structure DirectoryPlan (c : Config) (l lo hi : Nat) : Prop where
  levels : 1 ≤ l ∧ l ≤ 3
  range : lo ≤ hi
  ids : hi < 2 ^ idBits c.dcFmt l
  room : 1 + needPages c.dcFmt l lo hi ≤ c.ddtPages
  base : c.ddtBase.toNat % 4096 = 0
  fits : c.ddtBase.toNat + 4096 * c.ddtPages ≤ 2 ^ 56
  window : overlaps c.iommuBase.toNat 4096 c.ddtBase.toNat (4096 * c.ddtPages) = false

/-- The directory page of device `d` with `j` levels of links below it. -/
def directoryPageAt (c : Config) (l lo j d : Nat) : Nat := c.ddtBase.toNat + 4096 * directoryNum c.dcFmt l lo j d

/-- The link that leads device `d` to its page with `j` levels of links below it. -/
def linkAt (c : Config) (l lo j d : Nat) : Nat := directoryPageAt c l lo (j + 1) d + 8 * ddi c.dcFmt d (j + 1)

/-- The context of device `d`. -/
def contextAt (c : Config) (l lo d : Nat) : Nat := directoryPageAt c l lo 0 d + dcBytes c.dcFmt * ddi c.dcFmt d 0

/-- The address of a doubleword of the directory's region. -/
structure InDirectory (c : Config) (a : Nat) : Prop where
  aligned : a % 8 = 0
  low : c.ddtBase.toNat ≤ a
  high : a + 8 ≤ c.ddtBase.toNat + 4096 * c.ddtPages

theorem dcBytes_words (f : DcFmt) : dcBytes f = 8 * (dcBytes f / 8) := by cases f <;> rfl

section
variable {c : Config} {l lo hi j j' d d' k k' : Nat} (plan : DirectoryPlan c l lo hi)

theorem linkAt_congr (hj : j + 1 < l) (hl : l ≤ 3) (key : pageKey c.dcFmt j d = pageKey c.dcFmt j d') :
    linkAt c l lo j d = linkAt c l lo j d' := by
  have page : SameKey c.dcFmt l (j + 1) d d' := SameKey.succ (by omega) (.inr key)
  rw [linkAt, linkAt, directoryPageAt, directoryPageAt, ddi_congr (by omega) key]
  by_cases root : l ≤ j + 2
  · rw [directoryNum, directoryNum, if_pos (by omega), if_pos (by omega)]
  · rw [directoryNum_congr page (by omega)]

include plan

theorem directoryPageAt_mem (hj : j < l) (h : Shared c.dcFmt l lo hi j d) :
    directoryPageAt c l lo j d % 4096 = 0 ∧ c.ddtBase.toNat ≤ directoryPageAt c l lo j d ∧
      directoryPageAt c l lo j d + 4096 ≤ c.ddtBase.toNat + 4096 * c.ddtPages := by
  have base := plan.base
  have room := plan.room
  have number := directoryNum_lt plan.levels plan.range hj h
  rw [directoryPageAt]
  omega

theorem linkAt_mem (hj : j + 1 < l) (h : Shared c.dcFmt l lo hi (j + 1) d) : InDirectory c (linkAt c l lo j d) := by
  obtain ⟨aligned, low, high⟩ := directoryPageAt_mem plan hj h
  have index := ddi_succ_lt (f := c.dcFmt) (d := d) (j := j)
  constructor <;> rw [linkAt] <;> omega

theorem contextAt_mem (h : Shared c.dcFmt l lo hi 0 d) (hk : k < dcBytes c.dcFmt / 8) :
    InDirectory c (contextAt c l lo d + 8 * k) := by
  obtain ⟨one, -⟩ := plan.levels
  obtain ⟨aligned, low, high⟩ := directoryPageAt_mem plan one h
  have index := dcBytes_ddi (f := c.dcFmt) (d := d)
  have words : dcBytes c.dcFmt * ddi c.dcFmt d 0 = 8 * (dcBytes c.dcFmt / 8 * ddi c.dcFmt d 0) := by
    rw [← Nat.mul_assoc, ← dcBytes_words]
  have size := dcBytes_words c.dcFmt
  constructor <;> rw [contextAt] <;> omega

/-- Two addresses inside two pages of the directory are equal only in one page. -/
theorem directoryPageAt_inj {o o' : Nat} (hj : j < l) (hj' : j' < l) (h : Shared c.dcFmt l lo hi j d)
    (h' : Shared c.dcFmt l lo hi j' d') (ho : o < 4096) (ho' : o' < 4096)
    (e : directoryPageAt c l lo j d + o = directoryPageAt c l lo j' d' + o') :
    j = j' ∧ SameKey c.dcFmt l j d d' ∧ o = o' := by
  rw [directoryPageAt, directoryPageAt] at e
  obtain ⟨rfl, key⟩ := directoryNum_inj plan.levels hj hj' h h' (by omega)
  refine ⟨rfl, key, ?_⟩
  have number : directoryNum c.dcFmt l lo j d = directoryNum c.dcFmt l lo j d' := by omega
  omega

/-- A link has one place, and one page below it. -/
theorem linkAt_inj (hj : j + 1 < l) (hj' : j' + 1 < l) (h : Shared c.dcFmt l lo hi (j + 1) d)
    (h' : Shared c.dcFmt l lo hi (j' + 1) d') (narrow : d < 2 ^ idBits c.dcFmt l) (narrow' : d' < 2 ^ idBits c.dcFmt l)
    (e : linkAt c l lo j d = linkAt c l lo j' d') : j = j' ∧ pageKey c.dcFmt j d = pageKey c.dcFmt j d' := by
  have index := ddi_succ_lt (f := c.dcFmt) (d := d) (j := j)
  have index' := ddi_succ_lt (f := c.dcFmt) (d := d') (j := j')
  obtain ⟨level, key, offset⟩ := directoryPageAt_inj plan hj hj' h h' (by omega) (by omega) e
  obtain rfl : j = j' := by omega
  exact ⟨rfl, sameKey_of_ddi plan.levels.2 hj narrow narrow' key (by omega)⟩

/-- A word of a context is in one context only. -/
theorem contextAt_inj (h : Shared c.dcFmt l lo hi 0 d) (h' : Shared c.dcFmt l lo hi 0 d')
    (narrow : d < 2 ^ idBits c.dcFmt l) (narrow' : d' < 2 ^ idBits c.dcFmt l) (hk : k < dcBytes c.dcFmt / 8)
    (hk' : k' < dcBytes c.dcFmt / 8) (e : contextAt c l lo d + 8 * k = contextAt c l lo d' + 8 * k') :
    d = d' ∧ k = k' := by
  have index := dcBytes_ddi (f := c.dcFmt) (d := d)
  have index' := dcBytes_ddi (f := c.dcFmt) (d := d')
  have size := dcBytes_words c.dcFmt
  rw [contextAt, contextAt, Nat.add_assoc, Nat.add_assoc] at e
  obtain ⟨-, key, offset⟩ := directoryPageAt_inj plan plan.levels.1 plan.levels.1 h h' (by omega) (by omega) e
  have same : ddi c.dcFmt d 0 = ddi c.dcFmt d' 0 ∧ k = k' := by
    cases hf : c.dcFmt <;> simp only [hf, dcBytes] at offset hk hk' ⊢ <;> omega
  exact ⟨eq_of_ddi plan.levels narrow narrow' key same.1, same.2⟩

/-- No word of a context is a link. -/
theorem linkAt_ne_contextAt (hj : j + 1 < l) (h : Shared c.dcFmt l lo hi (j + 1) d) (h' : Shared c.dcFmt l lo hi 0 d')
    (hk : k < dcBytes c.dcFmt / 8) : linkAt c l lo j d ≠ contextAt c l lo d' + 8 * k := fun e => by
  have index := ddi_succ_lt (f := c.dcFmt) (d := d) (j := j)
  have index' := dcBytes_ddi (f := c.dcFmt) (d := d')
  have size := dcBytes_words c.dcFmt
  rw [contextAt, Nat.add_assoc] at e
  have := (directoryPageAt_inj plan hj plan.levels.1 h h' (by omega) (by omega) e).1
  omega

/-- The IOMMU reaches every doubleword of the directory, and every context. -/
theorem accessible_of_mem {a n : Nat} (low : c.ddtBase.toNat ≤ a)
    (high : a + n ≤ c.ddtBase.toNat + 4096 * c.ddtPages) : accessible c a n = true := by
  have fits := plan.fits
  have window := plan.window
  have room := plan.room
  rw [overlaps_eq_false] at window
  rw [accessible, Bool.and_eq_true, decide_eq_true_eq, Bool.not_eq_true', overlaps_eq_false, paLimit]
  omega

end

end Sys2Proof.Machine
end

section
/-! SUPPORT. DDT.REBUILD's stores, when no other agent moves (R293, R296, R300): what its region holds while the links
and the contexts are written and published. -/

namespace Sys2Proof.Machine

theorem load64_store64_aligned (m : Memory) {a b : Nat} (v : Word) (ha : a % 8 = 0) (hb : b % 8 = 0) :
    (m.store64 a v).load64 b = if b = a then v else m.load64 b := by
  split
  · next same => rw [same, Memory.load64_store64_same]
  · exact Memory.load64_store64_other _ _ _ _ (by omega)

/-- A run of DDT.REBUILD between its first FENCE and its end: the block has `b`'s registers but for the pages in use;
what it sees of its region the IOMMU will see. -/
structure Building (c : Config) (b : BlockRegs) (u : State) : Prop where
  calm : u.weave = []
  unseen : u.unseen = []
  cfg : u.cfg = c
  blk : u.blk = { b with ddtNext := u.blk.ddtNext }
  io : ∀ a, InDirectory c a → (drainAll u.memIo u.pend).load64 a = u.wordBlk a

section
variable {c : Config} {b : BlockRegs} {l lo hi : Nat} {u : State} {linked written : Nat → Nat → Prop}

theorem stored_wordBlk {a e : Nat} (v : Word) (ha : a % 8 = 0) (he : e % 8 = 0) :
    (u.stored [⟨e, v⟩]).wordBlk a = if a = e then v else u.wordBlk a := load64_store64_aligned _ _ he ha

theorem Building.stored (h : Building c b u) {e : Nat} (v : Word) (he : InDirectory c e) :
    Building c b (u.stored [⟨e, v⟩]) where
  calm := h.calm
  unseen := h.unseen
  cfg := h.cfg
  blk := h.blk
  io a ha := by
    have append : drainAll u.memIo (u.pend ++ [⟨e, v⟩]) = (drainAll u.memIo u.pend).store64 e v := drainAll_append ..
    rw [stored_wordBlk v ha.aligned he.aligned, ← h.io a ha]
    exact (congrArg (·.load64 a) append).trans (load64_store64_aligned _ _ he.aligned ha.aligned)

theorem Building.setNext (h : Building c b u) (n : BitVec 32) :
    Building c b (u.setBlk fun b => { b with ddtNext := n }) where
  calm := h.calm
  unseen := h.unseen
  cfg := h.cfg
  blk := by
    change { u.blk with ddtNext := n } = { b with ddtNext := n }
    rw [h.blk]
  io := h.io

theorem Building.fence_eq (h : Building c b u) :
    fence u = { u with memIo := drainAll u.memIo u.pend, pend := [] } := by
  rw [fence_calm h.calm, h.unseen]
  rfl

theorem Building.fence (h : Building c b u) : Building c b (fence u) := by
  rw [h.fence_eq]
  exact ⟨h.calm, h.unseen, h.cfg, h.blk, h.io⟩

/-- The link to a directory page (R126, R293). -/
def directoryLink (c : Config) (l lo j d : Nat) : Word := nonleafPte (BitVec.ofNat 64 (directoryPageAt c l lo j d))

/-- A context's words, tc first (R293). -/
def contextWord (c : Config) (b : BlockRegs) (k : Nat) : Word := (tcWord b :: contextWords c b).getD k 0

/-- The region holds the links `linked` to pages, by level and device, and the words `written` of contexts, by device
and number, and nothing else. -/
structure Built (c : Config) (b : BlockRegs) (l lo hi : Nat) (linked written : Nat → Nat → Prop) (u : State) : Prop
    extends Building c b u where
  links : ∀ j d, j + 1 < l → lo ≤ d → d ≤ hi → linked j d → u.wordBlk (linkAt c l lo j d) = directoryLink c l lo j d
  words : ∀ d k, lo ≤ d → d ≤ hi → k < dcBytes c.dcFmt / 8 → written d k →
    u.wordBlk (contextAt c l lo d + 8 * k) = contextWord c b k
  empty : ∀ a, InDirectory c a → (∀ j d, j + 1 < l → lo ≤ d → d ≤ hi → linked j d → a ≠ linkAt c l lo j d) →
    (∀ d k, lo ≤ d → d ≤ hi → k < dcBytes c.dcFmt / 8 → written d k → a ≠ contextAt c l lo d + 8 * k) →
    u.wordBlk a = 0

theorem Built.congr {linked' written' : Nat → Nat → Prop} (h : Built c b l lo hi linked written u)
    (hl : ∀ j d, j + 1 < l → lo ≤ d → d ≤ hi → (linked' j d ↔ linked j d))
    (hw : ∀ d k, lo ≤ d → d ≤ hi → k < dcBytes c.dcFmt / 8 → (written' d k ↔ written d k)) :
    Built c b l lo hi linked' written' u where
  toBuilding := h.toBuilding
  links j d hj low high new := h.links j d hj low high ((hl j d hj low high).1 new)
  words d k low high hk new := h.words d k low high hk ((hw d k low high hk).1 new)
  empty a ha noLink noWord := h.empty a ha
    (fun j d hj low high old => noLink j d hj low high ((hl j d hj low high).2 old))
    (fun d k low high hk old => noWord d k low high hk ((hw d k low high hk).2 old))

theorem Built.setNext (h : Built c b l lo hi linked written u) (n : BitVec 32) :
    Built c b l lo hi linked written (u.setBlk fun b => { b with ddtNext := n }) :=
  ⟨h.toBuilding.setNext n, h.links, h.words, h.empty⟩

theorem Built.fence (h : Built c b l lo hi linked written u) : Built c b l lo hi linked written (fence u) := by
  have building := h.toBuilding.fence
  rw [h.fence_eq] at building ⊢
  exact ⟨building, h.links, h.words, h.empty⟩

variable (plan : DirectoryPlan c l lo hi)
include plan

omit plan in
theorem DirectoryPlan.narrow (plan : DirectoryPlan c l lo hi) {d : Nat} (high : d ≤ hi) : d < 2 ^ idBits c.dcFmt l :=
  high.trans_lt plan.ids

/-- A link is stored. -/
theorem Built.link {j d : Nat} (h : Built c b l lo hi linked written u) (hj : j + 1 < l) (low : lo ≤ d)
    (high : d ≤ hi) : Built c b l lo hi (fun j' d' => linked j' d' ∨ (j' = j ∧ d' = d)) written
      (u.stored [⟨linkAt c l lo j d, directoryLink c l lo j d⟩]) := by
  have here := linkAt_mem plan hj (shared_of_range low high)
  refine ⟨h.toBuilding.stored _ here, fun j' d' hj' low' high' old => ?_, fun d' k low' high' hk old => ?_,
    fun a ha noLink noWord => ?_⟩
  · have there := linkAt_mem plan hj' (shared_of_range low' high')
    rw [stored_wordBlk _ there.aligned here.aligned]
    split
    · next same =>
      obtain ⟨rfl, key⟩ := linkAt_inj plan hj' hj (shared_of_range low' high') (shared_of_range low high)
        (plan.narrow high') (plan.narrow high) same
      have three := plan.levels.2
      rw [directoryLink, directoryLink, directoryPageAt, directoryPageAt, directoryNum_congr (.inr key) (by omega)]
    · next ne =>
      rcases old with old | ⟨rfl, rfl⟩
      · exact h.links j' d' hj' low' high' old
      · exact absurd rfl ne
  · have there := contextAt_mem plan (shared_of_range low' high') hk
    rw [stored_wordBlk _ there.aligned here.aligned, if_neg fun same =>
      linkAt_ne_contextAt plan hj (shared_of_range low high) (shared_of_range low' high') hk same.symm]
    exact h.words d' k low' high' hk old
  · rw [stored_wordBlk _ ha.aligned here.aligned, if_neg (noLink j d hj low high (.inr ⟨rfl, rfl⟩))]
    exact h.empty a ha (fun j' d' hj' low' high' old => noLink j' d' hj' low' high' (.inl old)) noWord

/-- A word of a context is stored. -/
theorem Built.word {k d : Nat} (h : Built c b l lo hi linked written u) (hk : k < dcBytes c.dcFmt / 8) (low : lo ≤ d)
    (high : d ≤ hi) : Built c b l lo hi linked (fun d' k' => written d' k' ∨ (d' = d ∧ k' = k))
      (u.stored [⟨contextAt c l lo d + 8 * k, contextWord c b k⟩]) := by
  have here := contextAt_mem plan (shared_of_range low high) hk
  refine ⟨h.toBuilding.stored _ here, fun j' d' hj' low' high' old => ?_, fun d' k' low' high' hk' old => ?_,
    fun a ha noLink noWord => ?_⟩
  · have there := linkAt_mem plan hj' (shared_of_range low' high')
    rw [stored_wordBlk _ there.aligned here.aligned,
      if_neg (linkAt_ne_contextAt plan hj' (shared_of_range low' high') (shared_of_range low high) hk)]
    exact h.links j' d' hj' low' high' old
  · have there := contextAt_mem plan (shared_of_range low' high') hk'
    rw [stored_wordBlk _ there.aligned here.aligned]
    split
    · next same =>
      obtain ⟨-, rfl⟩ := contextAt_inj plan (shared_of_range low' high') (shared_of_range low high) (plan.narrow high')
        (plan.narrow high) hk' hk same
      rfl
    · next ne =>
      rcases old with old | ⟨rfl, rfl⟩
      · exact h.words d' k' low' high' hk' old
      · exact absurd rfl ne
  · rw [stored_wordBlk _ ha.aligned here.aligned, if_neg (noWord d k low high hk (.inr ⟨rfl, rfl⟩))]
    exact h.empty a ha noLink fun d' k' low' high' hk' old => noWord d' k' low' high' hk' (.inl old)

/-! Links and contexts, device by device. -/

/-- The links of the devices before `n`, and those of `n` to pages with `i` or more levels of links below them. -/
def LinksOf (n i j d : Nat) : Prop := d < n ∨ (d = n ∧ i ≤ j)

/-- The words of the contexts of the devices before `n`, but for tc. -/
def FieldsOf (n d k : Nat) : Prop := d < n ∧ 1 ≤ k

/-- The page below a link, from the link. -/
theorem directoryLink_target {j d : Nat} (hj : j < l) (h : Shared c.dcFmt l lo hi j d) :
    (directoryLink c l lo j d).toNat = directoryPageAt c l lo j d / 4096 * 1024 + 1 ∧
      (fieldPa (directoryLink c l lo j d)).toNat = directoryPageAt c l lo j d := by
  obtain ⟨page, -, high⟩ := directoryPageAt_mem plan hj h
  have fits := plan.fits
  have number : (BitVec.ofNat 64 (directoryPageAt c l lo j d)).toNat = directoryPageAt c l lo j d := by
    rw [BitVec.toNat_ofNat, Nat.mod_eq_of_lt (by omega)]
  rw [directoryLink, toNat_nonleafPte (by omega), fieldPa_nonleafPte (by omega) (by omega), number]
  exact ⟨rfl, rfl⟩

omit plan in
/-- A link that is there already. -/
theorem Built.known {j d : Nat} (h : Built c b l lo hi linked written u)
    (found : u.wordBlk (linkAt c l lo j d) = directoryLink c l lo j d) :
    Built c b l lo hi (fun j' d' => linked j' d' ∨ (j' = j ∧ d' = d)) written u where
  toBuilding := h.toBuilding
  links j' d' hj' low' high' := by
    rintro (old | ⟨rfl, rfl⟩)
    · exact h.links j' d' hj' low' high' old
    · exact found
  words := h.words
  empty a ha noLink noWord :=
    h.empty a ha (fun j' d' hj' low' high' old => noLink j' d' hj' low' high' (.inl old)) noWord

omit plan in
theorem linksOf_succ {n i j d : Nat} : LinksOf n i j d ↔ LinksOf n (i + 1) j d ∨ (j = i ∧ d = n) := by
  unfold LinksOf
  omega

/-- A device that shares its page with the one before finds the link to it. -/
theorem Built.link_old {n i : Nat} (h : Built c b l lo hi (LinksOf n (i + 1)) written u) (more : lo < n) (high : n ≤ hi)
    (deep : i + 1 < l) (key : pageKey c.dcFmt i (n - 1) = pageKey c.dcFmt i n) :
    u.wordBlk (linkAt c l lo i n) = directoryLink c l lo i n := by
  have three := plan.levels.2
  have link := h.links i (n - 1) deep (by omega) (by omega) (.inl (by omega))
  rwa [linkAt_congr deep three key, directoryLink, directoryPageAt, directoryNum_congr (.inr key) (by omega)] at link

/-- Another device finds none. -/
theorem Built.link_new {n i : Nat} (h : Built c b l lo hi (LinksOf n (i + 1)) (FieldsOf n) u) (low : lo ≤ n)
    (high : n ≤ hi) (deep : i + 1 < l) (key : lo < n → pageKey c.dcFmt i (n - 1) ≠ pageKey c.dcFmt i n) :
    u.wordBlk (linkAt c l lo i n) = 0 := by
  refine h.empty _ (linkAt_mem plan deep (shared_of_range low high)) (fun j d hj low' high' linked same => ?_)
    fun d k low' high' hk _ => linkAt_ne_contextAt plan deep (shared_of_range low high) (shared_of_range low' high') hk
  obtain ⟨rfl, same⟩ := linkAt_inj plan deep hj (shared_of_range low high) (shared_of_range low' high')
    (plan.narrow high) (plan.narrow high') same
  rcases linked with before | ⟨-, level⟩
  · have some := key (by omega)
    have up := pageKey_mono (f := c.dcFmt) (j := i) (show d ≤ n - 1 by omega)
    have down := pageKey_mono (f := c.dcFmt) (j := i) (show n - 1 ≤ n by omega)
    omega
  · omega

omit plan in
theorem linkPage_calm {ea : Nat} {v : State} (calm : v.weave = []) : linkPage ea v =
    (v.cfg.ddtBase.toNat + 4096 * v.blk.ddtNext.toNat,
      (v.setBlk fun b => { b with ddtNext := v.blk.ddtNext + 1 }).stored
        [⟨ea, nonleafPte (BitVec.ofNat 64 (v.cfg.ddtBase.toNat + 4096 * v.blk.ddtNext.toNat))⟩]) := by
  simp only [linkPage]
  rw [memWrite_stored (by exact calm)]
  rfl

/-- The path of device `n` is there after its links are written. -/
theorem Built.linkPath {n i : Nat} (h : Built c b l lo hi (LinksOf n i) (FieldsOf n) u) (low : lo ≤ n) (high : n ≤ hi)
    (deep : i < l) (used : u.blk.ddtNext.toNat = pagesUsed c.dcFmt l lo n i) :
    (linkPath n i (directoryPageAt c l lo i n) u).1 = directoryPageAt c l lo 0 n ∧
      Built c b l lo hi (LinksOf n 0) (FieldsOf n) (Machine.linkPath n i (directoryPageAt c l lo i n) u).2 ∧
      (Machine.linkPath n i (directoryPageAt c l lo i n) u).2.blk.ddtNext.toNat = pagesUsed c.dcFmt l lo n 0 := by
  induction i generalizing u with
  | zero => exact ⟨rfl, h, used⟩
  | succ i ih =>
    obtain ⟨one, three⟩ := plan.levels
    have entry : directoryPageAt c l lo (i + 1) n + 8 * ddi c.dcFmt n (i + 1) = linkAt c l lo i n := rfl
    simp only [Machine.linkPath, memRead_calm h.calm, h.cfg, entry]
    by_cases old : lo < n ∧ pageKey c.dcFmt i (n - 1) = pageKey c.dcFmt i n
    · have found := h.link_old plan old.1 high deep old.2
      obtain ⟨number, target⟩ := directoryLink_target plan (by omega : i < l) (shared_of_range low high)
      have valid : (directoryLink c l lo i n).getLsbD 0 = true := by rw [valid_iff]; omega
      simp only [found, valid, target, Bool.not_true, Bool.false_eq_true, if_false]
      exact ih ((h.known found).congr (fun _ _ _ _ _ => linksOf_succ) fun _ _ _ _ _ => .rfl) (by omega)
        (used.trans (pagesUsed_old deep three old.1 old.2).symm)
    · have key (more : lo < n) (same : pageKey c.dcFmt i (n - 1) = pageKey c.dcFmt i n) := old ⟨more, same⟩
      have empty := h.link_new plan low high deep key
      obtain ⟨number, next⟩ := pagesUsed_new deep three low key
      have page : c.ddtBase.toNat + 4096 * u.blk.ddtNext.toNat = directoryPageAt c l lo i n := by
        rw [directoryPageAt, number, used]
      have bound := directoryNum_lt plan.levels plan.range (by omega : i < l) (shared_of_range (j := i) (f := c.dcFmt)
        low high)
      have few := needPages_lt (lo := lo) plan.levels plan.ids
      have invalid : (0 : Word).getLsbD 0 = false := rfl
      simp only [empty, invalid, Bool.not_false, if_true, linkPage_calm h.calm, h.cfg, page]
      refine ih (((h.setNext _).link plan deep low high).congr (fun _ _ _ _ _ => linksOf_succ) fun _ _ _ _ _ => .rfl)
        (by omega) ?_
      change (u.blk.ddtNext + 1).toNat = _
      rw [BitVec.toNat_add, show (1 : BitVec 32).toNat = 1 from rfl]
      omega

/-- The words of a context are stored from number `k` on. -/
theorem Built.writeWords {n k : Nat} {ws : List Word} (h : Built c b l lo hi linked written u) (low : lo ≤ n)
    (high : n ≤ hi) (fit : k + ws.length ≤ dcBytes c.dcFmt / 8) (same : ∀ i, ws.getD i 0 = contextWord c b (k + i)) :
    Built c b l lo hi linked (fun d i => written d i ∨ (d = n ∧ k ≤ i ∧ i < k + ws.length))
      (writeWords ws (contextAt c l lo n + 8 * k) u) := by
  induction ws generalizing k u written with
  | nil =>
    refine h.congr (fun _ _ _ _ _ => .rfl) fun d i _ _ _ => or_iff_left fun ⟨_, low, high⟩ => ?_
    rw [List.length_nil] at high
    omega
  | cons w ws ih =>
    have first : w = contextWord c b k := same 0
    rw [Machine.writeWords, memWrite_stored h.calm, first, Nat.add_assoc, ← Nat.mul_succ]
    rw [List.length_cons] at fit
    refine (ih (h.word plan (by omega) low high) (by omega) fun i => ?_).congr (fun _ _ _ _ _ => .rfl)
      fun d i _ _ _ => ?_
    · have later := same (i + 1)
      rw [List.getD_cons_succ] at later
      rw [later, Nat.succ_add, Nat.add_succ]
    · rw [or_assoc, List.length_cons]
      refine or_congr_right ?_
      omega

omit plan in
theorem writeWords_blk {ws : List Word} {a : Nat} {v : State} (calm : v.weave = []) :
    (writeWords ws a v).blk = v.blk := by
  induction ws generalizing a v with
  | nil => rfl
  | cons w ws ih =>
    rw [Machine.writeWords, memWrite_stored calm]
    exact ih calm

omit plan in
theorem contextWords_length (c : Config) (b : BlockRegs) : (contextWords c b).length + 1 = dcBytes c.dcFmt / 8 := by
  cases hf : c.dcFmt <;> simp [contextWords, dcBytes, hf]

omit plan in
/-- The contexts' words depend on no register that DDT.REBUILD changes before its end. -/
theorem Building.contextWords (h : Building c b u) : contextWords c u.blk = contextWords c b := by
  rw [h.blk]
  rfl

/-- All links, and all words but tc, of the devices from `n` on. -/
theorem Built.buildContexts {n r : Nat} (h : Built c b l lo hi (LinksOf n (l - 1)) (FieldsOf n) u) (low : lo ≤ n)
    (todo : n + r = hi + 1) (used : u.blk.ddtNext.toNat = pagesUsed c.dcFmt l lo n (l - 1)) :
    Built c b l lo hi (LinksOf (hi + 1) (l - 1)) (FieldsOf (hi + 1)) (buildContexts l r n u) := by
  induction r generalizing n u with
  | zero =>
    obtain rfl : n = hi + 1 := todo
    exact h
  | succ r ih =>
    obtain ⟨one, three⟩ := plan.levels
    have root : directoryPageAt c l lo (l - 1) n = c.ddtBase.toNat := by
      rw [directoryPageAt, directoryNum, if_pos (by omega)]
      rfl
    obtain ⟨page, path, next⟩ := h.linkPath plan low (by omega) (by omega) used
    rw [root] at page path next
    have length := contextWords_length c b
    have filled := path.writeWords plan (n := n) (k := 1) (ws := contextWords c b) low (by omega) (by omega) fun i => by
      rw [contextWord, Nat.add_comm, List.getD_cons_succ]
    rw [Machine.buildContexts]
    simp only [h.cfg, page, path.toBuilding.contextWords, path.cfg]
    refine ih (filled.congr (fun j d hj _ _ => ?_) fun d k _ _ hk => ?_) (by omega) (by omega) ?_
    · unfold LinksOf
      omega
    · unfold FieldsOf
      omega
    · rw [writeWords_blk path.calm, next, pagesUsed_next]

end

end Sys2Proof.Machine
end

section
/-! SUPPORT. DDT.REBUILD in full (R296, R300), when it is not refused and the environment is at rest: its region, once
drained, is a directory. -/

namespace Sys2Proof.Machine

/-- All words of the contexts of the devices before `n`, and all but tc of the others. -/
def PublishedTo (n d k : Nat) : Prop := 1 ≤ k ∨ d < n

section
variable {c : Config} {b : BlockRegs} {l lo hi : Nat} {u : State} {written : Nat → Nat → Prop}

theorem Building.tcWord (h : Building c b u) : tcWord u.blk = tcWord b := by
  rw [h.blk]
  rfl

section
variable (plan : DirectoryPlan c l lo hi)
include plan

/-- The block's walk of the directory it built ends at the context. -/
theorem Built.dcWalk {d j : Nat} (h : Built c b l lo hi (LinksOf (hi + 1) (l - 1)) written u) (low : lo ≤ d)
    (high : d ≤ hi) (hj : j < l) :
    dcWalk c.dcFmt d j (directoryPageAt c l lo j d) u = (.ok (contextAt c l lo d), u) := by
  induction j with
  | zero => rfl
  | succ j ih =>
    have link := h.links j d hj low high (.inl (by omega))
    obtain ⟨number, target⟩ := directoryLink_target plan (by omega : j < l) (shared_of_range low high)
    have valid : (directoryLink c l lo j d).getLsbD 0 = true := by rw [valid_iff]; omega
    have entry : directoryPageAt c l lo (j + 1) d + 8 * ddi c.dcFmt d (j + 1) = linkAt c l lo j d := rfl
    simp only [Machine.dcWalk, memRead_calm h.calm, entry, link, valid, target, Bool.not_true, Bool.false_eq_true,
      if_false]
    exact ih (by omega)

/-- The contexts from device `n` on are published. -/
theorem Built.overContexts {n r : Nat} (levels : b.ddtLvls.toNat = l)
    (h : Built c b l lo hi (LinksOf (hi + 1) (l - 1)) (PublishedTo n) u) (low : lo ≤ n) (todo : n + r = hi + 1) :
    ∃ v, overContexts (fun a s => memWrite a (Machine.tcWord s.blk) s) r n u = some v ∧
      Built c b l lo hi (LinksOf (hi + 1) (l - 1)) (PublishedTo (hi + 1)) v := by
  induction r generalizing n u with
  | zero =>
    obtain rfl : n = hi + 1 := todo
    exact ⟨u, rfl, h⟩
  | succ r ih =>
    obtain ⟨one, three⟩ := plan.levels
    have root : directoryPageAt c l lo (l - 1) n = c.ddtBase.toNat := by
      rw [directoryPageAt, directoryNum, if_pos (by omega)]
      rfl
    have lvls : u.blk.ddtLvls.toNat = l := by
      rw [h.blk]
      exact levels
    have found := h.dcWalk plan low (by omega) (by omega : l - 1 < l)
    rw [root] at found
    have words : 0 < dcBytes c.dcFmt / 8 := by cases c.dcFmt <;> decide
    have next := h.word plan words low (by omega)
    simp only [Machine.overContexts, dcAddr, h.cfg, lvls, found, memWrite_stored h.calm, h.tcWord]
    refine ih (next.congr (fun _ _ _ _ _ => .rfl) fun d k _ _ _ => ?_) (by omega) (by omega)
    unfold PublishedTo
    omega

end

/-- DDT.REBUILD's region zeroed, and drained (R296). -/
def State.cleared (s : State) : State := fence (s.stored (zeros (512 * s.cfg.ddtPages) s.cfg.ddtBase.toNat))

theorem cleared_words {s : State} (calm : s.weave = []) {a : Nat} (ha : InDirectory s.cfg a) :
    s.cleared.wordBlk a = 0 ∧ s.cleared.wordIo a = 0 := by
  have zero (i : Nat) (hi : within a 8 i) : s.cleared.readBlk i = 0 ∧ s.cleared.readIo i = 0 := by
    refine fence_stored_written calm fun m => drainAll_zeros_read m ?_
    obtain ⟨-, low, high⟩ := ha
    simp only [within] at hi ⊢
    omega
  exact ⟨load64_eq_zero fun i hi => (zero i hi).1, load64_eq_zero fun i hi => (zero i hi).2⟩

/-- Before its first device the directory is empty. -/
theorem built_cleared {s : State} (calm : s.weave = []) (lv : BitVec 2) :
    Built s.cfg { s.blk with ddtLvls := lv } l lo hi (LinksOf lo (l - 1)) (FieldsOf lo)
      (s.cleared.setBlk fun b => { b with ddtNext := 1, ddtLvls := lv }) where
  calm := by rw [State.cleared, fence_stored calm]; exact calm
  unseen := by rw [State.cleared, fence_stored calm]; rfl
  cfg := by rw [State.cleared, fence_stored calm]; rfl
  blk := by rw [State.cleared, fence_stored calm]; rfl
  io a ha := by
    obtain ⟨block, io⟩ := cleared_words calm ha
    have drained : s.cleared.pend = [] := by rw [State.cleared, fence_stored calm]
    change (drainAll s.cleared.memIo s.cleared.pend).load64 a = s.cleared.wordBlk a
    rw [drained, block]
    exact io
  links j d hj low high linked := by unfold LinksOf at linked; omega
  words d k low high hk filled := by unfold FieldsOf at filled; omega
  empty a ha _ _ := (cleared_words calm ha).1

theorem wellPlaced_ddt {s : State} (h : wellPlaced s = true) : s.cfg.ddtBase.toNat % 4096 = 0 ∧
    s.cfg.ddtBase.toNat + 4096 * s.cfg.ddtPages ≤ 2 ^ 56 ∧
      overlaps s.cfg.iommuBase.toNat 4096 s.cfg.ddtBase.toNat (4096 * s.cfg.ddtPages) = false := by
  obtain ⟨params, fits, apart⟩ := of_decide_eq_true h
  obtain ⟨-, -, -, -, -, base, -⟩ := of_decide_eq_true params
  have window : overlaps (registerWindow s.cfg).addr (registerWindow s.cfg).size s.cfg.ddtBase.toNat
      (4096 * s.cfg.ddtPages) = false := by
    simp only [disjointAll, Bool.and_eq_true, Bool.not_eq_true', meetsAny, blockRegions, List.any_cons,
      Bool.or_eq_false_iff] at apart
    exact apart.1.2.1
  exact ⟨aligned_eq_true.1 base, fits ⟨s.cfg.ddtBase.toNat, 4096 * s.cfg.ddtPages⟩ (by simp [blockRegions]), window⟩

/-- The MSI table's first page is a page of physical memory. -/
theorem wellPlaced_msi {s : State} (h : wellPlaced s = true) :
    s.cfg.msiBase.toNat % 4096 = 0 ∧ s.cfg.msiBase.toNat < 2 ^ 56 := by
  obtain ⟨params, fits, -⟩ := of_decide_eq_true h
  obtain ⟨-, -, -, -, -, -, -, pages, base, -⟩ := of_decide_eq_true params
  have some : 1 ≤ s.cfg.msiPages := by
    simp only [List.mem_cons, List.not_mem_nil, or_false] at pages
    omega
  have high := fits ⟨s.cfg.msiBase.toNat, 4096 * s.cfg.msiPages⟩ (by simp [blockRegions])
  refine ⟨Nat.mod_eq_zero_of_dvd ((Dvd.intro_left _ rfl).trans (Nat.dvd_of_mod_eq_zero base)), ?_⟩
  simp only [paLimit] at high
  omega

/-- A DDT.REBUILD that is not refused: its region as the block sees it, and as the IOMMU will. -/
theorem exec_ddtRebuild_ok {lv : BitVec 2} {a0 a1 : Word} {s t : State} (rest : s.settled = true)
    (placed : wellPlaced s = true) (e : exec (.ddtRebuild lv a0 a1) s = .next t) (ok : t.res.status = Status.ok.code) :
    DirectoryPlan s.cfg lv.toNat a0.toNat a1.toNat ∧
      ∃ v, Built s.cfg { s.blk with ddtLvls := lv } lv.toNat a0.toNat a1.toNat (LinksOf (a1.toNat + 1) (lv.toNat - 1))
          (PublishedTo (a1.toNat + 1)) v ∧ t.weave = [] ∧ t.cfg = s.cfg ∧ t.memIo = v.memIo ∧ t.pend = v.pend := by
  obtain ⟨calm, -⟩ := (settled_iff s).1 rest
  obtain ⟨base, fits, window⟩ := wellPlaced_ddt placed
  change execDdtRebuild lv a0 a1 s = _ at e
  simp only [execDdtRebuild, mmioRead_calm calm, quiesce_settled rest] at e
  split_ifs at e with code order room mode
  iterate 4 exact absurd ok (raise_not_ok (by decide) e)
  have order : a0.toNat ≤ a1.toNat ∧ a1.toNat < 2 ^ limBits s.cfg lv.toNat := by
    simp only [Bool.or_eq_true, decide_eq_true_eq] at order
    omega
  have levels : 1 ≤ lv.toNat := Nat.pos_of_ne_zero fun zero => code (BitVec.toNat_inj.1 zero)
  have width := lv.isLt
  have ids : a1.toNat < 2 ^ idBits s.cfg.dcFmt lv.toNat :=
    order.2.trans_le (Nat.pow_le_pow_right (by omega) (Nat.min_le_right _ _))
  have plan : DirectoryPlan s.cfg lv.toNat a0.toNat a1.toNat :=
    ⟨⟨levels, by omega⟩, order.1, ids, by omega, base, fits, window⟩
  have built := ((built_cleared calm lv).buildContexts plan (r := a1.toNat - a0.toNat + 1) le_rfl (by omega)
    pagesUsed_start.symm).fence
  have drained := built.congr (written' := PublishedTo a0.toNat) (fun _ _ _ _ _ => .rfl) fun d k low high hk => by
    unfold PublishedTo FieldsOf
    omega
  obtain ⟨v, run, final⟩ := drained.overContexts plan rfl le_rfl (r := a1.toNat - a0.toNat + 1) (by omega)
  rw [zeroFill_stored calm] at e
  change (match overContexts _ _ _ (fence (Machine.buildContexts _ _ _ (s.cleared.setBlk _))) with
    | none => _ | some v => _) = _ at e
  rw [run] at e
  cases e
  exact ⟨plan, v, final, final.calm, final.cfg, rfl, rfl⟩

/-- The IOMMU's view of the region after a DDT.REBUILD and a FENCE. -/
theorem fence_ddtRebuild_ok {lv : BitVec 2} {a0 a1 : Word} {s t u : State} (rest : s.settled = true)
    (placed : wellPlaced s = true) (e : exec (.ddtRebuild lv a0 a1) s = .next t) (ok : t.res.status = Status.ok.code)
    (e' : exec .fence t = .next u) : DirectoryPlan s.cfg lv.toNat a0.toNat a1.toNat ∧ u.cfg = s.cfg ∧
      ∃ v, Built s.cfg { s.blk with ddtLvls := lv } lv.toNat a0.toNat a1.toNat (LinksOf (a1.toNat + 1) (lv.toNat - 1))
          (PublishedTo (a1.toNat + 1)) v ∧ ∀ a, InDirectory s.cfg a → u.memIo.load64 a = v.wordBlk a := by
  obtain ⟨plan, v, built, calm, cfg, io, pend⟩ := exec_ddtRebuild_ok rest placed e ok
  change done (fence t) _ = _ at e'
  rw [fence_calm calm] at e'
  cases e'
  refine ⟨plan, cfg, v, built, fun a ha => ?_⟩
  rw [← built.io a ha, ← io, ← pend]
  rfl

end

end Sys2Proof.Machine
end

section
/-! SUPPORT. What the IOMMU makes of a context of DDT.REBUILD (R132 to R138, R293). -/

namespace Sys2Proof.Machine

/-- A pointer doubleword with a page number below 2^44, as a number. -/
theorem toNat_pointer (m : BitVec 4) {p : Word} (h : p.toNat < 2 ^ 60) :
    ((m.setWidth 64 <<< 60) ||| p).toNat = m.toNat * 2 ^ 60 + p.toNat := by
  have small := m.isLt
  have top : (m.setWidth 64 <<< 60 : Word).toNat = m.toNat * 2 ^ 60 := by
    rw [BitVec.toNat_shiftLeft, BitVec.toNat_setWidth, Nat.shiftLeft_eq]
    omega
  rw [toNat_or_of_lt h (by rw [top]; omega), top]

theorem toNat_ptrPpn (p : Word) : (ptrPpn p).toNat = p.toNat / 4096 := by
  rw [ptrPpn, BitVec.toNat_ushiftRight, Nat.shiftRight_eq_div_pow]

theorem toNat_ptrPa (e : Word) : (ptrPa e).toNat = e.toNat % 2 ^ 44 * 4096 := by
  have low : (e &&& 0xFFFFFFFFFFF).toNat = e.toNat % 2 ^ 44 := Nat.and_two_pow_sub_one_eq_mod e.toNat 44
  rw [ptrPa, BitVec.toNat_shiftLeft, low, Nat.shiftLeft_eq]
  omega

theorem toNat_s2Ppn (b : BlockRegs) : (s2Ppn b).toNat = if b.ptReady then b.s2Root.toNat / 4096 else 0 := by
  have := b.s2Root.isLt
  rw [s2Ppn]
  split
  · rw [toNat_ptrPpn, BitVec.toNat_setWidth, Nat.mod_eq_of_lt (by omega)]
  · rfl

theorem toNat_s1Ppn (b : BlockRegs) : (s1Ppn b).toNat = if b.ptReady then b.s1Root.toNat / 4096 else 0 := by
  have := b.s1Root.isLt
  rw [s1Ppn]
  split
  · rw [toNat_ptrPpn, BitVec.toNat_setWidth, Nat.mod_eq_of_lt (by omega)]
  · rfl

theorem toNat_msiPpn (c : Config) (b : BlockRegs) :
    (msiPpn c b).toNat = if b.msiReady then c.msiBase.toNat / 4096 else 0 := by
  rw [msiPpn]
  split
  · exact toNat_ptrPpn _
  · rfl

section
variable (c : Config) (b : BlockRegs)

theorem s2Ppn_lt : (s2Ppn b).toNat < 2 ^ 44 := by
  have := b.s2Root.isLt
  rw [toNat_s2Ppn]
  split <;> omega

theorem s1Ppn_lt : (s1Ppn b).toNat < 2 ^ 44 := by
  have := b.s1Root.isLt
  rw [toNat_s1Ppn]
  split <;> omega

/-! The words of a context as numbers (R293). -/

theorem contextWord_zero : contextWord c b 0 = 1 ||| (bit b.cfgDtf <<< 4) := rfl

theorem toNat_contextWord_one :
    (contextWord c b 1).toNat = b.cfgS2Mode.toNat * 2 ^ 60 + b.cfgGscid.toNat * 2 ^ 44 + (s2Ppn b).toNat := by
  have page := s2Ppn_lt b
  have tag := b.cfgGscid.isLt
  have field : (b.cfgGscid.setWidth 64 <<< 44 : Word).toNat = b.cfgGscid.toNat * 2 ^ 44 := by
    rw [BitVec.toNat_shiftLeft, BitVec.toNat_setWidth, Nat.shiftLeft_eq]
    omega
  have low : ((b.cfgGscid.setWidth 64 <<< 44) ||| s2Ppn b).toNat = b.cfgGscid.toNat * 2 ^ 44 + (s2Ppn b).toNat := by
    rw [toNat_or_of_lt page (by rw [field]; omega), field]
  have word : contextWord c b 1 = (b.cfgS2Mode.setWidth 64 <<< 60) ||| ((b.cfgGscid.setWidth 64 <<< 44) ||| s2Ppn b) :=
    BitVec.or_assoc ..
  rw [word, toNat_pointer _ (by omega), low, Nat.add_assoc]

theorem toNat_contextWord_two : (contextWord c b 2).toNat = b.cfgPscid.toNat * 4096 := by
  have tag := b.cfgPscid.isLt
  have word : contextWord c b 2 = b.cfgPscid.setWidth 64 <<< 12 := rfl
  rw [word, BitVec.toNat_shiftLeft, BitVec.toNat_setWidth, Nat.shiftLeft_eq]
  omega

theorem toNat_contextWord_three : (contextWord c b 3).toNat = b.cfgS1Mode.toNat * 2 ^ 60 + (s1Ppn b).toNat := by
  have page := s1Ppn_lt b
  exact toNat_pointer _ (by omega)

section
variable {c} (ext : c.dcFmt = .ext)
include ext

theorem contextWord_four : contextWord c b 4 = (b.cfgMsiMode.setWidth 64 <<< 60) ||| msiPpn c b := by
  simp [contextWord, contextWords, ext]

theorem contextWord_five : contextWord c b 5 = b.cfgMsiMask.setWidth 64 := by simp [contextWord, contextWords, ext]

theorem contextWord_six : contextWord c b 6 = b.cfgMsiPattern.setWidth 64 := by simp [contextWord, contextWords, ext]

theorem contextWord_seven : contextWord c b 7 = 0 := by simp [contextWord, contextWords, ext]

end
end

section
variable {c : Config} {b : BlockRegs}

theorem ptrMode_contextWord_one : ptrMode (contextWord c b 1) = b.cfgS2Mode := by
  have page := s2Ppn_lt b
  have tag := b.cfgGscid.isLt
  rw [← BitVec.toNat_inj, toNat_ptrMode, toNat_contextWord_one]
  omega

theorem ptrMode_contextWord_three : ptrMode (contextWord c b 3) = b.cfgS1Mode := by
  have page := s1Ppn_lt b
  rw [← BitVec.toNat_inj, toNat_ptrMode, toNat_contextWord_three]
  omega

theorem gscid_contextWord : (contextWord c b 1).extractLsb' 44 16 = b.cfgGscid := by
  have page := s2Ppn_lt b
  have tag := b.cfgGscid.isLt
  rw [← BitVec.toNat_inj, BitVec.extractLsb'_toNat, Nat.shiftRight_eq_div_pow, toNat_contextWord_one]
  omega

theorem pscid_contextWord : (contextWord c b 2).extractLsb' 12 20 = b.cfgPscid := by
  have tag := b.cfgPscid.isLt
  rw [← BitVec.toNat_inj, BitVec.extractLsb'_toNat, Nat.shiftRight_eq_div_pow, toNat_contextWord_two]
  omega

theorem s2Root_contextWord (ready : b.ptReady = true) :
    (ptrPa (contextWord c b 1)).toNat = b.s2Root.toNat / 4096 * 4096 := by
  have page := s2Ppn_lt b
  have number := toNat_s2Ppn b
  rw [if_pos ready] at number
  rw [toNat_ptrPa, toNat_contextWord_one]
  omega

theorem s1Root_contextWord (ready : b.ptReady = true) :
    (ptrPa (contextWord c b 3)).toNat = b.s1Root.toNat / 4096 * 4096 := by
  have page := s1Ppn_lt b
  have number := toNat_s1Ppn b
  rw [if_pos ready] at number
  rw [toNat_ptrPa, toNat_contextWord_three]
  omega

theorem dtf_contextWord : (contextWord c b 0).getLsbD 4 = b.cfgDtf := by
  rw [contextWord_zero]
  cases b.cfgDtf <;> rfl

/-! The checks that a context of DDT.REBUILD passes (R235, R293). -/

theorem contextWord_zero_reserved : contextWord c b 0 &&& 0xFFFFFFFF00FFFFEE = 0 := by
  rw [contextWord_zero]
  cases b.cfgDtf <;> rfl

/-- The reserved bits of a field that a word has 0 in. -/
theorem and_field_eq_zero {e m : Word} {i n : Nat} (mask : m = (BitVec.allOnes n).setWidth 64 <<< i) (h : i + n ≤ 64)
    (zero : e.toNat / 2 ^ i % 2 ^ n = 0) : e &&& m = 0 := by
  rw [← BitVec.toNat_inj, mask, toNat_and_field e h, zero, Nat.zero_mul]
  rfl

theorem contextWord_two_reserved : contextWord c b 2 &&& 0xFFFFFFFF00000FFF = 0 := by
  have tag := b.cfgPscid.isLt
  have number := toNat_contextWord_two c b
  have high : contextWord c b 2 &&& 0xFFFFFFFF00000000 = 0 :=
    and_field_eq_zero (i := 32) (n := 32) (by decide) (by omega) (by omega)
  have low : contextWord c b 2 &&& 0xFFF = 0 := and_field_eq_zero (i := 0) (n := 12) (by decide) (by omega) (by omega)
  rw [BitVec.and_comm, show (0xFFFFFFFF00000FFF : Word) = 0xFFFFFFFF00000000 ||| 0xFFF by decide]
  exact or_and_eq_zero ((BitVec.and_comm ..).trans high) ((BitVec.and_comm ..).trans low)

theorem contextWord_three_reserved : contextWord c b 3 &&& 0x0FFFF00000000000 = 0 := by
  have page := s1Ppn_lt b
  have number := toNat_contextWord_three c b
  exact and_field_eq_zero (i := 44) (n := 16) (by decide) (by omega) (by omega)

section
variable (ext : c.dcFmt = .ext) (range : c.msiBase.toNat < 2 ^ 56)
include ext range

theorem toNat_contextWord_four :
    (contextWord c b 4).toNat = b.cfgMsiMode.toNat * 2 ^ 60 + (if b.msiReady then c.msiBase.toNat / 4096 else 0) := by
  have number := toNat_msiPpn c b
  rw [contextWord_four b ext, toNat_pointer _ (by rw [number]; split <;> omega), number]

theorem ptrMode_contextWord_four : ptrMode (contextWord c b 4) = b.cfgMsiMode := by
  have number := toNat_contextWord_four (b := b) ext range
  rw [← BitVec.toNat_inj, toNat_ptrMode, number]
  split <;> omega

theorem contextWord_four_reserved : contextWord c b 4 &&& 0x0FFFF00000000000 = 0 := by
  have number := toNat_contextWord_four (b := b) ext range
  refine and_field_eq_zero (i := 44) (n := 16) (by decide) (by omega) ?_
  rw [number]
  split <;> omega

theorem msiBase_contextWord (page : c.msiBase.toNat % 4096 = 0) (ready : b.msiReady = true) :
    (ptrPa (contextWord c b 4)).toNat = c.msiBase.toNat := by
  rw [toNat_ptrPa, toNat_contextWord_four ext range, if_pos ready]
  omega

omit range in
theorem mask_contextWord : (contextWord c b 5).setWidth 52 = b.cfgMsiMask ∧
    (contextWord c b 5).extractLsb' 52 12 = 0 := by
  have small := b.cfgMsiMask.isLt
  rw [contextWord_five b ext, ← BitVec.toNat_inj, ← BitVec.toNat_inj, BitVec.extractLsb'_toNat,
    Nat.shiftRight_eq_div_pow, BitVec.toNat_setWidth, BitVec.toNat_setWidth, show (0 : BitVec 12).toNat = 0 from rfl]
  omega

omit range in
theorem pattern_contextWord : (contextWord c b 6).setWidth 52 = b.cfgMsiPattern ∧
    (contextWord c b 6).extractLsb' 52 12 = 0 := by
  have small := b.cfgMsiPattern.isLt
  rw [contextWord_six b ext, ← BitVec.toNat_inj, ← BitVec.toNat_inj, BitVec.extractLsb'_toNat,
    Nat.shiftRight_eq_div_pow, BitVec.toNat_setWidth, BitVec.toNat_setWidth, show (0 : BitVec 12).toNat = 0 from rfl]
  omega

end

/-! The context as the IOMMU reads it. -/

section
variable {w : List Word} (words : ∀ k < dcBytes c.dcFmt / 8, w.getD k 0 = contextWord c b k)
include words

theorem getD_lt_four {k : Nat} (h : k < 4) : w.getD k 0 = contextWord c b k :=
  words k (h.trans_le (by cases c.dcFmt <;> decide))

theorem getD_lt_eight (ext : c.dcFmt = .ext) {k : Nat} (h : k < 8) : w.getD k 0 = contextWord c b k :=
  words k (h.trans_le (by rw [ext]; decide))

theorem not_misconfigured (range : c.msiBase.toNat < 2 ^ 56) (s1 : b.cfgS1Mode = 0 ∨ b.cfgS1Mode = 8)
    (s2 : b.cfgS2Mode = 0 ∨ b.cfgS2Mode = 8) (msi : b.cfgMsiMode = 0 ∨ b.cfgMsiMode = 1) :
    misconfigured c.dcFmt w = false := by
  have supported {m k : BitVec 4} (h : m = 0 ∨ m = k) : (m == 0 || m == k) = true := by
    rcases h with rfl | rfl <;> simp
  simp only [misconfigured, getD_lt_four words (show 0 < 4 by omega), getD_lt_four words (show 1 < 4 by omega),
    getD_lt_four words (show 2 < 4 by omega), getD_lt_four words (show 3 < 4 by omega), contextWord_zero_reserved,
    contextWord_two_reserved, contextWord_three_reserved, ptrMode_contextWord_one, ptrMode_contextWord_three,
    supported s1, supported s2, bne_self_eq_false, Bool.not_true, Bool.or_false, Bool.false_or]
  cases ext : c.dcFmt with
  | base => rfl
  | ext =>
    simp only [getD_lt_eight words ext (show 4 < 8 by omega), getD_lt_eight words ext (show 5 < 8 by omega),
      getD_lt_eight words ext (show 6 < 8 by omega), getD_lt_eight words ext (show 7 < 8 by omega),
      ptrMode_contextWord_four ext range, contextWord_four_reserved ext range, (mask_contextWord ext).2,
      (pattern_contextWord ext).2, contextWord_seven b ext, supported msi, bne_self_eq_false, Bool.not_true,
      Bool.or_false, Bool.and_false]

/-- The fields of a context of DDT.REBUILD. -/
theorem contextOf_words (page : c.msiBase.toNat % 4096 = 0) (range : c.msiBase.toNat < 2 ^ 56) :
    let x := contextOf c.dcFmt w
    x.dtf = b.cfgDtf ∧ x.gscid = b.cfgGscid ∧ x.pscid = b.cfgPscid ∧ (x.s1 = true ↔ b.cfgS1Mode = 8) ∧
      (x.s2 = true ↔ b.cfgS2Mode = 8) ∧ (x.msi = true ↔ c.dcFmt = .ext ∧ b.cfgMsiMode = 1) ∧
      (b.ptReady = true → x.s1Root = b.s1Root.toNat / 4096 * 4096 ∧ x.s2Root = b.s2Root.toNat / 4096 * 4096) ∧
      (c.dcFmt = .ext → x.mask = b.cfgMsiMask ∧ x.pattern = b.cfgMsiPattern ∧
        (b.msiReady = true → x.msiBase = c.msiBase.toNat)) := by
  have w0 := getD_lt_four words (show 0 < 4 by omega)
  have w1 := getD_lt_four words (show 1 < 4 by omega)
  have w2 := getD_lt_four words (show 2 < 4 by omega)
  have w3 := getD_lt_four words (show 3 < 4 by omega)
  simp only [contextOf, w0, w1, w2, w3, dtf_contextWord, gscid_contextWord, pscid_contextWord,
    ptrMode_contextWord_one, ptrMode_contextWord_three, beq_iff_eq, Bool.and_eq_true, true_and]
  refine ⟨and_congr_right fun ext => ?_,
    fun ready => ⟨s1Root_contextWord ready, s2Root_contextWord ready⟩, fun ext => ?_⟩
  · rw [getD_lt_eight words ext (show 4 < 8 by omega), ptrMode_contextWord_four ext range]
  · rw [getD_lt_eight words ext (show 4 < 8 by omega), getD_lt_eight words ext (show 5 < 8 by omega),
      getD_lt_eight words ext (show 6 < 8 by omega)]
    exact ⟨(mask_contextWord ext).1, (pattern_contextWord ext).1, msiBase_contextWord ext range page⟩

end
end

end Sys2Proof.Machine
end

section
/-! PROOFS. O44. -/

namespace Sys2Proof.Machine

/-- A memory whose region of the directory holds the links and the contexts of the devices from `lo` to `hi`, and
nothing else where another device's walk ends. -/
structure DirectoryIn (c : Config) (b : BlockRegs) (l lo hi : Nat) (m : Memory) : Prop where
  links : ∀ j d, j + 1 < l → lo ≤ d → d ≤ hi → m.load64 (linkAt c l lo j d) = directoryLink c l lo j d
  words : ∀ d k, lo ≤ d → d ≤ hi → k < dcBytes c.dcFmt / 8 →
    m.load64 (contextAt c l lo d + 8 * k) = contextWord c b k
  noLink : ∀ j d, j + 1 < l → d < 2 ^ idBits c.dcFmt l → Shared c.dcFmt l lo hi (j + 1) d →
    ¬ Shared c.dcFmt l lo hi j d → m.load64 (linkAt c l lo j d) = 0
  noContext : ∀ d < 2 ^ idBits c.dcFmt l, Shared c.dcFmt l lo hi 0 d → ¬ (lo ≤ d ∧ d ≤ hi) →
    m.load64 (contextAt c l lo d) = 0

section
variable {c : Config} {b : BlockRegs} {l lo hi : Nat} {m : Memory} (plan : DirectoryPlan c l lo hi)
include plan

/-- The IOMMU's view of what DDT.REBUILD built. -/
theorem Built.directoryIn {v : State} (h : Built c b l lo hi (LinksOf (hi + 1) (l - 1)) (PublishedTo (hi + 1)) v)
    (io : ∀ a, InDirectory c a → m.load64 a = v.wordBlk a) : DirectoryIn c b l lo hi m where
  links j d hj low high := by
    rw [io _ (linkAt_mem plan hj (shared_of_range low high))]
    exact h.links j d hj low high (.inl (by omega))
  words d k low high hk := by
    rw [io _ (contextAt_mem plan (shared_of_range low high) hk)]
    exact h.words d k low high hk (.inr (by omega))
  noLink j d hj narrow here below := by
    have place := linkAt_mem plan hj here
    rw [io _ place]
    refine h.empty _ place (fun j' d' hj' low high _ same => below ?_) fun d' k low high hk _ =>
      linkAt_ne_contextAt plan hj here (shared_of_range low high) hk
    obtain ⟨rfl, key⟩ := linkAt_inj plan hj hj' here (shared_of_range low high) narrow (plan.narrow high) same
    exact .inr (key ▸ ⟨pageKey_mono low, pageKey_mono high⟩)
  noContext d narrow here off := by
    have words : 0 < dcBytes c.dcFmt / 8 := by cases c.dcFmt <;> decide
    have place := contextAt_mem plan here words
    rw [Nat.mul_zero, Nat.add_zero] at place
    rw [io _ place]
    refine h.empty _ place (fun j d' hj low high _ same => ?_) fun d' k low high hk _ same => off ?_
    · exact linkAt_ne_contextAt plan hj (shared_of_range low high) here words same.symm
    · obtain ⟨rfl, -⟩ := contextAt_inj plan (k := 0) here (shared_of_range low high) narrow (plan.narrow high) words hk
        same
      exact ⟨low, high⟩

/-- The IOMMU's walk of any device reaches the pages that some device of the range shares. -/
theorem DirectoryIn.directoryPage (h : DirectoryIn c b l lo hi m) {d k : Nat} (hk : k < l)
    (shared : Shared c.dcFmt l lo hi (l - 1 - k) d) :
    directoryPage c m c.ddtBase.toNat l d k = some (directoryPageAt c l lo (l - 1 - k) d) := by
  obtain ⟨one, three⟩ := plan.levels
  induction k with
  | zero =>
    rw [Machine.directoryPage, directoryPageAt, directoryNum, if_pos (by omega)]
    rfl
  | succ k ih =>
    have level : l - 1 - k = l - 1 - (k + 1) + 1 := by omega
    have above : Shared c.dcFmt l lo hi (l - 1 - k) d := level ▸ shared.succ (by omega)
    obtain ⟨e, low, high, same⟩ := shared.exists plan.range
    have key := same.resolve_left (by omega)
    have link := h.links (l - 1 - (k + 1)) e (by omega) low high
    rw [← linkAt_congr (by omega) three key, directoryLink, directoryPageAt, ← directoryNum_congr same (by omega)]
      at link
    obtain ⟨number, target⟩ := directoryLink_target plan (by omega) shared
    obtain ⟨-, -, inside⟩ := directoryPageAt_mem plan (by omega) shared
    have fits := plan.fits
    obtain ⟨-, first, last⟩ := linkAt_mem plan (by omega : l - 1 - (k + 1) + 1 < l) (level ▸ above)
    have readable := accessible_of_mem plan first last
    have entry : directoryPageAt c l lo (l - 1 - (k + 1) + 1) d + 8 * ddi c.dcFmt d (l - 1 - (k + 1) + 1) =
        linkAt c l lo (l - 1 - (k + 1)) d := rfl
    have value : m.load64 (linkAt c l lo (l - 1 - (k + 1)) d) = directoryLink c l lo (l - 1 - (k + 1)) d := link
    rw [toNat_fieldPa] at target
    rw [Machine.directoryPage, ih (by omega) above, level]
    simp only [entry, value, target]
    exact if_pos ⟨readable, by omega, by omega, by omega⟩

theorem contextAt_accessible {d : Nat} (here : Shared c.dcFmt l lo hi 0 d) :
    accessible c (contextAt c l lo d) (dcBytes c.dcFmt) = true := by
  obtain ⟨one, -⟩ := plan.levels
  obtain ⟨-, low, high⟩ := directoryPageAt_mem plan one here
  have index := dcBytes_ddi (f := c.dcFmt) (d := d)
  exact accessible_of_mem plan (by rw [contextAt]; omega) (by rw [contextAt]; omega)

variable {ddtp : Word} {d : BitVec 24} {w : Walk} (root : ddtp.toNat / 1024 % 2 ^ 44 * 4096 = c.ddtBase.toNat)
  (fresh : w.picks = []) (narrow : d.toNat < 2 ^ idBits c.dcFmt l)
include root fresh narrow

/-- A device that shares the page of a link, and not the page below it. -/
theorem DirectoryIn.locateContext_noLink (h : DirectoryIn c b l lo hi m) {j : Nat} (hj : j + 1 < l)
    (here : Shared c.dcFmt l lo hi (j + 1) d.toNat) (below : ¬ Shared c.dcFmt l lo hi j d.toNat) :
    locateContext c m ddtp l d w = (.error ⟨258, 0⟩, w) := by
  have level : l - 1 - (l - 1 - (j + 1)) = j + 1 := by omega
  have page := h.directoryPage plan (d := d.toNat) (k := l - 1 - (j + 1)) (by omega) (by rwa [level])
  obtain ⟨-, first, last⟩ := linkAt_mem plan hj here
  have zero := h.noLink j d.toNat hj narrow here below
  have entry : directoryPageAt c l lo (j + 1) d.toNat + 8 * ddi c.dcFmt d.toNat (j + 1) = linkAt c l lo j d.toNat := rfl
  rw [level, ← root] at page
  have ends := (locateContext_causes fresh narrow (by omega) page).2.1
  simp only [if_pos (show l - 1 - (j + 1) + 1 < l by omega), level, entry, zero] at ends
  exact ends (accessible_of_mem plan first last) rfl

/-- A device that shares the page of its context, out of the range. -/
theorem DirectoryIn.locateContext_noContext (h : DirectoryIn c b l lo hi m) (here : Shared c.dcFmt l lo hi 0 d.toNat)
    (off : ¬ (lo ≤ d.toNat ∧ d.toNat ≤ hi)) : locateContext c m ddtp l d w = (.error ⟨258, 0⟩, w) := by
  obtain ⟨one, -⟩ := plan.levels
  have page := h.directoryPage plan (d := d.toNat) (k := l - 1) (by omega) (by rwa [Nat.sub_self])
  have zero := h.noContext d.toNat narrow here off
  have entry : directoryPageAt c l lo 0 d.toNat + dcBytes c.dcFmt * ddi c.dcFmt d.toNat 0 =
      contextAt c l lo d.toNat := rfl
  rw [Nat.sub_self, ← root] at page
  have ends := (locateContext_causes fresh narrow (by omega) page).2.1
  simp only [if_neg (show ¬ l - 1 + 1 < l by omega), entry, zero] at ends
  exact ends (contextAt_accessible plan here) rfl

/-- A device out of the range has no context. -/
theorem DirectoryIn.locateContext_outside (h : DirectoryIn c b l lo hi m) (off : ¬ (lo ≤ d.toNat ∧ d.toNat ≤ hi)) :
    locateContext c m ddtp l d w = (.error ⟨258, 0⟩, w) := by
  obtain ⟨-, three⟩ := plan.levels
  by_cases leaf : Shared c.dcFmt l lo hi 0 d.toNat
  · exact h.locateContext_noContext plan root fresh narrow leaf off
  · have two : 1 < l := by
      by_contra root
      exact leaf (.inl (by omega))
    by_cases middle : Shared c.dcFmt l lo hi 1 d.toNat
    · exact h.locateContext_noLink plan root fresh narrow two middle leaf
    · have three : 2 < l := by
        by_contra root
        exact middle (.inl (by omega))
      exact h.locateContext_noLink plan root fresh narrow three (.inl (by omega)) middle

/-- A device of the range has its context. -/
theorem DirectoryIn.locateContext_inside (h : DirectoryIn c b l lo hi m) (low : lo ≤ d.toNat) (high : d.toNat ≤ hi)
    (range : c.msiBase.toNat < 2 ^ 56) (s1 : b.cfgS1Mode = 0 ∨ b.cfgS1Mode = 8)
    (s2 : b.cfgS2Mode = 0 ∨ b.cfgS2Mode = 8) (msi : b.cfgMsiMode = 0 ∨ b.cfgMsiMode = 1) :
    ∃ dc : List Word, (∀ k < dcBytes c.dcFmt / 8, dc.getD k 0 = contextWord c b k) ∧
      locateContext c m ddtp l d w = (.ok (contextOf c.dcFmt dc), w) := by
  obtain ⟨one, three⟩ := plan.levels
  have page := h.directoryPage plan (k := l - 1) (by omega) (shared_of_range low high)
  rw [Nat.sub_self, ← root] at page
  have walk := directoryWalk_of_page fresh page (by omega)
  rw [Nat.sub_self, directoryWalk] at walk
  have found := locateContext_of_page fresh narrow walk
  have words (k : Nat) (hk : k < dcBytes c.dcFmt / 8) :
      (loadWords m (contextAt c l lo d.toNat) (dcBytes c.dcFmt / 8)).getD k 0 = contextWord c b k := by
    rw [loadWords_getD _ _ _ hk, h.words _ _ low high hk]
  have checked := not_misconfigured words range s1 s2 msi
  have valid : (contextWord c b 0).toNat % 2 = 1 := by
    rw [contextWord_zero]
    cases b.cfgDtf <;> rfl
  have some : 0 < dcBytes c.dcFmt / 8 := by cases c.dcFmt <;> decide
  have tc := h.words d.toNat 0 low high some
  rw [Nat.mul_zero, Nat.add_zero] at tc
  have entry : directoryPageAt c l lo 0 d.toNat + dcBytes c.dcFmt * ddi c.dcFmt d.toNat 0 =
      contextAt c l lo d.toNat := rfl
  have readable := contextAt_accessible plan (shared_of_range low high)
  refine ⟨_, words, found.trans ?_⟩
  simp only [entry, tc, valid, checked, readable, Bool.true_eq_false, Bool.false_eq_true, one_ne_zero, if_false]

end

/-- Settles O44: the walk entry by entry, and the directory that DDT.REBUILD leaves once it is drained. -/
theorem rebuiltContextIsRead : Obligations.RebuiltContextIsRead := by
  refine ⟨fun c m ddtp l d w fresh _ _ => ⟨fun wide => ?_, fun k t narrow hk page =>
    locateContext_causes fresh narrow hk page⟩, ?_⟩
  · rw [locateContext, if_pos wide]
  · intro lv a0 a1 s t u ddtp w d rest placed rebuild ok fence root fresh s1 s2 msi narrow
    obtain ⟨plan, cfg, v, built, io⟩ := fence_ddtRebuild_ok rest placed rebuild ok fence
    obtain ⟨page, range⟩ := wellPlaced_msi placed
    have directory := built.directoryIn plan io
    rw [cfg]
    refine ⟨fun off => directory.locateContext_outside plan root fresh narrow (by omega), fun low high => ?_⟩
    obtain ⟨dc, words, found⟩ := directory.locateContext_inside plan root fresh narrow low high range s1 s2 msi
    exact ⟨_, found, contextOf_words words page range⟩

end Sys2Proof.Machine
end

section
/-! SUPPORT. The operations of the MSI remap table (R262 to R266), each check as a number, and the entry that
`write_msi_entry` leaves when no other agent moves. -/

namespace Sys2Proof.Machine

theorem ne_ext_iff {f : DcFmt} : f ≠ .ext ↔ f = .base := by cases f <;> decide

theorem eq_ofNat_of_toNat_eq {v : Word} {n : Nat} (h : v.toNat = n) : v = BitVec.ofNat 64 n := by
  rw [← h, BitVec.ofNat_toNat, BitVec.setWidth_eq]

theorem zeros_apart {n a b : Nat} (h : ¬ within a (8 * n) b) : ∀ w ∈ zeros n a, b < w.addr ∨ w.addr + 8 ≤ b := by
  intro w hw
  have := mem_zeros hw
  simp only [within] at h
  omega

theorem exec_msiInit {s : State} (calm : s.weave = []) (ext : s.cfg.dcFmt = .ext) :
    exec .msiInit s = .next (((fence (s.stored (zeros (512 * s.cfg.msiPages) s.cfg.msiBase.toNat))).setBlk fun b =>
      { b with msiReady := true }).finish
        (result .ok s.cfg.msiBase (BitVec.ofNat 64 (256 * s.cfg.msiPages)))) := by
  rw [← zeroFill_stored calm]
  exact if_neg (not_not_intro ext)

/-- MSI.SET_BASIC (R263, R264). -/
theorem exec_msiSetBasic (c : Bool) (a0 a1 : Word) (s : State) : exec (.msiSetBasic c a0 a1) s =
    if s.cfg.dcFmt = .base then raise .errMode s
    else if s.blk.msiReady = false then raise .errState s
    else if 256 * s.cfg.msiPages ≤ a0.toNat then raise .errRange s
    else if a1.toNat % 4096 ≠ 0 then raise .errAlign s
    else if 2 ^ 56 ≤ a1.toNat then raise .errRange s
    else done (writeMsiEntry (msiEntry s.cfg a0.toNat) (basicDw0 a1 c) 0 s)
      (result .ok (basicDw0 a1 c) 0 (BitVec.ofNat 64 (msiEntry s.cfg a0.toNat))) := by
  change execMsiSetBasic c a0 a1 s = _
  simp only [execMsiSetBasic, ne_ext_iff, msiEntries, Bool.not_eq_true', ← Bool.not_eq_true (aligned _ _),
    ← Bool.not_eq_true (fits _ _), aligned_eq_true, fits_eq_true, Nat.not_lt, Nat.reducePow, ne_eq]

/-- MSI.SET_MRIF (R263, R265). -/
theorem exec_msiSetMrif (c : Bool) (a0 a1 a2 a3 : Word) (s : State) : exec (.msiSetMrif c a0 a1 a2 a3) s =
    if s.cfg.dcFmt = .base then raise .errMode s
    else if s.blk.msiReady = false then raise .errState s
    else if 256 * s.cfg.msiPages ≤ a0.toNat then raise .errRange s
    else if a1.toNat % 512 ≠ 0 ∨ a2.toNat % 4096 ≠ 0 then raise .errAlign s
    else if 2 ^ 56 ≤ a1.toNat ∨ 2 ^ 56 ≤ a2.toNat then raise .errRange s
    else if 2 ^ 11 ≤ a3.toNat then raise .errRange s
    else done (writeMsiEntry (msiEntry s.cfg a0.toNat) (mrifDw0 a1 c) (mrifDw1 a2 a3) s)
      (result .ok (mrifDw0 a1 c) (mrifDw1 a2 a3) (BitVec.ofNat 64 (msiEntry s.cfg a0.toNat))) := by
  change execMsiSetMrif c a0 a1 a2 a3 s = _
  simp only [execMsiSetMrif, ne_ext_iff, msiEntries, Bool.or_eq_true, Bool.not_eq_true',
    ← Bool.not_eq_true (aligned _ _), ← Bool.not_eq_true (fits _ _), aligned_eq_true, fits_eq_true, Nat.not_lt,
    Nat.reducePow, ne_eq]

/-! The order of `write_msi_entry` (R266). -/

/-- A FENCE after the stores, when there was nothing to drain or to reveal before them: both views hold the stores. -/
theorem fence_stored_clean {s : State} (calm : s.weave = []) (drained : s.pend = []) (revealed : s.unseen = [])
    (ws : List PendingWrite) : fence (s.stored ws) =
      { s with memIo := drainAll s.memIo ws, memBlk := drainAll s.memBlk ws, pend := [], unseen := [] } := by
  rw [fence_stored calm, drained, revealed]
  rfl

theorem not_within_sixteen {ea a : Nat} (h : ¬ within ea 16 a) : ¬ within ea 8 a ∧ ¬ within (ea + 8) 8 a := by
  simp only [within] at h ⊢
  omega

theorem read_storeN_outside (m : Memory) {a n b : Nat} (v : Word) (h : ¬ within a n b) :
    (m.storeN a n v).read b = m.read b :=
  Memory.read_storeN m a n v b (by simp only [within] at h; omega)

/-- The state once the old DW0 of the entry at `ea` is 0 in both views: after the first FENCE of R266. -/
def State.entryVacated (s : State) (ea : Nat) : State := fence (s.stored [⟨ea, 0⟩])

section
variable {s : State} (calm : s.weave = []) (ea : Nat)
include calm

theorem entryVacated_clean :
    (s.entryVacated ea).weave = [] ∧ (s.entryVacated ea).pend = [] ∧ (s.entryVacated ea).unseen = [] := by
  rw [State.entryVacated, fence_stored calm]
  exact ⟨calm, rfl, rfl⟩

theorem entryVacated_same : (s.entryVacated ea).blk = s.blk ∧ s.SameOutside (s.entryVacated ea) := by
  rw [State.entryVacated, fence_stored calm]
  exact ⟨rfl, by constructor <;> rfl⟩

theorem entryVacated_wordIo : (s.entryVacated ea).wordIo ea = 0 := by
  rw [State.entryVacated, fence_stored calm]
  exact Memory.load64_store64_same _ ea 0

theorem entryVacated_other {a : Nat} (outside : ¬ within ea 8 a) :
    (s.entryVacated ea).readBlk a = (fence s).readBlk a ∧ (s.entryVacated ea).readIo a = (fence s).readIo a := by
  refine fence_stored_other calm fun w hw => ?_
  rw [List.mem_singleton.1 hw]
  simp only [within] at outside ⊢
  omega

/-- The new DW1 is in both views before the new DW0 is stored. -/
theorem writeMsiEntry_calm (d0 d1 : Word) : writeMsiEntry ea d0 d1 s = { s.entryVacated ea with
    memIo := (s.entryVacated ea).memIo.store64 (ea + 8) d1, pend := [⟨ea, d0⟩],
    memBlk := ((s.entryVacated ea).memBlk.store64 (ea + 8) d1).store64 ea d0 } := by
  obtain ⟨calm', drained, revealed⟩ := entryVacated_clean calm ea
  have second := fence_stored_clean calm' drained revealed [⟨ea + 8, d1⟩]
  rw [writeMsiEntry, memWrite_stored calm, ← State.entryVacated, memWrite_stored calm', second,
    memWrite_calm (by exact calm')]
  simp only [drainAll, List.foldl_cons, List.foldl_nil, List.nil_append, revealed]

/-- Outside the entry every byte is as after a FENCE alone. -/
theorem writeMsiEntry_frame (d0 d1 : Word) : s.AsFenceOutside (writeMsiEntry ea d0 d1 s) (within ea 16) := by
  intro a outside
  obtain ⟨low, high⟩ := not_within_sixteen outside
  obtain ⟨blk, io⟩ := entryVacated_other calm ea low
  rw [← blk, ← io, writeMsiEntry_calm calm]
  exact ⟨(read_storeN_outside _ d0 low).trans (read_storeN_outside _ d1 high), read_storeN_outside _ d1 high⟩

/-- While the new DW0 is pending, the IOMMU sees the new DW1 beside a DW0 of 0. -/
theorem writeMsiEntry_wordIo (d0 d1 : Word) :
    (writeMsiEntry ea d0 d1 s).wordIo ea = 0 ∧ (writeMsiEntry ea d0 d1 s).wordIo (ea + 8) = d1 := by
  rw [writeMsiEntry_calm calm]
  exact ⟨(Memory.load64_store64_other _ _ _ _ (by omega)).trans (entryVacated_wordIo calm ea),
    Memory.load64_store64_same _ _ _⟩

theorem writeMsiEntry_wordBlk (d0 d1 : Word) :
    (writeMsiEntry ea d0 d1 s).wordBlk ea = d0 ∧ (writeMsiEntry ea d0 d1 s).wordBlk (ea + 8) = d1 := by
  rw [writeMsiEntry_calm calm]
  exact ⟨Memory.load64_store64_same _ _ _,
    (Memory.load64_store64_other _ _ _ _ (by omega)).trans (Memory.load64_store64_same _ _ _)⟩

theorem writeMsiEntry_same (d0 d1 : Word) : (writeMsiEntry ea d0 d1 s).blk = s.blk ∧
    (writeMsiEntry ea d0 d1 s).pend = [⟨ea, d0⟩] ∧ s.SameOutside (writeMsiEntry ea d0 d1 s) := by
  obtain ⟨blk, same⟩ := entryVacated_same calm ea
  rw [writeMsiEntry_calm calm]
  exact ⟨blk, rfl, { same with }⟩

/-- What an operation leaves that ends once it has written an entry (R264, R265). -/
theorem done_writeMsiEntry (d0 d1 : Word) (r : Result) :
    ∃ t, done (writeMsiEntry ea d0 d1 s) r = .next t ∧ t.res = r ∧ t.blk = s.blk ∧
      t.wordBlk ea = d0 ∧ t.wordBlk (ea + 8) = d1 ∧ t.wordIo ea = 0 ∧ t.wordIo (ea + 8) = d1 ∧ t.pend = [⟨ea, d0⟩] ∧
      s.SameOutside t ∧ s.AsFenceOutside t (within ea 16) := by
  obtain ⟨blk0, blk1⟩ := writeMsiEntry_wordBlk calm ea d0 d1
  obtain ⟨io0, io1⟩ := writeMsiEntry_wordIo calm ea d0 d1
  obtain ⟨blk, pend, same⟩ := writeMsiEntry_same calm ea d0 d1
  exact ⟨_, rfl, rfl, blk, blk0, blk1, io0, io1, pend, { same with }, writeMsiEntry_frame calm ea d0 d1⟩

end

end Sys2Proof.Machine
end

section
/-! PROOFS. O30, O31, O32 and O33. -/

namespace Sys2Proof.Machine

/-- Settles O30: MSI.INIT is a run of stores of 0 to the table's pages, a FENCE, and `msi_ready`. -/
theorem msiInitEmptiesTable : Obligations.MsiInitEmptiesTable := by
  refine ⟨fun s base => if_pos (ne_ext_iff.2 base), fun s calm ext => ?_⟩
  have bytes : 4096 * s.cfg.msiPages = 8 * (512 * s.cfg.msiPages) := by omega
  rw [bytes]
  refine ⟨_, exec_msiInit calm ext, rfl, ?_, ?_, ?_, fun a ha => fence_stored_other calm (zeros_apart ha),
    fun a ha => fence_stored_written calm fun m => drainAll_zeros_read m ha⟩
  all_goals rw [fence_stored calm]
  · rfl
  · rfl
  · constructor <;> rfl

/-- Settles O31: the checks of each operation, in order. -/
theorem msiChecks : Obligations.MsiChecks := by
  refine ⟨fun c a0 a1 s st refused => ?basic, fun c a0 a1 a2 a3 s st refused => ?mrif⟩
  case basic =>
    rw [exec_msiSetBasic]
    split_ifs at refused ⊢ with base state index page range
    iterate 4 exact refused ▸ rfl
    · exact refused.2 ▸ rfl
    · exact absurd refused.1 range
  case mrif =>
    rw [exec_msiSetMrif]
    split_ifs at refused ⊢ with base state index place range id
    iterate 4 exact refused ▸ rfl
    iterate 2 exact refused.2 ▸ rfl
    exact absurd refused.1 (by omega)

/-- Settles O32: the words of the entry as numbers, and `write_msi_entry`. -/
theorem msiSetBasicWrites : Obligations.MsiSetBasicWrites := by
  intro c a0 a1 s calm ext ready index page range ea d0
  have word : basicDw0 a1 c = d0 := eq_ofNat_of_toNat_eq (toNat_basicDw0 range c)
  rw [exec_msiSetBasic, if_neg (by simp [ext]), if_neg (by simp [ready]), if_neg (by omega), if_neg (by omega),
    if_neg (by omega), word]
  exact done_writeMsiEntry calm ea d0 0 _

/-- Settles O33: as for MSI.SET_BASIC, with the MRIF entry's words. -/
theorem msiSetMrifWrites : Obligations.MsiSetMrifWrites := by
  intro c a0 a1 a2 a3 s calm ext ready index place page range notice id ea d0 d1
  have word0 : mrifDw0 a1 c = d0 := eq_ofNat_of_toNat_eq (toNat_mrifDw0 range c)
  have word1 : mrifDw1 a2 a3 = d1 := eq_ofNat_of_toNat_eq (toNat_mrifDw1 notice id)
  rw [exec_msiSetMrif, if_neg (by simp [ext]), if_neg (by simp [ready]), if_neg (by omega), if_neg (by omega),
    if_neg (by omega), if_neg (by omega), word0, word1]
  exact done_writeMsiEntry calm ea d0 d1 _

end Sys2Proof.Machine
end

section
/-! SUPPORT. The MSI match and index (R13, R268), bit by bit, and the word of an identity in an MRIF (R270, R271). -/

namespace Sys2Proof.Machine

/-- How many of the bits of `m` below bit `j` are set. -/
def setBitsBelow (m j : Nat) : Nat := ((List.range j).filter (m.testBit ·)).length

theorem setBitsBelow_zero (m : Nat) : setBitsBelow m 0 = 0 := rfl

theorem setBitsBelow_succ (m j : Nat) : setBitsBelow m (j + 1) = m % 2 + setBitsBelow (m / 2) j := by
  have later : (m.testBit ·) ∘ Nat.succ = ((m / 2).testBit ·) := funext fun b => Nat.testBit_succ m b
  simp only [setBitsBelow, List.range_succ_eq_map, List.filter_cons, List.filter_map, later, Nat.testBit_zero,
    decide_eq_true_eq]
  split_ifs with odd
  · rw [List.length_cons, List.length_map, odd, Nat.add_comm]
  · rw [List.length_map, Nat.mod_two_ne_one.1 odd, Nat.zero_add]

theorem gather_succ (n v m : Nat) : gather (n + 1) v m =
    if m % 2 = 1 then v % 2 + 2 * gather n (v / 2) (m / 2) else gather n (v / 2) (m / 2) := by
  simp only [gather, beq_iff_eq]

/-- `extract` sets no bit past the mask's set bits. -/
theorem gather_lt (n v m : Nat) : gather n v m < 2 ^ setBitsBelow m n := by
  induction n generalizing v m with
  | zero => exact Nat.one_pos
  | succ n ih =>
    have rest := ih (v / 2) (m / 2)
    rw [gather_succ, setBitsBelow_succ]
    split_ifs with odd
    · rw [odd, Nat.pow_add]
      omega
    · rwa [Nat.mod_two_ne_one.1 odd, Nat.zero_add]

/-- The bit of `extract` at a set bit of the mask, counted from the lowest, is that bit of the value. -/
theorem gather_testBit {n j : Nat} (v m : Nat) (inside : j < n) (set : m.testBit j = true) :
    (gather n v m).testBit (setBitsBelow m j) = v.testBit j := by
  induction n generalizing v m j with
  | zero => omega
  | succ n ih =>
    rw [gather_succ]
    cases j with
    | zero =>
      rw [Nat.testBit_zero, decide_eq_true_eq] at set
      rw [if_pos set, setBitsBelow_zero, Nat.testBit_zero, Nat.testBit_zero, Nat.add_mul_mod_self_left, Nat.mod_mod]
    | succ j =>
      rw [Nat.testBit_succ] at set
      have rest := ih (v / 2) (m / 2) (by omega) set
      rw [setBitsBelow_succ, Nat.testBit_succ, ← rest]
      split_ifs with odd
      · have tail : (v % 2 + 2 * gather n (v / 2) (m / 2)) / 2 = gather n (v / 2) (m / 2) := by omega
        rw [odd, Nat.add_comm 1, Nat.testBit_succ, tail]
      · rw [Nat.mod_two_ne_one.1 odd, Nat.zero_add]

theorem getLsbD_guestPage (x : Word) {j : Nat} (h : j < 52) : (guestPage x).getLsbD j = x.getLsbD (12 + j) := by
  rw [guestPage, BitVec.getLsbD_extractLsb', decide_eq_true h, Bool.true_and]

/-- `msi_match` (R268). -/
theorem msiMatch_eq_true {x : Word} {m p : BitVec 52} : msiMatch x m p = true ↔
    ∀ j < 52, m.getLsbD j = false → x.getLsbD (12 + j) = p.getLsbD j := by
  rw [msiMatch, beq_iff_eq, BitVec.eq_of_getLsbD_eq_iff]
  refine forall₂_congr fun j h => ?_
  simp only [BitVec.getLsbD_and, BitVec.getLsbD_xor, BitVec.getLsbD_not, getLsbD_guestPage x h, h]
  cases m.getLsbD j <;> simp

/-- `msi_index` (R268). -/
theorem msiIndex_lt (x : Word) (m : BitVec 52) : msiIndex x m < 2 ^ setBitsBelow m.toNat 52 := gather_lt ..

theorem msiIndex_testBit (x : Word) {m : BitVec 52} {j : Nat} (h : j < 52) (set : m.getLsbD j = true) :
    (msiIndex x m).testBit (setBitsBelow m.toNat j) = x.getLsbD (12 + j) := by
  rw [← getLsbD_guestPage x h]
  exact gather_testBit _ _ h set

theorem bit_decide (p : Prop) [Decidable p] : bit (decide p) = if p then 1 else 0 := by
  by_cases h : p <;> simp [bit, h]

theorem exec_msiIndex {x : Word} {s : State} (ext : s.cfg.dcFmt = .ext) : exec (.msiIndex x) s = .next (s.finish
    (result .ok (if msiMatch x s.blk.cfgMsiMask s.blk.cfgMsiPattern then 1 else 0)
      (BitVec.ofNat 64 (msiIndex x s.blk.cfgMsiMask))
      (s.cfg.msiBase + BitVec.ofNat 64 (16 * msiIndex x s.blk.cfgMsiMask))
      (if msiIndex x s.blk.cfgMsiMask < 256 * s.cfg.msiPages then 1 else 0))) := by
  have entry (i : Nat) : BitVec.ofNat 64 (msiEntry s.cfg i) = s.cfg.msiBase + BitVec.ofNat 64 (16 * i) := by
    rw [msiEntry, BitVec.ofNat_add, BitVec.ofNat_toNat, BitVec.setWidth_eq]
  change execMsiIndex x s = _
  rw [execMsiIndex, if_neg (not_not_intro ext)]
  simp only [entry, ↓bit_decide, msiEntries]
  rfl

/-- The address of an identity's doubleword in an MRIF (R270). -/
theorem mrifWord_eq (a0 a1 : Word) : a0 + 16 * (a1 >>> 6) = BitVec.ofNat 64 (a0.toNat + 16 * (a1.toNat / 64)) := by
  apply BitVec.eq_of_toNat_eq
  simp [Nat.shiftRight_eq_div_pow]

theorem exec_msiMrifLoc (a0 a1 : Word) (s : State) : exec (.msiMrifLoc a0 a1) s = .next (s.finish
    (if s.cfg.dcFmt = .base then result .errMode
     else if a0.toNat % 512 ≠ 0 then result .errAlign
     else if 2 ^ 56 ≤ a0.toNat ∨ 2048 ≤ a1.toNat then result .errRange
     else result .ok (BitVec.ofNat 64 (a0.toNat + 16 * (a1.toNat / 64))) (BitVec.ofNat 64 (a1.toNat % 64))
       (BitVec.ofNat 64 (a0.toNat + 16 * (a1.toNat / 64) + 8)))) := by
  have place : a1 &&& 63 = BitVec.ofNat 64 (a1.toNat % 64) :=
    eq_ofNat_of_toNat_eq (Nat.and_two_pow_sub_one_eq_mod a1.toNat 6)
  have past (n : Nat) : BitVec.ofNat 64 (n + 8) = BitVec.ofNat 64 n + 8 := BitVec.ofNat_add n 8
  change execMsiMrifLoc a0 a1 s = _
  simp only [execMsiMrifLoc, ne_ext_iff, Bool.or_eq_true, Bool.not_eq_true', ← Bool.not_eq_true (aligned _ _),
    ← Bool.not_eq_true (fits _ _), aligned_eq_true, fits_eq_true, decide_eq_true_eq, Nat.not_lt, Nat.reducePow, ne_eq,
    mrifWord_eq, place, past]
  split_ifs <;> rfl

end Sys2Proof.Machine
end

section
/-! PROOFS. O34. -/

namespace Sys2Proof.Machine

/-- Settles O34: the match and the index bit by bit, and MSI.MRIF_LOC as numbers. -/
theorem msiLocators : Obligations.MsiLocators := by
  refine ⟨fun x s base => if_pos (ne_ext_iff.2 base), fun x s ext => ?_, exec_msiMrifLoc⟩
  exact ⟨msiIndex x s.blk.cfgMsiMask, msiMatch x s.blk.cfgMsiMask s.blk.cfgMsiPattern, exec_msiIndex ext,
    msiMatch_eq_true, msiIndex_lt x _, fun j h set => msiIndex_testBit x h set⟩

end Sys2Proof.Machine
end

section
/-! SUPPORT. The MRIF update of an MSI write (R272), from access to access. -/

namespace Sys2Proof.Machine

/-! A store of fewer bytes than a doubleword. -/

theorem leValue_leBytes_getLsbD (n : Nat) (v : Word) {i : Nat} (h : i < 64) :
    (leValue (leBytes n v)).getLsbD i = (decide (i < 8 * n) && v.getLsbD i) := by
  induction n generalizing v i with
  | zero => simp [leBytes, leValue]
  | succ n ih =>
    simp only [leBytes, leValue, BitVec.getLsbD_or, BitVec.getLsbD_shiftLeft, BitVec.getLsbD_setWidth]
    by_cases first : i < 8
    · simp [first, h, show i < 8 * (n + 1) by omega]
    · rw [ih _ (by omega), BitVec.getLsbD_ushiftRight]
      simp [first, h, show 8 + (i - 8) = i by omega, show i - 8 < 8 * n ↔ i < 8 * (n + 1) by omega]

theorem load_storeN_same (m : Memory) (a n : Nat) (v : Word) :
    (m.storeN a n v).load a n = BitVec.ofNat 64 (v.toNat % 2 ^ (8 * n)) := by
  have bytes := Memory.bytes_store m a (leBytes n v)
  rw [leBytes_length] at bytes
  rw [Memory.load, Memory.storeN, bytes]
  refine BitVec.eq_of_getLsbD_eq fun i h => ?_
  rw [leValue_leBytes_getLsbD n v h, BitVec.getLsbD_ofNat, Nat.testBit_mod_two_pow, BitVec.testBit_toNat,
    decide_eq_true h, Bool.true_and]

/-! Runs of accesses. -/

theorem accessRun_ends {hold : Bool} {n : Nat} {x : Access} {s t : State} (h : accessNext hold x s = (none, t)) :
    accessRun hold (n + 1) x s = t := by
  rw [accessRun, h]

theorem accessRun_goes {hold : Bool} {n : Nat} {x y : Access} {s t : State}
    (h : accessNext hold x s = (some y, t)) : accessRun hold (n + 1) x s = accessRun hold n y t := by
  rw [accessRun, h]

/-! The accesses of an MRIF update. -/

section
variable {x : Transaction} (mrif notice nid : Word) (dtf hold : Bool) {s : State}

/-- A larger identity is discarded. -/
theorem mrif_discarded (large : 2048 ≤ x.data.toNat % 2 ^ 32) :
    accessFinish hold ⟨x, dtf, .mrif mrif notice nid⟩ s = { s with dev := .discarded } := by
  refine accessRun_ends ?_
  simp only [accessNext, large, decide_true, Bool.or_true, if_true]

variable (size : x.size = 4) (id : x.data.toNat % 2 ^ 32 < 2048)
  (pair : accessible s.cfg (mrifPair mrif (x.data.toNat % 2 ^ 32)) 16 = true)

/-- The state once the identity's pending bit is set. -/
def State.mrifPended (s : State) (mrif : Word) (d : Nat) : State :=
  ioStore (mrifPair mrif d) 8 (s.memIo.load64 (mrifPair mrif d) ||| BitVec.twoPow 64 (d % 64)) s

include size id pair in
/-- The pending bit is set before the enable bit is looked at. -/
theorem mrif_pended : accessFinish hold ⟨x, dtf, .mrif mrif notice nid⟩ s =
    accessRun hold 3 ⟨x, dtf, .enable (mrifPair mrif (x.data.toNat % 2 ^ 32)) notice nid⟩
      (s.mrifPended mrif (x.data.toNat % 2 ^ 32)) := by
  refine (accessRun_goes (t := s) (y := ⟨x, dtf, .pending _ _ notice nid⟩) ?_).trans (accessRun_goes rfl)
  simp only [accessNext, size, pair, Nat.not_le.2 id, ne_eq, not_true, decide_false, Bool.or_false, Bool.not_true,
    Bool.false_eq_true, if_false]

/-- The enable bit is not the pending bit: setting the one leaves the other. -/
theorem mrifPended_enable (d : Nat) : (s.mrifPended mrif d).memIo.load64 (mrifPair mrif d + 8) =
    s.wordIo (mrifPair mrif d + 8) := Memory.load64_store64_other _ _ _ _ (by omega)

theorem enableBit_index (x : Transaction) : x.data.toNat % 2 ^ 32 % 64 = x.data.toNat % 64 := by omega

include size id pair

/-- With the enable bit clear the update ends at the pending bit. -/
theorem mrif_not_enabled
    (enable : (s.wordIo (mrifPair mrif (x.data.toNat % 2 ^ 32) + 8)).getLsbD (x.data.toNat % 2 ^ 32 % 64) = false) :
    accessFinish hold ⟨x, dtf, .mrif mrif notice nid⟩ s =
      { s.mrifPended mrif (x.data.toNat % 2 ^ 32) with dev := .mrifUpdated false } := by
  rw [mrif_pended mrif notice nid dtf hold size id pair]
  refine accessRun_ends ?_
  rw [enableBit_index] at enable
  simp only [accessNext, mrifPended_enable, enable, Bool.false_eq_true, if_false]

/-- With the enable bit set the notice follows. -/
theorem mrif_enabled
    (enable : (s.wordIo (mrifPair mrif (x.data.toNat % 2 ^ 32) + 8)).getLsbD (x.data.toNat % 2 ^ 32 % 64) = true)
    (there : accessible s.cfg notice.toNat 4 = true) :
    accessFinish hold ⟨x, dtf, .mrif mrif notice nid⟩ s =
      { ioStore notice.toNat 4 nid (s.mrifPended mrif (x.data.toNat % 2 ^ 32)) with dev := .mrifUpdated true } := by
  rw [mrif_pended mrif notice nid dtf hold size id pair]
  have looked : accessNext hold ⟨x, dtf, .enable (mrifPair mrif (x.data.toNat % 2 ^ 32)) notice nid⟩
      (s.mrifPended mrif (x.data.toNat % 2 ^ 32)) =
      (some ⟨x, dtf, .notice notice nid⟩, s.mrifPended mrif (x.data.toNat % 2 ^ 32)) := by
    rw [enableBit_index] at enable
    simp only [accessNext, mrifPended_enable, enable, if_true]
  rw [accessRun_goes looked]
  refine accessRun_ends ?_
  simp only [accessNext, State.mrifPended, ioStore_cfg, there, if_true]

end

end Sys2Proof.Machine
end

section
/-! PROOFS. O36. -/

namespace Sys2Proof.Machine

/-- Settles O36: the accesses of the update, and what each store leaves. -/
theorem mrifUpdate : Obligations.MrifUpdate := by
  intro x mrif notice nid dtf hold s size
  refine ⟨mrif_discarded mrif notice nid dtf hold, fun id pair clear => ?clear, fun id pair enabled there => ?set⟩
  case clear =>
    rw [mrif_not_enabled mrif notice nid dtf hold size id pair clear]
    exact ⟨rfl, Memory.load64_store64_same _ _ _, fun a off => read_storeN_outside _ _ off⟩
  case set =>
    rw [mrif_enabled mrif notice nid dtf hold size id pair enabled there]
    refine ⟨?_, load_storeN_same _ _ 4 nid, fun apart => ?_, fun a offPair offNotice => ?_⟩
    · rw [List.append_cons]
      rfl
    · have apart := overlaps_eq_false.1 apart
      refine (Memory.load64_congr _ _ _ fun b low high => Memory.read_storeN _ _ 4 nid b ?_).trans
        (Memory.load64_store64_same _ _ _)
      omega
    · exact (read_storeN_outside _ nid offNotice).trans (read_storeN_outside _ _ offPair)

end Sys2Proof.Machine
end

section
/-! SUPPORT. The operations of the device directory (R292 to R310): each check as a number. -/

namespace Sys2Proof.Machine

/-! DDT.CONFIG and the mode operations. -/

theorem exec_ddtConfig (dtf : Bool) (a0 a1 a2 a3 : Word) (s : State) : exec (.ddtConfig dtf a0 a1 a2 a3) s =
    if 2 ^ 16 ≤ a0.toNat ∨ 2 ^ 20 ≤ a1.toNat ∨ 2 ^ 52 ≤ a2.toNat ∨ 2 ^ 52 ≤ a3.toNat then raise .errRange s
    else done (s.setBlk fun b => { b with
      cfgGscid := a0.setWidth 16, cfgPscid := a1.setWidth 20, cfgMsiMask := a2.setWidth 52,
      cfgMsiPattern := a3.setWidth 52, cfgDtf := dtf }) (result .ok) := by
  change execDdtConfig dtf a0 a1 a2 a3 s = _
  simp only [execDdtConfig, Bool.or_eq_true, Bool.not_eq_true', ← Bool.not_eq_true (fits _ _), fits_eq_true,
    Nat.not_lt, or_assoc]

/-! DDT.REBUILD's checks. -/

/-- DDT.REBUILD once its checks are passed (R296, R300). -/
def State.rebuild (s : State) (lv : BitVec 2) (a0 a1 : Word) : Host.Outcome State Fault Refusal :=
  match overContexts (fun a s => memWrite a (tcWord s.blk) s) (a1.toNat - a0.toNat + 1) a0.toNat
      (fence (buildContexts lv.toNat (a1.toNat - a0.toNat + 1) a0.toNat
        (s.cleared.setBlk fun b => { b with ddtNext := 1, ddtLvls := lv }))) with
  | none => .fault .contextAbsent
  | some v =>
    done (v.setBlk fun b =>
      { b with ddtReady := true, devValid := true, devLo := a0.setWidth 24, devHi := a1.setWidth 24 })
      (result .ok (v.blk.ddtNext.setWidth 64) (BitVec.ofNat 64 (a1.toNat - a0.toNat + 1)))

theorem leveled_iff (m : BitVec 4) : leveled m = true ↔ m.toNat = 2 ∨ m.toNat = 3 ∨ m.toNat = 4 := by
  simp [leveled, ← BitVec.toNat_inj, or_assoc]

theorem toNat_ddtpMode (v : BitVec 64) : (ddtpMode v).toNat = v.toNat % 16 := by
  rw [ddtpMode, BitVec.extractLsb'_toNat, Nat.shiftRight_zero]

/-- DDT.REBUILD with the environment at rest: its checks in order. -/
theorem exec_ddtRebuild {s : State} (rest : s.settled = true) (lv : BitVec 2) (lo hi : Word) :
    exec (.ddtRebuild lv lo hi) s =
      let mode := s.regs.ddtp.toNat % 16
      if lv = 0 then raise .errIllegalReq s
      else if hi.toNat < lo.toNat ∨ 2 ^ limBits s.cfg lv.toNat ≤ hi.toNat then raise .errRange s
      else if s.cfg.ddtPages < 1 + needPages s.cfg.dcFmt lv.toNat lo.toNat hi.toNat then raise .errPool s
      else if (mode = 2 ∨ mode = 3 ∨ mode = 4) ∧ mode ≠ lv.toNat + 1 then raise .errMode s
      else s.rebuild lv lo hi := by
  obtain ⟨calm, -⟩ := (settled_iff s).1 rest
  change execDdtRebuild lv lo hi s = _
  simp only [execDdtRebuild, mmioRead_settled rest, IommuRegs.get, Bool.or_eq_true, Bool.and_eq_true,
    decide_eq_true_eq, leveled_iff, bne_iff_ne, toNat_ddtpMode, zeroFill_stored calm]
  rfl

/-- The widest id and the pages of each level count (R290, R294). -/
theorem rebuild_bounds (c : Config) {lv : BitVec 2} (some : lv ≠ 0) (lo hi : Nat) :
    let b0 := if c.dcFmt = .ext then 6 else 7
    limBits c lv.toNat = min c.didW (if lv = 3 then 24 else if lv = 2 then b0 + 9 else b0) ∧
      1 + needPages c.dcFmt lv.toNat lo hi =
        if lv = 3 then 1 + (hi / 2 ^ (b0 + 9) - lo / 2 ^ (b0 + 9) + 1) + (hi / 2 ^ b0 - lo / 2 ^ b0 + 1)
        else if lv = 2 then 1 + (hi / 2 ^ b0 - lo / 2 ^ b0 + 1) else 1 := by
  have levels : lv = 1 ∨ lv = 2 ∨ lv = 3 := by
    revert lv
    decide
  rcases levels with rfl | rfl | rfl <;> cases fmt : c.dcFmt <;>
    simp [limBits, idBits, needPages, ddi0Bits, fmt, Nat.add_assoc]

/-! The mode operations' checks. -/

theorem exec_ddtSetS1Mode (m : BitVec 4) (s : State) : exec (.ddtSetS1Mode m) s =
    if m ≠ 0 ∧ m ≠ 8 then raise .errMode s
    else if m = 8 ∧ s.blk.ptReady = false then raise .errState s
    else updateContexts 24 m (s1Ppn s.blk) (s.setBlk fun b => { b with cfgS1Mode := m }) := by
  change execDdtSetS1Mode m s = _
  simp only [execDdtSetS1Mode, Bool.not_eq_true']
  rfl

theorem exec_ddtSetS2Mode (m : BitVec 4) (s : State) : exec (.ddtSetS2Mode m) s =
    if m ≠ 0 ∧ m ≠ 8 then raise .errMode s
    else if m = 8 ∧ s.blk.ptReady = false then raise .errState s
    else updateContexts 8 m (s2Ppn s.blk) (s.setBlk fun b => { b with cfgS2Mode := m }) := by
  change execDdtSetS2Mode m s = _
  simp only [execDdtSetS2Mode, Bool.not_eq_true']
  rfl

theorem exec_ddtSetMsiMode (m : BitVec 4) (s : State) : exec (.ddtSetMsiMode m) s =
    if s.cfg.dcFmt = .base then raise .errMode s
    else if m ≠ 0 ∧ m ≠ 1 then raise .errMode s
    else if m = 1 ∧ s.blk.msiReady = false then raise .errState s
    else updateContexts 32 m (msiPpn s.cfg s.blk) (s.setBlk fun b => { b with cfgMsiMode := m }) := by
  change execDdtSetMsiMode m s = _
  simp only [execDdtSetMsiMode, ne_ext_iff, Bool.not_eq_true']
  rfl

end Sys2Proof.Machine
end

section
/-! PROOFS. O37 and O38. -/

namespace Sys2Proof.Machine

/-- Settles O37: the checks as numbers; a field that fits its register is the argument's number. -/
theorem ddtConfigResults : Obligations.DdtConfigResults := by
  intro dtf a0 a1 a2 a3 s
  rw [exec_ddtConfig]
  split_ifs
  · rfl
  · simp only [BitVec.ofNat_toNat]
    rfl

/-- Settles O38: the checks of each operation, in order. -/
theorem ddtChecks : Obligations.DdtChecks := by
  refine ⟨fun lv lo hi s st rest => ?rebuild, fun m s => ⟨fun m0 m8 => ?mode, fun m8 unready => ?state,
    fun refused => ?msiMode, fun ext m1 unready => ?msiState⟩⟩
  case rebuild =>
    intro b0 width leaves mids pages mode refused
    rw [exec_ddtRebuild rest]
    by_cases code : lv = 0
    · rw [if_pos code] at refused ⊢
      exact refused ▸ rfl
    obtain ⟨ids, need⟩ := rebuild_bounds s.cfg code lo.toNat hi.toNat
    have ids : limBits s.cfg lv.toNat = width := ids
    have need : 1 + needPages s.cfg.dcFmt lv.toNat lo.toNat hi.toNat = pages := need
    simp only [ids, need]
    rw [if_neg code] at refused ⊢
    split_ifs at refused ⊢ with order room change
    iterate 2 exact refused ▸ rfl
    · exact refused.2.2 ▸ rfl
    · exact absurd ⟨refused.1, refused.2.1⟩ change
  case mode =>
    rw [exec_ddtSetS1Mode, exec_ddtSetS2Mode, if_pos ⟨m0, m8⟩, if_pos ⟨m0, m8⟩]
    exact ⟨rfl, rfl⟩
  case state =>
    rw [exec_ddtSetS1Mode, exec_ddtSetS2Mode, if_neg fun h => h.2 m8, if_pos ⟨m8, unready⟩, if_neg fun h => h.2 m8,
      if_pos ⟨m8, unready⟩]
    exact ⟨rfl, rfl⟩
  case msiMode =>
    rw [exec_ddtSetMsiMode]
    split_ifs with base mode
    iterate 2 rfl
    iterate 2 exact absurd refused (not_or.2 ⟨base, mode⟩)
  case msiState =>
    rw [exec_ddtSetMsiMode, if_neg (by simp [ext]), if_neg fun h => h.2 m1, if_pos ⟨m1, unready⟩]
    rfl

end Sys2Proof.Machine
end

section
/-! SUPPORT. The block's walk of its own directory (R291): the pages on the way to a device's context, what the walk
reads along them, and an operation that goes from context to context. -/

namespace Sys2Proof.Machine

section
variable {s : State} {l d k t : Nat}

/-- DDT.LOCATE of device `d` once its checks are passed (R310). -/
def State.locate (s : State) (d : Nat) : Host.Outcome State Fault Refusal :=
  match dcAddr d s with
  | (.error ea, s) => done s (result .none 0 (BitVec.ofNat 64 ea))
  | (.ok a, s) => done (memRead a s).2 (result .ok (BitVec.ofNat 64 a) (memRead a s).1)

/-- The link below the page `t` of device `d` that `k` links lead to, in a directory of `l` levels. -/
def linkBelow (c : Config) (l d k t : Nat) : Nat := t + 8 * ddi c.dcFmt d (l - 1 - k)

theorem pageAt_zero : s.pageAt l d 0 = some t ↔ t = s.cfg.ddtBase.toNat := by
  rw [State.pageAt, Option.some_inj, eq_comm]

theorem pageAt_succ {t' : Nat} : s.pageAt l d (k + 1) = some t' ↔
    ∃ t, s.pageAt l d k = some t ∧ (s.wordBlk (linkBelow s.cfg l d k t)).getLsbD 0 = true ∧
      t' = (fieldPa (s.wordBlk (linkBelow s.cfg l d k t))).toNat := by
  rw [State.pageAt]
  cases s.pageAt l d k with
  | none => simp
  | some t =>
    simp only [Option.some.injEq, exists_eq_left', Option.ite_none_right_eq_some, linkBelow, eq_comm (a := t')]

/-- A device's pages stay where its links do. -/
theorem pageAt_congr {u : State} (cfg : u.cfg = s.cfg) (links : ∀ k t, k + 1 < l → s.pageAt l d k = some t →
    u.wordBlk (linkBelow s.cfg l d k t) = s.wordBlk (linkBelow s.cfg l d k t)) (hk : k ≤ l - 1)
    (page : s.pageAt l d k = some t) : u.pageAt l d k = some t := by
  induction k generalizing t with
  | zero => rw [pageAt_zero, cfg, pageAt_zero.1 page]
  | succ k ih =>
    obtain ⟨t', above, valid, rfl⟩ := pageAt_succ.1 page
    have same := links k t' (by omega) above
    exact pageAt_succ.2 ⟨t', ih (by omega) above, by rw [cfg, same]; exact ⟨valid, rfl⟩⟩

/-! The walk. -/

section
variable (calm : s.weave = [])
include calm

/-- The walk stands at the page that the links before lead to. -/
theorem dcWalk_of_page (hk : k ≤ l - 1) (page : s.pageAt l d k = some t) :
    dcWalk s.cfg.dcFmt d (l - 1) s.cfg.ddtBase.toNat s = dcWalk s.cfg.dcFmt d (l - 1 - k) t s := by
  induction k generalizing t with
  | zero => rw [pageAt_zero.1 page, Nat.sub_zero]
  | succ k ih =>
    obtain ⟨t', above, valid, rfl⟩ := pageAt_succ.1 page
    have level : l - 1 - k = l - 1 - (k + 1) + 1 := by omega
    rw [linkBelow, level] at valid
    rw [ih (by omega) above, linkBelow, level, dcWalk, memRead_calm calm]
    simp only [valid, Bool.not_true, Bool.false_eq_true, if_false]

theorem dcAddr_found (page : s.pageAt s.blk.ddtLvls.toNat d (s.blk.ddtLvls.toNat - 1) = some t) :
    dcAddr d s = (.ok (t + dcBytes s.cfg.dcFmt * ddi s.cfg.dcFmt d 0), s) := by
  rw [dcAddr, dcWalk_of_page calm le_rfl page, Nat.sub_self, dcWalk]

theorem dcAddr_missing (deep : k + 1 < s.blk.ddtLvls.toNat) (page : s.pageAt s.blk.ddtLvls.toNat d k = some t)
    (invalid : (s.wordBlk (linkBelow s.cfg s.blk.ddtLvls.toNat d k t)).getLsbD 0 = false) :
    dcAddr d s = (.error (linkBelow s.cfg s.blk.ddtLvls.toNat d k t), s) := by
  have level : s.blk.ddtLvls.toNat - 1 - k = s.blk.ddtLvls.toNat - 1 - (k + 1) + 1 := by omega
  rw [linkBelow, level] at invalid ⊢
  rw [dcAddr, dcWalk_of_page calm (by omega) page, level, dcWalk, memRead_calm calm]
  simp only [invalid, Bool.not_false, if_true]

/-! DDT.LOCATE (R310). -/

omit calm in
theorem exec_ddtLocate {x : Word} (ready : s.blk.ddtReady = true)
    (narrow : x.toNat < 2 ^ limBits s.cfg s.blk.ddtLvls.toNat) : exec (.ddtLocate x) s = s.locate x.toNat := by
  change execDdtLocate x s = _
  rw [execDdtLocate, if_neg (by simp [ready]), if_neg (by omega)]
  rfl

theorem exec_ddtLocate_found {x : Word} (ready : s.blk.ddtReady = true)
    (narrow : x.toNat < 2 ^ limBits s.cfg s.blk.ddtLvls.toNat)
    (page : s.pageAt s.blk.ddtLvls.toNat x.toNat (s.blk.ddtLvls.toNat - 1) = some t) :
    let ctx := t + dcBytes s.cfg.dcFmt * ddi s.cfg.dcFmt x.toNat 0
    exec (.ddtLocate x) s = .next (s.finish (result .ok (BitVec.ofNat 64 ctx) (s.wordBlk ctx))) := by
  rw [exec_ddtLocate ready narrow, State.locate, dcAddr_found calm page]
  simp only [memRead_calm calm]
  rfl

theorem exec_ddtLocate_missing {x : Word} (ready : s.blk.ddtReady = true)
    (narrow : x.toNat < 2 ^ limBits s.cfg s.blk.ddtLvls.toNat) (deep : k + 1 < s.blk.ddtLvls.toNat)
    (page : s.pageAt s.blk.ddtLvls.toNat x.toNat k = some t)
    (invalid : (s.wordBlk (linkBelow s.cfg s.blk.ddtLvls.toNat x.toNat k t)).getLsbD 0 = false) :
    exec (.ddtLocate x) s =
      .next (s.finish (result .none 0 (BitVec.ofNat 64 (linkBelow s.cfg s.blk.ddtLvls.toNat x.toNat k t)))) := by
  rw [exec_ddtLocate ready narrow, State.locate, dcAddr_missing calm deep page invalid]
  rfl

end

/-- What holds before the first device and is kept from each device to the next holds after the last. -/
theorem overContexts_induct {P : Nat → State → Prop} {at_ : Nat → Nat} {f : Nat → State → State} {n r : Nat}
    (step : ∀ i u, n ≤ i → i < n + r → P i u → dcAddr i u = (.ok (at_ i), u) ∧ P (i + 1) (f (at_ i) u))
    (first : P n s) : ∃ u, overContexts f r n s = some u ∧ P (n + r) u := by
  induction r generalizing n s with
  | zero => exact ⟨s, rfl, first⟩
  | succ r ih =>
    obtain ⟨found, next⟩ := step n s le_rfl (by omega) first
    obtain ⟨u, run, last⟩ := ih (fun i u low high => step i u (by omega) (by omega)) next
    refine ⟨u, ?_, by rwa [Nat.add_assoc, Nat.add_comm 1] at last⟩
    rw [overContexts, found]
    exact run

end

end Sys2Proof.Machine
end

section
/-! PROOFS. O41. -/

namespace Sys2Proof.Machine

/-- Settles O41: the checks, and the two ends of the walk. -/
theorem ddtLocateResults : Obligations.DdtLocateResults := by
  refine ⟨fun d s unready => ?_, fun d s ready wide => ?_, fun d s k t calm ready narrow page => ?_⟩
  · exact if_pos (by simp [unready])
  · change execDdtLocate d s = _
    rw [execDdtLocate, if_neg (by simp [ready]), if_pos wide]
    rfl
  · intro b0 link ctx
    refine ⟨?_, fun deep invalid => exec_ddtLocate_missing calm ready narrow deep page invalid⟩
    rintro rfl
    have place : t + dcBytes s.cfg.dcFmt * ddi s.cfg.dcFmt d.toNat 0 = ctx := by
      cases fmt : s.cfg.dcFmt <;> simp [ctx, b0, fmt, dcBytes, ddi, ddi0Bits]
    rw [exec_ddtLocate_found calm ready narrow page, place]

end Sys2Proof.Machine
end

section
/-! SUPPORT. The update of one pointer doubleword of every configured context (R303, R304), when no other agent
moves. -/

namespace Sys2Proof.Machine

/-- A pointer doubleword with another mode and page number (R304). -/
def ptrWord (m : BitVec 4) (ppn e : Word) : Word := (e &&& 0x0FFFF00000000000) ||| (m.setWidth 64 <<< 60) ||| ppn

theorem toNat_ptrWord (m : BitVec 4) {ppn : Word} (page : ppn.toNat < 2 ^ 44) (e : Word) :
    (ptrWord m ppn e).toNat = m.toNat * 2 ^ 60 + e.toNat / 2 ^ 44 % 2 ^ 16 * 2 ^ 44 + ppn.toNat := by
  have kept : (e &&& 0x0FFFF00000000000).toNat = e.toNat / 2 ^ 44 % 2 ^ 16 * 2 ^ 44 :=
    toNat_and_field e (i := 44) (n := 16) (by omega)
  have low : (e &&& 0x0FFFF00000000000 ||| ppn).toNat = e.toNat / 2 ^ 44 % 2 ^ 16 * 2 ^ 44 + ppn.toNat := by
    rw [toNat_or_of_lt page (by omega), kept]
  have order : ptrWord m ppn e = (m.setWidth 64 <<< 60) ||| (e &&& 0x0FFFF00000000000 ||| ppn) :=
    (congrArg (· ||| ppn) (BitVec.or_comm _ _)).trans (BitVec.or_assoc ..)
  rw [order, toNat_pointer m (by omega), low, Nat.add_assoc]

theorem updatePtr_calm {u : State} (calm : u.weave = []) (m : BitVec 4) (ppn : Word) (a : Nat) :
    updatePtr m ppn a u = u.stored [⟨a, ptrWord m ppn (u.wordBlk a)⟩] := by
  rw [updatePtr, memRead_calm calm]
  exact memWrite_stored calm a _

/-- From `s` on, with the block's registers at `b`, the doubleword at byte `off` of the contexts of the configured
devices before `n` is updated, and nothing else of memory has changed. -/
structure UpdatedTo (s : State) (b : BlockRegs) (at_ : Nat → Nat) (off : Nat) (m : BitVec 4) (ppn : Word) (n : Nat)
    (u : State) : Prop where
  same : u = { s with blk := b, memBlk := u.memBlk, pend := u.pend }
  words : ∀ d, s.configured d → u.wordBlk (at_ d + off) =
    if d < n then ptrWord m ppn (s.wordBlk (at_ d + off)) else s.wordBlk (at_ d + off)
  others : ∀ a, (∀ d, s.configured d → d < n → ¬ within (at_ d + off) 8 a) → u.readBlk a = s.readBlk a

section
variable {s : State} {b : BlockRegs} {at_ : Nat → Nat} {off : Nat} {m : BitVec 4} {ppn : Word}

theorem updatedTo_start (b : BlockRegs) {n : Nat} (below : ∀ d, s.configured d → n ≤ d) :
    UpdatedTo s b at_ off m ppn n { s with blk := b } where
  same := rfl
  words d hd := (if_neg (Nat.not_lt.2 (below d hd))).symm
  others _ _ := rfl

variable (dir : s.DirectoryAt at_) (inside : off + 8 ≤ dcBytes s.cfg.dcFmt)
include dir inside

/-- No update touches a link on the way to a context. -/
theorem UpdatedTo.dcAddr {d n : Nat} {u : State} (h : UpdatedTo s b at_ off m ppn n u) (calm : s.weave = [])
    (levels : b.ddtLvls = s.blk.ddtLvls) (hd : s.configured d) : dcAddr d u = (.ok (at_ d), u) := by
  have cfg : u.cfg = s.cfg := by rw [h.same]
  have lvls : u.blk.ddtLvls = s.blk.ddtLvls := by rw [h.same]; exact levels
  obtain ⟨t, page, place⟩ := dir.found d hd
  have kept : u.pageAt s.blk.ddtLvls.toNat d (s.blk.ddtLvls.toNat - 1) = some t := by
    refine pageAt_congr cfg (fun k t' deep above => ?_) le_rfl page
    refine Memory.load64_congr _ _ _ fun a low high => h.others a fun d' hd' _ => ?_
    have apart := dir.links d' d k t' hd' hd deep above
    rw [linkBelow] at low high
    simp only [within]
    omega
  rw [dcAddr_found (by rw [h.same]; exact calm) (by rw [lvls]; exact kept), cfg, place]

/-- The next device's doubleword is updated. -/
theorem UpdatedTo.next {n : Nat} {u : State} (h : UpdatedTo s b at_ off m ppn n u) (calm : s.weave = [])
    (hn : s.configured n) : UpdatedTo s b at_ off m ppn (n + 1) (updatePtr m ppn (at_ n + off) u) := by
  rw [updatePtr_calm (by rw [h.same]; exact calm)]
  refine ⟨?_, fun d hd => ?_, fun a outside => ?_⟩
  · rw [h.same]
    rfl
  · by_cases now : d = n
    · subst now
      have value := h.words d hd
      rw [if_neg (lt_irrefl d)] at value
      rw [if_pos d.lt_succ_self, value]
      exact Memory.load64_store64_same _ _ _
    · have apart := dir.apart n d hn hd (Ne.symm now)
      have earlier : d < n + 1 ↔ d < n := by omega
      simp only [earlier]
      refine Eq.trans ?_ (h.words d hd)
      have clear : at_ d + off + 8 ≤ at_ n + off ∨ at_ n + off + 8 ≤ at_ d + off := by omega
      exact Memory.load64_store64_other _ _ _ _ clear
  · refine Eq.trans (read_storeN_outside _ _ (outside n hn n.lt_succ_self)) ?_
    exact h.others a fun d hd before => outside d hd (by omega)

end

/-- A context mode operation past its checks: the mode register, and one doubleword of every configured context. -/
theorem updateContexts_directory {s : State} {at_ : Nat → Nat} {off : Nat} {m : BitVec 4} {ppn : Word} {b : BlockRegs}
    (calm : s.weave = []) (dir : s.DirectoryAt at_) (inside : off + 8 ≤ dcBytes s.cfg.dcFmt)
    (levels : b.ddtLvls = s.blk.ddtLvls)
    (devices : b.devValid = s.blk.devValid ∧ b.devLo = s.blk.devLo ∧ b.devHi = s.blk.devHi)
    (page : ppn.toNat < 2 ^ 44) :
    ∃ t, updateContexts off m ppn { s with blk := b } = .next t ∧
      t.res = result .ok (BitVec.ofNat 64 (deviceCount s.blk)) ∧ t.blk = b ∧
      s.PtrsUpdated t at_ off m.toNat ppn.toNat := by
  obtain ⟨valid, lo, hi⟩ := devices
  have count : deviceCount b = deviceCount s.blk := by rw [deviceCount, deviceCount, valid, lo, hi]
  have configured (i : Nat) : s.configured i ↔
      s.blk.devLo.toNat ≤ i ∧ i < s.blk.devLo.toNat + deviceCount s.blk := by
    rw [State.configured, deviceCount]
    split
    · next ok => simp only [ok, true_and]; omega
    · next off => simp only [off, Bool.false_eq_true, false_and, false_iff]; omega
  obtain ⟨u, run, last⟩ := overContexts_induct (P := UpdatedTo s b at_ off m ppn) (at_ := at_)
    (f := fun a s => updatePtr m ppn (a + off) s) (n := s.blk.devLo.toNat) (r := deviceCount s.blk)
    (fun i u low high h => have hi := (configured i).2 ⟨low, high⟩
      ⟨h.dcAddr dir inside calm levels hi, h.next dir inside calm hi⟩)
    (updatedTo_start b fun d hd => ((configured d).1 hd).1)
  have same := last.same
  refine ⟨u.finish (result .ok (BitVec.ofNat 64 (deviceCount s.blk))), ?_, rfl, ?_, fun d hd => ?_, fun a outside => ?_,
    ?_, ?_⟩
  · simp only [updateContexts, count, lo]
    rw [run]
    rfl
  · rw [same]
    rfl
  · have value := last.words d hd
    rw [if_pos ((configured d).1 hd).2] at value
    exact (congrArg BitVec.toNat value).trans (toNat_ptrWord m page _)
  · exact last.others a fun d hd _ => outside d hd
  · rw [same]
    rfl
  · rw [same]
    constructor <;> rfl

end Sys2Proof.Machine
end

section
/-! PROOFS. O42. -/

namespace Sys2Proof.Machine

/-- A mode of R302 passes the checks of its operation. -/
theorem mode_checks_passed {m k : BitVec 4} {ready : Bool} (turnsOn : k ≠ 0) (legal : m = 0 ∨ m = k ∧ ready = true) :
    ¬ (m ≠ 0 ∧ m ≠ k) ∧ ¬ (m = k ∧ ready = false) := by
  rcases legal with rfl | ⟨rfl, rfl⟩
  · exact ⟨fun h => h.1 rfl, fun h => turnsOn h.1.symm⟩
  · exact ⟨fun h => h.2 rfl, fun h => nomatch h.2⟩

/-- Settles O42: each operation passes its checks and updates the doubleword of its stage, or of the MSI table. -/
theorem setModeUpdatesContexts : Obligations.SetModeUpdatesContexts := by
  intro m s at_ calm dir count
  have small : 32 ≤ dcBytes s.cfg.dcFmt := by cases s.cfg.dcFmt <;> decide
  refine ⟨fun legal => ?s1, fun legal => ?s2, fun ext range legal => ?msi⟩
  case s1 =>
    obtain ⟨known, ready⟩ := mode_checks_passed (by decide) legal
    rw [exec_ddtSetS1Mode, if_neg known, if_neg ready, ← toNat_s1Ppn]
    exact updateContexts_directory calm dir small rfl ⟨rfl, rfl, rfl⟩ (s1Ppn_lt _)
  case s2 =>
    obtain ⟨known, ready⟩ := mode_checks_passed (by decide) legal
    rw [exec_ddtSetS2Mode, if_neg known, if_neg ready, ← toNat_s2Ppn]
    exact updateContexts_directory calm dir (by omega) rfl ⟨rfl, rfl, rfl⟩ (s2Ppn_lt _)
  case msi =>
    obtain ⟨known, ready⟩ := mode_checks_passed (by decide) legal
    have page : (msiPpn s.cfg s.blk).toNat < 2 ^ 44 := by
      rw [toNat_msiPpn]
      split <;> omega
    rw [exec_ddtSetMsiMode, if_neg (by simp [ext]), if_neg known, if_neg ready, ← toNat_msiPpn]
    exact updateContexts_directory calm dir (by rw [ext]; decide) rfl ⟨rfl, rfl, rfl⟩ page

end Sys2Proof.Machine
end

section
/-! SUPPORT. DDT.SET_MODE's write of ddtp and its waits, with the IOMMU at rest (R39, R307, R308; log 6). -/

namespace Sys2Proof.Machine

/-- ddtp with a directory's page number and a mode (R39). -/
def ddtpWord (base : Word) (mode : Nat) : Word := BitVec.ofNat 64 (base.toNat / 4096 * 1024 + mode)

section
variable {base : Word} (range : base.toNat < 2 ^ 56)
include range

theorem toNat_ddtpWord {mode : Nat} (h : mode < 16) :
    (ddtpWord base mode).toNat = base.toNat / 4096 * 1024 + mode := by
  rw [ddtpWord, BitVec.toNat_ofNat, Nat.mod_eq_of_lt (by omega)]

theorem ddtpWord_idle {mode : Nat} (h : mode < 16) : ddtpBusy (ddtpWord base mode) = false := by
  rw [ddtpBusy, ← Bool.not_eq_true, getLsbD_eq_true, toNat_ddtpWord range h]
  omega

theorem ppnField_or_mode (m : BitVec 4) : ppnField base ||| m.setWidth 64 = ddtpWord base m.toNat := by
  have small := m.isLt
  have mode : (m.setWidth 64).toNat = m.toNat := by
    rw [BitVec.toNat_setWidth]
    omega
  rw [← BitVec.toNat_inj, toNat_ppnField_or base (by omega), toNat_ddtpWord range small]
  omega

/-- A write of the directory's page number with the mode `m` while the IOMMU is not busy: the mode taken is `m` if it is
supported, else the legal mode the IOMMU chooses, else the old one. -/
theorem ddtpWrite_page (c : Config) (warl m : BitVec 4) {old : Word} (idle : ddtpBusy old = false) :
    ddtpWrite c warl old (ppnField base ||| m.setWidth 64) =
      ddtpWord base (if c.iommuModes.getLsbD m.toNat then m.toNat
        else if c.iommuModes.getLsbD warl.toNat then warl.toNat else old.toNat % 16) := by
  have small := m.isLt
  have asked : ddtpMode (ddtpWord base m.toNat) = m := by
    rw [← BitVec.toNat_inj, toNat_ddtpMode, toNat_ddtpWord range small]
    omega
  have page : ddtpWord base m.toNat &&& ppnFieldMask = ppnField base := by
    rw [← BitVec.toNat_inj, toNat_and_ppnFieldMask, toNat_ppnField, toNat_ddtpWord range small]
    omega
  rw [ddtpWrite, if_neg (by simp [idle]), ppnField_or_mode range, asked, page, ppnField_or_mode range, apply_ite
    BitVec.toNat, apply_ite BitVec.toNat, toNat_ddtpMode]
  rfl

end

/-! The waits. -/

section
variable {s : State} (rest : s.settled = true) (polls : s.polls)
include rest

theorem pollDdtpIdle_settled : pollDdtpIdle s = (some (), s) := by
  obtain ⟨-, -, -, -, -, idle, -⟩ := (settled_iff s).1 rest
  simp [pollDdtpIdle, mmioRead_settled rest, IommuRegs.get, idle]

include polls

theorem setModeDone_settled (m : BitVec 4) : setModeDone m s =
    done s (if s.regs.ddtp.toNat % 16 = m.toNat then result .ok s.regs.ddtp else result .errMode s.regs.ddtp) := by
  rw [setModeDone, await_now polls (pollDdtpIdle_settled rest), setModeCheck, mmioRead_settled rest]
  simp only [IommuRegs.get, ne_eq, ← BitVec.toNat_inj, toNat_ddtpMode]
  split_ifs <;> rfl

/-- After a FENCE, with ddtp at `v` (R308). -/
def State.ddtpSet (s : State) (v : Word) : State := { fence s with regs := { s.regs with ddtp := v } }

omit polls in
theorem ddtpSet_settled {v : Word} (idle : ddtpBusy v = false) : (s.ddtpSet v).settled = true := by
  obtain ⟨calm, cq, fq, cqBusy, fqBusy, -, stopped, record, flight⟩ := (settled_iff s).1 rest
  rw [settled_iff, State.ddtpSet, fence_calm calm]
  exact ⟨calm, cq, fq, cqBusy, fqBusy, idle, stopped, record, flight⟩

/-- DDT.SET_MODE past its first checks: the refused change between leveled modes, or the write and its read-back. -/
theorem setModeReady_settled (range : s.cfg.ddtBase.toNat < 2 ^ 56) (m : BitVec 4) :
    let old := s.regs.ddtp.toNat % 16
    let isLeveled (k : Nat) : Prop := k = 2 ∨ k = 3 ∨ k = 4
    let taken := if s.cfg.iommuModes.getLsbD m.toNat then m.toNat
      else if s.cfg.iommuModes.getLsbD s.warlMode.toNat then s.warlMode.toNat else old
    let v := ddtpWord s.cfg.ddtBase taken
    setModeReady m s = if isLeveled old ∧ isLeveled m.toNat ∧ old ≠ m.toNat then raise .errMode s
      else done (s.ddtpSet v) (if taken = m.toNat then result .ok v else result .errMode v) := by
  intro old isLeveled taken v
  obtain ⟨calm, -, -, -, -, idle, -⟩ := (settled_iff s).1 rest
  have small : taken < 16 := by
    simp only [taken]
    split_ifs <;> omega
  have written : mmioWrite .ddtp (ppnField s.cfg.ddtBase ||| m.setWidth 64) (fence s) = s.ddtpSet v := by
    rw [State.ddtpSet, fence_calm calm, mmioWrite_calm (by exact calm), IommuRegs.set]
    simp only [ddtpWrite_page range _ _ _ idle]
    rfl
  have settled : (s.ddtpSet v).settled = true := ddtpSet_settled rest (ddtpWord_idle range small)
  have cfg : (s.ddtpSet v).cfg = s.cfg := by
    rw [State.ddtpSet, fence_calm calm]
  have mode : (s.ddtpSet v).regs.ddtp.toNat % 16 = taken := by
    change (ddtpWord s.cfg.ddtBase taken).toNat % 16 = taken
    rw [toNat_ddtpWord range small]
    omega
  have last : setModeDone m (s.ddtpSet v) =
      done (s.ddtpSet v) (if taken = m.toNat then result .ok v else result .errMode v) := by
    rw [setModeDone_settled settled (by rw [State.polls, cfg]; exact polls), mode]
    rfl
  rw [setModeReady, await_now polls (pollDdtpIdle_settled rest), setModeProgram, mmioRead_settled rest]
  simp only [IommuRegs.get, Bool.and_eq_true, leveled_iff, bne_iff_ne, ne_eq, ← BitVec.toNat_inj, toNat_ddtpMode,
    and_assoc, written, last]
  rfl

end

end Sys2Proof.Machine
end

section
/-! PROOFS. O43. -/

namespace Sys2Proof.Machine

/-- Settles O43: the checks, and the write with its read-back. -/
theorem ddtSetModeResults : Obligations.DdtSetModeResults := by
  intro m s rest polls range old left isLeveled ppn written
  obtain ⟨calm, -⟩ := (settled_iff s).1 rest
  have known (legal : m.toNat ≤ 4) : ¬ 4 < m.toNat := by omega
  refine ⟨fun wide => if_pos wide, fun two legal unbuilt => ?built, fun legal => ?legal⟩
  case built =>
    change execDdtSetMode m s = _
    rw [execDdtSetMode, if_neg (known legal), if_pos]
    · rfl
    · rcases unbuilt with unready | depth
      · simp [two, unready]
      · simp [two, depth]
  case legal =>
    have go : exec (.ddtSetMode m) s = setModeReady m s := by
      change execDdtSetMode m s = _
      rw [execDdtSetMode, if_neg (by omega), if_neg]
      rcases legal with small | ⟨-, ready, depth⟩
      · simp [Nat.not_le.2 small]
      · simp [ready, depth]
    have set (k : Nat) : s.ddtpSet (ddtpWord s.cfg.ddtBase k) = written k := by
      rw [State.ddtpSet, fence_calm calm]
      rfl
    have runs := setModeReady_settled rest polls range m
    refine ⟨fun a b c => ?_, fun free supported => ?_, fun free unsupported other => ?_⟩
    · rw [go, runs, if_pos ⟨a, b, c⟩]
      rfl
    · simp only [if_pos supported, set] at runs
      rw [go, runs, if_neg free]
      rfl
    · simp only [unsupported, Bool.false_eq_true, if_false, set] at runs
      rw [go, runs, if_neg free, if_neg other]
      rfl

end Sys2Proof.Machine
end

section
/-! SUPPORT. The run of DDT.REBUILD to its end (R296, R300), when it is not refused and the environment is at rest: the
pages it takes, and what of the state its stores leave as it was. -/

namespace Sys2Proof.Machine

/-- From `u` to `v` the block stored doublewords to the directory's region and took pages of it; nothing else
happened. -/
def StoredIn (c : Config) (u v : State) : Prop :=
  ∃ ws n, (∀ w ∈ ws, InDirectory c w.addr) ∧ v = (u.stored ws).setBlk fun b => { b with ddtNext := n }

/-- The bytes of the directory's region. -/
def inRegion (c : Config) : Nat → Prop := within c.ddtBase.toNat (4096 * c.ddtPages)

section
variable {c : Config} {s u v w : State}

theorem StoredIn.refl (c : Config) (u : State) : StoredIn c u u :=
  ⟨[], u.blk.ddtNext, List.forall_mem_nil _, by rw [State.stored, List.append_nil]; rfl⟩

theorem StoredIn.trans (h : StoredIn c u v) (k : StoredIn c v w) : StoredIn c u w := by
  obtain ⟨ws, n, inside, rfl⟩ := h
  obtain ⟨ws', n', inside', rfl⟩ := k
  refine ⟨ws ++ ws', n', fun w hw => (List.mem_append.1 hw).elim (inside w) (inside' w), ?_⟩
  simp only [State.stored, State.setBlk, drainAll_append, List.append_assoc]

theorem storedIn_store {e : Nat} (x : Word) (he : InDirectory c e) : StoredIn c u (u.stored [⟨e, x⟩]) :=
  ⟨[⟨e, x⟩], u.blk.ddtNext, by simpa using he, rfl⟩

theorem storedIn_setNext (u : State) (n : BitVec 32) : StoredIn c u (u.setBlk fun b => { b with ddtNext := n }) :=
  ⟨[], n, List.forall_mem_nil _, by rw [State.stored, List.append_nil]; rfl⟩

/-! What such stores leave. -/

theorem StoredIn.sameOutside (h : StoredIn c u v) : u.SameOutside v := by
  obtain ⟨ws, n, -, rfl⟩ := h
  constructor <;> rfl

theorem StoredIn.memIo (h : StoredIn c u v) : v.memIo = u.memIo := by
  obtain ⟨ws, n, -, rfl⟩ := h
  rfl

theorem outside_of_inDirectory {a : Nat} {p : PendingWrite} (hp : InDirectory c p.addr) (ha : ¬ inRegion c a) :
    a < p.addr ∨ p.addr + 8 ≤ a := by
  obtain ⟨-, low, high⟩ := hp
  simp only [inRegion, within] at ha
  omega

theorem StoredIn.asFenceOutside (h : StoredIn c u v) (frame : s.AsFenceOutside u (inRegion c)) :
    s.AsFenceOutside v (inRegion c) := by
  obtain ⟨ws, n, inside, rfl⟩ := h
  refine fun a ha => ⟨?_, (frame a ha).2⟩
  exact (drainAll_read_other u.memBlk ws a fun p hp => outside_of_inDirectory (inside p hp) ha).trans (frame a ha).1

theorem State.SameOutside.setBlk (h : s.SameOutside u) (f : BlockRegs → BlockRegs) : s.SameOutside (u.setBlk f) :=
  { h with }

theorem fence_sameOutside (calm : u.weave = []) : u.SameOutside (fence u) := by
  rw [fence_calm calm]
  constructor <;> rfl

/-- A FENCE after such stores, when there was nothing else to drain or to reveal. -/
theorem StoredIn.fence_asFenceOutside (h : StoredIn c u v) (calm : u.weave = []) (drained : u.pend = [])
    (revealed : u.unseen = []) (frame : s.AsFenceOutside u (inRegion c)) :
    s.AsFenceOutside (fence v) (inRegion c) := by
  obtain ⟨ws, n, inside, rfl⟩ := h
  intro a ha
  have apart := fun p hp => outside_of_inDirectory (inside p hp) ha
  have done : fence ((u.stored ws).setBlk fun b => { b with ddtNext := n }) =
      (fence (u.stored ws)).setBlk fun b => { b with ddtNext := n } := by
    rw [fence_calm (by exact calm), fence_calm (by exact calm)]
    rfl
  rw [done, fence_stored_clean calm drained revealed]
  exact ⟨(drainAll_read_other _ _ _ apart).trans (frame a ha).1, (drainAll_read_other _ _ _ apart).trans (frame a ha).2⟩

/-- The region zeroed. -/
theorem cleared_frame (calm : s.weave = []) :
    s.SameOutside s.cleared ∧ s.AsFenceOutside s.cleared (inRegion s.cfg) := by
  refine ⟨?_, fun a ha => fence_stored_other calm (zeros_apart ?_)⟩
  · rw [State.cleared, fence_stored calm]
    constructor <;> rfl
  · rwa [show 8 * (512 * s.cfg.ddtPages) = 4096 * s.cfg.ddtPages by omega]

end

/-! Links and contexts, device by device. -/

section
variable {c : Config} {b : BlockRegs} {l lo hi : Nat} {u : State}

/-- The pages in use when every device has its pages (R294). -/
theorem pagesUsed_end {f : DcFmt} (levels : 1 ≤ l ∧ l ≤ 3) (range : lo ≤ hi) :
    pagesUsed f l lo (hi + 1) (l - 1) = 1 + needPages f l lo hi := by
  obtain ⟨one, three⟩ := levels
  have ne : hi + 1 ≠ lo := by omega
  interval_cases l
  · rfl
  · simp [pagesUsed, pagesBefore, needPages, pageKey, ne]
  · simp [pagesUsed, pagesBefore, needPages, pageKey, ne, Finset.sum_range_succ]
    omega

variable (plan : DirectoryPlan c l lo hi)
include plan

/-- One link of device `n` is found, or made to the next page. -/
theorem Built.linkPath_succ {n i : Nat} (h : Built c b l lo hi (LinksOf n (i + 1)) (FieldsOf n) u) (low : lo ≤ n)
    (high : n ≤ hi) (deep : i + 1 < l) (used : u.blk.ddtNext.toNat = pagesUsed c.dcFmt l lo n (i + 1)) :
    ∃ v, Machine.linkPath n (i + 1) (directoryPageAt c l lo (i + 1) n) u =
        Machine.linkPath n i (directoryPageAt c l lo i n) v ∧
      Built c b l lo hi (LinksOf n i) (FieldsOf n) v ∧ v.blk.ddtNext.toNat = pagesUsed c.dcFmt l lo n i ∧
      StoredIn c u v := by
  obtain ⟨one, three⟩ := plan.levels
  have entry : directoryPageAt c l lo (i + 1) n + 8 * ddi c.dcFmt n (i + 1) = linkAt c l lo i n := rfl
  simp only [Machine.linkPath, memRead_calm h.calm, h.cfg, entry]
  by_cases old : lo < n ∧ pageKey c.dcFmt i (n - 1) = pageKey c.dcFmt i n
  · have found := h.link_old plan old.1 high deep old.2
    obtain ⟨number, target⟩ := directoryLink_target plan (by omega : i < l) (shared_of_range low high)
    have valid : (directoryLink c l lo i n).getLsbD 0 = true := by rw [valid_iff]; omega
    simp only [found, valid, target, Bool.not_true, Bool.false_eq_true, if_false]
    exact ⟨u, rfl, (h.known found).congr (fun _ _ _ _ _ => linksOf_succ) fun _ _ _ _ _ => .rfl,
      used.trans (pagesUsed_old deep three old.1 old.2).symm, .refl c u⟩
  · have key (more : lo < n) (same : pageKey c.dcFmt i (n - 1) = pageKey c.dcFmt i n) := old ⟨more, same⟩
    obtain ⟨number, next⟩ := pagesUsed_new deep three low key
    have page : c.ddtBase.toNat + 4096 * u.blk.ddtNext.toNat = directoryPageAt c l lo i n := by
      rw [directoryPageAt, number, used]
    have bound := directoryNum_lt plan.levels plan.range (by omega : i < l) (shared_of_range (j := i) (f := c.dcFmt)
      low high)
    have few := needPages_lt (lo := lo) plan.levels plan.ids
    have invalid : (0 : Word).getLsbD 0 = false := rfl
    simp only [h.link_new plan low high deep key, invalid, Bool.not_false, if_true, linkPage_calm h.calm, h.cfg, page]
    refine ⟨_, rfl, ((h.setNext _).link plan deep low high).congr (fun _ _ _ _ _ => linksOf_succ) fun _ _ _ _ _ => .rfl,
      ?_, (storedIn_setNext u _).trans (storedIn_store _ (linkAt_mem plan deep (shared_of_range low high)))⟩
    change (u.blk.ddtNext + 1).toNat = _
    rw [BitVec.toNat_add, show (1 : BitVec 32).toNat = 1 from rfl]
    omega

/-- The links of a device are stored in the region. -/
theorem Built.linkPath_storedIn {n i : Nat} (h : Built c b l lo hi (LinksOf n i) (FieldsOf n) u) (low : lo ≤ n)
    (high : n ≤ hi) (deep : i < l) (used : u.blk.ddtNext.toNat = pagesUsed c.dcFmt l lo n i) :
    StoredIn c u (Machine.linkPath n i (directoryPageAt c l lo i n) u).2 := by
  induction i generalizing u with
  | zero => exact .refl c u
  | succ i ih =>
    obtain ⟨v, step, built, next, stored⟩ := h.linkPath_succ plan low high deep used
    rw [step]
    exact stored.trans (ih built (by omega) next)

omit plan in
theorem writeWords_storedIn {ws : List Word} {a : Nat} (calm : u.weave = [])
    (inside : ∀ k < ws.length, InDirectory c (a + 8 * k)) : StoredIn c u (writeWords ws a u) := by
  induction ws generalizing a u with
  | nil => exact .refl c u
  | cons x ws ih =>
    rw [Machine.writeWords, memWrite_stored calm]
    refine (storedIn_store x (inside 0 (Nat.zero_lt_succ _))).trans (ih (by exact calm) fun k hk => ?_)
    have next := inside (k + 1) (Nat.succ_lt_succ hk)
    rwa [Nat.mul_succ, Nat.add_comm (8 * k), ← Nat.add_assoc] at next

/-- The links and the words but tc of one device. -/
theorem Built.device {n : Nat} (h : Built c b l lo hi (LinksOf n (l - 1)) (FieldsOf n) u) (low : lo ≤ n)
    (high : n ≤ hi) (used : u.blk.ddtNext.toNat = pagesUsed c.dcFmt l lo n (l - 1)) :
    let v := Machine.buildContexts l 1 n u
    Built c b l lo hi (LinksOf (n + 1) (l - 1)) (FieldsOf (n + 1)) v ∧
      v.blk.ddtNext.toNat = pagesUsed c.dcFmt l lo (n + 1) (l - 1) ∧ StoredIn c u v := by
  obtain ⟨one, three⟩ := plan.levels
  have root : directoryPageAt c l lo (l - 1) n = c.ddtBase.toNat := by
    rw [directoryPageAt, directoryNum, if_pos (by omega)]
    rfl
  obtain ⟨page, path, next⟩ := h.linkPath plan low high (by omega) used
  have links := h.linkPath_storedIn plan low high (by omega) used
  rw [root] at page path next links
  have length := contextWords_length c b
  have filled := path.writeWords plan (n := n) (k := 1) (ws := contextWords c b) low high (by omega) fun i => by
    rw [contextWord, Nat.add_comm, List.getD_cons_succ]
  simp only [Machine.buildContexts, h.cfg, page, path.toBuilding.contextWords, path.cfg]
  refine ⟨filled.congr (fun j d hj _ _ => ?_) fun d k _ _ hk => ?_, ?_,
    links.trans (writeWords_storedIn path.calm fun k hk => ?_)⟩
  · unfold LinksOf
    omega
  · unfold FieldsOf
    omega
  · rw [writeWords_blk path.calm, next, pagesUsed_next]
  · have place := contextAt_mem plan (shared_of_range low high) (by omega : k + 1 < dcBytes c.dcFmt / 8)
    rwa [Nat.mul_succ, Nat.add_comm (8 * k), ← Nat.add_assoc] at place

/-- The links and the words but tc of the devices from `n` on. -/
theorem Built.buildContexts_run {n r : Nat} (h : Built c b l lo hi (LinksOf n (l - 1)) (FieldsOf n) u) (low : lo ≤ n)
    (todo : n + r = hi + 1) (used : u.blk.ddtNext.toNat = pagesUsed c.dcFmt l lo n (l - 1)) :
    let v := Machine.buildContexts l r n u
    Built c b l lo hi (LinksOf (hi + 1) (l - 1)) (FieldsOf (hi + 1)) v ∧
      v.blk.ddtNext.toNat = pagesUsed c.dcFmt l lo (hi + 1) (l - 1) ∧ StoredIn c u v := by
  induction r generalizing n u with
  | zero =>
    obtain rfl : n = hi + 1 := todo
    exact ⟨h, used, .refl c u⟩
  | succ r ih =>
    obtain ⟨built, next, stored⟩ := h.device plan low (by omega) used
    obtain ⟨built, next, stored'⟩ := ih built (by omega) (by omega) next
    exact ⟨built, next, stored.trans stored'⟩

/-- The contexts of all devices are published. -/
theorem Built.publish (levels : b.ddtLvls.toNat = l)
    (h : Built c b l lo hi (LinksOf (hi + 1) (l - 1)) (FieldsOf (hi + 1)) u) :
    ∃ v, Machine.overContexts (fun a s => memWrite a (Machine.tcWord s.blk) s) (hi - lo + 1) lo u = some v ∧
      Built c b l lo hi (LinksOf (hi + 1) (l - 1)) (PublishedTo (hi + 1)) v ∧ StoredIn c u v ∧ v.blk = u.blk := by
  obtain ⟨one, three⟩ := plan.levels
  have range := plan.range
  have start : Built c b l lo hi (LinksOf (hi + 1) (l - 1)) (PublishedTo lo) u :=
    h.congr (fun _ _ _ _ _ => .rfl) fun d k low high hk => by
      unfold PublishedTo FieldsOf
      omega
  have words : 0 < dcBytes c.dcFmt / 8 := by cases c.dcFmt <;> decide
  have last : lo + (hi - lo + 1) = hi + 1 := by omega
  rw [← last]
  refine overContexts_induct (at_ := contextAt c l lo) (P := fun n v =>
    Built c b l lo hi (LinksOf (lo + (hi - lo + 1)) (l - 1)) (PublishedTo n) v ∧ StoredIn c u v ∧ v.blk = u.blk) ?_
    ⟨last ▸ start, .refl c u, rfl⟩
  rintro i v low high ⟨built, stored, blk⟩
  rw [last] at built ⊢
  have root : directoryPageAt c l lo (l - 1) i = c.ddtBase.toNat := by
    rw [directoryPageAt, directoryNum, if_pos (by omega)]
    rfl
  have lvls : v.blk.ddtLvls.toNat = l := by
    rw [built.blk]
    exact levels
  have found := built.dcWalk plan low (by omega) (by omega : l - 1 < l)
  rw [root] at found
  refine ⟨by rw [dcAddr, built.cfg, lvls, found], ?_⟩
  rw [memWrite_stored built.calm, built.tcWord]
  refine ⟨(built.word plan words low (by omega)).congr (fun _ _ _ _ _ => .rfl) fun d k _ _ _ => ?_,
    stored.trans (storedIn_store _ (contextAt_mem plan (shared_of_range low (by omega)) words)), blk⟩
  unfold PublishedTo
  omega

end

/-! DDT.REBUILD. -/

/-- The two ends of DDT.REBUILD's work on its region: `u` when all but tc of every context is written and drained, `v`
when every context is published. -/
structure Rebuilt (s : State) (lv : BitVec 2) (lo hi : Nat) (u v : State) : Prop where
  filled : Built s.cfg { s.blk with ddtLvls := lv } lv.toNat lo hi (LinksOf (hi + 1) (lv.toNat - 1))
    (FieldsOf (hi + 1)) u
  drained : u.pend = []
  published : Built s.cfg { s.blk with ddtLvls := lv } lv.toNat lo hi (LinksOf (hi + 1) (lv.toNat - 1))
    (PublishedTo (hi + 1)) v
  io : v.memIo = u.memIo
  next : v.blk.ddtNext.toNat = 1 + needPages s.cfg.dcFmt lv.toNat lo hi
  same : s.SameOutside v
  frame : s.AsFenceOutside v (inRegion s.cfg)

/-- The end of DDT.REBUILD: the directory is ready, for the devices from `a0` to `a1` (R296). -/
def State.directoryReady (v : State) (a0 a1 : Word) (pages : Nat) : State :=
  (v.setBlk fun b =>
    { b with ddtReady := true, devValid := true, devLo := a0.setWidth 24, devHi := a1.setWidth 24 }).finish
      (result .ok (BitVec.ofNat 64 pages) (BitVec.ofNat 64 (a1.toNat - a0.toNat + 1)))

theorem exec_ddtRebuild_built {s : State} {lv : BitVec 2} {a0 a1 : Word} (rest : s.settled = true)
    (plan : DirectoryPlan s.cfg lv.toNat a0.toNat a1.toNat) (ids : a1.toNat < 2 ^ limBits s.cfg lv.toNat)
    (mode : s.regs.ddtp.toNat % 16 = lv.toNat + 1 ∨ s.regs.ddtp.toNat % 16 < 2 ∨ 4 < s.regs.ddtp.toNat % 16) :
    ∃ u v, Rebuilt s lv a0.toNat a1.toNat u v ∧ exec (.ddtRebuild lv a0 a1) s =
      .next (v.directoryReady a0 a1 (1 + needPages s.cfg.dcFmt lv.toNat a0.toNat a1.toNat)) := by
  obtain ⟨calm, -⟩ := (settled_iff s).1 rest
  obtain ⟨one, three⟩ := plan.levels
  have range := plan.range
  have room := plan.room
  have start := built_cleared (l := lv.toNat) (lo := a0.toNat) (hi := a1.toNat) calm lv
  obtain ⟨sameStart, frameStart⟩ := cleared_frame calm
  have drained : s.cleared.pend = [] ∧ s.cleared.unseen = [] := by
    rw [State.cleared, fence_stored calm]
    exact ⟨rfl, rfl⟩
  obtain ⟨built, used, stored⟩ := start.buildContexts_run plan (r := a1.toNat - a0.toNat + 1) le_rfl (by omega)
    pagesUsed_start.symm
  have filled := built.fence
  have pend : (fence _).pend = [] := congrArg State.pend built.fence_eq
  have page : (fence _).blk.ddtNext = _ := congrArg (fun u : State => u.blk.ddtNext) built.fence_eq
  obtain ⟨v, run, published, stored', blk⟩ := filled.publish plan rfl
  have next : v.blk.ddtNext.toNat = 1 + needPages s.cfg.dcFmt lv.toNat a0.toNat a1.toNat := by
    rw [blk, page, used, pagesUsed_end plan.levels plan.range]
  have same := ((sameStart.setBlk _).trans stored.sameOutside).trans
    ((fence_sameOutside built.calm).trans stored'.sameOutside)
  have frame := stored'.asFenceOutside (stored.fence_asFenceOutside start.calm drained.1 drained.2 frameStart)
  refine ⟨_, v, ⟨filled, pend, published, stored'.memIo, next, same, frame⟩, ?_⟩
  have number : v.blk.ddtNext.setWidth 64 = BitVec.ofNat 64 (v.blk.ddtNext.toNat) := (BitVec.ofNat_toNat ..).symm
  rw [exec_ddtRebuild rest]
  simp only
  rw [if_neg fun zero => by simp [zero] at one, if_neg (by omega), if_neg (by omega), if_neg (by omega), State.rebuild,
    run]
  change done _ (result .ok (v.blk.ddtNext.setWidth 64) _) = _
  rw [number, next]
  rfl

end Sys2Proof.Machine
end

section
/-! SUPPORT. The directory that DDT.REBUILD leaves, as the block sees it (R291, R293, R310). -/

namespace Sys2Proof.Machine

/-- The block's walk goes where the IOMMU's would. -/
theorem pageAt_of_directoryPage {t : State} {l d k p : Nat}
    (h : directoryPage t.cfg t.memBlk t.cfg.ddtBase.toNat l d k = some p) : t.pageAt l d k = some p := by
  induction k generalizing p with
  | zero => exact h
  | succ k ih =>
    rw [directoryPage] at h
    cases above : directoryPage t.cfg t.memBlk t.cfg.ddtBase.toNat l d k with
    | none =>
      rw [above] at h
      cases h
    | some p' =>
      rw [above] at h
      simp only at h
      split at h
      · next good =>
        obtain ⟨-, valid, -, -⟩ := good
        cases h
        exact pageAt_succ.2 ⟨p', ih above, (valid_iff _).2 valid, (toNat_fieldPa _).symm⟩
      · cases h

/-! The contexts. -/

/-- Runs of doublewords with none in common lie apart. -/
theorem apart_of_words {a b m n : Nat} (ha : a % 8 = 0) (hb : b % 8 = 0) (hm : 0 < m) (hn : 0 < n)
    (h : ∀ i < m, ∀ j < n, a + 8 * i ≠ b + 8 * j) : a + 8 * m ≤ b ∨ b + 8 * n ≤ a := by
  by_contra meet
  rcases Nat.le_total a b with le | le
  · exact h ((b - a) / 8) (by omega) 0 hn (by omega)
  · exact h 0 hm ((a - b) / 8) (by omega) (by omega)

/-- The numbers of R293 are those of the words the block writes. -/
theorem contextNumbers_eq {c : Config} (b : BlockRegs) (range : c.msiBase.toNat < 2 ^ 56) :
    contextNumbers c b = (List.range (dcBytes c.dcFmt / 8)).map fun k => (contextWord c b k).toNat := by
  have tc : (contextWord c b 0).toNat = 1 + 16 * b.cfgDtf.toNat := by
    rw [contextWord_zero]
    cases b.cfgDtf <;> rfl
  cases fmt : c.dcFmt with
  | base =>
    simp [contextNumbers, fmt, dcBytes, List.range_succ, tc, toNat_contextWord_one, toNat_contextWord_two,
      toNat_contextWord_three, toNat_s2Ppn, toNat_s1Ppn]
  | ext =>
    have wide (v : BitVec 52) : (v.setWidth 64).toNat = v.toNat := by
      have := v.isLt
      rw [BitVec.toNat_setWidth]
      omega
    simp [contextNumbers, fmt, dcBytes, List.range_succ, tc, toNat_contextWord_one, toNat_contextWord_two,
      toNat_contextWord_three, toNat_s2Ppn, toNat_s1Ppn, toNat_contextWord_four fmt range, contextWord_five b fmt,
      contextWord_six b fmt, contextWord_seven b fmt, wide]

theorem holdsContext_of_words {t : State} {b : BlockRegs} {a : Nat} (range : t.cfg.msiBase.toNat < 2 ^ 56)
    (same : contextNumbers t.cfg t.blk = contextNumbers t.cfg b)
    (words : ∀ k < dcBytes t.cfg.dcFmt / 8, t.wordBlk (a + 8 * k) = contextWord t.cfg b k) : t.HoldsContext a := by
  intro k hk
  rw [same, contextNumbers_eq b range, List.length_map, List.length_range] at hk
  simp only [same, contextNumbers_eq b range, List.getElem_map, List.getElem_range]
  rw [words k hk, BitVec.ofNat_toNat, BitVec.setWidth_eq]

/-! The whole directory. -/

/-- The block's registers and its view of memory describe the directory of the devices from `lo` to `hi`. -/
structure State.HasDirectory (t : State) (c : Config) (b : BlockRegs) (l lo hi : Nat) : Prop where
  plan : DirectoryPlan c l lo hi
  calm : t.weave = []
  cfg : t.cfg = c
  ready : t.blk.ddtReady = true
  lvls : t.blk.ddtLvls.toNat = l
  devices : ∀ d, t.configured d ↔ lo ≤ d ∧ d ≤ hi
  memory : DirectoryIn c b l lo hi t.memBlk

section
variable {t : State} {c : Config} {b : BlockRegs} {l lo hi d : Nat} (h : t.HasDirectory c b l lo hi)
include h

theorem State.HasDirectory.pageAt {k : Nat} (hk : k < l) (shared : Shared c.dcFmt l lo hi (l - 1 - k) d) :
    t.pageAt l d k = some (directoryPageAt c l lo (l - 1 - k) d) := by
  obtain rfl := h.cfg
  exact pageAt_of_directoryPage (h.memory.directoryPage h.plan hk shared)

theorem State.HasDirectory.leafAt (shared : Shared c.dcFmt l lo hi 0 d) :
    t.pageAt l d (l - 1) = some (directoryPageAt c l lo 0 d) := by
  obtain ⟨one, -⟩ := h.plan.levels
  have page := h.pageAt (k := l - 1) (d := d) (by omega) (by rwa [Nat.sub_self])
  rwa [Nat.sub_self] at page

/-- Each device of the range has a context, apart from the others and from the links. -/
theorem State.HasDirectory.directoryAt : t.DirectoryAt (contextAt c l lo) := by
  have plan := h.plan
  obtain ⟨one, three⟩ := plan.levels
  obtain rfl := h.cfg
  have size := dcBytes_words t.cfg.dcFmt
  have words : 0 < dcBytes t.cfg.dcFmt / 8 := by cases t.cfg.dcFmt <;> decide
  have aligned {d : Nat} (low : lo ≤ d) (high : d ≤ hi) : contextAt t.cfg l lo d % 8 = 0 :=
    (contextAt_mem plan (shared_of_range low high) words).aligned
  constructor
  case found =>
    intro d hd
    obtain ⟨low, high⟩ := (h.devices d).1 hd
    rw [h.lvls]
    exact ⟨_, h.leafAt (shared_of_range low high), rfl⟩
  case apart =>
    intro d d' hd hd' ne
    obtain ⟨low, high⟩ := (h.devices d).1 hd
    obtain ⟨low', high'⟩ := (h.devices d').1 hd'
    rw [size]
    refine apart_of_words (aligned low high) (aligned low' high') words words fun i hi' j hj same => ne ?_
    exact (contextAt_inj plan (shared_of_range low high) (shared_of_range low' high') (plan.narrow high)
      (plan.narrow high') hi' hj same).1
  case links =>
    intro d d' k p hd hd' deep page
    obtain ⟨low, high⟩ := (h.devices d).1 hd
    obtain ⟨low', high'⟩ := (h.devices d').1 hd'
    rw [h.lvls] at deep page ⊢
    rw [h.pageAt (by omega) (shared_of_range low' high'), Option.some_inj] at page
    have level : l - 1 - k = l - 1 - (k + 1) + 1 := by omega
    have entry : p + 8 * ddi t.cfg.dcFmt d' (l - 1 - k) = linkAt t.cfg l lo (l - 1 - (k + 1)) d' := by
      rw [← page, level]
      rfl
    have place := (linkAt_mem plan (by omega : l - 1 - (k + 1) + 1 < l) (shared_of_range low' high')).aligned
    rw [entry, size]
    refine apart_of_words (m := 1) place (aligned low high) Nat.one_pos words fun i hi' j hj same => ?_
    obtain rfl : i = 0 := by omega
    exact linkAt_ne_contextAt plan (by omega) (shared_of_range low' high') (shared_of_range low high) hj same

/-! DDT.LOCATE in it. -/

variable {x : Word} (narrow : x.toNat < 2 ^ limBits c l)
include narrow

theorem State.HasDirectory.locate_leaf (shared : Shared c.dcFmt l lo hi 0 x.toNat) : exec (.ddtLocate x) t =
    .next (t.finish
      (result .ok (BitVec.ofNat 64 (contextAt c l lo x.toNat)) (t.wordBlk (contextAt c l lo x.toNat)))) := by
  obtain rfl := h.cfg
  obtain rfl := h.lvls
  exact exec_ddtLocate_found h.calm h.ready narrow (h.leafAt shared)

theorem State.HasDirectory.locate_noLink {j : Nat} (hj : j + 1 < l) (here : Shared c.dcFmt l lo hi (j + 1) x.toNat)
    (below : ¬ Shared c.dcFmt l lo hi j x.toNat) :
    exec (.ddtLocate x) t = .next (t.finish (result .none 0 (BitVec.ofNat 64 (linkAt c l lo j x.toNat)))) := by
  obtain rfl := h.cfg
  obtain rfl := h.lvls
  have level : t.blk.ddtLvls.toNat - 1 - (t.blk.ddtLvls.toNat - 1 - (j + 1)) = j + 1 := by omega
  have page := h.pageAt (k := t.blk.ddtLvls.toNat - 1 - (j + 1)) (by omega) (by rwa [level])
  have entry : linkBelow t.cfg t.blk.ddtLvls.toNat x.toNat (t.blk.ddtLvls.toNat - 1 - (j + 1))
      (directoryPageAt t.cfg t.blk.ddtLvls.toNat lo (j + 1) x.toNat) =
        linkAt t.cfg t.blk.ddtLvls.toNat lo j x.toNat := by
    rw [linkBelow, level]
    rfl
  have ids : x.toNat < 2 ^ idBits t.cfg.dcFmt t.blk.ddtLvls.toNat :=
    narrow.trans_le (Nat.pow_le_pow_right (by omega) (Nat.min_le_right _ _))
  have zero : t.wordBlk (linkAt t.cfg t.blk.ddtLvls.toNat lo j x.toNat) = 0 := h.memory.noLink j _ hj ids here below
  rw [level] at page
  rw [← entry] at zero ⊢
  exact exec_ddtLocate_missing h.calm h.ready narrow (by omega) page (by rw [zero]; rfl)

/-- A device of the range is found, with its tc. -/
theorem State.HasDirectory.locate_inside (low : lo ≤ x.toNat) (high : x.toNat ≤ hi) : exec (.ddtLocate x) t =
    .next (t.finish (result .ok (BitVec.ofNat 64 (contextAt c l lo x.toNat)) (if b.cfgDtf then 0x11 else 1))) := by
  have words : 0 < dcBytes c.dcFmt / 8 := by cases c.dcFmt <;> decide
  have tc : t.wordBlk (contextAt c l lo x.toNat) = contextWord c b 0 := h.memory.words _ 0 low high words
  have value : contextWord c b 0 = if b.cfgDtf then 0x11 else 1 := by
    rw [contextWord_zero]
    cases b.cfgDtf <;> rfl
  rw [h.locate_leaf narrow (shared_of_range low high), tc, value]

/-- Another device is not found, or has a tc of 0. -/
theorem State.HasDirectory.locate_outside (off : ¬ (lo ≤ x.toNat ∧ x.toNat ≤ hi)) :
    ∃ u, exec (.ddtLocate x) t = .next u ∧
      (u.res.status = Status.none.code ∨ (u.res.status = Status.ok.code ∧ u.res.r1 = 0)) := by
  obtain ⟨one, three⟩ := h.plan.levels
  by_cases leaf : Shared c.dcFmt l lo hi 0 x.toNat
  · have ids : x.toNat < 2 ^ idBits c.dcFmt l :=
      narrow.trans_le (Nat.pow_le_pow_right (by omega) (Nat.min_le_right _ _))
    exact ⟨_, h.locate_leaf narrow leaf, .inr ⟨rfl, h.memory.noContext _ ids leaf off⟩⟩
  · have two : 1 < l := by
      by_contra root
      exact leaf (.inl (by omega))
    by_cases middle : Shared c.dcFmt l lo hi 1 x.toNat
    · exact ⟨_, h.locate_noLink narrow two middle leaf, .inl rfl⟩
    · have three : 2 < l := by
        by_contra root
        exact middle (.inl (by omega))
      exact ⟨_, h.locate_noLink narrow three (.inl (by omega)) middle, .inl rfl⟩

end

/-! The directory of a rebuild. -/

theorem idBits_le (f : DcFmt) (l : Nat) : idBits f l ≤ 24 := by
  unfold idBits
  split <;> omega

/-- A rebuild that R296 does not refuse has its directory's plan. -/
theorem directoryPlan_of_placed {s : State} {l lo hi : Nat} (placed : wellPlaced s = true) (levels : 1 ≤ l ∧ l ≤ 3)
    (range : lo ≤ hi) (ids : hi < 2 ^ limBits s.cfg l) (room : 1 + needPages s.cfg.dcFmt l lo hi ≤ s.cfg.ddtPages) :
    DirectoryPlan s.cfg l lo hi := by
  obtain ⟨base, fits, window⟩ := wellPlaced_ddt placed
  exact ⟨levels, range, ids.trans_le (Nat.pow_le_pow_right (by omega) (Nat.min_le_right _ _)), room, base, fits, window⟩

section
variable {s u v : State} {lv : BitVec 2} {a0 a1 : Word} {pages : Nat} (run : Rebuilt s lv a0.toNat a1.toNat u v)
include run

theorem Rebuilt.ready_blk : (v.directoryReady a0 a1 pages).blk = { s.blk with
    ddtReady := true, ddtLvls := lv, ddtNext := v.blk.ddtNext, devValid := true, devLo := a0.setWidth 24,
    devHi := a1.setWidth 24 } := by
  rw [State.directoryReady, finish_blk, setBlk_blk, run.published.blk]

theorem Rebuilt.ready_sameOutside : s.SameOutside (v.directoryReady a0 a1 pages) := { run.same with }

theorem Rebuilt.hasDirectory (calm : s.weave = []) (plan : DirectoryPlan s.cfg lv.toNat a0.toNat a1.toNat) :
    (v.directoryReady a0 a1 pages).HasDirectory s.cfg { s.blk with ddtLvls := lv } lv.toNat a0.toNat a1.toNat where
  plan := plan
  calm := run.same.weave.trans calm
  cfg := run.same.cfg
  ready := rfl
  lvls := by rw [run.ready_blk]
  devices d := by
    have ids := plan.ids
    have wide : 2 ^ idBits s.cfg.dcFmt lv.toNat ≤ 2 ^ 24 := Nat.pow_le_pow_right (by omega) (idBits_le ..)
    have range := plan.range
    rw [State.configured, run.ready_blk]
    simp only [true_and, BitVec.toNat_setWidth]
    rw [Nat.mod_eq_of_lt (by omega), Nat.mod_eq_of_lt (by omega)]
  memory := run.published.directoryIn plan fun _ _ => rfl

/-- The words of a context are those of R293. -/
theorem Rebuilt.holdsContext {a : Nat} (placed : wellPlaced s = true)
    (words : ∀ k < dcBytes s.cfg.dcFmt / 8,
      v.wordBlk (a + 8 * k) = contextWord s.cfg { s.blk with ddtLvls := lv } k) :
    (v.directoryReady a0 a1 pages).HoldsContext a := by
  obtain ⟨-, range⟩ := wellPlaced_msi placed
  have cfg : (v.directoryReady a0 a1 pages).cfg = s.cfg := run.same.cfg
  refine holdsContext_of_words (b := { s.blk with ddtLvls := lv }) (cfg ▸ range) ?_ (cfg ▸ words)
  rw [run.ready_blk]
  rfl

end

end Sys2Proof.Machine
end

section
/-! PROOFS. O40. -/

namespace Sys2Proof.Machine

/-- Settles O40: the run of DDT.REBUILD, and what the directory it leaves means to the block. -/
theorem ddtRebuildBuildsDirectory : Obligations.DdtRebuildBuildsDirectory := by
  intro lv lo hi s rest placed wf ids room mode
  simp only [Instr.wellFormed, Bool.and_eq_true, bne_iff_ne, ne_eq, decide_eq_true_eq, fits_eq_true] at wf
  obtain ⟨⟨some, range⟩, -⟩ := wf
  have levels : 1 ≤ lv.toNat ∧ lv.toNat ≤ 3 :=
    ⟨Nat.pos_of_ne_zero fun zero => some (BitVec.toNat_inj.1 zero), by have := lv.isLt; omega⟩
  have plan := directoryPlan_of_placed placed levels range ids room
  obtain ⟨calm, -⟩ := (settled_iff s).1 rest
  obtain ⟨u, v, run, e⟩ := exec_ddtRebuild_built rest plan ids mode
  have directory := run.hasDirectory calm plan (pages := 1 + needPages s.cfg.dcFmt lv.toNat lo.toNat hi.toNat)
  have number {d : Nat} (narrow : d < 2 ^ limBits s.cfg lv.toNat) : (BitVec.ofNat 64 d).toNat = d := by
    have width : 2 ^ limBits s.cfg lv.toNat ≤ 2 ^ 24 :=
      Nat.pow_le_pow_right (by omega) ((Nat.min_le_right _ _).trans (idBits_le ..))
    rw [BitVec.toNat_ofNat, Nat.mod_eq_of_lt (by omega)]
  refine ⟨_, _, e, rfl, directory.directoryAt, directory.devices, fun d low high => ⟨?holds, ?found⟩,
    fun d narrow off => ?missing, run.ready_sameOutside, run.frame⟩
  case holds => exact run.holdsContext placed fun k hk => run.published.words d k low high hk (.inr (by omega))
  case found =>
    have same := number (high.trans_lt ids)
    have found := directory.locate_inside (x := BitVec.ofNat 64 d) (by omega) (by omega) (by omega)
    rwa [same] at found
  case missing =>
    have same := number narrow
    exact directory.locate_outside (x := BitVec.ofNat 64 d) (by omega) (by omega)

end Sys2Proof.Machine
end

section
/-! SUPPORT. The bytes of a doubleword, and what both views hold of the region after a DDT.REBUILD (R296, R300). -/

namespace Sys2Proof.Machine

/-! Bytes and doublewords. -/

theorem getLsbD_leValue (bs : List Byte) {i : Nat} (h : i < 64) :
    (leValue bs).getLsbD i = (bs.getD (i / 8) unlisted).getLsbD (i % 8) := by
  induction bs generalizing i with
  | nil => simp [leValue, unlisted]
  | cons x bs ih =>
    rw [leValue, BitVec.getLsbD_or, BitVec.getLsbD_setWidth, BitVec.getLsbD_shiftLeft]
    rcases Nat.lt_or_ge i 8 with low | high
    · simp [h, low, Nat.div_eq_of_lt low, Nat.mod_eq_of_lt low]
    · obtain ⟨k, rfl⟩ := Nat.exists_eq_add_of_le' high
      have index : (k + 8) / 8 = k / 8 + 1 := by omega
      simp [h, index, ih (by omega : k < 64)]

/-- A doubleword's bytes are its own. -/
theorem read_eq_of_load64_eq {m n : Memory} {a i : Nat} (same : m.load64 a = n.load64 a) (inside : within a 8 i) :
    m.read i = n.read i := by
  obtain ⟨k, rfl⟩ := Nat.exists_eq_add_of_le inside.1
  have hk : k < 8 := by have := inside.2; omega
  refine BitVec.eq_of_getLsbD_eq fun j hj => ?_
  have bits := congrArg (fun w : Word => w.getLsbD (8 * k + j)) same
  simp only [Memory.load64, Memory.load] at bits
  rwa [getLsbD_leValue _ (by omega), getLsbD_leValue _ (by omega), show (8 * k + j) / 8 = k by omega,
    show (8 * k + j) % 8 = j by omega, Memory.bytes_getD _ _ _ _ hk, Memory.bytes_getD _ _ _ _ hk] at bits

theorem read_eq_zero_of_load64 {m : Memory} {a i : Nat} (zero : m.load64 a = 0) (inside : within a 8 i) :
    m.read i = 0 :=
  read_eq_of_load64_eq (n := []) (zero.trans (load64_eq_zero fun _ _ => rfl).symm) inside

/-- A byte of the directory's region lies in one of its doublewords. -/
theorem exists_inDirectory {c : Config} {a : Nat} (base : c.ddtBase.toNat % 4096 = 0) (ha : inRegion c a) :
    ∃ w, InDirectory c w ∧ within w 8 a := by
  simp only [inRegion, within] at ha
  refine ⟨c.ddtBase.toNat + 8 * ((a - c.ddtBase.toNat) / 8), ⟨?_, ?_, ?_⟩, ?_, ?_⟩ <;> omega

/-! The region after DDT.REBUILD. -/

section
variable {s u v : State} {lv : BitVec 2} {lo hi : Nat} (run : Rebuilt s lv lo hi u v)
include run

/-- The IOMMU sees what was drained: the directory but for every tc. -/
theorem Rebuilt.wordIo {a : Nat} (ha : InDirectory s.cfg a) : v.wordIo a = u.wordBlk a := by
  rw [← run.filled.io a ha, run.drained, State.wordIo, run.io]
  rfl

variable (plan : DirectoryPlan s.cfg lv.toNat lo hi)
include plan

/-- Every doubleword of a context but tc is the same in both views. -/
theorem Rebuilt.wordIo_field {d k : Nat} (low : lo ≤ d) (high : d ≤ hi) (hk : k < dcBytes s.cfg.dcFmt / 8)
    (field : 1 ≤ k) : v.wordIo (contextAt s.cfg lv.toNat lo d + 8 * k) =
      v.wordBlk (contextAt s.cfg lv.toNat lo d + 8 * k) := by
  rw [run.wordIo (contextAt_mem plan (shared_of_range low high) hk),
    run.filled.words d k low high hk ⟨by omega, field⟩, run.published.words d k low high hk (.inl field)]

/-- The IOMMU does not see a tc yet. -/
theorem Rebuilt.wordIo_tc {d : Nat} (low : lo ≤ d) (high : d ≤ hi) :
    v.wordIo (contextAt s.cfg lv.toNat lo d) = 0 := by
  have words : 0 < dcBytes s.cfg.dcFmt / 8 := by cases s.cfg.dcFmt <;> decide
  have here := shared_of_range (f := s.cfg.dcFmt) (l := lv.toNat) (j := 0) low high
  have place := contextAt_mem plan here words
  rw [Nat.mul_zero, Nat.add_zero] at place
  rw [run.wordIo place]
  refine run.filled.empty _ place (fun j d' hj low' high' _ same => ?_) fun d' k low' high' hk filled same => ?_
  · exact linkAt_ne_contextAt plan hj (shared_of_range low' high') here words same.symm
  · have number := (contextAt_inj plan (k := 0) here (shared_of_range low' high') (plan.narrow high)
      (plan.narrow high') words hk same).2
    have := filled.2
    omega

end

/-! One level. -/

section
variable {s u v : State} {lo hi d a : Nat}

theorem contextAt_one (c : Config) (lo : Nat) (narrow : d < 2 ^ ddi0Bits c.dcFmt) :
    contextAt c 1 lo d = c.ddtBase.toNat + dcBytes c.dcFmt * d := by
  rw [contextAt, directoryPageAt, directoryNum, if_pos (by omega), ddi, Nat.mod_eq_of_lt narrow]
  rfl

/-- What no context covers is 0 in both views. -/
theorem Rebuilt.zero_elsewhere (run : Rebuilt s 1 lo hi u v) (plan : DirectoryPlan s.cfg 1 lo hi)
    (ha : inRegion s.cfg a) (off : ∀ d, lo ≤ d → d ≤ hi →
      ¬ within (contextAt s.cfg 1 lo d) (dcBytes s.cfg.dcFmt) a) : v.readBlk a = 0 ∧ v.readIo a = 0 := by
  obtain ⟨w, place, inside⟩ := exists_inDirectory plan.base ha
  have size := dcBytes_words s.cfg.dcFmt
  have noLink (j d : Nat) (hj : j + 1 < (1 : BitVec 2).toNat) : False := by simp at hj
  have noWord (d k : Nat) (low : lo ≤ d) (high : d ≤ hi) (hk : k < dcBytes s.cfg.dcFmt / 8) :
      w ≠ contextAt s.cfg 1 lo d + 8 * k := fun same => off d low high (by
    simp only [within] at inside ⊢
    omega)
  refine ⟨read_eq_zero_of_load64 ?_ inside, read_eq_zero_of_load64 ((run.wordIo place).trans ?_) inside⟩
  · exact run.published.empty w place (fun j d hj _ _ _ => (noLink j d hj).elim)
      fun d k low high hk _ => noWord d k low high hk
  · exact run.filled.empty w place (fun j d hj _ _ _ => (noLink j d hj).elim)
      fun d k low high hk _ => noWord d k low high hk

/-- A byte of a context, but for tc's, is the same in both views. -/
theorem Rebuilt.readIo_field (run : Rebuilt s 1 lo hi u v) (plan : DirectoryPlan s.cfg 1 lo hi) (low : lo ≤ d)
    (high : d ≤ hi) (ha : within (contextAt s.cfg 1 lo d + 8) (dcBytes s.cfg.dcFmt - 8) a) :
    v.readIo a = v.readBlk a := by
  have size := dcBytes_words s.cfg.dcFmt
  simp only [within] at ha
  obtain ⟨k, field, hk, inside⟩ : ∃ k, 1 ≤ k ∧ k < dcBytes s.cfg.dcFmt / 8 ∧
      within (contextAt s.cfg 1 lo d + 8 * k) 8 a := by
    refine ⟨(a - contextAt s.cfg 1 lo d) / 8, ?_, ?_, ?_, ?_⟩ <;> omega
  exact read_eq_of_load64_eq (run.wordIo_field plan low high hk field) inside

end

end Sys2Proof.Machine
end

section
/-! PROOFS. O39. -/

namespace Sys2Proof.Machine

/-- Settles O39: the run of DDT.REBUILD with one level, where every context lies in the root page. -/
theorem ddtRebuildOneLevel : Obligations.DdtRebuildOneLevel := by
  intro lo hi s rest placed range ids mode
  have width : 2 ^ min s.cfg.didW (if s.cfg.dcFmt = .ext then 6 else 7) = 2 ^ limBits s.cfg 1 := by
    rw [limBits]
    cases s.cfg.dcFmt <;> rfl
  have some : 1 ≤ s.cfg.ddtPages := by
    obtain ⟨params, -, -⟩ := of_decide_eq_true placed
    obtain ⟨-, -, -, -, -, -, some, -⟩ := of_decide_eq_true params
    exact some
  have plan : DirectoryPlan s.cfg 1 lo.toNat hi.toNat :=
    directoryPlan_of_placed placed ⟨le_rfl, by omega⟩ range (width ▸ ids) some
  obtain ⟨u, v, run, e⟩ := exec_ddtRebuild_built (lv := 1) rest plan (width ▸ ids) mode
  have context {d : Nat} (high : d ≤ hi.toNat) :
      contextAt s.cfg 1 lo.toNat d = s.cfg.ddtBase.toNat + dcBytes s.cfg.dcFmt * d := by
    refine contextAt_one s.cfg lo.toNat ?_
    have narrow := plan.narrow high
    cases fmt : s.cfg.dcFmt <;> rw [fmt] at narrow <;> exact narrow
  refine ⟨_, e, rfl, ?blk, fun d low high => ⟨?holds, ?tc, fun a ha => ?field⟩, fun a ha off => ?zero,
    run.ready_sameOutside, run.frame⟩
  case blk =>
    have next : v.blk.ddtNext = 1 := BitVec.toNat_inj.1 run.next
    rw [run.ready_blk, next, BitVec.ofNat_toNat, BitVec.ofNat_toNat]
  case holds =>
    rw [← context high]
    exact run.holdsContext placed fun k hk => run.published.words d k low high hk (.inr (by omega))
  case tc =>
    rw [← context high]
    exact run.wordIo_tc plan low high
  case field =>
    rw [← context high] at ha
    exact run.readIo_field plan low high ha
  case zero => exact run.zero_elsewhere plan ha fun d low high => context high ▸ off d low high

end Sys2Proof.Machine
end

section
/-! SUPPORT. The words of the command encoders (R340 to R343): a valid bit and a field under its valid bit are the flag
and the field of the command they stand for (R145 to R148). -/

namespace Sys2Proof.Machine

theorem bit_shiftLeft (b : Bool) (i : Nat) : bit b <<< i = wordBit b i := by
  cases b
  · exact BitVec.zero_shiftLeft i
  · rfl

/-- A field whose valid bit is 0 is 0; one whose valid bit is 1 holds the operand, which fits. -/
theorem fieldIf_eq_wordField {n : Nat} {b : Bool} {v : Word} (i : Nat) (h : b = true → v.toNat < 2 ^ n) (hn : n ≤ 64) :
    fieldIf b v i = wordField (if b then BitVec.ofNat n v.toNat else 0) i := by
  cases b with
  | false => simp [fieldIf, wordField]
  | true =>
    have low : (BitVec.ofNat n v.toNat).setWidth 64 = v := by
      apply BitVec.eq_of_toNat_eq
      rw [BitVec.toNat_setWidth_of_le hn, BitVec.toNat_ofNat, Nat.mod_eq_of_lt (h rfl)]
    simp only [fieldIf, wordField, if_true, low]

theorem tlbAddrField_eq_wordField (a : Word) : tlbAddrField a = wordField (BitVec.ofNat 52 (a.toNat / 4096)) 10 := by
  have page : BitVec.ofNat 52 (a.toNat / 4096) = a.extractLsb' 12 52 := by
    apply BitVec.eq_of_toNat_eq
    rw [BitVec.extractLsb'_toNat, Nat.shiftRight_eq_div_pow, BitVec.toNat_ofNat]
  have mask : (0x3FFFFFFFFFFFFC00 : Word) = (BitVec.allOnes 52).setWidth 64 <<< 10 := by decide
  refine BitVec.eq_of_getLsbD_eq fun j hj => ?_
  rw [page, getLsbD_wordField, tlbAddrField, mask]
  simp only [BitVec.getLsbD_and, BitVec.getLsbD_shiftLeft, BitVec.getLsbD_ushiftRight, BitVec.getLsbD_setWidth,
    BitVec.getLsbD_allOnes, BitVec.getLsbD_extractLsb']
  grind

theorem fenceAddrField_eq_wordField (a : Word) : fenceAddrField a = wordField (BitVec.ofNat 62 (a.toNat / 4)) 2 := by
  have quarter : BitVec.ofNat 62 (a.toNat / 4) = a.extractLsb' 2 62 := by
    apply BitVec.eq_of_toNat_eq
    rw [BitVec.extractLsb'_toNat, Nat.shiftRight_eq_div_pow, BitVec.toNat_ofNat]
  have mask : (~~~3 : Word) = BitVec.allOnes 64 <<< 2 := by decide
  refine BitVec.eq_of_getLsbD_eq fun j hj => ?_
  rw [quarter, getLsbD_wordField, fenceAddrField, mask]
  simp only [BitVec.getLsbD_and, BitVec.getLsbD_shiftLeft, BitVec.getLsbD_allOnes, BitVec.getLsbD_extractLsb']
  grind

/-- The first doubleword of IOFENCE.C with PR = PW = 0, and its second (R343). -/
theorem encode_fence {av wsi : Bool} {a data : Word} (h : av = true → data.toNat < 2 ^ 32) :
    [fenceWord0 av wsi data, if av then fenceAddrField a else 0] =
      encode (.iofenceC av wsi false false (if av then BitVec.ofNat 32 data.toNat else 0)
        (if av then BitVec.ofNat 62 (a.toNat / 4) else 0)) := by
  have addr : (if av then fenceAddrField a else 0) =
      wordField (if av then BitVec.ofNat 62 (a.toNat / 4) else 0) 2 := by
    cases av
    · rfl
    · exact fenceAddrField_eq_wordField a
  have clear (v : Word) (i : Nat) : v ||| wordBit false i = v := BitVec.or_zero
  simp only [encode, fenceWord0, addr, bit_shiftLeft, fieldIf_eq_wordField 32 h (by decide), clear]
  rfl

theorem exec_cmdIodirDdt (dv : Bool) (a0 : Word) (s : State) : exec (.cmdIodirDdt dv a0) s = .next (s.finish
    (if dv = true ∧ 2 ^ 24 ≤ a0.toNat then result .errRange
     else result .ok (3 ||| (bit dv <<< 33) ||| fieldIf dv a0 40))) := by
  change execCmdIodirDdt dv a0 s = _
  simp only [execCmdIodirDdt, Bool.and_eq_true, Bool.not_eq_true', ← Bool.not_eq_true, fits_eq_true, Nat.not_lt]
  split_ifs <;> rfl

theorem exec_cmdIotinvalVma (av gv pscv : Bool) (a0 a1 a2 : Word) (s : State) :
    exec (.cmdIotinvalVma av gv pscv a0 a1 a2) s = .next (s.finish
      (if av = true ∧ a0.toNat % 4096 ≠ 0 then result .errAlign
       else if gv = true ∧ 2 ^ 16 ≤ a1.toNat ∨ pscv = true ∧ 2 ^ 20 ≤ a2.toNat then result .errRange
       else result .ok
        (1 ||| (bit av <<< 10) ||| fieldIf pscv a2 12 ||| (bit pscv <<< 32) ||| (bit gv <<< 33) ||| fieldIf gv a1 44)
        (if av then tlbAddrField a0 else 0))) := by
  change execCmdIotinvalVma av gv pscv a0 a1 a2 s = _
  simp only [execCmdIotinvalVma, Bool.and_eq_true, Bool.or_eq_true, Bool.not_eq_true', ← Bool.not_eq_true, fits_eq_true,
    aligned_eq_true, Nat.not_lt, Nat.reducePow, ne_eq]
  split_ifs <;> rfl

theorem exec_cmdIotinvalGvma (av gv : Bool) (a0 a1 : Word) (s : State) :
    exec (.cmdIotinvalGvma av gv a0 a1) s = .next (s.finish
      (if av = true ∧ a0.toNat % 4096 ≠ 0 then result .errAlign
       else if gv = true ∧ 2 ^ 16 ≤ a1.toNat then result .errRange
       else result .ok (1 ||| (1 <<< 7) ||| (bit av <<< 10) ||| (bit gv <<< 33) ||| fieldIf gv a1 44)
        (if av then tlbAddrField a0 else 0))) := by
  change execCmdIotinvalGvma av gv a0 a1 s = _
  simp only [execCmdIotinvalGvma, Bool.and_eq_true, Bool.not_eq_true', ← Bool.not_eq_true, fits_eq_true,
    aligned_eq_true, Nat.not_lt, Nat.reducePow, ne_eq]
  split_ifs <;> rfl

theorem exec_cmdIofenceC (av wsi : Bool) (a0 a1 : Word) (s : State) :
    exec (.cmdIofenceC av wsi a0 a1) s = .next (s.finish
      (if av = true ∧ a0.toNat % 4 ≠ 0 then result .errAlign
       else if av = true ∧ (2 ^ 56 ≤ a0.toNat ∨ 2 ^ 32 ≤ a1.toNat) then result .errRange
       else result .ok (fenceWord0 av wsi a1) (if av then fenceAddrField a0 else 0))) := by
  change execCmdIofenceC av wsi a0 a1 s = _
  simp only [execCmdIofenceC, Bool.and_eq_true, Bool.or_eq_true, Bool.not_eq_true', ← Bool.not_eq_true, fits_eq_true,
    aligned_eq_true, Nat.not_lt, Nat.reducePow, ne_eq]
  split_ifs <;> rfl

end Sys2Proof.Machine
end

section
/-! PROOFS. O45 and O46. -/

namespace Sys2Proof.Machine

/-- Settles O45: an encoder's words are the encoding of the command with its operands, which the decoder gives back. -/
theorem encodersMakeCommands : Obligations.EncodersMakeCommands := by
  have addr (av : Bool) (a : Word) : (if av then tlbAddrField a else 0) =
      wordField (if av then BitVec.ofNat 52 (a.toNat / 4096) else 0) 10 := by
    cases av
    · rfl
    · exact tlbAddrField_eq_wordField a
  refine ⟨fun dv a0 s did => ?ddt, fun av gv pscv a0 a1 a2 s page gscid pscid => ?vma,
    fun av gv a0 a1 s page gscid => ?gvma, fun av wsi a0 a1 s operands => ?fence⟩
  case ddt =>
    refine ⟨_, _, ?_, decode_encode_command (.iodirInvalDdt ..) rfl⟩
    rw [exec_cmdIodirDdt, if_neg (by grind), bit_shiftLeft, fieldIf_eq_wordField 40 did (by decide)]
    rfl
  case vma =>
    refine ⟨_, _, ?_, decode_encode_command (.iotinvalVma ..) rfl⟩
    rw [exec_cmdIotinvalVma, if_neg (by grind), if_neg (by grind), addr, fieldIf_eq_wordField 12 pscid (by decide),
      fieldIf_eq_wordField 44 gscid (by decide)]
    simp only [bit_shiftLeft]
    rfl
  case gvma =>
    refine ⟨_, _, ?_, decode_encode_command (.iotinvalGvma ..) rfl⟩
    rw [exec_cmdIotinvalGvma, if_neg (by grind), if_neg (by grind), addr, fieldIf_eq_wordField 44 gscid (by decide)]
    simp only [bit_shiftLeft]
    rfl
  case fence =>
    refine ⟨fenceWord0 av wsi a1, if av then fenceAddrField a0 else 0, ?_, ?_⟩
    · rw [exec_cmdIofenceC, if_neg (by grind), if_neg (by grind)]
    · rw [encode_fence fun h => (operands h).2.2]
      exact decode_encode_command _ rfl

/-- Settles O46: each encoder's checks as numbers. -/
theorem encoderChecks : Obligations.EncoderChecks := by
  refine ⟨fun a0 s wide => ?ddt, fun av gv pscv a0 a1 a2 s st check => ?vma, fun av gv a0 a1 s st check => ?gvma,
    fun wsi a0 a1 s st check => ?fence⟩
  case ddt => rw [exec_cmdIodirDdt, if_pos ⟨rfl, wide⟩]
  case vma =>
    rw [exec_cmdIotinvalVma]
    split_ifs at check ⊢ <;> grind
  case gvma =>
    rw [exec_cmdIotinvalGvma]
    split_ifs at check ⊢ <;> grind
  case fence =>
    rw [exec_cmdIofenceC]
    split_ifs at check ⊢ <;> grind

end Sys2Proof.Machine
end

section
/-! SUPPORT. The step of the IOMMU's command consumer (R364, R365). -/

namespace Sys2Proof.Machine

section
variable {s : State}

/-- cqon, no stop bit, head and tail apart. -/
theorem cqRunning_iff {g : IommuRegs} :
    cqRunning g = true ↔ cqOn g = true ∧ cqErr g.cqcsr = false ∧ cqHead g ≠ cqTail g := by
  simp [cqRunning, and_assoc]

theorem consumeCommand_stopped (h : cqRunning s.regs = false) (later : Bool) : consumeCommand later s = s := by
  simp [consumeCommand, h]

theorem commandStep_stopped (h : cqRunning s.regs = false) (later : Bool) : commandStep later s = s := by
  simp [commandStep, h]

theorem cqRunning_of_cqErr {g : IommuRegs} (h : cqErr g.cqcsr = true) : cqRunning g = false := by
  simp [cqRunning, h]

theorem step_iommu {rest : List Input} (placed : wellPlaced s = true) (next : s.inputs = .iommu :: rest) :
    step s = iommuTurn { s with inputs := rest } := by
  simp only [step, placed, if_true, turn, next]

/-- A command that is none is reported, whether the IOMMU has begun it or not. -/
theorem iommuTurn_illegal {c : Command} (running : cqRunning s.regs = true) (next : nextCommand s = some c)
    (illegal : ∀ i, decode [c.dw0, c.dw1] ≠ .ok i) : iommuTurn s = .next (illegalCommand s) := by
  cases h : decode [c.dw0, c.dw1] with
  | ok i => exact absurd h (illegal i)
  | error e =>
    have command : decodeCommand c.dw0 c.dw1 = .error e := h
    simp only [iommuTurn, consumeCommand, running, if_true, next, h, command, ite_self]

/-- cmd_ill is bit 10 of cqcsr (R42). -/
theorem illegalCommand_eq (s : State) : illegalCommand s = { s with
    engine := { s.engine with cmdBuf := none }, regs := { s.regs with cqcsr := s.regs.cqcsr ||| 0x400 } } := by
  have bit : BitVec.twoPow 32 10 = 0x400 := by decide
  simp only [illegalCommand, setCqcsr, dropCommand, setBit, bit, if_true]

theorem cqErr_illegal (c : BitVec 32) : cqErr (c ||| 0x400) = true := by
  have stop : (0x400 : BitVec 32).getLsbD 10 = true := rfl
  rw [cqErr, BitVec.getLsbD_or (i := 10), stop, Bool.or_true, Bool.or_true]

/-- A command that the IOMMU has not read before is read at cqh. -/
theorem nextCommand_slot (fresh : s.engine.cmdBuf = none) (readable : accessible s.cfg (cqSlotIo s.regs) 16 = true) :
    nextCommand s = some ⟨s.wordIo (cqSlotIo s.regs), s.wordIo (cqSlotIo s.regs + 8), .fetched⟩ := by
  simp only [nextCommand, fresh, readable, if_true]
  rfl

theorem iommuTurn_command {c : Command} {i : Instr} (fresh : s.engine.cmdBuf = none)
    (running : cqRunning s.regs = true) (next : nextCommand s = some c) (legal : decode [c.dw0, c.dw1] = .ok i) :
    iommuTurn s = runCommand i s := by
  simp only [iommuTurn, midCommand, fresh, Bool.false_eq_true, if_false, running, if_true, next, legal]

/-- The head as the IOMMU shows it is the register modulo the capacity. -/
theorem cqHead_eq (g : IommuRegs) : cqHead g = g.cqh.toNat % queueCap g.cqb := by
  rw [cqHead, indexBits, BitVec.toNat_ofNat]
  exact Nat.mod_eq_of_lt ((Nat.mod_le _ _).trans_lt g.cqh.isLt)

/-- After a command: its buffer is empty, and cqh moves on unless a stop bit is set. -/
theorem settle_eq (s : State) : settle s = { s with
    engine := { s.engine with cmdBuf := none },
    regs := { s.regs with
      cqh := if cqErr s.regs.cqcsr then s.regs.cqh
        else BitVec.ofNat 32 ((s.regs.cqh.toNat % queueCap s.regs.cqb + 1) % queueCap s.regs.cqb) } } := by
  simp only [settle, nextIndex, cqHead_eq, dropCommand]
  split <;> rfl

end

end Sys2Proof.Machine
end

section
/-! PROOFS. O5 and O7. -/

namespace Sys2Proof.Machine

/-- Settles O5: the consumer reads the slot, runs the command's meaning, and settles. -/
theorem stepRunsCommand : Obligations.StepRunsCommand := by
  intro s t rest d0 d1 i placed next on clear apart fresh readable first second legal runs n following head
  subst first second
  have running : cqRunning s.regs = true := cqRunning_iff.2 ⟨on, clear, apart⟩
  have slot := nextCommand_slot (s := { s with inputs := rest }) fresh readable
  have turn := iommuTurn_command (s := { s with inputs := rest }) fresh running slot legal
  rw [step_iommu placed next, turn, runCommand, runs]
  exact congrArg _ (settle_eq t)

/-- Settles O7: cmd_ill is a stop bit, so the consumer is off from then on. -/
theorem illegalCommandStops : Obligations.IllegalCommandStops := by
  intro s rest c placed next on clear apart command illegal
  have running : cqRunning s.regs = true := cqRunning_iff.2 ⟨on, clear, apart⟩
  have turn := iommuTurn_illegal (s := { s with inputs := rest }) running command illegal
  rw [illegalCommand_eq] at turn
  have stopped : cqRunning { s.regs with cqcsr := s.regs.cqcsr ||| 0x400 } = false :=
    cqRunning_of_cqErr (cqErr_illegal s.regs.cqcsr)
  refine ⟨_, (step_iommu placed next).trans turn, rfl, fun later =>
    ⟨consumeCommand_stopped ?_ later, commandStep_stopped ?_ later⟩⟩
  all_goals exact stopped

end Sys2Proof.Machine
end

section
/-! SUPPORT. The copies that the invalidation commands select (R360 to R362), as propositions. -/

namespace Sys2Proof.Machine

/-- Two numbers fall in the same granule of a leaf. -/
theorem coversPage_eq_true {c : PteCopy} {addr : BitVec 52} : coversPage c addr = true ↔
    c.page.toNat / levelSize c.level = addr.toNat * 4096 / levelSize c.level := beq_iff_eq

theorem GuestUse.covers_eq_true {p : GuestUse} {addr : BitVec 52} : p.covers addr = true ↔
    p.addr.toNat / levelSize p.level = addr.toNat * 4096 / levelSize p.level := beq_iff_eq

/-- A condition that counts only when its valid bit is 1. -/
theorem valid_or_iff (b : Bool) (p : Prop) : b = false ∨ p ↔ (b = true → p) := by cases b <;> simp

/-- The selection of IOTINVAL.VMA (R361). -/
theorem vmaSelects_eq_true {av pscv gv : Bool} {pscid : BitVec 20} {gscid : BitVec 16} {addr : BitVec 52}
    {c : PteCopy} : vmaSelects av pscv gv pscid gscid addr c = true ↔
      c.stage = .s1 ∧ (if gv then c.gv = true ∧ c.gscid = gscid else c.gv = false) ∧
        (av = true → c.page.toNat / levelSize c.level = addr.toNat * 4096 / levelSize c.level) ∧
        (pscv = true → c.pscid = pscid ∧ c.val.getLsbD 5 = false) := by
  have scope : (if gv then c.gv && c.gscid == gscid else !c.gv) = true ↔
      if gv then c.gv = true ∧ c.gscid = gscid else c.gv = false := by
    cases gv <;> simp
  simp only [vmaSelects, Bool.and_eq_true, scope, Bool.or_eq_true, Bool.not_eq_true', beq_iff_eq, coversPage_eq_true,
    valid_or_iff, and_assoc]

/-- The selection of IOTINVAL.GVMA among the copies of entries (R362). -/
theorem gvmaSelects_eq_true {av gv : Bool} {gscid : BitVec 16} {addr : BitVec 52} {c : PteCopy} :
    gvmaSelects av gv gscid addr c = true ↔ (gv = true → c.gscid = gscid) ∧
      (c.stage = .s2 → av = true → c.page.toNat / levelSize c.level = addr.toNat * 4096 / levelSize c.level) ∧
      (c.stage = .s1 → c.gv = true ∧ (av = true → ∃ p ∈ c.gpas,
        p.addr.toNat / levelSize p.level = addr.toNat * 4096 / levelSize p.level)) := by
  simp only [gvmaSelects, Bool.and_eq_true, Bool.or_eq_true, Bool.not_eq_true', valid_or_iff, beq_iff_eq]
  cases c.stage with
  | s1 => simp [valid_or_iff, GuestUse.covers_eq_true]
  | s2 => simp [valid_or_iff, coversPage_eq_true]

/-- The selection of IOTINVAL.GVMA among the copies of MSI entries (R362). -/
theorem gvmaSelectsMsi_eq_true {av gv : Bool} {gscid : BitVec 16} {addr : BitVec 52} {c : MsiCopy} :
    gvmaSelectsMsi av gv gscid addr c = true ↔ (gv = true → c.gscid = gscid) ∧
      (av = true → c.page.toNat / 4096 = addr.toNat) := by
  have page : (guestPage c.page).toNat = c.page.toNat / 4096 := by
    have := c.page.isLt
    rw [guestPage, BitVec.extractLsb'_toNat, Nat.shiftRight_eq_div_pow]
    omega
  simp only [gvmaSelectsMsi, Bool.and_eq_true, Bool.or_eq_true, Bool.not_eq_true', beq_iff_eq, valid_or_iff, ← page,
    BitVec.toNat_inj]

end Sys2Proof.Machine
end

section
/-! PROOFS. O58. -/

namespace Sys2Proof.Machine

/-- Settles O58: each command filters a cache by its selection. -/
theorem invalidationEffects : Obligations.InvalidationEffects := by
  refine ⟨fun dv did s => ⟨_, rfl, rfl, fun c => ?ddt⟩,
    fun av pscv gv pscid gscid addr s => ⟨_, rfl, rfl, fun c => ?vma⟩,
    fun av gv gscid addr s => ⟨_, rfl, rfl, fun c => ?gvma, fun c => ?msi⟩⟩
  case ddt => simp [invalDdt]
  case vma => rw [← vmaSelects_eq_true]; simp [invalVma]
  case gvma => rw [← gvmaSelects_eq_true]; simp [invalGvma]
  case msi => rw [← gvmaSelectsMsi_eq_true]; simp [invalGvma]

end Sys2Proof.Machine
end

section
/-! SUPPORT. The invalidation commands as filters of the caches (R360 to R362), and what is left when every one in
progress has completed (R104, R363). -/

namespace Sys2Proof.Machine

/-- The directory copies an instruction leaves. -/
def sparesDdt : Instr → DdtCopy → Bool
  | .iodirInvalDdt dv did => fun d => dv && d.did != did
  | _ => fun _ => true

/-- The copies of page-table entries an instruction leaves. -/
def sparesPte : Instr → PteCopy → Bool
  | .iotinvalVma av pscv gv pscid gscid addr => fun e => !vmaSelects av pscv gv pscid gscid addr e
  | .iotinvalGvma av gv gscid addr => fun e => !gvmaSelects av gv gscid addr e
  | _ => fun _ => true

/-- The copies of MSI entries an instruction leaves. -/
def sparesMsi : Instr → MsiCopy → Bool
  | .iotinvalGvma av gv gscid addr => fun e => !gvmaSelectsMsi av gv gscid addr e
  | _ => fun _ => true

theorem invalidate_eq (i : Instr) (c : Caches) : invalidate i c =
    { c with ddt := c.ddt.filter (sparesDdt i), iotlb := c.iotlb.filter (sparesPte i),
             msi := c.msi.filter (sparesMsi i) } := by
  have all {α : Type} (l : List α) : l.filter (fun _ => true) = l := List.filter_true l
  cases i with
  | iodirInvalDdt => simp only [invalidate, invalDdt, sparesDdt, sparesPte, sparesMsi, all]
  | iotinvalVma => simp only [invalidate, invalVma, sparesDdt, sparesPte, sparesMsi, all]
  | iotinvalGvma => simp only [invalidate, invalGvma, sparesDdt, sparesPte, sparesMsi, all]
  | _ => simp only [invalidate, sparesDdt, sparesPte, sparesMsi, all]

theorem invalidate_idem (i : Instr) (c : Caches) : invalidate i (invalidate i c) = invalidate i c := by
  simp only [invalidate_eq, List.filter_filter, Bool.and_self]

theorem invalidate_comm (i j : Instr) (c : Caches) : invalidate i (invalidate j c) = invalidate j (invalidate i c) := by
  simp only [invalidate_eq, List.filter_filter, Bool.and_comm]

/-- After the invalidations of a list, each of them finds nothing more to remove. -/
theorem invalidate_foldl_of_mem {i : Instr} {l : List Instr} (h : i ∈ l) (c : Caches) :
    invalidate i (l.foldl (fun c j => invalidate j c) c) = l.foldl (fun c j => invalidate j c) c := by
  have late (l : List Instr) (c : Caches) : invalidate i (l.foldl (fun c j => invalidate j c) c) =
      l.foldl (fun c j => invalidate j c) (invalidate i c) := by
    induction l generalizing c with
    | nil => rfl
    | cons j l ih => rw [List.foldl_cons, List.foldl_cons, ih, invalidate_comm]
  induction l generalizing c with
  | nil => cases h
  | cons j l ih =>
    rcases List.mem_cons.1 h with rfl | h
    · rw [List.foldl_cons, late, invalidate_idem]
    · exact ih h _

theorem invalidate_completeAll {i : Instr} {c : Caches} (h : i ∈ c.inProgress) :
    invalidate i (completeAll c) = completeAll c := by
  have aside (d : Caches) : invalidate i { d with inProgress := [] } = { invalidate i d with inProgress := [] } := by
    rw [invalidate_eq, invalidate_eq]
  rw [completeAll, aside, invalidate_foldl_of_mem h]

end Sys2Proof.Machine
end

section
/-! SUPPORT. IOFENCE.C (R363, R366). What a device transaction does after its translation does not look at the caches,
so a fence's two waits do not meet. -/

namespace Sys2Proof.Machine

/-- The state with other caches. -/
def State.cached (s : State) (c : Caches) : State := { s with caches := c }

section
variable (s : State) (c : Caches)

theorem cached_ite (p : Prop) [Decidable p] (s t : State) :
    (if p then s else t).cached c = if p then s.cached c else t.cached c := apply_ite (State.cached · c) p s t

theorem cached_ite_pair {α : Type} (p : Prop) [Decidable p] (q r : α × State) :
    ((if p then q else r).1, (if p then q else r).2.cached c) =
      if p then (q.1, q.2.cached c) else (r.1, r.2.cached c) :=
  apply_ite (fun x : α × State => (x.1, x.2.cached c)) p q r

theorem advanceFqt_cached : advanceFqt (s.cached c) = (advanceFqt s).cached c := by
  simp only [advanceFqt, cached_ite]
  rfl

theorem reportRecord_cached (w0 w1 w2 w3 : Word) (hold : Bool) :
    reportRecord w0 w1 w2 w3 hold (s.cached c) = (reportRecord w0 w1 w2 w3 hold s).cached c := by
  simp only [reportRecord, advanceFqt_cached]
  generalize advanceFqt s = u
  simp only [cached_ite, ← advanceFqt_cached]
  rfl

theorem faultTransaction_cached (x : Transaction) (f : XFault) (dtf hold : Bool) :
    faultTransaction x f dtf hold (s.cached c) = (faultTransaction x f dtf hold s).cached c := by
  simp only [faultTransaction, cached_ite, ← reportRecord_cached]
  rfl

theorem accessMemory_cached (x : Transaction) (pa : Word) :
    accessMemory x pa (s.cached c) = (accessMemory x pa s).cached c := by
  simp only [accessMemory, cached_ite]
  rfl

theorem accessNext_cached (hold : Bool) (x : Access) :
    accessNext hold x (s.cached c) = ((accessNext hold x s).1, (accessNext hold x s).2.cached c) := by
  obtain ⟨trans, dtf, step⟩ := x
  cases step <;>
    simp only [accessNext, cached_ite_pair, ← accessMemory_cached, ← faultTransaction_cached] <;> rfl

theorem accessRun_cached (hold : Bool) (n : Nat) (x : Access) :
    accessRun hold n x (s.cached c) = (accessRun hold n x s).cached c := by
  induction n generalizing x s with
  | zero => rfl
  | succ n ih =>
    simp only [accessRun, accessNext_cached]
    rcases accessNext hold x s with ⟨_ | y, t⟩
    · rfl
    · exact ih t y

theorem awaitTransactions_cached (pr pw : Bool) :
    awaitTransactions pr pw (s.cached c) = (awaitTransactions pr pw s).cached c := by
  have run (xs : List Access) (t : State) : xs.foldl (fun s x => accessFinish false x s) (t.cached c) =
      (xs.foldl (fun s x => accessFinish false x s) t).cached c := by
    induction xs generalizing t with
    | nil => rfl
    | cons x xs ih =>
      have first : accessFinish false x (t.cached c) = (accessFinish false x t).cached c :=
        accessRun_cached t c false 5 x
      rw [List.foldl_cons, List.foldl_cons, first, ih]
  exact run _ (setInFlight _ s)

end

section
variable {av wsi pr pw : Bool} {data : BitVec 32} {addr : BitVec 62} {s : State}

theorem fenceWait_eq (pr pw : Bool) (s : State) :
    fenceWait pr pw s = (awaitTransactions pr pw s).cached (completeAll s.caches) :=
  awaitTransactions_cached s (completeAll s.caches) pr pw

theorem awaitTransactions_cfg (pr pw : Bool) (s : State) : (awaitTransactions pr pw s).cfg = s.cfg :=
  (awaitTransactions_frame pr pw s).cfg

theorem fenceFails_iff (c : Config) :
    fenceFails c av addr = true ↔ ¬ (av = true → accessible c (4 * addr.toNat) 4 = true) := by
  rw [fenceFails, Nat.mul_comm]
  cases av <;> simp

/-- A completion write that cannot be made: cqmf, bit 8 (R366). -/
theorem fenceCommand_fails (h : fenceFails s.cfg av addr = true) :
    fenceCommand av wsi pr pw data addr s = { awaitTransactions pr pw s with
      caches := completeAll s.caches,
      regs := { (awaitTransactions pr pw s).regs with
        cqcsr := (awaitTransactions pr pw s).regs.cqcsr ||| 0x100 } } := by
  have bit : BitVec.twoPow 32 8 = 0x100 := by decide
  simp only [fenceCommand, fenceWait_eq, State.cached, awaitTransactions_cfg, h, if_true, setCqcsr, setBit, bit]

/-- The waits, the completion write, and fence_w_ip, bit 11 (R363). -/
theorem fenceCommand_done (h : fenceFails s.cfg av addr = false) :
    fenceCommand av wsi pr pw data addr s =
      let u := awaitTransactions pr pw s
      { u with
        caches := completeAll s.caches,
        memIo := if av then u.memIo.storeN (4 * addr.toNat) 4 (data.setWidth 64) else u.memIo,
        unseen := if av then u.unseen ++ [⟨4 * addr.toNat, 4⟩] else u.unseen,
        regs := { u.regs with cqcsr := if wsi && s.cfg.fctlWsi then u.regs.cqcsr ||| 0x800 else u.regs.cqcsr } } := by
  have bit : BitVec.twoPow 32 11 = 0x800 := by decide
  have cfg : (fenceWrite av data addr ((awaitTransactions pr pw s).cached (completeAll s.caches))).cfg = s.cfg :=
    (fenceWrite_moves av data addr _).sameBlock.cfg.trans (awaitTransactions_cfg pr pw s)
  have writes : fenceWrite av data addr ((awaitTransactions pr pw s).cached (completeAll s.caches)) =
      { awaitTransactions pr pw s with
        caches := completeAll s.caches,
        memIo := if av then (awaitTransactions pr pw s).memIo.storeN (4 * addr.toNat) 4 (data.setWidth 64)
          else (awaitTransactions pr pw s).memIo,
        unseen := if av then (awaitTransactions pr pw s).unseen ++ [⟨4 * addr.toNat, 4⟩]
          else (awaitTransactions pr pw s).unseen } := by
    rw [fenceWrite, Nat.mul_comm]
    cases av <;> rfl
  have off : fenceFails ((awaitTransactions pr pw s).cached (completeAll s.caches)).cfg av addr = false :=
    (congrArg (fenceFails · av addr) (awaitTransactions_cfg pr pw s)).trans h
  simp only [fenceCommand, fenceWait_eq, off, Bool.false_eq_true, if_false, fenceFlag, cfg]
  rw [writes]
  cases wsi && s.cfg.fctlWsi
  · rfl
  · simp only [if_true, setCqcsr, setBit, bit]

/-- With PR = PW = 0 a fence waits for no transaction. -/
theorem awaitTransactions_false (s : State) : awaitTransactions false false s = s := by
  have free (x : Access) : awaited false false x = false := by
    rw [awaited, ite_self]
  have all : s.engine.inFlight.filter (fun x => !awaited false false x) = s.engine.inFlight := by simp [free]
  have waits : s.engine.inFlight.filter (awaited false false) = [] := by simp [free]
  rw [awaitTransactions, all, waits]
  rfl

/-- Whether it fails or not, a fence leaves no invalidation in progress, and the transactions it need not wait for. -/
theorem fenceCommand_waits (av wsi pr pw : Bool) (data : BitVec 32) (addr : BitVec 62) (s : State) :
    let t := fenceCommand av wsi pr pw data addr s
    t.caches = completeAll s.caches ∧ t.engine.inFlight = s.engine.inFlight.filter (fun x => !awaited pr pw x) := by
  have flight : (awaitTransactions pr pw s).engine.inFlight = s.engine.inFlight.filter (fun x => !awaited pr pw x) :=
    congrArg Engine.inFlight (awaitTransactions_frame pr pw s).engine
  cases h : fenceFails s.cfg av addr with
  | true =>
    rw [fenceCommand_fails h]
    exact ⟨rfl, flight⟩
  | false =>
    rw [fenceCommand_done h]
    exact ⟨rfl, flight⟩

end

end Sys2Proof.Machine
end

section
/-! PROOFS. O59. -/

namespace Sys2Proof.Machine

/-- Settles O59: a fence that can be completed and one that cannot, each in its one state; both have waited. -/
theorem iofenceEffect : Obligations.IofenceEffect := by
  intro av wsi pr pw data addr s a ready u
  obtain ⟨caches, flight⟩ := fenceCommand_waits av wsi pr pw data addr s
  refine ⟨fenceCommand av wsi pr pw data addr s, rfl, ?none, flight, ?_, fun i hi => ?_, fun failed => ?fails,
    fun ok => ?done⟩
  case none =>
    rintro rfl rfl
    exact awaitTransactions_false s
  case fails => rw [fenceCommand_fails ((fenceFails_iff s.cfg).2 failed)]
  case done =>
    have able : fenceFails s.cfg av addr = false := by
      rw [← Bool.not_eq_true, fenceFails_iff]
      exact fun h => h ok
    have word : BitVec.ofNat 64 ((data.setWidth 64).toNat % 2 ^ (8 * 4)) = data.setWidth 64 := by
      rw [BitVec.toNat_setWidth_of_le (by decide), Nat.mod_eq_of_lt data.isLt]
      exact BitVec.ofNat_toNat _ _
    rw [fenceCommand_done able]
    refine ⟨rfl, ?_, ?_⟩
    · rintro rfl
      exact ⟨rfl, rfl⟩
    · rintro rfl
      exact ⟨(load_storeN_same ..).trans word, rfl, fun b hb => read_storeN_outside _ _ hb⟩
  · rw [caches]
    rfl
  · rw [caches]
    exact invalidate_completeAll hi

end Sys2Proof.Machine
end

section
/-! SUPPORT. The queue operations with the environment at rest: what the registers read, what a FENCE leaves of them,
and how a wait ends (R347, R348, R350; log 8, log 9). -/

namespace Sys2Proof.Machine

/-! What a read of an index register gives, as a number. -/

theorem get_cqt (g : IommuRegs) : g.get .cqt = BitVec.ofNat 64 (cqTail g) := (BitVec.ofNat_toNat _ _).symm

theorem get_fqh (g : IommuRegs) : g.get .fqh = BitVec.ofNat 64 (fqHead g) := (BitVec.ofNat_toNat _ _).symm

theorem get_fqt (g : IommuRegs) : g.get .fqt = BitVec.ofNat 64 (fqTail g) := (BitVec.ofNat_toNat _ _).symm

theorem toNat_get_cqh (g : IommuRegs) : (g.get .cqh).toNat = cqHead g := BitVec.toNat_setWidth_of_le (by norm_num)

theorem enOrOn_cqcsr (g : IommuRegs) : enOrOn (g.get .cqcsr) = true ↔ cqEn g = true ∨ cqOn g = true := by
  simp [enOrOn, IommuRegs.get, cqEn, cqOn]

theorem enOrOn_fqcsr (g : IommuRegs) : enOrOn (g.get .fqcsr) = true ↔ fqEn g = true ∨ fqOn g = true := by
  simp [enOrOn, IommuRegs.get, fqEn, fqOn]

/-! A write of a queue's status register (R42, R43). -/

/-- What was read written back: every sticky bit that is set is cleared, and no other bit changes. -/
theorem csrWrite_self {sticky : BitVec 32} (old : BitVec 32) (h : sticky &&& 0x3 = 0) :
    csrWrite sticky old old = old &&& ~~~sticky := by
  refine BitVec.eq_of_getLsbD_eq fun j hj => ?_
  have apart := congrArg (·.getLsbD j) h
  simp only [BitVec.getLsbD_and] at apart
  simp only [csrWrite, BitVec.getLsbD_or, BitVec.getLsbD_and, BitVec.getLsbD_not, hj, decide_true, Bool.true_and]
  grind

section
variable {s : State}

theorem fence_cfg (s : State) : (fence s).cfg = s.cfg := pause_cfg s

theorem fence_blk (s : State) : (fence s).blk = s.blk := pause_blk s

theorem fence_regs (calm : s.weave = []) : (fence s).regs = s.regs := by rw [fence_calm calm]

theorem fence_settled (rest : s.settled = true) : (fence s).settled = true := by
  rw [fence_calm ((settled_iff s).1 rest).1]
  exact rest

theorem fence_fence (calm : s.weave = []) : fence (fence s) = fence s := by
  rw [fence_calm (fence_weave calm), fence_calm calm]
  rfl

/-- A FENCE moves no queue. -/
theorem fence_cqGeometry (calm : s.weave = []) (geo : s.CqGeometry) : (fence s).CqGeometry := by
  rw [fence_calm calm]
  exact ⟨geo.ready, geo.base, geo.size, geo.aligned⟩

/-! The checks (R346, R355, R382). -/

theorem raise_eq (st : Status) (s : State) : raise st s = .next (s.finish (result st)) := rfl

theorem ne_disabled_iff (q : QueueState) : q ≠ .disabled ↔ q = .ready := by cases q <;> decide

/-- What CQ.INIT does past its checks (R346). -/
def cqProgram (n : BitVec 6) (cie : Bool) (a0 : Word) (s : State) : Host.Outcome State Fault Refusal :=
  let (h, s) := mmioRead .cqh (mmioWrite .cqb (queueBase n a0) s)
  let t0 := if s.cfg.enableResetsIndex then 0 else h
  cqInitWait a0 n t0 (mmioWrite .cqcsr (1 ||| (bit cie <<< 1)) (mmioWrite .cqt t0 s))

/-- What FQ.INIT does past its checks (R382). -/
def fqProgram (n : BitVec 6) (fie : Bool) (a0 : Word) (s : State) : Host.Outcome State Fault Refusal :=
  let (t, s) := mmioRead .fqt (mmioWrite .fqb (queueBase n a0) s)
  let h0 := if s.cfg.enableResetsIndex then 0 else t
  fqInitWait a0 n h0 (mmioWrite .fqcsr (1 ||| (bit fie <<< 1)) (mmioWrite .fqh h0 s))

theorem exec_cqInit_settled (rest : s.settled = true) (n : BitVec 6) (cie : Bool) (a0 : Word) :
    exec (.cqInit n cie a0) s =
      if s.blk.cqState = .ready then raise .errState s
      else if n.toNat < 1 ∨ s.cfg.cqLog2nMax < n.toNat then raise .errRange s
      else if a0.toNat % max 4096 (16 * 2 ^ n.toNat) ≠ 0 then raise .errAlign s
      else if 2 ^ 56 < a0.toNat + 16 * 2 ^ n.toNat then raise .errRange s
      else if cqEn s.regs = true ∨ cqOn s.regs = true then raise .errState s
      else cqProgram n cie a0 s := by
  change execCqInit n cie a0 s = _
  simp only [execCqInit, mmioRead_settled rest, enOrOn_cqcsr, ne_disabled_iff, Bool.or_eq_true, decide_eq_true_eq,
    Bool.not_eq_true', queueAligned, queueFits, beq_eq_false_iff_ne, decide_eq_false_iff_not, Nat.not_le, Nat.reducePow]
  rfl

theorem exec_fqInit_settled (rest : s.settled = true) (n : BitVec 6) (fie : Bool) (a0 : Word) :
    exec (.fqInit n fie a0) s =
      if s.blk.fqState = .ready then raise .errState s
      else if n.toNat < 1 ∨ s.cfg.fqLog2nMax < n.toNat then raise .errRange s
      else if a0.toNat % max 4096 (32 * 2 ^ n.toNat) ≠ 0 then raise .errAlign s
      else if 2 ^ 56 < a0.toNat + 32 * 2 ^ n.toNat then raise .errRange s
      else if fqEn s.regs = true ∨ fqOn s.regs = true then raise .errState s
      else fqProgram n fie a0 s := by
  change execFqInit n fie a0 s = _
  simp only [execFqInit, mmioRead_settled rest, enOrOn_fqcsr, ne_disabled_iff, Bool.or_eq_true, decide_eq_true_eq,
    Bool.not_eq_true', queueAligned, queueFits, beq_eq_false_iff_ne, decide_eq_false_iff_not, Nat.not_le, Nat.reducePow]
  rfl

/-- CQ.SYNC on a READY queue (R355). -/
theorem exec_cqSync_ready (ready : s.blk.cqState = .ready) (a0 data : Word) :
    exec (.cqSync a0 data) s =
      if a0.toNat % 8 ≠ 0 then raise .errAlign s
      else if 2 ^ 56 < a0.toNat + 8 ∨ data = 0 ∨ 2 ^ 32 ≤ data.toNat then raise .errRange s
      else if meetsAny a0.toNat 8 (blockRegions s) = true then raise .errRange s
      else if meetsAny a0.toNat 8 [registerWindow s.cfg] = true then .fault .completionInRegisterFile
      else submitSteps (fenceWord0 true false data) (fenceAddrField a0) (.sync a0 data) (memWrite a0.toNat 0 s) := by
  change execCqSync a0 data s = _
  rw [execCqSync, if_neg (by simp [ready])]
  simp only [Bool.not_eq_true', ← Bool.not_eq_true, aligned_eq_true, fits_eq_true, Bool.or_eq_true, decide_eq_true_eq,
    Nat.not_lt, Nat.reducePow, or_assoc, ne_eq]

/-! What a submission leaves in the block's view. -/

theorem submitted_wordBlk (seen : s.unseen = []) (d0 d1 : Word) :
    let a := s.blk.cqBase.toNat + 16 * cqTail s.regs
    (s.submitted d0 d1).wordBlk a = d0 ∧ (s.submitted d0 d1).wordBlk (a + 8) = d1 := by
  simp only [State.wordBlk, State.submitted, seen]
  constructor
  · exact (Memory.load64_store64_other _ _ _ _ (Or.inl le_rfl)).trans (Memory.load64_store64_same ..)
  · exact Memory.load64_store64_same ..

/-! The waits. -/

/-- A wait whose poll reads registers alone ends at its first poll; or no poll ends it, and it times out at POLL_BOUND
or stays. -/
theorem await_settled {α : Type} {poll : State → Option α × State} {w : WaitPoint}
    {go : α → State → Host.Outcome State Fault Refusal} {c : Prop} [Decidable c] {v : α} (polls : s.polls)
    (hp : poll s = (if c then some v else none, s)) :
    await poll w go s = if c then go v s else
      .next (if s.cfg.pollBound.isSome then s.finish (result .errTimeout)
        else { s with phase := .busy, wait := some w }) := by
  split
  · next hc => exact await_now polls (by rw [hp, if_pos hc])
  · next hc =>
    rw [if_neg hc] at hp
    have stuck (n : Nat) : pollLoop poll n s = (none, s) := by
      induction n with
      | zero => rfl
      | succ n ih => simp only [pollLoop, hp, ih]
    simp only [await, stuck]
    split <;> rfl

section
variable (rest : s.settled = true) (polls : s.polls)
include rest

theorem pollDrained_settled (t : Word) : pollDrained t s = (if cqErr s.regs.cqcsr = true ∨ s.regs.get .cqh = t then
    some (s.regs.get .cqh, s.regs.get .cqcsr) else none, s) := by
  simp [pollDrained, mmioRead_settled rest, setWidth_cqcsr]

theorem pollNotFull_settled : pollNotFull (BitVec.ofNat 64 (cqTail s.regs)) s =
    (if cqErr s.regs.cqcsr = true ∨ (cqTail s.regs + 1) % 2 ^ s.blk.cqLog2n.toNat ≠ cqHead s.regs then
      some (s.regs.get .cqcsr) else none, s) := by
  simp only [pollNotFull, mmioRead_settled rest, setWidth_cqcsr, toNat_cqTail, cqCapacity, toNat_get_cqh]
  by_cases err : cqErr s.regs.cqcsr = true
  · simp only [err, if_true, true_or]
  · simp only [err, Bool.false_eq_true, false_or, if_false]

include polls

/-- CQ.WAIT on a READY queue (R350). -/
theorem exec_cqWait_settled (ready : s.blk.cqState = .ready) : exec .cqWait s = .next (
    if cqErr s.regs.cqcsr then s.finish (result .errQueue (s.regs.get .cqh) (s.regs.get .cqcsr))
    else if s.regs.get .cqh = s.regs.get .cqt then
      (fence s).finish (result .ok (s.regs.get .cqt) (s.regs.get .cqcsr))
    else if s.cfg.pollBound.isSome then s.finish (result .errTimeout)
    else { s with phase := .busy, wait := some (.cqWait (s.regs.get .cqt)) }) := by
  change execCqWait s = _
  rw [execCqWait, if_neg (by simp [ready]), mmioRead_settled rest]
  change cqWaitWait (s.regs.get .cqt) s = _
  rw [cqWaitWait, await_settled polls (pollDrained_settled rest _)]
  simp only [cqWaitFinish, setWidth_cqcsr, done]
  by_cases err : cqErr s.regs.cqcsr = true
  · simp [err]
  · by_cases drained : s.regs.get .cqh = s.regs.get .cqt
    · simp [err, drained]
    · simp [err, drained]

/-- The full-queue wait (R347, R348). -/
theorem submitWait_settled (d0 d1 : Word) (by_ : SubmitFor) :
    let t : Word := BitVec.ofNat 64 (cqTail s.regs)
    submitWait d0 d1 t by_ s =
      if cqErr s.regs.cqcsr then .next (s.finish (result .errQueue t (s.regs.get .cqcsr)))
      else if (cqTail s.regs + 1) % 2 ^ s.blk.cqLog2n.toNat = cqHead s.regs then
        .next (if s.cfg.pollBound.isSome then s.finish (result .errTimeout)
          else { s with phase := .busy, wait := some (.submit d0 d1 t by_) })
      else submitStore d0 d1 t by_ s := by
  simp only [submitWait, await_settled polls (pollNotFull_settled rest), submitChecked, setWidth_cqcsr, done]
  by_cases err : cqErr s.regs.cqcsr = true
  · simp [err]
  · by_cases full : (cqTail s.regs + 1) % 2 ^ s.blk.cqLog2n.toNat = cqHead s.regs
    · simp [err, full]
    · simp [err, full]

omit polls in
/-- The steps of CQ.SUBMIT: a FENCE, and the read of the tail (R348). -/
theorem submitSteps_settled (d0 d1 : Word) (by_ : SubmitFor) : submitSteps d0 d1 by_ s =
    if s.cfg.cqFullCheck then submitWait d0 d1 (BitVec.ofNat 64 (cqTail s.regs)) by_ (fence s)
    else submitStore d0 d1 (BitVec.ofNat 64 (cqTail s.regs)) by_ (fence s) := by
  have regs := fence_regs ((settled_iff s).1 rest).1
  rw [submitSteps, mmioRead_settled (fence_settled rest)]
  simp only [get_cqt, regs, fence_cfg]

/-- The steps of CQ.SUBMIT into a queue that is not full (R345, R348). -/
theorem submitSteps_room (geo : s.CqGeometry) (room : s.cfg.cqFullCheck = true → cqErr s.regs.cqcsr = false ∧
      (cqTail s.regs + 1) % 2 ^ s.blk.cqLog2n.toNat ≠ cqHead s.regs) (d0 d1 : Word) (by_ : SubmitFor) :
    submitSteps d0 d1 by_ s = submitThen by_ (BitVec.ofNat 64 (cqTail s.regs))
      (BitVec.ofNat 64 (s.blk.cqBase.toNat + 16 * cqTail s.regs)) ((fence s).submitted d0 d1) := by
  have calm := ((settled_iff s).1 rest).1
  have wait := submitWait_settled (fence_settled rest) (by rw [State.polls, fence_cfg]; exact polls) d0 d1 by_
  have stores := submitStore_calm (fence_weave calm) (fence_cqGeometry calm geo) d0 d1 by_
  simp only [fence_regs calm, fence_blk] at wait stores
  rw [submitSteps_settled rest]
  split
  · next check =>
    obtain ⟨clear, apart⟩ := room check
    rw [wait, if_neg (by simp [clear]), if_neg apart, stores]
  · exact stores

end

end

end Sys2Proof.Machine
end

section
/-! PROOFS. O52 and O49. -/

namespace Sys2Proof.Machine

/-- Settles O52: the reads with the IOMMU at rest, and a write of what was read. -/
theorem queueStatusAndClear : Obligations.QueueStatusAndClear := by
  intro s rest
  have calm := ((settled_iff s).1 rest).1
  have narrow (v : BitVec 32) : (v.setWidth 64).setWidth 32 = v := by simp
  refine ⟨?_, ?_, ?_, ?_⟩
  · change execCqStatus s = _
    simp only [execCqStatus, mmioRead_settled rest, get_cqcsr, get_cqh, get_cqt]
    rfl
  · change execFqStatus s = _
    simp only [execFqStatus, mmioRead_settled rest, get_fqcsr, get_fqh, get_fqt]
    rfl
  · change execCqClear s = _
    simp only [execCqClear, mmioRead_settled rest, mmioWrite_calm calm, ← get_cqcsr, IommuRegs.set, IommuRegs.get,
      narrow, csrWrite_self (sticky := cqSticky) _ (by decide)]
    rfl
  · change execFqClear s = _
    simp only [execFqClear, mmioRead_settled rest, mmioWrite_calm calm, ← get_fqcsr, IommuRegs.set, IommuRegs.get,
      narrow, csrWrite_self (sticky := fqSticky) _ (by decide)]
    rfl

/-- Settles O49: each check in turn, none of which writes anything. -/
theorem queueChecks : Obligations.QueueChecks := by
  refine ⟨fun n cie a0 s st rest check => ?cq, fun n fie a0 s st rest check => ?fq,
    fun a0 data s st ready check => ?sync, fun d0 d1 s off => ?off⟩
  case cq =>
    rw [exec_cqInit_settled rest, raise_eq, raise_eq, raise_eq]
    split_ifs at check ⊢ <;> grind
  case fq =>
    rw [exec_fqInit_settled rest, raise_eq, raise_eq, raise_eq]
    split_ifs at check ⊢ <;> grind
  case sync =>
    rw [exec_cqSync_ready ready, raise_eq, raise_eq]
    split_ifs at check ⊢ <;> grind
  case off =>
    have raised (u : Host.Outcome State Fault Refusal) : (if s.blk.cqState ≠ .ready then raise .errState s else u) =
        .next (s.finish (result .errState)) := if_pos (by simp [off])
    exact ⟨raised _, raised _, raised _⟩

end Sys2Proof.Machine
end

section
/-! PROOFS. O50 and O51. -/

namespace Sys2Proof.Machine

/-- Settles O50: the run of CQ.SUBMIT, whose stores and tail write end in one state. -/
theorem cqSubmitStores : Obligations.CqSubmitStores := by
  intro d0 d1 s rest polls geo room a
  have calm := ((settled_iff s).1 rest).1
  have run : exec (.cqSubmit d0 d1) s = .next (((fence s).submitted d0 d1).finish
      (result .ok (BitVec.ofNat 64 (cqTail s.regs)) (BitVec.ofNat 64 a))) := by
    change execCqSubmit d0 d1 s = _
    rw [execCqSubmit, if_neg (by simp [geo.ready]), submitSteps_room rest polls geo room]
    rfl
  have io := submitted_wordIo (fence s) d0 d1
  have frame := submitted_asFenceOutside (fence_weave calm) d0 d1
    (result .ok (BitVec.ofNat 64 (cqTail s.regs)) (BitVec.ofNat 64 a))
  rw [State.AsFenceOutside, fence_fence calm] at frame
  have blk := submitted_wordBlk (s := fence s) (by rw [fence_calm calm]) d0 d1
  have same := (fence_sameOutside calm).trans (submitted_sameOutside (fence s) d0 d1
    (result .ok (BitVec.ofNat 64 (cqTail s.regs)) (BitVec.ofNat 64 a)))
  simp only [fence_regs calm, fence_blk] at io frame blk same
  obtain ⟨ioFirst, ioSecond⟩ := io
  obtain ⟨blkFirst, blkSecond⟩ := blk
  refine ⟨_, run, rfl, fence_blk s, ?regs, rfl, blkFirst, blkSecond, ioFirst, ioSecond, same, frame⟩
  case regs => simp only [finish_regs, State.submitted, fence_regs calm, fence_blk]

/-- Settles O51: the end of each wait, where its poll and its branch are decided by the hypotheses. -/
theorem cqWaitsEnd : Obligations.CqWaitsEnd := by
  intro d0 d1 s rest polls ready t csr
  have calm := ((settled_iff s).1 rest).1
  have wait := exec_cqWait_settled rest polls ready
  have submit (check : s.cfg.cqFullCheck = true) : exec (.cqSubmit d0 d1) s = submitWait d0 d1 t .submit (fence s) := by
    change execCqSubmit d0 d1 s = _
    rw [execCqSubmit, if_neg (by simp [ready]), submitSteps_settled rest, if_pos check]
  have full := submitWait_settled (fence_settled rest) (by rw [State.polls, fence_cfg]; exact polls) d0 d1 .submit
  have same : BitVec.ofNat 64 (cqHead s.regs) = BitVec.ofNat 64 (cqTail s.regs) ↔ cqHead s.regs = cqTail s.regs := by
    rw [← get_cqh, ← BitVec.toNat_inj, toNat_get_cqh, toNat_cqTail]
  simp only [fence_regs calm, fence_blk, fence_cfg, get_cqcsr] at full
  simp only [get_cqcsr, get_cqh, get_cqt, same] at wait
  refine ⟨fun clear drained => ?_, fun err => ⟨?_, fun check => ?_⟩, fun clear apart => ?_, fun clear check last => ?_⟩
  · rw [wait, if_neg (by simp [clear]), if_pos drained]
  · rw [wait, if_pos err]
  · rw [submit check, full, if_pos err]
  · rw [wait, if_neg (by simp [clear]), if_neg apart]
  · rw [submit check, full, if_neg (by simp [clear]), if_pos last]
    simp only [fence_regs calm, fence_blk, fence_cfg]
    rfl

end Sys2Proof.Machine
end

section
/-! SUPPORT. A queue turned on or off with the environment at rest but for that (R346, R354, R364, R389): the write of
its status register, and the on bit that follows the enable. -/

namespace Sys2Proof.Machine

/-! The status register's bits. -/

/-- A write of control bits alone keeps every other bit. -/
theorem csrWrite_control {sticky v : BitVec 32} (old : BitVec 32) (apart : v &&& sticky = 0) (low : v &&& 0x3 = v) :
    csrWrite sticky old v = (old &&& 0xFFFFFFFC) ||| v := by
  have mask : ~~~(0x3#32 ||| 0#32) = 0xFFFFFFFC#32 := by decide
  rw [csrWrite, apart, low]
  exact congrArg (fun m => (old &&& m) ||| v) mask

/-- The write of a disable: the enable is cleared, the interrupt enable kept. -/
theorem csrWrite_disable {sticky : BitVec 32} (old : BitVec 32) (apart : 0x2 &&& sticky = 0) :
    csrWrite sticky old (old &&& 0x2) = old &&& 0xFFFFFFFE := by
  have mask : 0xFFFFFFFC#32 ||| 0x2#32 = 0xFFFFFFFE#32 := by decide
  rw [csrWrite_control old (by rw [BitVec.and_assoc, apart]; exact BitVec.and_zero)
    (by rw [BitVec.and_assoc]; rfl),
    ← BitVec.and_or_distrib_left]
  exact congrArg (old &&& ·) mask

theorem setBit_true_or (c : BitVec 32) (i : Nat) (v : BitVec 32) :
    setBit (c ||| v) i true = c ||| (v ||| BitVec.twoPow 32 i) := by
  rw [setBit, if_pos rfl, BitVec.or_assoc]

theorem setBit_false_and (c : BitVec 32) (i : Nat) (m : BitVec 32) :
    setBit (c &&& m) i false = c &&& (m &&& ~~~BitVec.twoPow 32 i) := by
  rw [setBit, if_neg Bool.false_ne_true, BitVec.and_assoc]

theorem getLsbD_setBit (c : BitVec 32) {i : Nat} (b : Bool) (h : i < 32) : (setBit c i b).getLsbD i = b := by
  cases b <;> simp [setBit, h]

/-! The IOMMU comes to rest. -/

section
variable {s : State}

/-- With no busy bit set, the IOMMU comes to rest by its queues following their enables, the transactions under way, and
the commands between head and tail. -/
theorem quiesce_idle (cqIdle : s.regs.cqcsr.getLsbD 17 = false) (fqIdle : s.regs.fqcsr.getLsbD 17 = false)
    (ddtpIdle : ddtpBusy s.regs.ddtp = false) : quiesce s =
      let t := awaitTransactions true true (advanceFqt (fqFollow (cqFollow s)))
      consumeMany (cqOutstanding t.regs) t := by
  have ddtp : setDdtpBusy false s = s := by
    simp only [setDdtpBusy, Bool.false_eq_true, if_false, clearBusy_same _ ddtpIdle]
  have cq : setCqcsr 17 false s = s := by simp only [setCqcsr, setBit_same _ _ cqIdle]
  have fq : setFqcsr 17 false s = s := by simp only [setFqcsr, setBit_same _ _ fqIdle]
  simp only [quiesce, ddtp, cq, fq]

theorem advanceFqt_same (record : s.engine.recPending = false) : advanceFqt s = s := by simp [advanceFqt, record]

/-- The queues follow their enables, and that is all if the IOMMU is then at rest. -/
theorem quiesce_follow {t : State} (cqIdle : s.regs.cqcsr.getLsbD 17 = false)
    (fqIdle : s.regs.fqcsr.getLsbD 17 = false) (ddtpIdle : ddtpBusy s.regs.ddtp = false)
    (follow : fqFollow (cqFollow s) = t) (rest : t.settled = true) : quiesce s = t := by
  obtain ⟨-, -, -, -, -, -, stopped, record, flight⟩ := (settled_iff t).1 rest
  simp only [quiesce_idle cqIdle fqIdle ddtpIdle, follow, advanceFqt_same record, awaitTransactions_none _ _ flight,
    consumeMany_stopped _ _ stopped]

theorem cqFollow_same (h : cqEn s.regs = cqOn s.regs) : cqFollow s = s := by simp [cqFollow, h]

theorem fqFollow_same (h : fqEn s.regs = fqOn s.regs) : fqFollow s = s := by simp [fqFollow, h]

theorem cqOn_setCqcsr (b : Bool) (s : State) : cqOn (dropCommand (setCqcsr 16 b s)).regs = b :=
  getLsbD_setBit _ _ (by decide)

/-- cqon follows cqen up; the consumer being off, it ends no command first. -/
theorem cqFollow_on (off : cqOn s.regs = false) (en : cqEn s.regs = true) :
    cqFollow s = { s with
      engine := { s.engine with cmdBuf := none },
      regs := { s.regs with
        cqcsr := setBit s.regs.cqcsr 16 true, cqh := if s.cfg.enableResetsIndex then 0 else s.regs.cqh } } := by
  have stopped : cqRunning s.regs = false := by simp [cqRunning, off]
  have apart : ¬ (cqEn s.regs == cqOn s.regs) = true := by simp [off, en]
  rw [cqFollow, if_neg apart, consumeCommand_stopped stopped, ite_self]
  simp only [en, cqOn_setCqcsr, Bool.true_and, dropCommand_cfg, setCqcsr_cfg]
  split <;> rfl

/-- cqon follows cqen down; the consumer being stopped, it ends no command first. -/
theorem cqFollow_off (stopped : cqRunning s.regs = false) (en : cqEn s.regs = false) :
    cqFollow s = { s with
      engine := if cqOn s.regs then { s.engine with cmdBuf := none } else s.engine,
      regs := { s.regs with cqcsr := setBit s.regs.cqcsr 16 false } } := by
  cases on : cqOn s.regs with
  | false =>
    rw [cqFollow_same (en.trans on.symm), setBit_same _ _ on]
    rfl
  | true =>
    have apart : ¬ (cqEn s.regs == cqOn s.regs) = true := by simp [on, en]
    rw [cqFollow, if_neg apart, consumeCommand_stopped stopped, ite_self]
    simp only [en, cqOn_setCqcsr, Bool.false_and]
    rfl

/-- fqon follows fqen down; no record's advance is to come. -/
theorem fqFollow_off (record : s.engine.recPending = false) (en : fqEn s.regs = false) :
    fqFollow s = setFqcsr 16 false s := by
  cases on : fqOn s.regs with
  | false => rw [fqFollow_same (en.trans on.symm), setFqcsr, setBit_same _ _ on]
  | true =>
    have stays : fqOn (setFqcsr 16 false s).regs = false := getLsbD_setBit _ _ (by decide)
    have apart : ¬ (fqEn s.regs == fqOn s.regs) = true := by simp [on, en]
    rw [fqFollow, if_neg apart, advanceFqt_same record, en]
    simp only [stays, Bool.false_and]
    rfl

theorem pollOn_calm (calm : s.weave = []) (r : MmioReg) (b : Bool) : pollOn r b s =
    (if ((quiesce s).regs.get r).getLsbD 16 == b then some () else none, quiesce s) := by
  simp only [pollOn, mmioRead_calm calm]

end

end Sys2Proof.Machine
end

section
/-! SUPPORT. CQ.DISABLE and FQ.DISABLE with the environment at rest but for turning the queue off (R354, R389): the
write, and the wait that its first poll ends. -/

namespace Sys2Proof.Machine

/-- The state with another cqcsr. -/
def State.withCqcsr (s : State) (v : BitVec 32) : State := { s with regs := { s.regs with cqcsr := v } }

/-- The state with another fqcsr. -/
def State.withFqcsr (s : State) (v : BitVec 32) : State := { s with regs := { s.regs with fqcsr := v } }

/-- The command queue off: cqen and cqon clear, and a command only read forgotten (R354, R364; log 19). -/
def State.cqStopped (s : State) : State :=
  { s.withCqcsr (s.regs.cqcsr &&& 0xFFFEFFFE) with
    engine := if cqOn s.regs then { s.engine with cmdBuf := none } else s.engine }

/-- The fault queue off: fqen and fqon clear (R389, R395). -/
def State.fqStopped (s : State) : State := s.withFqcsr (s.regs.fqcsr &&& 0xFFFEFFFE)

/-- The write of CQ.DISABLE and FQ.DISABLE as the register takes it: the interrupt enable alone is written 1. -/
theorem setWidth_and_two (c : BitVec 32) : (c.setWidth 64 &&& 2).setWidth 32 = c &&& 2 := by
  rw [BitVec.setWidth_and]
  simp

section
variable {s : State} (rest : s.settled = true)
include rest

theorem cqStopped_settled : s.cqStopped.settled = true := by
  obtain ⟨calm, -, fq, cqIdle, fqIdle, ddtpIdle, -, record, flight⟩ := (settled_iff s).1 rest
  have engine : s.cqStopped.engine.recPending = s.engine.recPending ∧
      s.cqStopped.engine.inFlight = s.engine.inFlight := by
    simp only [State.cqStopped]
    split <;> exact ⟨rfl, rfl⟩
  rw [settled_iff, engine.1, engine.2]
  refine ⟨calm, ?_, fq, ?_, fqIdle, ddtpIdle, ?_, record, flight⟩
  · simp [State.cqStopped, State.withCqcsr, cqEn, cqOn]
  · simp [State.cqStopped, State.withCqcsr, cqIdle, -BitVec.getLsbD_eq_getElem]
  · simp [State.cqStopped, State.withCqcsr, cqRunning, cqOn]

theorem fqStopped_settled : s.fqStopped.settled = true := by
  obtain ⟨calm, cq, -, cqIdle, fqIdle, ddtpIdle, stopped, record, flight⟩ := (settled_iff s).1 rest
  rw [settled_iff]
  refine ⟨calm, cq, ?_, cqIdle, ?_, ddtpIdle, stopped, record, flight⟩
  · simp [State.fqStopped, State.withFqcsr, fqEn, fqOn]
  · simp [State.fqStopped, State.withFqcsr, fqIdle, -BitVec.getLsbD_eq_getElem]

/-- After the write that clears cqen, the IOMMU turns the queue off. -/
theorem quiesce_cqDisabled : quiesce (s.withCqcsr (s.regs.cqcsr &&& 0xFFFFFFFE)) = s.cqStopped := by
  obtain ⟨-, -, fq, cqIdle, fqIdle, ddtpIdle, stopped, -, -⟩ := (settled_iff s).1 rest
  have bits : setBit (s.regs.cqcsr &&& 0xFFFFFFFE) 16 false = s.regs.cqcsr &&& 0xFFFEFFFE := setBit_false_and ..
  have on : cqOn (s.withCqcsr (s.regs.cqcsr &&& 0xFFFFFFFE)).regs = cqOn s.regs := by simp [State.withCqcsr, cqOn]
  have running : cqRunning (s.withCqcsr (s.regs.cqcsr &&& 0xFFFFFFFE)).regs = cqRunning s.regs := by
    have err : cqErr (s.regs.cqcsr &&& 0xFFFFFFFE) = cqErr s.regs.cqcsr := by simp [cqErr]
    rw [cqRunning, on]
    exact congrArg (fun e => cqOn s.regs && !e && cqHead s.regs != cqTail s.regs) err
  have follow : cqFollow (s.withCqcsr (s.regs.cqcsr &&& 0xFFFFFFFE)) = s.cqStopped := by
    rw [cqFollow_off (running.trans stopped) (by simp [State.withCqcsr, cqEn]), on, State.cqStopped, ← bits]
    rfl
  refine quiesce_follow ?_ fqIdle ddtpIdle ?_ (cqStopped_settled rest)
  · simp [State.withCqcsr, cqIdle, -BitVec.getLsbD_eq_getElem]
  · rw [follow]
    exact fqFollow_same fq

/-- After the write that clears fqen, the IOMMU turns the queue off. -/
theorem quiesce_fqDisabled : quiesce (s.withFqcsr (s.regs.fqcsr &&& 0xFFFFFFFE)) = s.fqStopped := by
  obtain ⟨-, cq, -, cqIdle, fqIdle, ddtpIdle, -, record, -⟩ := (settled_iff s).1 rest
  have bits : setBit (s.regs.fqcsr &&& 0xFFFFFFFE) 16 false = s.regs.fqcsr &&& 0xFFFEFFFE := setBit_false_and ..
  refine quiesce_follow cqIdle ?_ ddtpIdle ?_ (fqStopped_settled rest)
  · simp [State.withFqcsr, fqIdle, -BitVec.getLsbD_eq_getElem]
  · rw [cqFollow_same (by exact cq), fqFollow_off (by exact record) (by simp [State.withFqcsr, fqEn])]
    exact congrArg s.withFqcsr bits

variable (polls : s.polls)
include polls

/-- CQ.DISABLE's wait, after its write, ends at the first poll (R354). -/
theorem cqDisableWait_settled : cqDisableWait (s.withCqcsr (s.regs.cqcsr &&& 0xFFFFFFFE)) = done
    (s.cqStopped.setBlk fun b => { b with cqState := .disabled }) (result .ok (s.cqStopped.regs.get .cqcsr)) := by
  have poll : pollOn .cqcsr false (s.withCqcsr (s.regs.cqcsr &&& 0xFFFFFFFE)) = (some (), s.cqStopped) := by
    rw [pollOn_calm (by exact ((settled_iff s).1 rest).1), quiesce_cqDisabled rest]
    simp [IommuRegs.get, State.cqStopped, State.withCqcsr]
  have settled : (s.cqStopped.setBlk fun b => { b with cqState := .disabled }).settled = true :=
    (settled_congr (s := s.cqStopped) rfl rfl rfl).trans (cqStopped_settled rest)
  have bound : (s.withCqcsr (s.regs.cqcsr &&& 0xFFFFFFFE)).polls := polls
  rw [cqDisableWait, await_now (s := s.withCqcsr _) bound poll, cqDisableDone, mmioRead_settled settled]
  rfl

/-- FQ.DISABLE's wait, after its write, ends at the first poll (R389). -/
theorem fqDisableWait_settled : fqDisableWait (s.withFqcsr (s.regs.fqcsr &&& 0xFFFFFFFE)) = done
    (s.fqStopped.setBlk fun b => { b with fqState := .disabled }) (result .ok (s.fqStopped.regs.get .fqcsr)) := by
  have poll : pollOn .fqcsr false (s.withFqcsr (s.regs.fqcsr &&& 0xFFFFFFFE)) = (some (), s.fqStopped) := by
    rw [pollOn_calm (by exact ((settled_iff s).1 rest).1), quiesce_fqDisabled rest]
    simp [IommuRegs.get, State.fqStopped, State.withFqcsr]
  have settled : (s.fqStopped.setBlk fun b => { b with fqState := .disabled }).settled = true :=
    (settled_congr (s := s.fqStopped) rfl rfl rfl).trans (fqStopped_settled rest)
  have bound : (s.withFqcsr (s.regs.fqcsr &&& 0xFFFFFFFE)).polls := polls
  rw [fqDisableWait, await_now (s := s.withFqcsr _) bound poll, fqDisableDone, mmioRead_settled settled]
  rfl

end

end Sys2Proof.Machine
end

section
/-! PROOFS. O53. -/

namespace Sys2Proof.Machine

/-- Settles O53: the write that clears the enable, the IOMMU turning the queue off, and the last read. -/
theorem queueDisable : Obligations.QueueDisable := by
  intro s rest polls
  have calm := ((settled_iff s).1 rest).1
  refine ⟨?cq, ?fq⟩
  case cq =>
    have written : mmioWrite .cqcsr (s.regs.get .cqcsr &&& 2) s = s.withCqcsr (s.regs.cqcsr &&& 0xFFFFFFFE) := by
      rw [mmioWrite_calm calm, IommuRegs.set, IommuRegs.get, setWidth_and_two, csrWrite_disable _ (by decide)]
      rfl
    change execCqDisable s = _
    rw [execCqDisable, mmioRead_settled rest]
    change cqDisableWait (mmioWrite .cqcsr (s.regs.get .cqcsr &&& 2) s) = _
    rw [written, cqDisableWait_settled rest polls, get_cqcsr]
    rfl
  case fq =>
    have written : mmioWrite .fqcsr (s.regs.get .fqcsr &&& 2) s = s.withFqcsr (s.regs.fqcsr &&& 0xFFFFFFFE) := by
      rw [mmioWrite_calm calm, IommuRegs.set, IommuRegs.get, setWidth_and_two, csrWrite_disable _ (by decide)]
      rfl
    change execFqDisable s = _
    rw [execFqDisable, mmioRead_settled rest]
    change fqDisableWait (mmioWrite .fqcsr (s.regs.get .fqcsr &&& 2) s) = _
    rw [written, fqDisableWait_settled rest polls, get_fqcsr]
    rfl

end Sys2Proof.Machine
end

section
/-! SUPPORT. The base register CQ.INIT writes (R40, R346), as a number. -/

namespace Sys2Proof.Machine

section
variable {n : BitVec 6} {a0 : Word} (small : 1 ≤ n.toNat ∧ n.toNat ≤ 32)
include small

theorem toNat_log2sz : (n.setWidth 64 - 1).toNat = n.toNat - 1 := by
  have one : (1 : Word).toNat = 1 := rfl
  have wide : (n.setWidth 64).toNat = n.toNat := BitVec.toNat_setWidth_of_le (by decide)
  rw [BitVec.toNat_sub_of_le (by rw [BitVec.le_def, wide, one]; exact small.1), wide, one]

theorem toNat_queueBase (range : a0.toNat < 2 ^ 56) :
    (queueBase n a0).toNat = a0.toNat / 4096 * 1024 + (n.toNat - 1) := by
  have low := toNat_log2sz small
  rw [queueBase, toNat_ppnField_or a0 (by omega), low]
  omega

/-- The value has no reserved bit (R40). -/
theorem queueBaseWrite_queueBase (range : a0.toNat < 2 ^ 56) : queueBaseWrite (queueBase n a0) = queueBase n a0 := by
  have number := toNat_queueBase small range
  have page : queueBase n a0 &&& ppnFieldMask = ppnField a0 := by
    rw [← BitVec.toNat_inj, toNat_and_ppnFieldMask, number, toNat_ppnField]
    omega
  have size : queueBase n a0 &&& 0x1F = n.setWidth 64 - 1 := by
    rw [← BitVec.toNat_inj, toNat_log2sz small, BitVec.toNat_and]
    change (queueBase n a0).toNat &&& (2 ^ 5 - 1) = _
    rw [Nat.and_two_pow_sub_one_eq_mod, number]
    omega
  rw [queueBaseWrite, BitVec.and_or_distrib_left, page, size, queueBase]

theorem log2sz_queueBase (range : a0.toNat < 2 ^ 56) : ((queueBase n a0).extractLsb' 0 5).toNat + 1 = n.toNat := by
  rw [BitVec.extractLsb'_toNat, toNat_queueBase small range, Nat.shiftRight_zero]
  omega

theorem queueCap_queueBase (range : a0.toNat < 2 ^ 56) : queueCap (queueBase n a0) = 2 ^ n.toNat := by
  rw [queueCap, log2sz_queueBase small range]

end

/-- Of two powers of two the larger is a multiple of both. -/
theorem two_pow_dvd_max (a b : Nat) : 2 ^ a ∣ max (2 ^ a) (2 ^ b) ∧ 2 ^ b ∣ max (2 ^ a) (2 ^ b) := by
  rcases Nat.le_total a b with h | h
  · rw [max_eq_right (Nat.pow_le_pow_right (by decide) h)]
    exact ⟨Nat.pow_dvd_pow 2 h, dvd_rfl⟩
  · rw [max_eq_left (Nat.pow_le_pow_right (by decide) h)]
    exact ⟨dvd_rfl, Nat.pow_dvd_pow 2 h⟩

/-- A queue's region is aligned to a page and to its size (R346). -/
theorem queue_alignment {n a : Nat} (h : a % max 4096 (16 * 2 ^ n) = 0) : a % 4096 = 0 ∧ a % (16 * 2 ^ n) = 0 := by
  have size : 16 * 2 ^ n = 2 ^ (n + 4) := by
    rw [pow_add]
    omega
  have page : (4096 : Nat) = 2 ^ 12 := rfl
  rw [size, page] at h ⊢
  have whole := Nat.dvd_of_mod_eq_zero h
  obtain ⟨pages, slots⟩ := two_pow_dvd_max 12 (n + 4)
  exact ⟨Nat.mod_eq_zero_of_dvd (pages.trans whole), Nat.mod_eq_zero_of_dvd (slots.trans whole)⟩

theorem cqTail_eq (g : IommuRegs) : cqTail g = g.cqt.toNat % queueCap g.cqb := by
  rw [cqTail, indexBits, BitVec.toNat_ofNat]
  exact Nat.mod_eq_of_lt ((Nat.mod_le _ _).trans_lt g.cqt.isLt)

end Sys2Proof.Machine
end

section
/-! SUPPORT. CQ.INIT past its checks, with the environment at rest but for turning the queue on (R346, R364): its
writes, and the wait that its first poll ends. -/

namespace Sys2Proof.Machine

section
variable {s : State} {n : BitVec 6} {a0 : Word}

/-- The index CQ.INIT starts from: the head under the new capacity, or 0 (R346). -/
def cqStart (s : State) (n : BitVec 6) : Nat := if s.cfg.enableResetsIndex then 0 else s.regs.cqh.toNat % 2 ^ n.toNat

theorem cqStart_lt (s : State) (n : BitVec 6) : cqStart s n < 2 ^ n.toNat := by
  rw [cqStart]
  split
  · positivity
  · exact Nat.mod_lt _ (by positivity)

/-- The command queue as CQ.INIT programs it: its base, its tail, and cqen and cie (R346). -/
def State.cqProgrammed (s : State) (n : BitVec 6) (cie : Bool) (a0 : Word) : State := { s with
  regs := { s.regs with
    cqb := queueBase n a0,
    cqt := BitVec.ofNat 32 (cqStart s n),
    cqcsr := (s.regs.cqcsr &&& 0xFFFFFFFC) ||| (if cie then 0x3 else 0x1) } }

/-- The command queue on: cqon follows cqen, the head starts over on an instance with ENABLE_RESETS_INDEX, and a command
only read is forgotten (R364; log 19). -/
def State.cqStarted (s : State) (n : BitVec 6) (cie : Bool) (a0 : Word) : State := { s with
  engine := { s.engine with cmdBuf := none },
  regs := { s.regs with
    cqb := queueBase n a0,
    cqt := BitVec.ofNat 32 (cqStart s n),
    cqh := if s.cfg.enableResetsIndex then 0 else s.regs.cqh,
    cqcsr := (s.regs.cqcsr &&& 0xFFFFFFFC) ||| (if cie then 0x10003 else 0x10001) } }

variable (rest : s.settled = true) (small : 1 ≤ n.toNat ∧ n.toNat ≤ 32) (range : a0.toNat < 2 ^ 56)
include small range

/-- The head and the tail meet. -/
theorem cqStarted_empty (cie : Bool) : cqHead (s.cqStarted n cie a0).regs = cqTail (s.cqStarted n cie a0).regs := by
  have cap := queueCap_queueBase small range
  have head : (s.cqStarted n cie a0).regs.cqh.toNat % 2 ^ n.toNat = cqStart s n := by
    simp only [State.cqStarted, cqStart]
    split
    · exact Nat.zero_mod _
    · rfl
  have below := cqStart_lt s n
  have wide : 2 ^ n.toNat ≤ 2 ^ 32 := Nat.pow_le_pow_right (by decide) small.2
  have tail : (s.cqStarted n cie a0).regs.cqt.toNat = cqStart s n := by
    change (BitVec.ofNat 32 (cqStart s n)).toNat = _
    rw [BitVec.toNat_ofNat, Nat.mod_eq_of_lt (by omega)]
  rw [cqHead_eq, cqTail_eq, tail]
  change (s.cqStarted n cie a0).regs.cqh.toNat % queueCap (queueBase n a0) = cqStart s n % queueCap (queueBase n a0)
  rw [cap, head, Nat.mod_eq_of_lt below]

include rest

theorem cqStarted_settled (cie : Bool) : (s.cqStarted n cie a0).settled = true := by
  obtain ⟨calm, -, fq, cqIdle, fqIdle, ddtpIdle, -, record, flight⟩ := (settled_iff s).1 rest
  rw [settled_iff]
  refine ⟨calm, ?_, fq, ?_, fqIdle, ddtpIdle, ?_, record, flight⟩
  · cases cie <;> simp [State.cqStarted, cqEn, cqOn]
  · cases cie <;> simp [State.cqStarted, cqIdle, -BitVec.getLsbD_eq_getElem]
  · simp [cqRunning, cqStarted_empty small range cie]

variable (off : cqOn s.regs = false)
include off

/-- After the write that sets cqen, the IOMMU turns the queue on. -/
theorem quiesce_cqProgrammed (cie : Bool) : quiesce (s.cqProgrammed n cie a0) = s.cqStarted n cie a0 := by
  obtain ⟨-, -, fq, cqIdle, fqIdle, ddtpIdle, -, -, -⟩ := (settled_iff s).1 rest
  have bits : setBit ((s.regs.cqcsr &&& 0xFFFFFFFC) ||| (if cie then 0x3 else 0x1)) 16 true =
      (s.regs.cqcsr &&& 0xFFFFFFFC) ||| (if cie then 0x10003 else 0x10001) := by
    rw [setBit_true_or]
    cases cie <;> exact congrArg _ (by decide)
  have stillOff : cqOn (s.cqProgrammed n cie a0).regs = false := by
    cases cie <;> simpa [State.cqProgrammed, cqOn] using off
  have en : cqEn (s.cqProgrammed n cie a0).regs = true := by
    cases cie <;> simp [State.cqProgrammed, cqEn]
  have follow : cqFollow (s.cqProgrammed n cie a0) = s.cqStarted n cie a0 := by
    rw [cqFollow_on stillOff en, State.cqStarted, ← bits]
    rfl
  refine quiesce_follow ?_ fqIdle ddtpIdle ?_ (cqStarted_settled rest small range cie)
  · cases cie <;> simp [State.cqProgrammed, cqIdle, -BitVec.getLsbD_eq_getElem]
  · rw [follow]
    exact fqFollow_same fq

/-- CQ.INIT's write of its base, and the head it then reads (R346). -/
theorem mmioRead_cqh_based : mmioRead .cqh (mmioWrite .cqb (queueBase n a0) s) =
    (BitVec.ofNat 64 (s.regs.cqh.toNat % 2 ^ n.toNat), { s with regs := { s.regs with cqb := queueBase n a0 } }) := by
  obtain ⟨calm, cq, fq, cqIdle, fqIdle, ddtpIdle, -, record, flight⟩ := (settled_iff s).1 rest
  have written : mmioWrite .cqb (queueBase n a0) s = { s with regs := { s.regs with cqb := queueBase n a0 } } := by
    rw [mmioWrite_calm calm, IommuRegs.set, queueBaseWrite_queueBase small range]
  have stopped : cqRunning { s.regs with cqb := queueBase n a0 } = false := by
    have still : cqOn { s.regs with cqb := queueBase n a0 } = false := off
    rw [cqRunning, still, Bool.false_and, Bool.false_and]
  have settled : State.settled { s with regs := { s.regs with cqb := queueBase n a0 } } = true :=
    (settled_iff _).2 ⟨calm, cq, fq, cqIdle, fqIdle, ddtpIdle, stopped, record, flight⟩
  rw [written, mmioRead_settled settled, get_cqh, cqHead_eq]
  simp only [queueCap_queueBase small range]

omit off in
/-- CQ.INIT's writes of the tail and of the enable (R41, R42). -/
theorem mmioWrite_cqProgrammed (cie : Bool) :
    mmioWrite .cqcsr (1 ||| (bit cie <<< 1)) (mmioWrite .cqt (BitVec.ofNat 64 (cqStart s n))
      { s with regs := { s.regs with cqb := queueBase n a0 } }) = s.cqProgrammed n cie a0 := by
  have calm := ((settled_iff s).1 rest).1
  have tail : indexBits (queueBase n a0) ((BitVec.ofNat 64 (cqStart s n)).setWidth 32) =
      BitVec.ofNat 32 (cqStart s n) := by
    have below := cqStart_lt s n
    have wide : 2 ^ n.toNat ≤ 2 ^ 32 := Nat.pow_le_pow_right (by decide) small.2
    have narrow : ((BitVec.ofNat 64 (cqStart s n)).setWidth 32).toNat = cqStart s n := by
      rw [BitVec.toNat_setWidth, BitVec.toNat_ofNat]
      omega
    rw [indexBits, queueCap_queueBase small range, narrow, Nat.mod_eq_of_lt below]
  have control : ((1 ||| (bit cie <<< 1) : Word).setWidth 32) = if cie then 0x3 else 0x1 := by
    cases cie <;> decide
  have csr : csrWrite cqSticky s.regs.cqcsr (if cie then 0x3 else 0x1) =
      (s.regs.cqcsr &&& 0xFFFFFFFC) ||| (if cie then 0x3 else 0x1) := by
    cases cie <;> exact csrWrite_control _ (by decide) (by decide)
  rw [mmioWrite_calm (by exact calm) .cqt, mmioWrite_calm (by exact calm) .cqcsr]
  simp only [IommuRegs.set, tail, control, csr]
  rfl

/-- CQ.INIT past its checks: its writes, and its wait, which the first poll ends (R346). -/
theorem cqProgram_settled (polls : s.polls) (cie : Bool) : cqProgram n cie a0 s =
    cqInitDone a0 n (BitVec.ofNat 64 (cqStart s n)) (s.cqStarted n cie a0) := by
  have start : (if s.cfg.enableResetsIndex then 0 else BitVec.ofNat 64 (s.regs.cqh.toNat % 2 ^ n.toNat)) =
      BitVec.ofNat 64 (cqStart s n) := (apply_ite (BitVec.ofNat 64) _ _ _).symm
  have poll : pollOn .cqcsr true (s.cqProgrammed n cie a0) = (some (), s.cqStarted n cie a0) := by
    rw [pollOn_calm (by exact ((settled_iff s).1 rest).1), quiesce_cqProgrammed rest small range off]
    cases cie <;> simp [IommuRegs.get, State.cqStarted]
  have bound : (s.cqProgrammed n cie a0).polls := polls
  rw [cqProgram, mmioRead_cqh_based rest small range off]
  simp only [start, mmioWrite_cqProgrammed rest small range]
  rw [cqInitWait, await_now (s := s.cqProgrammed n cie a0) bound poll]

end

end Sys2Proof.Machine
end

section
/-! PROOFS. O47. -/

namespace Sys2Proof.Machine

/-- Settles O47: the checks let the request through, and its run ends in a state whose registers describe one queue. -/
theorem cqInitResults : Obligations.CqInitResults := by
  intro n cie a0 s rest polls max off low high place fits on t0 t
  have small : 1 ≤ n.toNat ∧ n.toNat ≤ 32 := ⟨low, by omega⟩
  have slots : 0 < 2 ^ n.toNat := by positivity
  have range : a0.toNat < 2 ^ 56 := by omega
  have enable : cqEn s.regs = false := ((settled_iff s).1 rest).2.1.trans on
  have base : BitVec.ofNat 64 (a0.toNat / 4096 * 1024 + (n.toNat - 1)) = queueBase n a0 := by
    rw [← toNat_queueBase small range, BitVec.ofNat_toNat, BitVec.setWidth_eq]
  obtain ⟨page, aligned⟩ := queue_alignment place
  have address : (BitVec.ofNat 56 a0.toNat).toNat = a0.toNat := Nat.mod_eq_of_lt range
  refine ⟨?run, ?geometry⟩
  case run =>
    rw [exec_cqInit_settled rest, if_neg (by simp [off]), if_neg (by omega), if_neg (by simp [place]),
      if_neg (by omega), if_neg (by simp [on, enable]), cqProgram_settled rest small range on polls]
    simp only [t, base, BitVec.ofNat_toNat]
    rfl
  case geometry =>
    refine ⟨rfl, ?_, ?_, ?_⟩
    · change (fieldPa (BitVec.ofNat 64 _)).toNat = (BitVec.ofNat 56 a0.toNat).toNat
      rw [base, toNat_fieldPa, toNat_queueBase small range, address]
      omega
    · change ((BitVec.ofNat 64 _).extractLsb' 0 5).toNat + 1 = n.toNat
      rw [base, log2sz_queueBase small range]
    · change (BitVec.ofNat 56 a0.toNat).toNat % _ = 0
      rw [address]
      exact aligned

end Sys2Proof.Machine
end

section
/-! SUPPORT. CQ.SYNC on a running, drained queue (R355): the submission of its fence, which the IOMMU takes and
completes before the first poll. -/

namespace Sys2Proof.Machine

/-! A completion word of four bytes in a doubleword whose upper half is 0. -/

theorem load64_of_low_half {m : Memory} {a : Nat} (high : ∀ b, a + 4 ≤ b → b < a + 8 → m.read b = 0) :
    m.load64 a = m.load a 4 := by
  refine BitVec.eq_of_getLsbD_eq fun i hi => ?_
  rw [Memory.load64, Memory.load, Memory.load, getLsbD_leValue _ hi, getLsbD_leValue _ hi]
  by_cases low : i / 8 < 4
  · rw [Memory.bytes_getD _ _ _ _ (by omega), Memory.bytes_getD _ _ _ _ low]
  · rw [Memory.bytes_getD _ _ _ _ (by omega), high _ (by omega) (by omega), List.getD_eq_default _ _ (by simp; omega)]
    rfl

/-! Where the command queue lies (R8, R345). -/

theorem State.CqGeometry.region {s : State} (geo : s.CqGeometry) :
    cqRegion s.blk s.regs = ⟨s.blk.cqBase.toNat, 16 * 2 ^ s.blk.cqLog2n.toNat⟩ := by
  rw [cqRegion, geo.ready]

theorem wellPlaced_cq {s : State} (h : wellPlaced s = true) (geo : s.CqGeometry) :
    s.blk.cqBase.toNat + 16 * 2 ^ s.blk.cqLog2n.toNat ≤ 2 ^ 56 ∧
      overlaps s.cfg.iommuBase.toNat 4096 s.blk.cqBase.toNat (16 * 2 ^ s.blk.cqLog2n.toNat) = false := by
  obtain ⟨-, fits, apart⟩ := of_decide_eq_true h
  have region := geo.region
  have window : overlaps (registerWindow s.cfg).addr (registerWindow s.cfg).size (cqRegion s.blk s.regs).addr
      (cqRegion s.blk s.regs).size = false := by
    simp only [disjointAll, Bool.and_eq_true, Bool.not_eq_true', meetsAny, blockRegions, List.any_cons,
      Bool.or_eq_false_iff] at apart
    exact apart.1.2.2.2.1
  have inside := fits (cqRegion s.blk s.regs) (by simp [blockRegions])
  rw [region] at window inside
  exact ⟨inside, window⟩

/-! The run of CQ.SYNC. -/

section
variable {s : State}

/-- With the queues as enabled and no transaction under way, what is left is the commands between head and tail. -/
theorem quiesce_consumes (cq : cqEn s.regs = cqOn s.regs) (fq : fqEn s.regs = fqOn s.regs)
    (cqIdle : s.regs.cqcsr.getLsbD 17 = false) (fqIdle : s.regs.fqcsr.getLsbD 17 = false)
    (ddtpIdle : ddtpBusy s.regs.ddtp = false) (record : s.engine.recPending = false)
    (flight : s.engine.inFlight = []) : quiesce s = consumeMany (cqOutstanding s.regs) s := by
  simp only [quiesce_idle cqIdle fqIdle ddtpIdle, cqFollow_same cq, fqFollow_same fq, advanceFqt_same record,
    awaitTransactions_none _ _ flight]

/-- The tail one further on (R348). -/
def State.cqNext (s : State) : BitVec 32 := BitVec.ofNat 32 ((cqTail s.regs + 1) % 2 ^ s.blk.cqLog2n.toNat)

/-- CQ.SYNC's completion doubleword cleared, and its fence submitted (R355). -/
def State.syncQueued (s : State) (a0 data : Word) : State :=
  (fence (s.stored [⟨a0.toNat, 0⟩])).submitted (fenceWord0 true false data) (fenceAddrField a0)

/-- The IOMMU has run the fence: the invalidations in progress are complete, the completion word is written, and the
head has met the tail (R363, R364). -/
def State.syncConsumed (s : State) (a0 data : Word) : State := { s.syncQueued a0 data with
  caches := completeAll s.caches,
  memIo := (s.syncQueued a0 data).memIo.storeN a0.toNat 4 data,
  unseen := [⟨a0.toNat, 4⟩],
  regs := { s.regs with cqt := s.cqNext, cqh := s.cqNext } }

/-- The state and the operands of a CQ.SYNC that completes (R355). -/
structure SyncReady (s : State) (a0 data : Word) : Prop where
  rest : s.settled = true
  polls : s.polls
  placed : wellPlaced s = true
  geo : s.CqGeometry
  on : cqOn s.regs = true
  clear : cqErr s.regs.cqcsr = false
  fresh : s.engine.cmdBuf = none
  place : a0.toNat % 8 = 0
  range : a0.toNat + 8 ≤ 2 ^ 56
  word : data ≠ 0
  small : data.toNat < 2 ^ 32
  apart : meetsAny a0.toNat 8 (registerWindow s.cfg :: blockRegions s) = false

variable {a0 data : Word} (h : SyncReady s a0 data)
include h

theorem SyncReady.calm : s.weave = [] := ((settled_iff s).1 h.rest).1

/-- A consumer at rest that is on and not stopped has taken every command. -/
theorem SyncReady.drained : cqHead s.regs = cqTail s.regs := by
  obtain ⟨-, -, -, -, -, -, stopped, -, -⟩ := (settled_iff s).1 h.rest
  simpa [cqRunning, h.on, h.clear] using stopped

theorem SyncReady.capacity : 2 ≤ 2 ^ s.blk.cqLog2n.toNat := by
  have := h.geo.size
  exact Nat.le_self_pow (by omega) 2

/-- There is room for a command (R348). -/
theorem SyncReady.room : (cqTail s.regs + 1) % 2 ^ s.blk.cqLog2n.toNat ≠ cqTail s.regs := by
  have cap := h.capacity
  have tail := h.geo.tail_lt
  rcases Nat.lt_or_ge (cqTail s.regs + 1) (2 ^ s.blk.cqLog2n.toNat) with below | last
  · rw [Nat.mod_eq_of_lt below]
    omega
  · rw [show cqTail s.regs + 1 = 2 ^ s.blk.cqLog2n.toNat by omega, Nat.mod_self]
    omega

/-- The queue has 16 bytes for each slot, and the tail is one of them. -/
theorem SyncReady.slot_in_region :
    s.blk.cqBase.toNat + 16 * cqTail s.regs + 16 ≤ s.blk.cqBase.toNat + 16 * 2 ^ s.blk.cqLog2n.toNat := by
  have := h.geo.tail_lt
  omega

/-- The completion doubleword lies off the register window and off every slot. -/
theorem SyncReady.disjoint : overlaps a0.toNat 8 s.cfg.iommuBase.toNat 4096 = false ∧
    overlaps a0.toNat 8 s.blk.cqBase.toNat (16 * 2 ^ s.blk.cqLog2n.toNat) = false := by
  have apart := h.apart
  simp only [meetsAny, blockRegions, List.any_cons, Bool.or_eq_false_iff, h.geo.region] at apart
  obtain ⟨window, -, -, -, queue, -⟩ := apart
  exact ⟨window, queue⟩

theorem SyncReady.off_slot {b : Nat} (inside : within a0.toNat 8 b) :
    ¬ within (s.blk.cqBase.toNat + 16 * cqTail s.regs) 16 b := by
  have apart := overlaps_eq_false.1 h.disjoint.2
  have slot := h.slot_in_region
  have cap := h.capacity
  simp only [within] at inside ⊢
  omega

/-- What the submission leaves as it was. -/
theorem SyncReady.queued_eq : s.syncQueued a0 data = { s with
    memBlk := (s.syncQueued a0 data).memBlk, memIo := (s.syncQueued a0 data).memIo, pend := [], unseen := [],
    regs := { s.regs with cqt := s.cqNext } } := by
  simp only [State.syncQueued, fence_stored h.calm]
  rfl

theorem SyncReady.queued_regs : (s.syncQueued a0 data).regs = { s.regs with cqt := s.cqNext } := by rw [h.queued_eq]

theorem SyncReady.queued_cfg : (s.syncQueued a0 data).cfg = s.cfg := by rw [h.queued_eq]

theorem SyncReady.queued_engine : (s.syncQueued a0 data).engine = s.engine := by rw [h.queued_eq]

/-- One command lies between the head and the tail. -/
theorem SyncReady.queued_head : cqHead (s.syncQueued a0 data).regs = cqTail s.regs := by
  rw [h.queued_regs]
  exact h.drained

theorem SyncReady.queued_tail :
    cqTail (s.syncQueued a0 data).regs = (cqTail s.regs + 1) % 2 ^ s.blk.cqLog2n.toNat := by
  have below := Nat.mod_lt (cqTail s.regs + 1) (show 0 < 2 ^ s.blk.cqLog2n.toNat by positivity)
  have wide := Nat.pow_le_pow_right (show 0 < 2 by decide) h.geo.log2n_le
  have number : s.cqNext.toNat = (cqTail s.regs + 1) % 2 ^ s.blk.cqLog2n.toNat := by
    rw [State.cqNext, BitVec.toNat_ofNat, Nat.mod_eq_of_lt (by omega)]
  rw [h.queued_regs, cqTail_eq, h.geo.cap, number, Nat.mod_mod]

theorem SyncReady.queued_outstanding : cqOutstanding (s.syncQueued a0 data).regs = 1 := by
  have cap : queueCap (s.syncQueued a0 data).regs.cqb = 2 ^ s.blk.cqLog2n.toNat := by
    rw [h.queued_regs]
    exact h.geo.cap
  have two := h.capacity
  have tail := h.geo.tail_lt
  rw [cqOutstanding, h.queued_head, h.queued_tail, cap]
  rcases Nat.lt_or_ge (cqTail s.regs + 1) (2 ^ s.blk.cqLog2n.toNat) with below | last
  · rw [Nat.mod_eq_of_lt below, show cqTail s.regs + 1 + 2 ^ s.blk.cqLog2n.toNat - cqTail s.regs =
      1 + 2 ^ s.blk.cqLog2n.toNat by omega, Nat.add_mod_right, Nat.mod_eq_of_lt (by omega)]
  · rw [show cqTail s.regs + 1 = 2 ^ s.blk.cqLog2n.toNat by omega, Nat.mod_self,
      Nat.mod_eq_of_lt (by omega)]
    omega

/-- The slot at the head holds the fence. -/
theorem SyncReady.queued_command : nextCommand (s.syncQueued a0 data) =
    some ⟨fenceWord0 true false data, fenceAddrField a0, .fetched⟩ := by
  have calm := h.calm
  obtain ⟨first, second⟩ := submitted_wordIo (fence (s.stored [⟨a0.toNat, 0⟩])) (fenceWord0 true false data)
    (fenceAddrField a0)
  have slot : cqSlotIo (s.syncQueued a0 data).regs = s.blk.cqBase.toNat + 16 * cqTail s.regs := by
    rw [cqSlotIo, h.queued_head, h.queued_regs, h.geo.base]
  have same : (fence (s.stored [⟨a0.toNat, 0⟩])).blk = s.blk ∧ (fence (s.stored [⟨a0.toNat, 0⟩])).regs = s.regs := by
    rw [fence_stored calm]
    exact ⟨rfl, rfl⟩
  rw [same.1, same.2] at first second
  have readable : accessible (s.syncQueued a0 data).cfg (cqSlotIo (s.syncQueued a0 data).regs) 16 = true := by
    obtain ⟨fits, window⟩ := wellPlaced_cq h.placed h.geo
    have inside := h.slot_in_region
    have cap := h.capacity
    have window := overlaps_eq_false.1 window
    rw [slot, h.queued_cfg, accessible, Bool.and_eq_true, Bool.not_eq_true', overlaps_eq_false, decide_eq_true_eq,
      paLimit]
    omega
  rw [nextCommand_slot (by rw [h.queued_engine]; exact h.fresh) readable, slot, State.syncQueued, first, second]

/-- The fence is legal (R344). -/
theorem SyncReady.fence_legal : decodeCommand (fenceWord0 true false data) (fenceAddrField a0) =
    .ok (.iofenceC true false false false (BitVec.ofNat 32 data.toNat) (BitVec.ofNat 62 (a0.toNat / 4))) := by
  have words := encode_fence (av := true) (wsi := false) (a := a0) fun _ => h.small
  simp only [if_true] at words
  change decode [_, _] = _
  rw [words]
  exact decode_encode_command _ rfl

/-- The fence completes the invalidations in progress and writes the completion word (R363). -/
theorem SyncReady.fence_runs :
    fenceCommand true false false false (BitVec.ofNat 32 data.toNat) (BitVec.ofNat 62 (a0.toNat / 4))
      (s.syncQueued a0 data) = { s.syncQueued a0 data with
        caches := completeAll s.caches,
        memIo := (s.syncQueued a0 data).memIo.storeN a0.toNat 4 data,
        unseen := [⟨a0.toNat, 4⟩] } := by
  have place := h.place
  have range := h.range
  have addr : 4 * (BitVec.ofNat 62 (a0.toNat / 4)).toNat = a0.toNat := by
    rw [BitVec.toNat_ofNat]
    omega
  have word : (BitVec.ofNat 32 data.toNat).setWidth 64 = data := by
    apply BitVec.eq_of_toNat_eq
    rw [BitVec.toNat_setWidth_of_le (by decide), BitVec.toNat_ofNat, Nat.mod_eq_of_lt h.small]
  have able : fenceFails (s.syncQueued a0 data).cfg true (BitVec.ofNat 62 (a0.toNat / 4)) = false := by
    have window := overlaps_eq_false.1 h.disjoint.1
    rw [← Bool.not_eq_true, fenceFails_iff, Decidable.not_not, addr, h.queued_cfg, accessible, Bool.and_eq_true,
      Bool.not_eq_true', overlaps_eq_false, decide_eq_true_eq, paLimit]
    omega
  have unseen : (s.syncQueued a0 data).unseen = [] := by rw [h.queued_eq]
  have caches : (s.syncQueued a0 data).caches = s.caches := by rw [h.queued_eq]
  rw [fenceCommand_done able]
  simp only [awaitTransactions_false, addr, word, if_true, Bool.false_and, Bool.false_eq_true, if_false, unseen,
    List.nil_append, caches]

theorem SyncReady.queued_running : cqRunning (s.syncQueued a0 data).regs = true := by
  rw [cqRunning_iff, h.queued_head, h.queued_tail, h.queued_regs]
  exact ⟨h.on, h.clear, h.room.symm⟩

/-- The IOMMU runs the fence and is at rest again (R363, R364). -/
theorem SyncReady.quiesce_queued : quiesce (s.syncQueued a0 data) = s.syncConsumed a0 data := by
  obtain ⟨-, cq, fq, cqIdle, fqIdle, ddtpIdle, -, record, flight⟩ := (settled_iff s).1 h.rest
  have consumes : quiesce (s.syncQueued a0 data) =
      consumeMany (cqOutstanding (s.syncQueued a0 data).regs) (s.syncQueued a0 data) := by
    apply quiesce_consumes <;> rw [h.queued_eq] <;> assumption
  have clear : cqErr (s.syncQueued a0 data).regs.cqcsr = false := by
    rw [h.queued_regs]
    exact h.clear
  have head : BitVec.ofNat 32 ((s.regs.cqh.toNat % queueCap s.regs.cqb + 1) % queueCap s.regs.cqb) = s.cqNext := by
    rw [← cqHead_eq, h.drained, h.geo.cap]
    rfl
  have engine : { s.engine with cmdBuf := none } = s.engine := by rw [← h.fresh]
  rw [consumes, h.queued_outstanding, consumeMany, consumeMany, consumeCommand, if_pos h.queued_running,
    h.queued_command]
  simp only [h.fence_legal, commandRest, commandEffect, h.fence_runs, settle_eq, clear, Bool.false_eq_true, if_false]
  simp only [h.queued_regs, h.queued_engine, head, engine, State.syncConsumed]

/-! What both views hold once CQ.SYNC is over. -/

theorem SyncReady.queued_off_slot {b : Nat} (off : ¬ within (s.blk.cqBase.toNat + 16 * cqTail s.regs) 16 b) :
    (s.syncQueued a0 data).readBlk b = (fence (s.stored [⟨a0.toNat, 0⟩])).readBlk b ∧
      (s.syncQueued a0 data).readIo b = (fence (s.stored [⟨a0.toNat, 0⟩])).readIo b := by
  have calm : (s.stored [⟨a0.toNat, 0⟩]).weave = [] := h.calm
  have frame := submitted_asFenceOutside (fence_weave calm) (fenceWord0 true false data) (fenceAddrField a0) Result.zero
  rw [State.AsFenceOutside, fence_fence calm, fence_blk, fence_regs calm] at frame
  exact frame b off

/-- The completion doubleword is 0 before the fence runs. -/
theorem SyncReady.queued_zero {b : Nat} (inside : within a0.toNat 8 b) :
    (s.syncQueued a0 data).readBlk b = 0 ∧ (s.syncQueued a0 data).readIo b = 0 := by
  obtain ⟨blk, io⟩ := h.queued_off_slot (h.off_slot inside)
  rw [blk, io]
  exact fence_stored_written h.calm fun m => read_store64_zero m inside

/-- CQ.SYNC's last FENCE: the block sees the completion word. -/
theorem SyncReady.synced_eq : fence (s.syncConsumed a0 data) = { s with
    caches := completeAll s.caches, pend := [], unseen := [],
    memIo := (s.syncQueued a0 data).memIo.storeN a0.toNat 4 data,
    memBlk := (s.syncQueued a0 data).memBlk.copyFrom ((s.syncQueued a0 data).memIo.storeN a0.toNat 4 data)
      ⟨a0.toNat, 4⟩,
    regs := { s.regs with cqt := s.cqNext, cqh := s.cqNext } } := by
  have calm : (s.syncConsumed a0 data).weave = [] := by
    rw [State.syncConsumed, h.queued_eq]
    exact h.calm
  rw [fence_calm calm, State.syncConsumed, h.queued_eq]
  rfl

theorem SyncReady.synced_wordIo : (fence (s.syncConsumed a0 data)).wordIo a0.toNat = data := by
  rw [h.synced_eq, State.wordIo, load64_of_low_half, load_storeN_same, Nat.mod_eq_of_lt h.small, BitVec.ofNat_toNat,
    BitVec.setWidth_eq]
  intro b low high
  rw [Memory.read_storeN _ _ _ _ _ (by omega)]
  exact (h.queued_zero ⟨by omega, high⟩).2

theorem SyncReady.synced_wordBlk : (fence (s.syncConsumed a0 data)).wordBlk a0.toNat = data := by
  refine Eq.trans (Memory.load64_congr _ _ _ fun b low high => ?_) h.synced_wordIo
  obtain ⟨blk, io⟩ := h.queued_zero ⟨low, high⟩
  rw [h.synced_eq]
  simp only [Memory.read_copyFrom]
  split
  · rfl
  · rw [Memory.read_storeN _ _ _ _ _ (by omega)]
    exact blk.trans io.symm

theorem SyncReady.synced_frame : s.AsFenceOutside (fence (s.syncConsumed a0 data))
    (fun a => within a0.toNat 8 a ∨ within (s.blk.cqBase.toNat + 16 * cqTail s.regs) 16 a) := by
  intro a off
  obtain ⟨offWord, offSlot⟩ := not_or.1 off
  obtain ⟨blk, io⟩ := h.queued_off_slot offSlot
  obtain ⟨sameBlk, sameIo⟩ := fence_stored_other h.calm (ws := [⟨a0.toNat, 0⟩]) (a := a) (by
    simp only [within] at offWord
    simp only [List.mem_singleton, forall_eq]
    omega)
  simp only [within] at offWord
  rw [h.synced_eq, ← sameBlk, ← sameIo, ← blk, ← io]
  constructor
  · simp only [State.readBlk, Memory.read_copyFrom]
    rw [if_neg (by omega)]
  · exact Memory.read_storeN _ _ _ _ _ (by omega)

/-- CQ.SYNC's first poll finds the completion word (R355). -/
theorem SyncReady.poll : pollSync a0 data (s.syncQueued a0 data) =
    (some (s.regs.get .cqcsr), fence (s.syncConsumed a0 data)) := by
  have calm : (s.syncQueued a0 data).weave = [] := by
    rw [h.queued_eq]
    exact h.calm
  have word : (fence (s.syncConsumed a0 data)).wordBlk a0.toNat &&& 0xFFFFFFFF = data := by
    rw [and_low32_eq, h.synced_wordBlk, Nat.mod_eq_of_lt h.small]
  have clear : ¬ cqErr (s.syncConsumed a0 data).regs.cqcsr = true := by
    simp [State.syncConsumed, h.clear]
  rw [pollSync_calm calm, h.quiesce_queued, if_neg clear, if_pos word]
  rfl

/-- CQ.SYNC runs to its end (R355). -/
theorem SyncReady.exec_cqSync : exec (.cqSync a0 data) s = .next ((fence (s.syncConsumed a0 data)).finish
    (result .ok (BitVec.ofNat 64 (cqTail s.regs)) (s.regs.get .cqcsr))) := by
  have apart := h.apart
  rw [meetsAny, List.any_cons, Bool.or_eq_false_iff] at apart
  obtain ⟨window, regions⟩ := apart
  have small := h.small
  have range := h.range
  have offWindow : ¬ meetsAny a0.toNat 8 [registerWindow s.cfg] = true := by
    simp [meetsAny, window]
  have offRegions : ¬ meetsAny a0.toNat 8 (blockRegions s) = true := by
    simp only [meetsAny, regions, Bool.false_eq_true, not_false_eq_true]
  have inRange : ¬ (2 ^ 56 < a0.toNat + 8 ∨ data = 0 ∨ 2 ^ 32 ≤ data.toNat) := by
    rintro (high | zero | wide)
    · omega
    · exact h.word zero
    · omega
  have bound : (s.syncQueued a0 data).polls := by
    rw [State.polls, h.queued_cfg]
    exact h.polls
  have stored : State.CqGeometry (s.stored [⟨a0.toNat, 0⟩]) :=
    ⟨h.geo.ready, h.geo.base, h.geo.size, h.geo.aligned⟩
  have submits := submitSteps_room (s := s.stored [⟨a0.toNat, 0⟩]) h.rest h.polls stored
    (fun _ => ⟨h.clear, fun full => h.room (full.trans h.drained)⟩) (fenceWord0 true false data) (fenceAddrField a0)
    (.sync a0 data)
  rw [exec_cqSync_ready h.geo.ready, if_neg (not_not.2 h.place), if_neg inRange, if_neg offRegions, if_neg offWindow,
    memWrite_stored h.calm, submits]
  change syncWait a0 data (BitVec.ofNat 64 (cqTail s.regs)) (s.syncQueued a0 data) = _
  rw [syncWait, await_now bound h.poll, syncFinish, setWidth_cqcsr, if_neg (by simp [h.clear])]
  rfl

end

end Sys2Proof.Machine
end

section
/-! PROOFS. O54. -/

namespace Sys2Proof.Machine

/-- Settles O54: the one run of CQ.SYNC, whose poll finds the completion word of the fence that the IOMMU has run. -/
theorem cqSyncCompletes : Obligations.CqSyncCompletes := by
  intro a0 data s rest polls placed geo on clear fresh place range word small apart next
  have h : SyncReady s a0 data := ⟨rest, polls, placed, geo, on, clear, fresh, place, range, word, small, apart⟩
  have run := h.exec_cqSync
  rw [get_cqcsr] at run
  have e := h.synced_eq
  refine ⟨_, run, rfl, h.synced_wordBlk, h.synced_wordIo, ?_, ?_, ?_, ?_, fun i hi => ?_, ?_, h.synced_frame⟩
  · rw [finish_pend, e]
  · rw [finish_blk, e]
  · rw [finish_regs, e]
    rfl
  · rw [finish_caches, e]
    rfl
  · rw [finish_caches, e]
    exact invalidate_completeAll hi
  · rw [e]
    constructor <;> rfl

end Sys2Proof.Machine
end

section
/-! PROOFS. O56. -/

namespace Sys2Proof.Machine

/-- The `n` bits from bit `i` of a word, as a shift and a mask cut them out. -/
theorem ushiftRight_and_ones (v : Word) (i : Nat) {n : Nat} {m : Word} (ones : m.toNat = 2 ^ n - 1) :
    (v >>> i) &&& m = BitVec.ofNat 64 (v.toNat / 2 ^ i % 2 ^ n) := by
  have small : v.toNat / 2 ^ i % 2 ^ n < 2 ^ 64 := (Nat.mod_le _ _).trans_lt ((Nat.div_le_self _ _).trans_lt v.isLt)
  rw [← BitVec.toNat_inj, BitVec.toNat_and, ones, Nat.and_two_pow_sub_one_eq_mod, BitVec.toNat_ushiftRight,
    Nat.shiftRight_eq_div_pow, BitVec.toNat_ofNat, Nat.mod_eq_of_lt small]

theorem ushiftRight_eq_div (v : Word) (i : Nat) : v >>> i = BitVec.ofNat 64 (v.toNat / 2 ^ i) := by
  rw [← Nat.shiftRight_eq_div_pow, ← BitVec.toNat_ushiftRight, BitVec.ofNat_toNat, BitVec.setWidth_eq]

/-- Settles O56: the fields are the shifts and masks of R390, read as numbers. -/
theorem fqrDecodeFields : Obligations.FqrDecodeFields := by
  intro a0 a1 a2 a3 s
  have cause : a0 &&& 0xFFF = BitVec.ofNat 64 (a0.toNat % 4096) := by
    have cut := ushiftRight_and_ones a0 0 (n := 12) (m := 0xFFF) rfl
    rwa [BitVec.ushiftRight_zero, pow_zero, Nat.div_one] at cut
  change execFqrDecode a0 a1 a2 a3 s = _
  rw [execFqrDecode, cause, ushiftRight_and_ones a0 12 (n := 20) rfl, ushiftRight_and_ones a0 32 (n := 1) rfl,
    ushiftRight_and_ones a0 33 (n := 1) rfl, ushiftRight_and_ones a0 34 (n := 6) rfl, ushiftRight_eq_div]
  rfl

end Sys2Proof.Machine
end

section
/-! SUPPORT. FQ.INIT past its checks, with the environment at rest but for turning the queue on (R382, R395): its
writes, and the wait that its first poll ends. -/

namespace Sys2Proof.Machine

/-! Index registers (R41). -/

theorem toNat_indexBits (base : BitVec 64) (v : BitVec 32) : (indexBits base v).toNat = v.toNat % queueCap base := by
  rw [indexBits, BitVec.toNat_ofNat]
  exact Nat.mod_eq_of_lt ((Nat.mod_le _ _).trans_lt v.isLt)

theorem fqHead_eq (g : IommuRegs) : fqHead g = g.fqh.toNat % queueCap g.fqb := toNat_indexBits ..

theorem fqTail_eq (g : IommuRegs) : fqTail g = g.fqt.toNat % queueCap g.fqb := toNat_indexBits ..

/-- A write of an index register keeps the index modulo the capacity. -/
theorem indexBits_write {base : BitVec 64} {i n : Nat} (cap : queueCap base = 2 ^ n) (small : n ≤ 32)
    (range : i < 2 ^ 64) : indexBits base ((BitVec.ofNat 64 i).setWidth 32) = BitVec.ofNat 32 (i % 2 ^ n) := by
  rw [indexBits, cap, BitVec.toNat_setWidth, BitVec.toNat_ofNat, Nat.mod_eq_of_lt range,
    Nat.mod_mod_of_dvd _ (Nat.pow_dvd_pow 2 small)]

section
variable {s : State}

/-- fqon follows fqen up; no record's advance is to come. -/
theorem fqFollow_on (record : s.engine.recPending = false) (off : fqOn s.regs = false) (en : fqEn s.regs = true) :
    fqFollow s = { s with regs := { s.regs with
      fqcsr := setBit s.regs.fqcsr 16 true, fqt := if s.cfg.enableResetsIndex then 0 else s.regs.fqt } } := by
  have turned : fqOn (setFqcsr 16 true s).regs = true := getLsbD_setBit _ _ (by decide)
  have apart : ¬ (fqEn s.regs == fqOn s.regs) = true := by simp [off, en]
  rw [fqFollow, if_neg apart, advanceFqt_same record, en]
  simp only [turned, Bool.true_and, setFqcsr_cfg]
  split <;> rfl

/-- The index FQ.INIT starts from: the tail under the new capacity, or 0 (R382). -/
def fqStart (s : State) (n : BitVec 6) : Nat := if s.cfg.enableResetsIndex then 0 else s.regs.fqt.toNat % 2 ^ n.toNat

theorem fqStart_lt (s : State) (n : BitVec 6) : fqStart s n < 2 ^ n.toNat := by
  rw [fqStart]
  split
  · positivity
  · exact Nat.mod_lt _ (by positivity)

variable {n : BitVec 6} {a0 : Word}

/-- The fault queue as FQ.INIT programs it: its base, its head, and fqen and fie (R382). -/
def State.fqProgrammed (s : State) (n : BitVec 6) (fie : Bool) (a0 : Word) : State := { s with
  regs := { s.regs with
    fqb := queueBase n a0,
    fqh := BitVec.ofNat 32 (fqStart s n),
    fqcsr := (s.regs.fqcsr &&& 0xFFFFFFFC) ||| (if fie then 0x3 else 0x1) } }

/-- The fault queue on: fqon follows fqen, and the tail starts over where ENABLE_RESETS_INDEX says so (R395). -/
def State.fqStarted (s : State) (n : BitVec 6) (fie : Bool) (a0 : Word) : State := { s with
  regs := { s.regs with
    fqb := queueBase n a0,
    fqh := BitVec.ofNat 32 (fqStart s n),
    fqt := if s.cfg.enableResetsIndex then 0 else s.regs.fqt,
    fqcsr := (s.regs.fqcsr &&& 0xFFFFFFFC) ||| (if fie then 0x10003 else 0x10001) } }

variable (rest : s.settled = true)
include rest

theorem fqStarted_settled (fie : Bool) : (s.fqStarted n fie a0).settled = true := by
  obtain ⟨calm, cq, -, cqIdle, fqIdle, ddtpIdle, stopped, record, flight⟩ := (settled_iff s).1 rest
  rw [settled_iff]
  refine ⟨calm, cq, ?_, cqIdle, ?_, ddtpIdle, stopped, record, flight⟩
  · cases fie <;> simp [State.fqStarted, fqEn, fqOn]
  · cases fie <;> simp [State.fqStarted, fqIdle, -BitVec.getLsbD_eq_getElem]

/-- After the write that sets fqen, the IOMMU turns the queue on. -/
theorem quiesce_fqProgrammed (off : fqOn s.regs = false) (fie : Bool) :
    quiesce (s.fqProgrammed n fie a0) = s.fqStarted n fie a0 := by
  obtain ⟨-, cq, -, cqIdle, fqIdle, ddtpIdle, -, record, -⟩ := (settled_iff s).1 rest
  have bits : setBit ((s.regs.fqcsr &&& 0xFFFFFFFC) ||| (if fie then 0x3 else 0x1)) 16 true =
      (s.regs.fqcsr &&& 0xFFFFFFFC) ||| (if fie then 0x10003 else 0x10001) := by
    rw [setBit_true_or]
    cases fie <;> exact congrArg _ (by decide)
  have stillOff : fqOn (s.fqProgrammed n fie a0).regs = false := by
    cases fie <;> simpa [State.fqProgrammed, fqOn] using off
  have en : fqEn (s.fqProgrammed n fie a0).regs = true := by
    cases fie <;> simp [State.fqProgrammed, fqEn]
  refine quiesce_follow cqIdle ?_ ddtpIdle ?_ (fqStarted_settled rest fie)
  · cases fie <;> simp [State.fqProgrammed, fqIdle, -BitVec.getLsbD_eq_getElem]
  · rw [cqFollow_same (by exact cq), fqFollow_on (by exact record) stillOff en, State.fqStarted, ← bits]
    rfl

variable (small : 1 ≤ n.toNat ∧ n.toNat ≤ 32) (range : a0.toNat < 2 ^ 56)
include small range

/-- FQ.INIT's write of its base, and the tail it then reads (R382). -/
theorem mmioRead_fqt_based : mmioRead .fqt (mmioWrite .fqb (queueBase n a0) s) =
    (BitVec.ofNat 64 (s.regs.fqt.toNat % 2 ^ n.toNat), { s with regs := { s.regs with fqb := queueBase n a0 } }) := by
  have written : mmioWrite .fqb (queueBase n a0) s = { s with regs := { s.regs with fqb := queueBase n a0 } } := by
    rw [mmioWrite_calm ((settled_iff s).1 rest).1, IommuRegs.set, queueBaseWrite_queueBase small range]
  have settled : State.settled { s with regs := { s.regs with fqb := queueBase n a0 } } = true := rest
  rw [written, mmioRead_settled settled, get_fqt, fqTail_eq]
  simp only [queueCap_queueBase small range]

/-- FQ.INIT's writes of the head and of the enable (R41, R43). -/
theorem mmioWrite_fqProgrammed (fie : Bool) :
    mmioWrite .fqcsr (1 ||| (bit fie <<< 1)) (mmioWrite .fqh (BitVec.ofNat 64 (fqStart s n))
      { s with regs := { s.regs with fqb := queueBase n a0 } }) = s.fqProgrammed n fie a0 := by
  have calm := ((settled_iff s).1 rest).1
  have below := fqStart_lt s n
  have wide : 2 ^ n.toNat ≤ 2 ^ 32 := Nat.pow_le_pow_right (by decide) small.2
  have head : indexBits (queueBase n a0) ((BitVec.ofNat 64 (fqStart s n)).setWidth 32) =
      BitVec.ofNat 32 (fqStart s n) := by
    rw [indexBits_write (queueCap_queueBase small range) small.2 (by omega), Nat.mod_eq_of_lt below]
  have control : ((1 ||| (bit fie <<< 1) : Word).setWidth 32) = if fie then 0x3 else 0x1 := by
    cases fie <;> decide
  have csr : csrWrite fqSticky s.regs.fqcsr (if fie then 0x3 else 0x1) =
      (s.regs.fqcsr &&& 0xFFFFFFFC) ||| (if fie then 0x3 else 0x1) := by
    cases fie <;> exact csrWrite_control _ (by decide) (by decide)
  rw [mmioWrite_calm (by exact calm) .fqh, mmioWrite_calm (by exact calm) .fqcsr]
  simp only [IommuRegs.set, head, control, csr]
  rfl

/-- FQ.INIT past its checks: its writes, and its wait, which the first poll ends (R382). -/
theorem fqProgram_settled (off : fqOn s.regs = false) (polls : s.polls) (fie : Bool) : fqProgram n fie a0 s =
    fqInitDone a0 n (BitVec.ofNat 64 (fqStart s n)) (s.fqStarted n fie a0) := by
  have start : (if s.cfg.enableResetsIndex then 0 else BitVec.ofNat 64 (s.regs.fqt.toNat % 2 ^ n.toNat)) =
      BitVec.ofNat 64 (fqStart s n) := (apply_ite (BitVec.ofNat 64) _ _ _).symm
  have poll : pollOn .fqcsr true (s.fqProgrammed n fie a0) = (some (), s.fqStarted n fie a0) := by
    rw [pollOn_calm (by exact ((settled_iff s).1 rest).1), quiesce_fqProgrammed rest off]
    cases fie <;> simp [IommuRegs.get, State.fqStarted]
  have bound : (s.fqProgrammed n fie a0).polls := polls
  rw [fqProgram, mmioRead_fqt_based rest small range]
  simp only [start, mmioWrite_fqProgrammed rest small range]
  rw [fqInitWait, await_now (s := s.fqProgrammed n fie a0) bound poll]

end

end Sys2Proof.Machine
end

section
/-! PROOFS. O48. -/

namespace Sys2Proof.Machine

/-- Settles O48: the checks let the request through, and its run ends in a state whose registers describe one queue. -/
theorem fqInitResults : Obligations.FqInitResults := by
  intro n fie a0 s rest polls max off low high place fits on h0 t
  have small : 1 ≤ n.toNat ∧ n.toNat ≤ 32 := ⟨low, by omega⟩
  have slots : 0 < 2 ^ n.toNat := by positivity
  have range : a0.toNat < 2 ^ 56 := by omega
  obtain ⟨-, -, follows, -⟩ := (settled_iff s).1 rest
  have enable : fqEn s.regs = false := follows.trans on
  have base : BitVec.ofNat 64 (a0.toNat / 4096 * 1024 + (n.toNat - 1)) = queueBase n a0 := by
    rw [← toNat_queueBase small range, BitVec.ofNat_toNat, BitVec.setWidth_eq]
  have size : 32 * 2 ^ n.toNat = 16 * 2 ^ (n.toNat + 1) := by
    rw [pow_succ]
    omega
  obtain ⟨page, aligned⟩ := queue_alignment (n := n.toNat + 1) (by rw [← size]; exact place)
  have address : (BitVec.ofNat 56 a0.toNat).toNat = a0.toNat := Nat.mod_eq_of_lt range
  refine ⟨?run, ?geometry⟩
  case run =>
    rw [exec_fqInit_settled rest, if_neg (by simp [off]), if_neg (by omega), if_neg (by simp [place]),
      if_neg (by omega), if_neg (by simp [on, enable]), fqProgram_settled rest small range on polls]
    simp only [t, base, BitVec.ofNat_toNat]
    rfl
  case geometry =>
    refine ⟨rfl, ?_, ?_, ?_⟩
    · change (fieldPa (BitVec.ofNat 64 _)).toNat = (BitVec.ofNat 56 a0.toNat).toNat
      rw [base, toNat_fieldPa, toNat_queueBase small range, address]
      omega
    · change ((BitVec.ofNat 64 _).extractLsb' 0 5).toNat + 1 = n.toNat
      rw [base, log2sz_queueBase small range]
    · change (BitVec.ofNat 56 a0.toNat).toNat % (32 * 2 ^ n.toNat) = 0
      rw [address, size]
      exact aligned

end Sys2Proof.Machine
end

section
/-! SUPPORT. FQ.TRY_READ with the environment at rest (R380, R385): the slot at the head, and the record taken. -/

namespace Sys2Proof.Machine

/-- A queue slot: base and index do not overlap, so `|` adds (R167). -/
theorem toNat_slotAddr {base : BitVec 56} {i n w : Nat} (aligned : base.toNat % (2 ^ w * 2 ^ n) = 0) (index : i < 2 ^ n)
    (small : w + n ≤ 56) :
    (slotAddr (base.setWidth 64) (BitVec.ofNat 64 i) w).toNat = base.toNat + 2 ^ w * i := by
  have low : 2 ^ w * i < 2 ^ (w + n) := by
    rw [pow_add]
    exact Nat.mul_lt_mul_of_pos_left index (by positivity)
  have wide : 2 ^ (w + n) ≤ 2 ^ 56 := Nat.pow_le_pow_right (by decide) small
  have narrow : i < 2 ^ 64 := index.trans_le (Nat.pow_le_pow_right (by decide) (by omega))
  have offset : (BitVec.ofNat 64 i <<< w).toNat = 2 ^ w * i := by
    rw [BitVec.toNat_shiftLeft, BitVec.toNat_ofNat, Nat.mod_eq_of_lt narrow, Nat.shiftLeft_eq, Nat.mul_comm,
      Nat.mod_eq_of_lt (by omega)]
  have whole : (base.setWidth 64).toNat = base.toNat := BitVec.toNat_setWidth_of_le (by decide)
  rw [slotAddr, toNat_or_of_lt (i := w + n) (by omega) (by rw [whole, pow_add, aligned]), whole, offset]

section
variable {s : State}

section
variable (geo : s.FqGeometry)
include geo

theorem State.FqGeometry.cap : queueCap s.regs.fqb = 2 ^ s.blk.fqLog2n.toNat := by rw [queueCap, geo.size]

theorem State.FqGeometry.log2n_le : s.blk.fqLog2n.toNat ≤ 32 := by
  have := (s.regs.fqb.extractLsb' 0 5).isLt
  have := geo.size
  omega

theorem State.FqGeometry.index_lt (v : BitVec 32) :
    (indexBits s.regs.fqb v).toNat < 2 ^ s.blk.fqLog2n.toNat := by
  rw [toNat_indexBits, geo.cap]
  exact Nat.mod_lt _ (by positivity)

theorem State.FqGeometry.slot {i : Nat} (index : i < 2 ^ s.blk.fqLog2n.toNat) :
    (fqSlot s.blk (BitVec.ofNat 64 i)).toNat = s.blk.fqBase.toNat + 32 * i :=
  toNat_slotAddr (w := 5) geo.aligned index (by have := geo.log2n_le; omega)

/-- The head write of FQ.TRY_READ, one further modulo the capacity. -/
theorem State.FqGeometry.next_head :
    s.regs.set s.cfg s.warlMode .fqh (BitVec.ofNat 64 (fqHead s.regs) + 1) =
      { s.regs with fqh := BitVec.ofNat 32 ((fqHead s.regs + 1) % 2 ^ s.blk.fqLog2n.toNat) } := by
  have narrow : fqHead s.regs < 2 ^ 32 := (indexBits s.regs.fqb s.regs.fqh).isLt
  have succ : BitVec.ofNat 64 (fqHead s.regs) + 1 = BitVec.ofNat 64 (fqHead s.regs + 1) := (BitVec.ofNat_add ..).symm
  rw [succ, IommuRegs.set, indexBits_write geo.cap geo.log2n_le (by omega)]

end

/-- After the record at the head is taken (R385). -/
def State.recordTaken (s : State) : State :=
  { fence s with regs := { s.regs with fqh := BitVec.ofNat 32 ((fqHead s.regs + 1) % 2 ^ s.blk.fqLog2n.toNat) } }

/-- FQ.TRY_READ past its checks: the four words as a FENCE leaves them, and the head moved on. -/
theorem takeRecord_calm (calm : s.weave = []) (geo : s.FqGeometry) :
    let a := s.blk.fqBase.toNat + 32 * fqHead s.regs
    takeRecord (BitVec.ofNat 64 (fqHead s.regs)) s = done s.recordTaken (result .ok ((fence s).wordBlk a)
      ((fence s).wordBlk (a + 8)) ((fence s).wordBlk (a + 16)) ((fence s).wordBlk (a + 24))
      (BitVec.ofNat 64 (fqHead s.regs)) (BitVec.ofNat 64 a)) := by
  intro a
  have still := fence_weave calm
  have place : (fqSlot s.blk (BitVec.ofNat 64 (fqHead s.regs))).toNat = a := geo.slot (geo.index_lt _)
  have slot : fqSlot s.blk (BitVec.ofNat 64 (fqHead s.regs)) = BitVec.ofNat 64 a := by
    rw [← place, BitVec.ofNat_toNat, BitVec.setWidth_eq]
  rw [slot] at place
  have write : mmioWrite .fqh (BitVec.ofNat 64 (fqHead s.regs) + 1) (fence s) = s.recordTaken := by
    have warl : (fence s).warlMode = s.warlMode := (fence_sameOutside calm).warlMode
    have head := geo.next_head
    rw [← fence_cfg s, ← warl] at head
    rw [mmioWrite_calm still, State.recordTaken, ← head, fence_regs calm]
  simp only [takeRecord, fence_blk, memRead_calm still, slot, place, fence_fence calm, write]

variable (rest : s.settled = true)
include rest

theorem exec_fqTryRead_settled : exec .fqTryRead s =
    if s.blk.fqState ≠ .ready then raise .errState s
    else if fqHead s.regs = fqTail s.regs then
      done s (result .none 0 0 0 0 (BitVec.ofNat 64 (fqHead s.regs)))
    else takeRecord (BitVec.ofNat 64 (fqHead s.regs)) s := by
  have same : s.regs.get .fqh = s.regs.get .fqt ↔ fqHead s.regs = fqTail s.regs := by
    rw [← BitVec.toNat_inj]
    simp only [IommuRegs.get, BitVec.toNat_setWidth_of_le (show 32 ≤ 64 by decide), fqHead, fqTail]
  change execFqTryRead s = _
  simp only [execFqTryRead, mmioRead_settled rest, same]
  rw [get_fqh]

/-- FQ.TRY_READ of a queue that is not empty (R380, R385). -/
theorem exec_fqTryRead_record (geo : s.FqGeometry) (record : fqHead s.regs ≠ fqTail s.regs) :
    let a := s.blk.fqBase.toNat + 32 * fqHead s.regs
    exec .fqTryRead s = .next (s.recordTaken.finish (result .ok ((fence s).wordBlk a) ((fence s).wordBlk (a + 8))
      ((fence s).wordBlk (a + 16)) ((fence s).wordBlk (a + 24)) (BitVec.ofNat 64 (fqHead s.regs))
      (BitVec.ofNat 64 a))) := by
  intro a
  rw [exec_fqTryRead_settled rest, if_neg (by simp [geo.ready]), if_neg record,
    takeRecord_calm ((settled_iff s).1 rest).1 geo, done]

end

end Sys2Proof.Machine
end

section
/-! PROOFS. O55. -/

namespace Sys2Proof.Machine

/-- Settles O55: the three branches of FQ.TRY_READ; taking a record moves the head and is a FENCE to all else. -/
theorem fqTryReadResults : Obligations.FqTryReadResults := by
  intro s rest
  have calm := ((settled_iff s).1 rest).1
  have run := exec_fqTryRead_settled rest
  refine ⟨fun off => ?disabled, fun ready empty => ?empty, fun geo record => ?taken⟩
  case disabled =>
    rw [run, if_pos (by simp [off]), raise_eq]
  case empty =>
    rw [run, if_neg (not_not.2 ready), if_pos empty, done]
  case taken =>
    refine ⟨_, exec_fqTryRead_record rest geo record, rfl, fence_blk s, ?drained, rfl, ?same, fun a _ => ⟨rfl, rfl⟩⟩
    case drained =>
      rw [finish_pend, State.recordTaken, fence_calm calm]
    case same =>
      rw [State.recordTaken, fence_calm calm]
      constructor <;> rfl

end Sys2Proof.Machine
end

section
/-! SUPPORT. A fault reported into a fault queue with room (R150, R395), with no advance of fqt to come: the record's
words at the tail, which moves on. -/

namespace Sys2Proof.Machine

/-! The record's first doubleword (R150). -/

theorem toNat_bit_shift33 (b : Bool) : (bit b <<< 33).toNat = b.toNat * 2 ^ 33 := by
  revert b
  decide

/-- A field shifted to bit `i` of a word that has room for it. -/
theorem toNat_setWidth_shiftLeft {n i : Nat} (v : BitVec n) (room : n + i ≤ 64) :
    (v.setWidth 64 <<< i).toNat = v.toNat * 2 ^ i := by
  have below : v.toNat * 2 ^ i < 2 ^ n * 2 ^ i := Nat.mul_lt_mul_of_pos_right v.isLt (by positivity)
  have wide : 2 ^ n * 2 ^ i ≤ 2 ^ 64 := by
    rw [← pow_add]
    exact Nat.pow_le_pow_right (by decide) room
  rw [BitVec.toNat_shiftLeft, BitVec.toNat_setWidth_of_le (by omega), Nat.shiftLeft_eq,
    Nat.mod_eq_of_lt (below.trans_le wide)]

theorem toNat_recordWord0 (cause : Nat) (t : Transaction) : (recordWord0 cause t).toNat =
    cause % 4096 + t.priv.toNat * 2 ^ 33 + t.ttyp.toNat * 2 ^ 34 + t.did.toNat * 2 ^ 40 := by
  have privSmall : t.priv.toNat < 2 := Bool.toNat_lt t.priv
  have ttypSmall := t.ttyp.isLt
  have low : (BitVec.ofNat 64 (cause % 4096)).toNat = cause % 4096 := Nat.mod_eq_of_lt (by omega)
  have priv := toNat_bit_shift33 t.priv
  have ttyp := toNat_setWidth_shiftLeft (i := 34) t.ttyp (by decide)
  have did := toNat_setWidth_shiftLeft (i := 40) t.did (by decide)
  have two : (BitVec.ofNat 64 (cause % 4096) ||| (bit t.priv <<< 33)).toNat =
      cause % 4096 + t.priv.toNat * 2 ^ 33 := by
    rw [BitVec.or_comm, toNat_or_of_lt (i := 33) (by omega) (by omega), low, priv, Nat.add_comm]
  have three : (BitVec.ofNat 64 (cause % 4096) ||| (bit t.priv <<< 33) ||| (t.ttyp.setWidth 64 <<< 34)).toNat =
      cause % 4096 + t.priv.toNat * 2 ^ 33 + t.ttyp.toNat * 2 ^ 34 := by
    rw [BitVec.or_comm, toNat_or_of_lt (i := 34) (by omega) (by omega), two, ttyp, Nat.add_comm]
  rw [recordWord0, BitVec.or_comm, toNat_or_of_lt (i := 40) (by omega) (by omega), three, did, Nat.add_comm]

/-! Where the fault queue lies (R8, R380). -/

section
variable {s : State}

theorem wellPlaced_fq (placed : wellPlaced s = true) (geo : s.FqGeometry) :
    s.blk.fqBase.toNat + 32 * 2 ^ s.blk.fqLog2n.toNat ≤ 2 ^ 56 ∧
      overlaps s.cfg.iommuBase.toNat 4096 s.blk.fqBase.toNat (32 * 2 ^ s.blk.fqLog2n.toNat) = false := by
  obtain ⟨-, fits, apart⟩ := of_decide_eq_true placed
  have region : fqRegion s.blk s.regs = ⟨s.blk.fqBase.toNat, 32 * 2 ^ s.blk.fqLog2n.toNat⟩ := by
    rw [fqRegion, geo.ready]
  have inside := fits (fqRegion s.blk s.regs) (by simp [blockRegions])
  simp only [disjointAll, Bool.and_eq_true, Bool.not_eq_true', meetsAny, blockRegions, List.any_cons, List.any_nil,
    Bool.or_eq_false_iff] at apart
  obtain ⟨⟨-, -, -, -, window, -⟩, -⟩ := apart
  rw [region] at inside window
  exact ⟨inside, window⟩

/-- The IOMMU reaches the slot at the tail. -/
theorem fqSlot_accessible (placed : wellPlaced s = true) (geo : s.FqGeometry) :
    accessible s.cfg (fqSlotIo s.regs) 32 = true := by
  obtain ⟨fits, window⟩ := wellPlaced_fq placed geo
  have tail : fqTail s.regs < 2 ^ s.blk.fqLog2n.toNat := geo.index_lt _
  rw [overlaps_eq_false] at window
  rw [accessible, Bool.and_eq_true, decide_eq_true_eq, Bool.not_eq_true', overlaps_eq_false, paLimit, fqSlotIo,
    geo.base]
  omega

/-- A drained queue has room for one more record. -/
theorem State.FqGeometry.next_ne_tail (geo : s.FqGeometry) :
    (fqTail s.regs + 1) % 2 ^ s.blk.fqLog2n.toNat ≠ fqTail s.regs := by
  have tail : fqTail s.regs < 2 ^ s.blk.fqLog2n.toNat := geo.index_lt _
  have two : 2 ≤ 2 ^ s.blk.fqLog2n.toNat := by
    rw [← geo.size, pow_succ]
    have : 0 < 2 ^ (s.regs.fqb.extractLsb' 0 5).toNat := by positivity
    omega
  rcases Nat.lt_or_ge (fqTail s.regs + 1) (2 ^ s.blk.fqLog2n.toNat) with below | last
  · rw [Nat.mod_eq_of_lt below]
    omega
  · rw [show fqTail s.regs + 1 = 2 ^ s.blk.fqLog2n.toNat by omega, Nat.mod_self]
    omega

/-! The report. -/

/-- After the record's words stand at the tail and the tail has moved on (R395). -/
def State.recorded (s : State) (w0 w1 w2 w3 : Word) : State :=
  let a := fqSlotIo s.regs
  { s with
    memIo := (((s.memIo.store64 a w0).store64 (a + 8) w1).store64 (a + 16) w2).store64 (a + 24) w3,
    unseen := s.unseen ++ [⟨a, 8⟩, ⟨a + 8, 8⟩, ⟨a + 16, 8⟩, ⟨a + 24, 8⟩],
    regs := { s.regs with fqt := nextIndex s.regs.fqb (fqTail s.regs) } }

theorem reportRecord_room (record : s.engine.recPending = false) (on : fqOn s.regs = true)
    (clear : fqErr s.regs.fqcsr = false) (room : fqFull s.regs = false)
    (readable : accessible s.cfg (fqSlotIo s.regs) 32 = true) (w0 w1 w2 w3 : Word) :
    reportRecord w0 w1 w2 w3 false s = s.recorded w0 w1 w2 w3 := by
  have same : { s.engine with recPending := false } = s.engine := by rw [← record]
  simp only [reportRecord, advanceFqt_same record, on, clear, room, readable, Bool.not_true, Bool.or_false,
    Bool.false_eq_true, if_false]
  rw [advanceFqt, if_pos rfl, State.recorded, ← same]
  simp only [ioStore, List.append_assoc, List.cons_append, List.nil_append]
  rfl

/-- The four words in the IOMMU's view. -/
theorem recorded_wordIo (s : State) (w0 w1 w2 w3 : Word) :
    let a := fqSlotIo s.regs
    (s.recorded w0 w1 w2 w3).wordIo a = w0 ∧ (s.recorded w0 w1 w2 w3).wordIo (a + 8) = w1 ∧
      (s.recorded w0 w1 w2 w3).wordIo (a + 16) = w2 ∧ (s.recorded w0 w1 w2 w3).wordIo (a + 24) = w3 := by
  simp only [State.wordIo, State.recorded]
  refine ⟨?_, ?_, ?_, Memory.load64_store64_same ..⟩
  · rw [Memory.load64_store64_other _ _ _ _ (.inl (by omega)), Memory.load64_store64_other _ _ _ _ (.inl (by omega)),
      Memory.load64_store64_other _ _ _ _ (.inl (by omega)), Memory.load64_store64_same]
  · rw [Memory.load64_store64_other _ _ _ _ (.inl (by omega)), Memory.load64_store64_other _ _ _ _ (.inl (by omega)),
      Memory.load64_store64_same]
  · rw [Memory.load64_store64_other _ _ _ _ (.inl (by omega)), Memory.load64_store64_same]

/-- A FENCE shows the block what another agent wrote where the block itself has nothing pending (R95 to R97). -/
theorem fence_wordBlk_unseen (calm : s.weave = []) (drained : s.pend = []) {a : Nat} (other : ⟨a, 8⟩ ∈ s.unseen) :
    (fence s).wordBlk a = s.wordIo a := by
  rw [fence_calm calm, drained]
  refine Memory.load64_congr _ _ _ fun b low high => ?_
  have covered : s.unseen.any (fun r => r.covers b) = true :=
    List.any_eq_true.2 ⟨_, other, by simp [ByteRange.covers, low, high]⟩
  change (revealAll s.memBlk s.memIo s.unseen).read b = s.memIo.read b
  rw [revealAll_read, if_pos covered]

/-- What FQ.TRY_READ finds of the record after its FENCE. -/
theorem fence_recorded_wordBlk (calm : s.weave = []) (drained : s.pend = []) (w0 w1 w2 w3 : Word) :
    let a := fqSlotIo s.regs
    let t := fence (s.recorded w0 w1 w2 w3)
    t.wordBlk a = w0 ∧ t.wordBlk (a + 8) = w1 ∧ t.wordBlk (a + 16) = w2 ∧ t.wordBlk (a + 24) = w3 := by
  intro a t
  have shown {b : Nat} (other : b = a ∨ b = a + 8 ∨ b = a + 16 ∨ b = a + 24) :
      t.wordBlk b = (s.recorded w0 w1 w2 w3).wordIo b := by
    refine fence_wordBlk_unseen (by exact calm) (by exact drained) (List.mem_append_right _ ?_)
    simpa [a] using other
  rw [shown (by simp), shown (by simp), shown (by simp), shown (by simp)]
  exact recorded_wordIo s w0 w1 w2 w3

section
variable (geo : s.FqGeometry) (w0 w1 w2 w3 : Word)
include geo

/-- A record moves no queue. -/
theorem recorded_fqGeometry : (s.recorded w0 w1 w2 w3).FqGeometry := ⟨geo.ready, geo.base, geo.size, geo.aligned⟩

theorem recorded_fqTail : fqTail (s.recorded w0 w1 w2 w3).regs = (fqTail s.regs + 1) % 2 ^ s.blk.fqLog2n.toNat := by
  have wide : 2 ^ s.blk.fqLog2n.toNat ≤ 2 ^ 32 := Nat.pow_le_pow_right (by decide) geo.log2n_le
  have below : (fqTail s.regs + 1) % 2 ^ s.blk.fqLog2n.toNat < 2 ^ s.blk.fqLog2n.toNat := Nat.mod_lt _ (by positivity)
  rw [fqTail_eq, (recorded_fqGeometry geo w0 w1 w2 w3).cap]
  change (nextIndex s.regs.fqb (fqTail s.regs)).toNat % 2 ^ s.blk.fqLog2n.toNat = _
  rw [nextIndex, geo.cap, BitVec.toNat_ofNat, Nat.mod_eq_of_lt (below.trans_le wide), Nat.mod_eq_of_lt below]

/-- FQ.TRY_READ of the one record in the queue finds its words (R385). -/
theorem exec_fqTryRead_recorded (rest : s.settled = true) (drained : s.pend = [])
    (empty : fqHead s.regs = fqTail s.regs) : exec .fqTryRead (s.recorded w0 w1 w2 w3) =
      .next ((s.recorded w0 w1 w2 w3).recordTaken.finish (result .ok w0 w1 w2 w3 (BitVec.ofNat 64 (fqHead s.regs))
        (BitVec.ofNat 64 (fqSlotIo s.regs)))) := by
  have settled : (s.recorded w0 w1 w2 w3).settled = true := rest
  have full : fqHead (s.recorded w0 w1 w2 w3).regs ≠ fqTail (s.recorded w0 w1 w2 w3).regs := by
    rw [recorded_fqTail geo]
    exact fun same => geo.next_ne_tail (same.symm.trans empty)
  have slot : (s.recorded w0 w1 w2 w3).blk.fqBase.toNat + 32 * fqHead (s.recorded w0 w1 w2 w3).regs =
      fqSlotIo s.regs := by
    rw [fqSlotIo, geo.base, ← empty]
    rfl
  obtain ⟨first, second, third, fourth⟩ := fence_recorded_wordBlk ((settled_iff s).1 rest).1 drained w0 w1 w2 w3
  rw [exec_fqTryRead_record settled (recorded_fqGeometry geo w0 w1 w2 w3) full, slot, first, second, third, fourth]
  rfl

end

/-- FQR.DECODE of a record's words gives back what was reported (R150, R390). -/
theorem exec_fqrDecode_record (cause : Nat) (x : Transaction) (w1 w2 w3 : Word) (s : State) :
    exec (.fqrDecode (recordWord0 cause x) w1 w2 w3) s = .next (s.finish (result .ok (BitVec.ofNat 64 (cause % 4096))
      0 0 (if x.priv then 1 else 0) (BitVec.ofNat 64 x.ttyp.toNat) (BitVec.ofNat 64 x.did.toNat) w2 w3)) := by
  have word := toNat_recordWord0 cause x
  have privSmall : x.priv.toNat < 2 := Bool.toNat_lt x.priv
  have ttypSmall := x.ttyp.isLt
  have priv : (if x.priv then 1 else 0 : Word) = BitVec.ofNat 64 x.priv.toNat := by cases x.priv <;> rfl
  have field0 : (recordWord0 cause x).toNat % 4096 = cause % 4096 := by omega
  have field12 : (recordWord0 cause x).toNat / 2 ^ 12 % 2 ^ 20 = 0 := by omega
  have field32 : (recordWord0 cause x).toNat / 2 ^ 32 % 2 = 0 := by omega
  have field33 : (recordWord0 cause x).toNat / 2 ^ 33 % 2 = x.priv.toNat := by omega
  have field34 : (recordWord0 cause x).toNat / 2 ^ 34 % 64 = x.ttyp.toNat := by omega
  have field40 : (recordWord0 cause x).toNat / 2 ^ 40 = x.did.toNat := by omega
  rw [fqrDecodeFields, field0, field12, field32, field33, field34, field40, priv]
  rfl

end

end Sys2Proof.Machine
end

section
/-! SUPPORT. The directory off (R309, R397): what DDT.SET_MODE leaves in ddtp when it finishes OK, with any moves of
other agents, and a transaction that then meets cause 256. -/

namespace Sys2Proof.Machine

section
variable {s t : State}

/-- A wait whose operation finished with another status than ERR_TIMEOUT went on past it. -/
theorem await_went_on {α : Type} {poll : State → Option α × State} {w : WaitPoint}
    {go : α → State → Host.Outcome State Fault Refusal} (run : await poll w go s = .next t) (idle : t.phase = .idle)
    (intime : t.res.status ≠ Status.errTimeout.code) : ∃ v u, go v u = .next t := by
  rw [await] at run
  split at run
  · exact ⟨_, _, run⟩
  · split at run
    · cases run
      exact absurd rfl intime
    · cases run
      exact absurd idle nofun

theorem setModeCheck_ok {m : BitVec 4} (run : setModeCheck m s = .next t) (ok : t.res.status = Status.ok.code) :
    ddtpMode t.regs.ddtp = m := by
  simp only [setModeCheck] at run
  split at run
  · cases run
    exact absurd ok (show Status.errMode.code ≠ Status.ok.code by decide)
  · next same =>
    cases run
    exact not_not.1 same

/-- DDT.SET_MODE that finishes OK leaves the mode it was asked for (R308). -/
theorem ddtSetMode_ok {m : BitVec 4} (run : exec (.ddtSetMode m) s = .next t) (idle : t.phase = .idle)
    (ok : t.res.status = Status.ok.code) : ddtpMode t.regs.ddtp = m := by
  have intime : t.res.status ≠ Status.errTimeout.code := by
    rw [ok]
    decide
  have raised {st : Status} {u : State} (e : raise st u = .next t) (other : st.code ≠ Status.ok.code) : False := by
    cases e
    exact other ok
  change execDdtSetMode m s = _ at run
  rw [execDdtSetMode] at run
  split_ifs at run
  · exact (raised run (by decide)).elim
  · exact (raised run (by decide)).elim
  · obtain ⟨_, u, program⟩ := await_went_on run idle intime
    simp only [setModeProgram] at program
    split_ifs at program
    · exact (raised program (by decide)).elim
    · obtain ⟨_, _, check⟩ := await_went_on program idle intime
      exact setModeCheck_ok check ok

theorem translate_off (c : Config) (m : Memory) {ddtp : Word} (off : ddtpMode ddtp = 0) (x : Transaction) (w : Walk) :
    translate c m ddtp x w = ((.error ⟨256, 0⟩, false), w) := by
  rw [translate, off]
  rfl

/-- The state that has observed a transaction's fault (R238; log 28). -/
def State.devFaulted (s : State) (cause : Nat) : State := { s with dev := .faulted cause }

/-- With the directory off a transaction comes to nothing but the report of cause 256 (R238, R309). -/
theorem transact_off (off : ddtpMode s.regs.ddtp = 0) (x : Transaction) (picks : List Pick) :
    transact x picks false s = reportRecord (recordWord0 256 x) 0 x.iova 0 false (s.devFaulted 256) := by
  rw [transact, translated, translate_off _ _ off]
  rfl

end

end Sys2Proof.Machine
end

section
/-! PROOFS. O57. -/

namespace Sys2Proof.Machine

/-- Settles O57: the transaction's report fills the slot at the head, FQ.TRY_READ takes the four words from there, and
FQR.DECODE (O56) cuts the fields out of them. -/
theorem offModeReportsEveryTransfer : Obligations.OffModeReportsEveryTransfer := by
  intro s0 s x picks off idle ok rest placed geo on clear empty drained
  obtain ⟨-, -, -, -, -, -, -, record, -⟩ := (settled_iff s).1 rest
  have seen : (s.devFaulted 256).FqGeometry := ⟨geo.ready, geo.base, geo.size, geo.aligned⟩
  have room : fqFull s.regs = false := by
    rw [fqFull, geo.cap, empty]
    exact beq_false_of_ne geo.next_ne_tail
  have reported : perform (.transact x picks false) s = (s.devFaulted 256).recorded (recordWord0 256 x) 0 x.iova 0 := by
    change transact x picks false s = _
    rw [transact_off (ddtSetMode_ok off idle ok)]
    exact reportRecord_room (s := s.devFaulted 256) record on clear room
      (fqSlot_accessible placed seen) ..
  have taken := exec_fqTryRead_recorded seen (recordWord0 256 x) 0 x.iova 0 rest drained empty
  exact ⟨_, _, _, _, _, _, _, _, reported, rfl, taken, rfl, exec_fqrDecode_record 256 x 0 x.iova 0 _⟩

end Sys2Proof.Machine
end

section
/-! SUPPORT. What a FENCE leaves in the two views of memory, whatever the environment does. -/

namespace Sys2Proof.Machine

variable {s : State}

@[simp] theorem fence_pend (s : State) : (fence s).pend = [] := rfl

@[simp] theorem fence_unseen (s : State) : (fence s).unseen = [] := rfl

theorem fence_memoryOk (h : s.MemoryOk) : (fence s).MemoryOk :=
  Moves.refl.thenFence.keep (fun _ _ => Move.memoryOk) h

theorem fence_keepsCoherent (h : s.Coherent) : (fence s).Coherent :=
  Moves.refl.thenFence.keep (fun _ _ => Move.coherent) h

/-- With nothing pending and nothing unseen, two views that agree are one memory, for each has one canonical form. -/
theorem State.Coherent.memBlk_eq_memIo (h : s.Coherent) (ok : s.MemoryOk) (drained : s.pend = [])
    (revealed : s.unseen = []) : s.memBlk = s.memIo := by
  obtain ⟨blk, io⟩ := ok
  refine Memory.eq_of_read _ _ blk io fun a => ?_
  have agree : s.memBlk.read a = (drainAll s.memIo s.pend).read a := h a (by simp [revealed])
  rw [agree, drained]
  rfl

/-- A byte that no other agent's write left unseen is for the block what it was. -/
theorem readBlk_fence_seen (calm : s.weave = []) {a : Nat} (seen : ∀ r ∈ s.unseen, r.covers a = false) :
    (fence s).readBlk a = s.readBlk a := by
  have uncovered : s.unseen.any (fun r => r.covers a) = false := by simpa using seen
  rw [fence_calm calm]
  change (revealAll s.memBlk (drainAll s.memIo s.pend) s.unseen).read a = s.memBlk.read a
  rw [revealAll_read, uncovered]
  rfl

theorem exec_fence (s : State) : exec .fence s = .next ((fence s).finish (result .ok)) := rfl

end Sys2Proof.Machine
end

section
/-! PROOFS. O15. -/

namespace Sys2Proof.Machine

/-- Settles O15: the chain of moves up to and with the fence keeps the agreement of the views, and the fence leaves
nothing pending or unseen for them to differ in. -/
theorem fenceOrders : Obligations.FenceOrders := by
  intro s
  refine ⟨_, exec_fence s, rfl, fence_pend s, fence_unseen s, fun ok coherent => ?oneMemory, fun calm => ?alone⟩
  case oneMemory =>
    exact (fence_keepsCoherent coherent).memBlk_eq_memIo (fence_memoryOk ok) (fence_pend s) (fence_unseen s)
  case alone =>
    have io : (fence s).memIo = drainAll s.memIo s.pend := by rw [fence_calm calm]
    exact ⟨io, fence_blk s, { fence_sameOutside calm with }, fun _ seen => readBlk_fence_seen calm seen⟩

end Sys2Proof.Machine
end

section
/-! SUPPORT. Reset (R560, R563): what it leaves, as numbers, and the step that takes it. -/

namespace Sys2Proof.Machine

theorem BlockRegs.atReset_reset : BlockRegs.reset.AtReset := by
  constructor <;> decide

theorem IommuRegs.atReset_reset (c : Config) : (IommuRegs.reset c).AtReset c where
  mode := by cases mode : c.ddtpResetMode <;> simp [IommuRegs.reset, mode]
  busy := by cases mode : c.ddtpResetMode <;> simp [IommuRegs.reset, mode, ddtpBusy]
  bases := ⟨rfl, rfl⟩
  indices := ⟨rfl, rfl, rfl, rfl⟩
  status := ⟨rfl, rfl⟩

/-- `capabilities` and `fctl` are not among the registers that reset sets (log 4). -/
theorem atReset_resetIommu (s : State) : (resetIommu s).regs.AtReset s.cfg :=
  { IommuRegs.atReset_reset s.cfg with }

/-- At reset no byte is listed and no write is pending or unseen, so the two views are the same empty memory. -/
theorem inv_resetOf (c : Config) : (State.resetOf c).Inv where
  memory := ⟨Memory.wf_nil, Memory.wf_nil⟩
  coherent := fun _ _ => rfl
  reserved := resetIommu_reservedZero (State.resetOf c)
  sequenced := ⟨⟨.ok, rfl⟩, nofun⟩

/-- A well-placed machine takes a reset at once, whatever the block is in. -/
theorem step_reset {s : State} {blockOnly : Bool} {rest : List Input} (placed : wellPlaced s = true)
    (next : s.inputs = .reset blockOnly :: rest) : step s = .next (
      if blockOnly then resetBlock { s with inputs := rest }
      else resetIommu (resetBlock { s with inputs := rest })) := by
  simp only [step, placed, if_true, turn, next]
  cases blockOnly <;> rfl

end Sys2Proof.Machine
end

section
/-! PROOFS. O9 and O14. -/

namespace Sys2Proof.Machine

/-- Settles O9: the step is `resetBlock`, followed by `resetIommu` when both are reset. -/
theorem blockReset : Obligations.BlockReset := by
  intro s both rest placed next
  refine ⟨_, step_reset placed next, ?_⟩
  cases both with
  | false =>
    exact ⟨rfl, rfl, rfl, BlockRegs.atReset_reset, rfl, rfl, rfl, rfl, rfl, fun _ => ⟨rfl, rfl, rfl⟩, nofun⟩
  | true =>
    exact ⟨rfl, rfl, rfl, BlockRegs.atReset_reset, rfl, rfl, rfl, rfl, rfl, nofun,
      fun _ => ⟨atReset_resetIommu _, rfl, rfl, rfl, rfl, rfl, rfl, rfl, rfl, rfl⟩⟩

/-- Settles O14: the invariants hold of the empty memory and the reset registers, whatever the parameters are. -/
theorem resetState : Obligations.ResetState := fun c =>
  ⟨inv_resetOf c, rfl, rfl, rfl, rfl, BlockRegs.atReset_reset, IommuRegs.atReset_reset c, rfl, rfl, rfl, rfl⟩

end Sys2Proof.Machine
end

section
/-! SUPPORT. Said once: how a request operation is refused (R502, R503). Each check raises its error before the
operation's first effect, so what is refused is the state it began in; what runs past the checks ends with another
status. -/

namespace Sys2Proof.Machine

/-- The statuses of R503's first list that leave no effect whatever the operation is. -/
def refusalCodes : List (BitVec 8) := [0x10, 0x11, 0x12, 0x13, 0x14, 0x15, 0x17]

/-- With ERR_MODE, which DDT.SET_MODE alone can raise after its write (R308, R503). -/
def allRefusalCodes : List (BitVec 8) := 0x18 :: refusalCodes

/-- The statuses of R503's first list, for an instruction. -/
def refusals : Instr → List (BitVec 8)
  | .ddtSetMode _ => refusalCodes
  | _ => allRefusalCodes

theorem mem_refusals {i : Instr} {c : BitVec 8} (h : c ∈ refusalCodes ∨ c = 0x18 ∧ ∀ m, i ≠ .ddtSetMode m) :
    c ∈ refusals i := by
  cases i with
  | ddtSetMode m => exact h.resolve_right fun ⟨_, other⟩ => other m rfl
  | _ => exact List.mem_cons.2 (h.symm.imp_left And.left)

/-- An outcome that ends with one of `codes` is `s` with that status in RES, all result words 0, and the block IDLE. -/
structure EffectFree (codes : List (BitVec 8)) (s : State) (o : Host.Outcome State Fault Refusal) : Prop where
  refused : ∀ t, o = .next t → t.phase = .idle → t.res.status ∈ codes →
    t = s.finish ⟨t.res.status, 0, 0, 0, 0, 0, 0, 0, 0⟩

section
variable {codes : List (BitVec 8)} {s u : State}

/-! The ends of an operation. -/

theorem effectFree_raise (c : Status) : EffectFree codes s (raise c s) := by
  constructor
  rintro _ ⟨⟩ - -
  rfl

theorem effectFree_done {r : Result} (other : r.status ∉ codes) : EffectFree codes s (done u r) := by
  constructor
  rintro _ ⟨⟩ - listed
  exact absurd listed other

/-- An operation that completes with the status `c` is not refused. -/
theorem effectFree_result {c : Status} {r0 r1 r2 r3 r4 r5 r6 r7 : Word} (other : c.code ∉ codes := by decide) :
    EffectFree codes s (done u (result c r0 r1 r2 r3 r4 r5 r6 r7)) := effectFree_done other

theorem effectFree_fault (f : Fault) : EffectFree codes s (.fault f) := ⟨fun _ e => (nomatch e)⟩

theorem effectFree_hang (w : WaitPoint) : EffectFree codes s (hang w u) := by
  constructor
  rintro _ ⟨⟩ idle
  cases idle

/-- ERR_TIMEOUT is not in R503's first list, so a wait is refused only by what follows it. -/
theorem effectFree_await {α : Type} {poll : State → Option α × State} {w : WaitPoint}
    {go : α → State → Host.Outcome State Fault Refusal} (hg : ∀ v u, EffectFree codes s (go v u))
    (timeout : Status.errTimeout.code ∉ codes := by decide) : EffectFree codes s (await poll w go u) := by
  unfold await
  split
  · exact hg _ _
  · split
    · exact effectFree_result timeout
    · exact effectFree_hang _

end

section
variable {s u : State}

/-! The codec and the command encoders. -/

theorem execPteLeaf_effectFree (fl : BitVec 7) (a0 : Word) : EffectFree allRefusalCodes s (execPteLeaf fl a0 s) := by
  unfold execPteLeaf
  split_ifs
  iterate 3 exact effectFree_raise _
  exact effectFree_result

theorem execPteNonleaf_effectFree (a0 : Word) : EffectFree allRefusalCodes s (execPteNonleaf a0 s) := by
  unfold execPteNonleaf
  split_ifs
  iterate 2 exact effectFree_raise _
  exact effectFree_result

theorem execCmdIodirDdt_effectFree (dv : Bool) (a0 : Word) :
    EffectFree allRefusalCodes s (execCmdIodirDdt dv a0 s) := by
  unfold execCmdIodirDdt
  split_ifs
  · exact effectFree_raise _
  all_goals exact effectFree_result

theorem execCmdIotinvalVma_effectFree (av gv pscv : Bool) (a0 a1 a2 : Word) :
    EffectFree allRefusalCodes s (execCmdIotinvalVma av gv pscv a0 a1 a2 s) := by
  unfold execCmdIotinvalVma
  split_ifs
  iterate 2 exact effectFree_raise _
  all_goals exact effectFree_result

theorem execCmdIotinvalGvma_effectFree (av gv : Bool) (a0 a1 : Word) :
    EffectFree allRefusalCodes s (execCmdIotinvalGvma av gv a0 a1 s) := by
  unfold execCmdIotinvalGvma
  split_ifs
  iterate 2 exact effectFree_raise _
  all_goals exact effectFree_result

theorem execCmdIofenceC_effectFree (av wsi : Bool) (a0 a1 : Word) :
    EffectFree allRefusalCodes s (execCmdIofenceC av wsi a0 a1 s) := by
  unfold execCmdIofenceC
  split_ifs
  iterate 2 exact effectFree_raise _
  all_goals exact effectFree_result

/-! The builder. -/

/-- With no other agent moving, the dry run only reads. -/
theorem dryRun_state (calm : s.weave = []) (st : Stage) (g : BitVec 2) (n : Nat) (v : Word) (news : List (Nat × Nat)) :
    (dryRun st g n v news s).2 = s := by
  by_cases clear : ∀ k < n, s.Clear st (granuleAt g v k) (2 - g.toNat)
  · obtain ⟨all, run, -⟩ := dryRun_clear calm news clear
    rw [run]
  · push Not at clear
    obtain ⟨k, hk, conflict⟩ := clear
    rw [dryRun_conflict calm news hk conflict]

/-- PT.MAP raises ERR_CONFLICT and ERR_POOL after its dry run alone (R225, R228). -/
theorem execPtMap_effectFree (calm : s.weave = []) (st : Stage) (g : BitVec 2) (fl : BitVec 7) (a0 a1 a2 : Word) :
    EffectFree allRefusalCodes s (execPtMap st g fl a0 a1 a2 s) := by
  have dry := dryRun_state calm st g a2.toNat a0 []
  unfold execPtMap
  split_ifs
  iterate 5 exact effectFree_raise _
  split <;> rename_i heq <;> rw [heq] at dry <;> subst dry
  · exact effectFree_raise _
  · split_ifs
    · exact effectFree_raise _
    · exact effectFree_result

/-- PT.LOOKUP's walk finds a translation or none. -/
theorem lookupWalk_status (st : Stage) (x : Word) (n a : Nat) :
    (lookupWalk st x n a s).1.status ∉ allRefusalCodes := by
  have ok : Status.ok.code ∉ allRefusalCodes := by decide
  have nothing : Status.none.code ∉ allRefusalCodes := by decide
  induction n generalizing a s with
  | zero => exact nothing
  | succ n ih =>
    simp only [lookupWalk, memRead]
    split
    case h_3 =>
      split_ifs
      · exact nothing
      · exact ih _
    case h_4 => exact ok
    all_goals exact nothing

theorem execPtLookup_effectFree (st : Stage) (a0 : Word) : EffectFree allRefusalCodes s (execPtLookup st a0 s) := by
  unfold execPtLookup
  split_ifs
  iterate 2 exact effectFree_raise _
  exact effectFree_done (lookupWalk_status st a0 3 _)

/-! The MSI table. -/

theorem execMsiInit_effectFree : EffectFree allRefusalCodes s (execMsiInit s) := by
  unfold execMsiInit
  split_ifs
  · exact effectFree_raise _
  · exact effectFree_result

theorem execMsiSetBasic_effectFree (c : Bool) (a0 a1 : Word) :
    EffectFree allRefusalCodes s (execMsiSetBasic c a0 a1 s) := by
  unfold execMsiSetBasic
  split_ifs
  iterate 5 exact effectFree_raise _
  exact effectFree_result

theorem execMsiSetMrif_effectFree (c : Bool) (a0 a1 a2 a3 : Word) :
    EffectFree allRefusalCodes s (execMsiSetMrif c a0 a1 a2 a3 s) := by
  unfold execMsiSetMrif
  split_ifs
  iterate 6 exact effectFree_raise _
  exact effectFree_result

theorem execMsiIndex_effectFree (a0 : Word) : EffectFree allRefusalCodes s (execMsiIndex a0 s) := by
  unfold execMsiIndex
  split_ifs
  · exact effectFree_raise _
  · exact effectFree_result

theorem execMsiMrifLoc_effectFree (a0 a1 : Word) : EffectFree allRefusalCodes s (execMsiMrifLoc a0 a1 s) := by
  unfold execMsiMrifLoc
  split_ifs
  iterate 3 exact effectFree_raise _
  exact effectFree_result

/-! The directory. -/

theorem execDdtConfig_effectFree (dtf : Bool) (a0 a1 a2 a3 : Word) :
    EffectFree allRefusalCodes s (execDdtConfig dtf a0 a1 a2 a3 s) := by
  unfold execDdtConfig
  split_ifs
  · exact effectFree_raise _
  · exact effectFree_result

/-- DDT.REBUILD raises ERR_MODE after its read of ddtp alone (R296). -/
theorem execDdtRebuild_effectFree (rest : s.settled = true) (lv : BitVec 2) (a0 a1 : Word) :
    EffectFree allRefusalCodes s (execDdtRebuild lv a0 a1 s) := by
  rw [execDdtRebuild, mmioRead_settled rest .ddtp]
  dsimp only
  split_ifs
  iterate 4 exact effectFree_raise _
  split
  · exact effectFree_fault _
  · exact effectFree_result

theorem updateContexts_effectFree (off : Nat) (m : BitVec 4) (ppn : Word) :
    EffectFree allRefusalCodes s (updateContexts off m ppn u) := by
  rw [updateContexts]
  split
  · exact effectFree_fault _
  · exact effectFree_result

theorem execDdtSetS1Mode_effectFree (m : BitVec 4) : EffectFree allRefusalCodes s (execDdtSetS1Mode m s) := by
  unfold execDdtSetS1Mode
  split_ifs
  iterate 2 exact effectFree_raise _
  exact updateContexts_effectFree ..

theorem execDdtSetS2Mode_effectFree (m : BitVec 4) : EffectFree allRefusalCodes s (execDdtSetS2Mode m s) := by
  unfold execDdtSetS2Mode
  split_ifs
  iterate 2 exact effectFree_raise _
  exact updateContexts_effectFree ..

theorem execDdtSetMsiMode_effectFree (m : BitVec 4) : EffectFree allRefusalCodes s (execDdtSetMsiMode m s) := by
  unfold execDdtSetMsiMode
  split_ifs
  iterate 3 exact effectFree_raise _
  exact updateContexts_effectFree ..

theorem setModeCheck_effectFree (m : BitVec 4) : EffectFree refusalCodes s (setModeCheck m u) := by
  unfold setModeCheck
  dsimp only
  split_ifs <;> exact effectFree_result

theorem setModeProgram_effectFree (m : BitVec 4) : EffectFree refusalCodes s (setModeProgram m u) := by
  unfold setModeProgram
  dsimp only
  split_ifs
  · exact effectFree_result
  · exact effectFree_await fun _ _ => setModeCheck_effectFree m

/-- Past DDT.SET_MODE's first checks only ERR_MODE is left to refuse it (R308). -/
theorem execDdtSetMode_effectFree (m : BitVec 4) : EffectFree refusalCodes s (execDdtSetMode m s) := by
  unfold execDdtSetMode
  split_ifs
  iterate 2 exact effectFree_raise _
  exact effectFree_await fun _ _ => setModeProgram_effectFree m

theorem execDdtLocate_effectFree (a0 : Word) : EffectFree allRefusalCodes s (execDdtLocate a0 s) := by
  unfold execDdtLocate
  split_ifs
  iterate 2 exact effectFree_raise _
  split <;> exact effectFree_result

/-! The command queue. -/

/-- CQ.INIT raises ERR_STATE after its first read of cqcsr alone (R346). -/
theorem execCqInit_effectFree (rest : s.settled = true) (n : BitVec 6) (cie : Bool) (a0 : Word) :
    EffectFree allRefusalCodes s (execCqInit n cie a0 s) := by
  rw [execCqInit, mmioRead_settled rest .cqcsr]
  dsimp only
  split_ifs
  iterate 5 exact effectFree_raise _
  all_goals exact effectFree_await fun _ _ => effectFree_result

theorem syncWait_effectFree (a0 a1 x : Word) : EffectFree allRefusalCodes s (syncWait a0 a1 x u) := by
  refine effectFree_await fun c v => ?_
  unfold syncFinish
  split_ifs <;> exact effectFree_result

theorem submitStore_effectFree (d0 d1 x : Word) (b : SubmitFor) :
    EffectFree allRefusalCodes s (submitStore d0 d1 x b u) := by
  cases b with
  | submit => exact effectFree_result
  | sync a0 a1 => exact syncWait_effectFree ..

theorem submitWait_effectFree (d0 d1 x : Word) (b : SubmitFor) :
    EffectFree allRefusalCodes s (submitWait d0 d1 x b u) := by
  refine effectFree_await fun c v => ?_
  unfold submitChecked
  split_ifs
  · exact effectFree_result
  · exact submitStore_effectFree ..

theorem submitSteps_effectFree (d0 d1 : Word) (b : SubmitFor) :
    EffectFree allRefusalCodes s (submitSteps d0 d1 b u) := by
  unfold submitSteps
  dsimp only
  split_ifs
  · exact submitWait_effectFree ..
  · exact submitStore_effectFree ..

theorem execCqSubmit_effectFree (a0 a1 : Word) : EffectFree allRefusalCodes s (execCqSubmit a0 a1 s) := by
  unfold execCqSubmit
  split_ifs
  · exact effectFree_raise _
  · exact submitSteps_effectFree ..

theorem cqWaitWait_effectFree (x : Word) : EffectFree allRefusalCodes s (cqWaitWait x u) := by
  refine effectFree_await fun hc v => ?_
  unfold cqWaitFinish
  split_ifs <;> exact effectFree_result

theorem execCqWait_effectFree : EffectFree allRefusalCodes s (execCqWait s) := by
  unfold execCqWait
  split_ifs
  · exact effectFree_raise _
  · exact cqWaitWait_effectFree _

theorem execCqDisable_effectFree : EffectFree allRefusalCodes s (execCqDisable s) :=
  effectFree_await fun _ _ => effectFree_result

theorem execCqSync_effectFree (a0 a1 : Word) : EffectFree allRefusalCodes s (execCqSync a0 a1 s) := by
  unfold execCqSync
  split_ifs
  iterate 4 exact effectFree_raise _
  · exact effectFree_fault _
  · exact submitSteps_effectFree ..

/-! The fault queue. -/

/-- FQ.INIT raises ERR_STATE after its first read of fqcsr alone (R382). -/
theorem execFqInit_effectFree (rest : s.settled = true) (n : BitVec 6) (fie : Bool) (a0 : Word) :
    EffectFree allRefusalCodes s (execFqInit n fie a0 s) := by
  rw [execFqInit, mmioRead_settled rest .fqcsr]
  dsimp only
  split_ifs
  iterate 5 exact effectFree_raise _
  all_goals exact effectFree_await fun _ _ => effectFree_result

theorem execFqTryRead_effectFree : EffectFree allRefusalCodes s (execFqTryRead s) := by
  unfold execFqTryRead
  dsimp only
  split_ifs
  · exact effectFree_raise _
  all_goals exact effectFree_result

theorem execFqDisable_effectFree : EffectFree allRefusalCodes s (execFqDisable s) :=
  effectFree_await fun _ _ => effectFree_result

end

/-- With the environment at rest, every request operation is refused before its first effect. -/
theorem exec_effectFree (i : Instr) {s : State} (request : isRequest i = true) (rest : s.settled = true) :
    EffectFree (refusals i) s (exec i s) := by
  have calm := ((settled_iff s).1 rest).1
  cases i with
  | pteLeaf fl a0 => exact execPteLeaf_effectFree fl a0
  | pteNonleaf a0 => exact execPteNonleaf_effectFree a0
  | ptMap st g fl a0 a1 a2 => exact execPtMap_effectFree calm st g fl a0 a1 a2
  | ptLookup st a0 => exact execPtLookup_effectFree st a0
  | msiInit => exact execMsiInit_effectFree
  | msiSetBasic c a0 a1 => exact execMsiSetBasic_effectFree c a0 a1
  | msiSetMrif c a0 a1 a2 a3 => exact execMsiSetMrif_effectFree c a0 a1 a2 a3
  | msiIndex a0 => exact execMsiIndex_effectFree a0
  | msiMrifLoc a0 a1 => exact execMsiMrifLoc_effectFree a0 a1
  | ddtConfig dtf a0 a1 a2 a3 => exact execDdtConfig_effectFree dtf a0 a1 a2 a3
  | ddtRebuild lv a0 a1 => exact execDdtRebuild_effectFree rest lv a0 a1
  | ddtSetS1Mode m => exact execDdtSetS1Mode_effectFree m
  | ddtSetS2Mode m => exact execDdtSetS2Mode_effectFree m
  | ddtSetMsiMode m => exact execDdtSetMsiMode_effectFree m
  | ddtSetMode m => exact execDdtSetMode_effectFree m
  | ddtLocate a0 => exact execDdtLocate_effectFree a0
  | cmdIodirDdt dv a0 => exact execCmdIodirDdt_effectFree dv a0
  | cmdIotinvalVma av gv pscv a0 a1 a2 => exact execCmdIotinvalVma_effectFree av gv pscv a0 a1 a2
  | cmdIotinvalGvma av gv a0 a1 => exact execCmdIotinvalGvma_effectFree av gv a0 a1
  | cmdIofenceC av wsi a0 a1 => exact execCmdIofenceC_effectFree av wsi a0 a1
  | cqInit n cie a0 => exact execCqInit_effectFree rest n cie a0
  | cqSubmit a0 a1 => exact execCqSubmit_effectFree a0 a1
  | cqWait => exact execCqWait_effectFree
  | cqDisable => exact execCqDisable_effectFree
  | cqSync a0 a1 => exact execCqSync_effectFree a0 a1
  | fqInit n fie a0 => exact execFqInit_effectFree rest n fie a0
  | fqTryRead => exact execFqTryRead_effectFree
  | fqDisable => exact execFqDisable_effectFree
  | pteDecode | ptInit | cqStatus | cqClear | fqStatus | fqClear | fqrDecode | fence =>
    exact effectFree_result (codes := allRefusalCodes)
  | iotinvalVma | iotinvalGvma | iofenceC | iodirInvalDdt => cases request

end Sys2Proof.Machine
end

section
/-! PROOFS. O18. -/

namespace Sys2Proof.Machine

/-- Settles O18: a request operation that ends with a status of R503's first list was refused by a check, in the state
it began in. -/
theorem refusalLeavesNoEffect : Obligations.RefusalLeavesNoEffect := by
  intro i s t request rest e idle listed
  have refused := (exec_effectFree i request rest).refused t e idle (mem_refusals listed)
  have res : t.res = ⟨t.res.status, 0, 0, 0, 0, 0, 0, 0, 0⟩ := congrArg State.res refused
  rw [← res] at refused
  exact ⟨refused, res⟩

end Sys2Proof.Machine
end
